-- ==== Sys2Proof/Word.lean ====
section
/-! DEFINITION. The widths of spec/00_scope.md (R6, R7): bytes, halves, words, doubles, and the
codes that fields of an instruction hold. -/

namespace Sys2Proof

/-- 8 bits (R7). -/
abbrev Byte := BitVec 8
/-- 16 bits (R7). -/
abbrev Half := BitVec 16
/-- 32 bits (R7): a lane register, an element register, a slot word. -/
abbrev Word := BitVec 32
/-- 64 bits (R7): a uniform register, an instruction word of T-form and V-form. -/
abbrev Dbl := BitVec 64
/-- One bit for each lane of a workgroup: lane `l` of TG `g` is bit `32 g + l` (R16, R29). -/
abbrev Mask := BitVec 512
/-- A 9-bit operand code (R67). -/
abbrev Opnd := BitVec 9

end Sys2Proof
end

