-- ==== Sys2Proof/Syntax.lean ====
section
/-! DEFINITION. The instruction set whole: one constructor per row of spec/opcode_table.json. The T-form
and V-form instructions carry the fields of their format (spec/03_assembly_and_formats.md, R77 to
R83), a slot operation those of a slot word (R217), an event the names of the units it acts on. -/

namespace Sys2Proof

/-- Format A (R77). -/
structure FmtA where
  g : BitVec 4
  d : Opnd
  a : Opnd
  b : Opnd
  c : Opnd
  ty : BitVec 4
  mod : BitVec 4
  sub : BitVec 4
  deriving DecidableEq, Repr

/-- Format I (R78). -/
structure FmtI where
  g : BitVec 4
  d : Opnd
  a : Opnd
  subi : BitVec 2
  imm : Word
  deriving DecidableEq, Repr

/-- Format M (R79). -/
structure FmtM where
  g : BitVec 4
  d : Opnd
  a : Opnd
  x : Opnd
  xs : BitVec 2
  scope : BitVec 3
  ord : BitVec 2
  ty : BitVec 4
  sp : BitVec 2
  off : BitVec 12
  deriving DecidableEq, Repr

/-- Format MA (R80). -/
structure FmtMA where
  g : BitVec 4
  d : Opnd
  a : Opnd
  b : Opnd
  c : Opnd
  ty : BitVec 4
  aop : BitVec 4
  scope : BitVec 3
  ord : BitVec 2
  sp : BitVec 2
  nr : BitVec 1
  deriving DecidableEq, Repr

/-- Format B (R81). -/
structure FmtB where
  g : BitVec 4
  a : Opnd
  j : BitVec 4
  ks : BitVec 3
  sub : BitVec 4
  tgt : Word
  deriving DecidableEq, Repr

/-- Format X (R82), as the matrix opcodes read it. -/
structure FmtX where
  g : BitVec 4
  a : Opnd
  b : Opnd
  c : Opnd
  z : BitVec 3
  acc : BitVec 1
  ta : BitVec 4
  tb : BitVec 4
  sh : BitVec 4
  cba : BitVec 3
  cbb : BitVec 3
  sc : BitVec 1
  rz : BitVec 2
  deriving DecidableEq, Repr

/-- Format X as the transfer opcodes read it: bits [42:39] are the channel tag, [63:43] reserved
(R82, R181). -/
structure FmtC where
  g : BitVec 4
  a : Opnd
  b : Opnd
  c : Opnd
  ch : BitVec 4
  rz : BitVec 21
  deriving DecidableEq, Repr

/-- Format S (R83). -/
structure FmtS where
  g : BitVec 4
  d : Opnd
  a : Opnd
  sreg : BitVec 12
  imm : BitVec 22
  deriving DecidableEq, Repr

/-- A slot instruction word less its operation code (R217). -/
structure FmtSlot where
  dq : BitVec 2
  pw : BitVec 1
  pd : BitVec 3
  ta : BitVec 4
  db : BitVec 4
  da : BitVec 4
  sb : BitVec 4
  sa : BitVec 4
  deriving DecidableEq, Repr

/-- Who holds a declared phase and a throttle: a workgroup, or in S-form its launch (R206, R207). -/
inductive PhaseOwner where
  | workgroup (wid : Nat)
  | launch (lid : Nat)
  deriving DecidableEq, Repr

/-- What a register write from outside names: a management-window address, or a register of a core
that the debug port writes (R318, R334, R337, R339). -/
inductive RegTarget where
  | window (addr : Nat)
  | breakpoint (core n : Nat)
  | watchpoint (core n : Nat)
  | debugControl (core : Nat)
  | mailbox (core n : Nat)
  deriving DecidableEq, Repr

/-- A word that a peer module sends for a DSP 3 transfer (R329, R438). -/
structure PeerWord where
  bind : BitVec 16
  member : Nat
  tag : Nat
  /-- its four bytes with their scratchpad addresses -/
  bytes : List (Nat × Byte)
  deriving DecidableEq, Repr

/-- What a peer does to this module's memory (R390, R408). -/
inductive PeerAccess where
  | read (bytes : Nat)
  | write (data : List Byte)
  deriving DecidableEq, Repr

/-- What a host access names, behind the mapping of the functions' BARs (R326, R439, R440). -/
inductive HostPlace where
  /-- module memory, by physical address -/
  | memory (addr : Nat)
  /-- BAR0 of virtual function `part` + 1: the queue table of the partition -/
  | queueTable (part offset : Nat)
  /-- BAR0 of physical function 0: module status -/
  | status (offset : Nat)
  /-- BAR2 of physical function 0: the staging SRAM, in recovery -/
  | staging (offset : Nat)
  /-- configuration space (R331) -/
  | configuration (offset : Nat)
  deriving DecidableEq, Repr

/-- One image that the boot ROM or the first stage verifies (R331, R440). -/
structure BootImage where
  data : List Byte
  version : Nat
  readable : Bool
  deriving DecidableEq, Repr

/-- The image that the host has staged: how many bytes from the start of the staging SRAM on, and its version (R440). -/
structure StagedImage where
  bytes : Nat
  version : Nat
  deriving DecidableEq, Repr

/-- What a soft error strikes (R406, R408). -/
inductive ErrorTarget where
  | memory (addr : Nat)
  | scratchpad (wid addr : Nat)
  | laneReg (wid lane reg : Nat)
  /-- word 2n + h of the uniform registers: half h of sn -/
  | uniformReg (wid tix word : Nat)
  | predicate (wid tg reg : Nat)
  | joinReg (wid tix reg : Nat)
  | tile (wid z element : Nat)
  | codebook (wid slot : Nat)
  /-- scratchpad, accumulator tiles and codebook slots of a tile in S-form -/
  | tileScratchpad (lid tile addr : Nat)
  | tileElement (lid tile z element : Nat)
  | tileCodebook (lid tile slot : Nat)
  /-- a sector of a core's L1, or of its coalescing buffer -/
  | l1 (core addr : Nat)
  | coalescing (core addr : Nat)
  /-- a word of a lane's transaction log -/
  | transaction (wid lane addr : Nat)
  deriving DecidableEq, Repr

/-- One constructor per row of spec/opcode_table.json. -/
inductive Instr where
  /-- NOP (R95). Changes no state other than the PC. -/
  | nop (f : FmtA)
  /-- ADD (R125). Integer add per element, wrapping or saturating. -/
  | add (f : FmtA)
  /-- SUB (R125). Integer subtract per element, wrapping or saturating. -/
  | sub (f : FmtA)
  /-- MUL (R125). Integer multiply per element, low result or saturated. -/
  | mul (f : FmtA)
  /-- MULHI (R125). High half of the exact integer product. -/
  | mulhi (f : FmtA)
  /-- MAD (R125). Integer multiply-add, rounded once as a whole. -/
  | mad (f : FmtA)
  /-- DIV (R125). Integer quotient, with the fixed results for division by zero and overflow. -/
  | div (f : FmtA)
  /-- REM (R125). Integer remainder, with the fixed results for division by zero and overflow. -/
  | rem (f : FmtA)
  /-- MIN (R125). Smaller of two integers per element. -/
  | min (f : FmtA)
  /-- MAX (R125). Larger of two integers per element. -/
  | max (f : FmtA)
  /-- ABS (R125). Integer absolute value per element. -/
  | abs (f : FmtA)
  /-- NEG (R125). Integer negation per element. -/
  | neg (f : FmtA)
  /-- AND (R125). Bitwise AND. -/
  | and (f : FmtA)
  /-- OR (R125). Bitwise OR. -/
  | or (f : FmtA)
  /-- XOR (R125). Bitwise XOR. -/
  | xor (f : FmtA)
  /-- ANDN (R125). Bitwise A AND NOT B. -/
  | andn (f : FmtA)
  /-- NOT (R125). Bitwise NOT. -/
  | not (f : FmtA)
  /-- SHL (R125). Shift left with the count reduced to the element width. -/
  | shl (f : FmtA)
  /-- SHR (R125). Logical shift right. -/
  | shr (f : FmtA)
  /-- SAR (R125). Arithmetic shift right. -/
  | sar (f : FmtA)
  /-- ROL (R125). Rotate left. -/
  | rol (f : FmtA)
  /-- BFE (R126). Bit-field extract, signed or unsigned. -/
  | bfe (f : FmtA)
  /-- BFI (R126). Bit-field insert. -/
  | bfi (f : FmtA)
  /-- POPC (R126). Count of set bits. -/
  | popc (f : FmtA)
  /-- CLZ (R126). Count of leading zeros. -/
  | clz (f : FmtA)
  /-- CTZ (R126). Count of trailing zeros. -/
  | ctz (f : FmtA)
  /-- BREV (R126). Bit reversal. -/
  | brev (f : FmtA)
  /-- SEL (R126). Selects A or B per lane by a predicate. -/
  | sel (f : FmtA)
  /-- MOV (R126). Copies a source to the destination. -/
  | mov (f : FmtA)
  /-- CMP (R126). Integer compare writing 1 or 0, or a predicate. -/
  | cmp (f : FmtA)
  /-- MOVI (R127). Loads a sign-extended 32-bit immediate. -/
  | movi (f : FmtI)
  /-- MOVI_LABEL (R127). Loads a label's offset from the image base. -/
  | moviLabel (f : FmtI)
  /-- MOVHI (R127). Writes the high 32 bits of an s register or register pair. -/
  | movhi (f : FmtI)
  /-- ADDI (R127). Adds a sign-extended immediate. -/
  | addi (f : FmtI)
  /-- ANDI (R127). ANDs with a sign-extended immediate. -/
  | andi (f : FmtI)
  /-- ORI (R127). ORs with a sign-extended immediate. -/
  | ori (f : FmtI)
  /-- XORI (R127). XORs with a sign-extended immediate. -/
  | xori (f : FmtI)
  /-- CMPI_SIGNED (R127). Signed compare with an immediate (opcode 0x26). -/
  | cmpiSigned (f : FmtI)
  /-- CMPI_UNSIGNED (R127). Unsigned compare with an immediate (opcode 0x27). -/
  | cmpiUnsigned (f : FmtI)
  /-- CMPI_EQUALITY (R127). Equality or inequality compare with an immediate (opcode 0x28). -/
  | cmpiEquality (f : FmtI)
  /-- LEA (R127). Forms the virtual address of a label in the kernel's own image. -/
  | lea (f : FmtI)
  /-- PAND (R128). Predicate AND. -/
  | pand (f : FmtA)
  /-- POR (R128). Predicate OR. -/
  | por (f : FmtA)
  /-- PXOR (R128). Predicate XOR. -/
  | pxor (f : FmtA)
  /-- PNOT (R128). Predicate NOT. -/
  | pnot (f : FmtA)
  /-- SHFL (R153). Gives each lane of the participating set the value of A in a source lane. -/
  | shfl (f : FmtA)
  /-- VOTE (R154). Any, all or ballot of a predicate over the participating set. -/
  | vote (f : FmtA)
  /-- REDUX (R155). Reduction over the participating set in ascending lane order. -/
  | redux (f : FmtA)
  /-- BCAST (R156). Broadcasts A from the lane named by a uniform index. -/
  | bcast (f : FmtA)
  /-- POPK (R157). Counts the lanes of the participating set where a predicate holds. -/
  | popk (f : FmtA)
  /-- FADD (R144). Floating-point add, rounded once. -/
  | fadd (f : FmtA)
  /-- FSUB (R144). Floating-point subtract, rounded once. -/
  | fsub (f : FmtA)
  /-- FMUL (R144). Floating-point multiply, rounded once. -/
  | fmul (f : FmtA)
  /-- FMA (R144). Fused multiply-add, rounded once. -/
  | fma (f : FmtA)
  /-- FDIV (R144). f32 division with the special cases of R118. -/
  | fdiv (f : FmtA)
  /-- FMIN (R145). Floating-point minimum with -0 below +0. -/
  | fmin (f : FmtA)
  /-- FMAX (R145). Floating-point maximum with -0 below +0. -/
  | fmax (f : FmtA)
  /-- FABS (R145). Clears the sign bit. -/
  | fabs (f : FmtA)
  /-- FNEG (R145). Inverts the sign bit. -/
  | fneg (f : FmtA)
  /-- FCMP (R146). Floating-point compare, including the unordered and ordered conditions. -/
  | fcmp (f : FmtA)
  /-- FRCP (R147). f32 reciprocal. -/
  | frcp (f : FmtA)
  /-- FRSQ (R147). f32 reciprocal square root. -/
  | frsq (f : FmtA)
  /-- FSQRT (R147). f32 square root. -/
  | fsqrt (f : FmtA)
  /-- FEXP2 (R147). f32 base-2 exponential. -/
  | fexp2 (f : FmtA)
  /-- FLOG2 (R147). f32 base-2 logarithm. -/
  | flog2 (f : FmtA)
  /-- FSINPI (R147). f32 sin(pi x). -/
  | fsinpi (f : FmtA)
  /-- FCOSPI (R147). f32 cos(pi x). -/
  | fcospi (f : FmtA)
  /-- FTANH (R147). f32 hyperbolic tangent. -/
  | ftanh (f : FmtA)
  /-- CVT (R148). Converts between numeric types, with keyed stochastic rounding when asked. -/
  | cvt (f : FmtA)
  /-- PACK (R149). Builds a packed value from A, B and the elements of C. -/
  | pack (f : FmtA)
  /-- UNPACK (R150). Widens one element of a packed value exactly. -/
  | unpack (f : FmtA)
  /-- DOT2 (R151). Two-element dot product plus C, rounded once. -/
  | dot2 (f : FmtA)
  /-- DOT4 (R151). Four-element dot product plus C, rounded once or exact for integers. -/
  | dot4 (f : FmtA)
  /-- LD (R161). Loads from global memory or the scratchpad with the order and scope given. -/
  | ld (f : FmtM)
  /-- LOAD_VALUE_RETURN (R444). A load in flight writes its destination when its value returns, even while its path is not running. -/
  | loadValueReturn (wid tix fid : Nat)
  /-- ST (R161). Stores to global memory or the scratchpad with the order and scope given. -/
  | st (f : FmtM)
  /-- ATOM (R163). Atomic read-modify-write returning the old value. -/
  | atom (f : FmtMA)
  /-- RED (R163). Atomic read-modify-write returning no value. -/
  | red (f : FmtMA)
  /-- PREFETCH (R166). Brings lines into L1 and L2 and is never a fault. -/
  | prefetch (f : FmtM)
  /-- CCTL_FLUSH (R167). Release at gang scope limited to a byte range. -/
  | cctlFlush (f : FmtA)
  /-- CCTL_INV (R167). Acquire at gang scope limited to a byte range, invalidating L1 lines. -/
  | cctlInv (f : FmtA)
  /-- FENCE (R165). Acquire, release or acquire-release fence at a scope. -/
  | fence (f : FmtM)
  /-- BAR_INIT (R170). Sets a scratchpad barrier's count and arms it. -/
  | barInit (f : FmtA)
  /-- BAR_ARRIVE (R169). Arrival of the passing lanes at a scratchpad barrier, returning the token. -/
  | barArrive (f : FmtA)
  /-- BAR_WAIT (R170). Waits until the wait on a token ends. -/
  | barWait (f : FmtA)
  /-- BAR_SYNC (R170). Arrives and waits on the returned token. -/
  | barSync (f : FmtA)
  /-- GBAR (R171). Drains the coalescing buffer and arrives at a global barrier object at its slice, then waits. -/
  | gbar (f : FmtM)
  /-- GBAR_PHASE_COMPLETE (R171). The home slice's answer ends a gang-barrier wait, and the core invalidates its global L1 lines. -/
  | gbarPhaseComplete (wid tix lane : Nat)
  /-- TXBEGIN (R172). Begins or nests a per-lane transaction, or queues the lane for the progress token. -/
  | txbegin (f : FmtB)
  /-- TXEND (R174). Decrements depth or starts each depth-1 lane's commit, then waits for the path. -/
  | txend (f : FmtA)
  /-- TX_COMMIT (R282). A lane's commit locks, validates, and writes or aborts. -/
  | txCommit (wid lane : Nat)
  /-- COMMIT_LOCK_TIMEOUT (R282). After 256 cycles without all its locks, a commit frees them and starts again once the refused lock is freed. -/
  | commitLockTimeout (wid lane : Nat)
  /-- TXABORT (R176). Aborts the passing lanes that are inside a transaction with class 2. -/
  | txabort (f : FmtA)
  /-- TXTEST (R176). Writes each lane's transaction status. -/
  | txtest (f : FmtA)
  /-- TX_WATCHDOG (R414). 65,536 cycles inside a transaction abort the lane with class 7. -/
  | txWatchdog (wid lane : Nat)
  /-- BRA (R131). Uniform, any or all branch on the guard. -/
  | bra (f : FmtB)
  /-- SPLIT (R132). Records the active mask and divides the path by a predicate. -/
  | split (f : FmtB)
  /-- JOIN (R133). Waits until every lane of the join mask has arrived or exited, then rejoins them. -/
  | join (f : FmtB)
  /-- CALL (R134). Pushes the return address and branches. -/
  | call (f : FmtB)
  /-- RET (R134). Pops the return stack and branches to it. -/
  | ret (f : FmtB)
  /-- YIELD (R135). Ends the path's turn. -/
  | yield (f : FmtB)
  /-- SLEEP (R135). Waits a uniform number of cycles. -/
  | sleep (f : FmtB)
  /-- SLEEP_EXPIRE (R135). The sleep count elapses and the path becomes ready. -/
  | sleepExpire (wid tix lane : Nat)
  /-- EXIT (R136). Removes the passing lanes for good; the path ends when none remains. -/
  | exit (f : FmtB)
  /-- WORKGROUP_RETIRE (R25). Once its engines finish, a workgroup releases its stores at partition scope and frees its resources. -/
  | workgroupRetire (wid : Nat)
  /-- MMA (R184). Queues a matrix product into an accumulator tile. -/
  | mma (f : FmtX)
  /-- ZLD (R186). Loads a tile from the scratchpad. -/
  | zld (f : FmtX)
  /-- ZST (R186). Stores a tile to the scratchpad. -/
  | zst (f : FmtX)
  /-- ZRD (R186). Reads one tile row into lane registers. -/
  | zrd (f : FmtX)
  /-- ZWR (R186). Writes one tile row from lane registers. -/
  | zwr (f : FmtX)
  /-- ZCLR (R186). Clears a tile. -/
  | zclr (f : FmtX)
  /-- CBLD (R187). Loads a codebook slot from the scratchpad. -/
  | cbld (f : FmtX)
  /-- MATRIX_TOKEN_COMPLETE (R180). The matrix unit finishes a queued token and starts the next, or fails on uncorrectable data. -/
  | matrixTokenComplete (wid : Nat)
  /-- XFER (R193). Checks a descriptor, adds W to a channel tag and starts a transfer. -/
  | xfer (f : FmtC)
  /-- TRANSFER_WORD_LAND (R192). A transferred word lands and decrements its tag, possibly ending waits. -/
  | transferWordLand (xid pick : Nat)
  /-- TRANSFER_ACK (R192). A receiver's acknowledgement decrements the sender's tag. -/
  | transferAck (xid : Nat)
  /-- PEER_WORD_RECEIVE (R438). A word from a peer is delivered to the bound launch, held, or refused. -/
  | peerWordReceive (word : PeerWord)
  /-- TRANSFER_STOP (R410). Once the earlier groups have landed, a faulting transfer drops its count and sets FAULT. -/
  | transferStop (xid : Nat)
  /-- EXPECT (R194). Adds a count to a channel tag, releasing held words. -/
  | expect (f : FmtC)
  /-- WAITC (R195). Waits until a channel tag's count is zero. -/
  | waitc (f : FmtC)
  /-- XSTAT (R196). Reads a channel tag's status. -/
  | xstat (f : FmtC)
  /-- PHASE (R205). Declares a workgroup's matrix burst. -/
  | phase (f : FmtI)
  /-- PHASE_CLR (R206). Ends the workgroup's declared phase. -/
  | phaseClr (f : FmtI)
  /-- PHASE_ONSET (R205). A declared burst starts at its onset. -/
  | phaseOnset (owner : PhaseOwner)
  /-- PHASE_BURST_END (R206). A burst ends when its length has elapsed. -/
  | phaseBurstEnd (owner : PhaseOwner)
  /-- REGULATOR_VOLTAGE_READY (R308). The region voltage reaches the declared level, ending the extra step. -/
  | regulatorVoltageReady (region : Nat)
  /-- GETSR (R199). Reads a system register. -/
  | getsr (f : FmtS)
  /-- SETSR (R199). Writes a system register, with its side effects. -/
  | setsr (f : FmtS)
  /-- TRAP (R208). Traps the passing lanes with SOFTWARE_TRAP. -/
  | trap (f : FmtS)
  /-- BRK (R208). Traps the passing lanes with BREAKPOINT. -/
  | brk (f : FmtS)
  /-- RETT (R363). Ends trap mode and re-issues the trapping instruction for the undone lanes. -/
  | rett (f : FmtS)
  /-- RETT_NEXT (R363). Ends trap mode and continues after the trapping instruction. -/
  | rettNext (f : FmtS)
  /-- EQP (R44). Marks an equivalence point and waits while a hop is pending. -/
  | eqp (f : FmtS)
  /-- EQP_WAIT_LIMIT (R44). After 4,096 cycles the waiting TGs pass the point without a hop. -/
  | eqpWaitLimit (wid : Nat)
  /-- HOP (R138). Proposes a hop to the named form. -/
  | hop (f : FmtS)
  /-- LAUNCH (R139). Writes one child launch packet per passing lane into a queue. -/
  | launch (f : FmtS)
  /-- S_NOP (R222). Spatial firing that dequeues, tags and writes its predicate but sends nothing. -/
  | sNop (f : FmtSlot)
  /-- S_MOV (R222). Spatial move of A. -/
  | sMov (f : FmtSlot)
  /-- S_ADD (R222). Spatial integer add at ITY. -/
  | sAdd (f : FmtSlot)
  /-- S_SUB (R222). Spatial integer subtract at ITY. -/
  | sSub (f : FmtSlot)
  /-- S_MUL (R222). Spatial integer multiply at ITY. -/
  | sMul (f : FmtSlot)
  /-- S_MULHI (R222). Spatial high product. -/
  | sMulhi (f : FmtSlot)
  /-- S_MIN (R222). Spatial integer minimum. -/
  | sMin (f : FmtSlot)
  /-- S_MAX (R222). Spatial integer maximum. -/
  | sMax (f : FmtSlot)
  /-- S_ABS (R222). Spatial integer absolute value. -/
  | sAbs (f : FmtSlot)
  /-- S_NEG (R222). Spatial integer negation. -/
  | sNeg (f : FmtSlot)
  /-- S_AND (R222). Spatial bitwise AND. -/
  | sAnd (f : FmtSlot)
  /-- S_OR (R222). Spatial bitwise OR. -/
  | sOr (f : FmtSlot)
  /-- S_XOR (R222). Spatial bitwise XOR. -/
  | sXor (f : FmtSlot)
  /-- S_ANDN (R222). Spatial A AND NOT B. -/
  | sAndn (f : FmtSlot)
  /-- S_NOT (R222). Spatial bitwise NOT. -/
  | sNot (f : FmtSlot)
  /-- S_SHL (R222). Spatial shift left. -/
  | sShl (f : FmtSlot)
  /-- S_SHR (R222). Spatial logical shift right. -/
  | sShr (f : FmtSlot)
  /-- S_SAR (R222). Spatial arithmetic shift right. -/
  | sSar (f : FmtSlot)
  /-- S_POPC (R222). Spatial population count. -/
  | sPopc (f : FmtSlot)
  /-- S_CLZ (R222). Spatial leading-zero count. -/
  | sClz (f : FmtSlot)
  /-- S_CMPEQ (R222). Spatial equality compare. -/
  | sCmpeq (f : FmtSlot)
  /-- S_CMPNE (R222). Spatial inequality compare. -/
  | sCmpne (f : FmtSlot)
  /-- S_CMPLT (R222). Spatial signed less-than compare. -/
  | sCmplt (f : FmtSlot)
  /-- S_CMPLE (R222). Spatial signed less-or-equal compare. -/
  | sCmple (f : FmtSlot)
  /-- S_CMPLTU (R222). Spatial unsigned less-than compare. -/
  | sCmpltu (f : FmtSlot)
  /-- S_CMPLEU (R222). Spatial unsigned less-or-equal compare. -/
  | sCmpleu (f : FmtSlot)
  /-- S_DIV (R222). Spatial integer division. -/
  | sDiv (f : FmtSlot)
  /-- S_REM (R222). Spatial integer remainder. -/
  | sRem (f : FmtSlot)
  /-- S_FADD (R222). Spatial floating add at FTY in mode RM. -/
  | sFadd (f : FmtSlot)
  /-- S_FSUB (R222). Spatial floating subtract. -/
  | sFsub (f : FmtSlot)
  /-- S_FMUL (R222). Spatial floating multiply. -/
  | sFmul (f : FmtSlot)
  /-- S_FMIN (R222). Spatial floating minimum. -/
  | sFmin (f : FmtSlot)
  /-- S_FMAX (R222). Spatial floating maximum. -/
  | sFmax (f : FmtSlot)
  /-- S_FABS (R222). Spatial floating absolute value. -/
  | sFabs (f : FmtSlot)
  /-- S_FNEG (R222). Spatial floating negation. -/
  | sFneg (f : FmtSlot)
  /-- S_FCMPEQ (R222). Spatial f32 equality compare. -/
  | sFcmpeq (f : FmtSlot)
  /-- S_FCMPLT (R222). Spatial f32 less-than compare. -/
  | sFcmplt (f : FmtSlot)
  /-- S_FCMPLE (R222). Spatial f32 less-or-equal compare. -/
  | sFcmple (f : FmtSlot)
  /-- S_FRCP (R222). Spatial f32 reciprocal. -/
  | sFrcp (f : FmtSlot)
  /-- S_FRSQ (R222). Spatial f32 reciprocal square root. -/
  | sFrsq (f : FmtSlot)
  /-- S_FSQRT (R222). Spatial f32 square root. -/
  | sFsqrt (f : FmtSlot)
  /-- S_FEXP2 (R222). Spatial f32 base-2 exponential. -/
  | sFexp2 (f : FmtSlot)
  /-- S_FLOG2 (R222). Spatial f32 base-2 logarithm. -/
  | sFlog2 (f : FmtSlot)
  /-- S_FTANH (R222). Spatial f32 hyperbolic tangent. -/
  | sFtanh (f : FmtSlot)
  /-- S_CVTFI (R222). Spatial f32 to i32 conversion. -/
  | sCvtfi (f : FmtSlot)
  /-- S_CVTIF (R222). Spatial i32 to f32 conversion. -/
  | sCvtif (f : FmtSlot)
  /-- S_FDIV (R222). Spatial f32 division. -/
  | sFdiv (f : FmtSlot)
  /-- S_MARK (R222). Spatial copy of A with the end mark taken from B[3:0]. -/
  | sMark (f : FmtSlot)
  /-- STAGING_SEND (R225). An out-port staging register sends its packet once every destination can accept it. -/
  | stagingSend (lid tile unit out : Nat)
  /-- ROUTER_PACKET (R226). A router takes an inter-tile packet and forwards or delivers it by its route class. -/
  | routerPacket (lid tile dir : Nat)
  /-- ROUTER_CREDIT_RETURN (R313). In a hot region, a held channel credit returns after SLOTDLY region cycles. -/
  | routerCreditReturn (lid tile : Nat)
  /-- UNIT_MARKER_PASS (R214). A unit with markers at all connected inputs removes them, stops firing and emits one marker per output. -/
  | unitMarkerPass (lid tile unit : Nat)
  /-- STEER_FIRE (R229). A steer routes a data token by its predicate and pushes an index FIFO entry. -/
  | steerFire (lid tile unit : Nat)
  /-- MERGE_WINDOW_TAKE (R230). A merge takes an arm token into its reorder window. -/
  | mergeWindowTake (lid tile unit : Nat)
  /-- MERGE_EMIT (R230). A merge emits the head FIFO entry's token and pops the entry. -/
  | mergeEmit (lid tile unit : Nat)
  /-- REPEAT_STORE (R231). A repeat node stores an arriving token into its block. -/
  | repeatStore (lid tile : Nat)
  /-- REPEAT_EMIT (R231). A repeat node takes a count token and emits its block that many times. -/
  | repeatEmit (lid tile : Nat)
  /-- ADDRESS_GENERATOR_OFFSET (R232). An address generator emits the next offset of its pass, starting a gated pass on an in0 token. -/
  | addressGeneratorOffset (lid tile unit : Nat)
  /-- MEMORY_NODE_ACCESS (R233). A memory node performs a load or store for an offset token. -/
  | memoryNodeAccess (lid tile unit : Nat)
  /-- MEMORY_NODE_COMPLETION (R233). Once its access is performed at its scope, a memory node sends its completion token. -/
  | memoryNodeCompletion (lid tile unit : Nat)
  /-- MATRIX_NODE_CONTROL (R235). A matrix node performs the instruction that a control token names. -/
  | matrixNodeControl (lid tile : Nat)
  /-- OWNER_UPDATE (R236). An owner node applies an update pair to its scratchpad range. -/
  | ownerUpdate (lid tile : Nat)
  /-- TRANSFER_PORT_DESCRIPTOR (R237). A transfer port takes 16 tokens as a descriptor and starts a transfer. -/
  | transferPortDescriptor (lid tile : Nat)
  /-- TRANSFER_PORT_EXPECT (R237). A transfer port adds an in1 token's data to a tag as expect does. -/
  | transferPortExpect (lid tile : Nat)
  /-- FABRIC_LOAD_COMPLETE (R238). A load whose SINKs have finished end-mark-15 work completes, and the next load of the graph begins. -/
  | fabricLoadComplete (lid : Nat)
  /-- FREEZE_RUNDOWN_END (R417). After 64 region cycles without movement, a faulting load stops firing and takes its read-out. -/
  | freezeRundownEnd (lid : Nat)
  /-- FABRIC_STALLED (R420). 4,096 region cycles without movement freeze an incomplete load and escalate. -/
  | fabricStalled (lid : Nat)
  /-- FAULT_EXTRACTION (R403). Once every record stands at a position, the controller extracts them and the launch continues in T-form. -/
  | faultExtraction (lid : Nat)
  /-- FAIRNESS_TIMER_EXPIRE (R444). The running path's turn ends after FAIRT cycles and the next ready path runs. -/
  | fairnessTimerExpire (wid tix : Nat)
  /-- FAIRNESS_OVERRIDE (R28). A ready TG that has not issued for FAIRT cycles takes its half's next issue slot. -/
  | fairnessOverride (wid tix : Nat)
  /-- ISSUE_CYCLE (R301). Each half issues one instruction from a ready TG chosen by priority and age. -/
  | issueCycle
  /-- COALESCING_ENTRY_AGE_DRAIN (R250). An entry whose first store is 4,096 cycles old drains to its slice. -/
  | coalescingEntryAgeDrain (core line : Nat)
  /-- PERCOLATOR_INTERVAL_END (R54). At the end of each interval the Percolator refines estimates and may propose a hop. -/
  | percolatorIntervalEnd (lid region measured : Nat)
  /-- HOP_T_TO_V_COMPLETE (R56). A T-to-V hop completes 16 cycles after the last TG reaches the point. -/
  | hopTToVComplete (wid : Nat)
  /-- HOP_V_TO_T_COMPLETE (R56). A V-to-T hop completes in 16 cycles, creating the TGs at CPC. -/
  | hopVToTComplete (wid : Nat)
  /-- HOP_INTO_S_ARRIVE (R57). A workgroup arriving at the launch point saves its state and frees its core. -/
  | hopIntoSArrive (wid : Nat)
  /-- HOP_INTO_S_ABANDON (R59). The 65,536-cycle or 4,096-cycle wait limits abandon a hop into S-form and re-place the parked workgroups. -/
  | hopIntoSAbandon (lid : Nat)
  /-- HOP_RECTANGLE_TIMEOUT (R399). No free rectangle within 4,096 cycles abandons the hop into S-form. -/
  | hopRectangleTimeout (lid : Nat)
  /-- FABRIC_LOAD_STREAM (R300). The strip streams a load to a rectangle, writes steer STARTs and waits for acknowledgements. -/
  | fabricLoadStream (lid : Nat)
  /-- GATES_OPEN (R57). Once every tile has acknowledged and the map is applied, the input gates open. -/
  | gatesOpen (lid : Nat)
  /-- TILE_ACK_TIMEOUT (R427). A tile that does not acknowledge within 4,096 cycles refuses the load or stalls the graph. -/
  | tileAckTimeout (lid : Nat)
  /-- HOP_OUT_OF_S (R58). Markers are injected at every source and the tiles drain up to them. -/
  | hopOutOfS (lid : Nat)
  /-- HOP_OUT_DRAIN_COMPLETE (R58). Once drained, the controller extracts the records and the distributor places the workgroups. -/
  | hopOutDrainComplete (lid : Nat)
  /-- PREEMPTION_TRIGGER (R299). A first launch unplaced for 4,096 cycles pre-empts lower-priority gangs. -/
  | preemptionTrigger (part : Nat)
  /-- DISTRIBUTOR_LIST_BLOCK (R298). A first launch unplaced for 65,536 cycles blocks later launches. -/
  | distributorListBlock (part : Nat)
  /-- GANG_PLACEMENT (R298). The distributor walks its list and begins placing the next gang that fits. -/
  | gangPlacement (part : Nat)
  /-- GANG_PLACEMENT_COMPLETE (R299). A gang placement completes with zero-filled state, and its workgroups may issue. -/
  | gangPlacementComplete (part : Nat)
  /-- LAUNCH_BUDGET (R388). The cycle budget runs out and the launch ends unsaved with an escalation record. -/
  | launchBudget (lid : Nat)
  /-- STRIP_WATCH_WAKE (R291). A write at a watched WRIDX or slot line wakes the strip. -/
  | stripWatchWake (part : Nat)
  /-- STRIP_ARBITRATION (R297). Stage 0 picks the next ready queue by priority and round-robin. -/
  | stripArbitration (part : Nat)
  /-- LAUNCH_PACKET (R210). A LAUNCH packet is consumed, parsed, checked against its image and dispatched. -/
  | launchPacket (part : Nat)
  /-- WAIT_PACKET (R292). A WAIT packet is consumed and parked until its condition holds. -/
  | waitPacket (part : Nat)
  /-- SIGNAL_PACKET (R293). A SIGNAL packet stores or atomically adds to a signal. -/
  | signalPacket (part : Nat)
  /-- COPY_PACKET (R293). A COPY packet moves aligned words from SRC to DST. -/
  | copyPacket (part : Nat)
  /-- WAIT_ALL_PACKET (R292). A WAIT-ALL packet is consumed and parked until earlier packets complete and its signals hold. -/
  | waitAllPacket (part : Nat)
  /-- WAIT_CONDITION_MET (R294). A parked WAIT or WAIT-ALL packet starts and completes when its condition holds. -/
  | waitConditionMet (part queue : Nat)
  /-- PACKET_COMPLETE (R293). Stage 7 performs the after-actions and stores the completion signal. -/
  | packetComplete (part queue index : Nat)
  /-- ESCALATION_RECORD_WRITE (R370). An escalation record is written into the ring when there is room, and the supervisor interrupt is raised. -/
  | escalationRecordWrite (part : Nat)
  /-- PARTITION_APPLY_RESOURCES (R321). CMD 1 checks and applies the partition's resource changes under load. -/
  | partitionApplyResources (part : Nat)
  /-- PARTITION_RESET (R323). CMD 2 resets one partition's contexts, caches and registers. -/
  | partitionReset (part : Nat)
  /-- TRANSLATION_INVALIDATION (R322). CMD 3 invalidates the partition's translations for an ASID or all. -/
  | translationInvalidation (part : Nat)
  /-- BADD (R307). A write of RPCTL.BADD adds to the region's BOOST. -/
  | badd (region : Nat) (amount : Word)
  /-- REGION_STEP_SELECT (R306). Every 4,096 region cycles the controller chooses the region's STEP. -/
  | regionStepSelect (region : Nat)
  /-- THROTTLE_START (R311). A matrix queue in excess is throttled from the next cycle. -/
  | throttleStart (owner : PhaseOwner)
  /-- THROTTLE_END (R311). The throttle ends after 8 microseconds, restarting if still in excess. -/
  | throttleEnd (owner : PhaseOwner)
  /-- ENERGY_INTERVAL_END (R314). At each interval end the region splits its energy among launches and idle accounts. -/
  | energyIntervalEnd (region energy : Nat)
  /-- SHARED_COUNTER_WINDOW (R325). A shared-resource counter window closes and its value becomes readable 2^20 cycles later. -/
  | sharedCounterWindow (part counter used capacity : Nat)
  /-- ESC_RESUME (R372). Escalation command 1 resumes the halted TG as after rett. -/
  | escResume (part record : Nat)
  /-- ESC_RESUME_NEXT (R372). Escalation command 2 resumes the halted TG as after rett.next. -/
  | escResumeNext (part record : Nat)
  /-- ESC_END_LAUNCH (R372). Escalation command 3 ends the launch unsaved without a signal. -/
  | escEndLaunch (part record : Nat)
  /-- REGISTER_WRITE (R11). A write to a register that has no row of its own sets its fields by their access codes. -/
  | registerWrite (target : RegTarget) (value : Dbl)
  /-- POWER_OVERLOAD_RESPONSE (R430). Each ms of average power above 3,200 W raises every sustained step, and below 3,000 W lowers it. -/
  | powerOverloadResponse (above : Bool)
  /-- OVERCURRENT_RESPONSE (R430). Input current above 75 A for 20 microseconds forces STEP 12 or higher. -/
  | overcurrentResponse
  /-- REGION_STOP (R431). Regulator overcurrent or over-temperature stops a region and ends its launches. -/
  | regionStop (region : Nat) (kind : BitVec 2)
  /-- REGION_RESTART (R433). A RESTAT.CLR write restarts a region when no stop condition holds. -/
  | regionRestart (region : Nat) (holds : Bool)
  /-- INPUT_UNDERVOLTAGE (R430). 54 V input below 48 V copies the Carafes to flash and powers off. -/
  | inputUndervoltage
  /-- THERMAL_RESCALE (R324). A stacked-DRAM activation cap rescales bandwidth shares and notifies partitions. -/
  | thermalRescale (die : Nat) (capped : Bool)
  /-- STACKED_DRAM_BYPASS (R434). Above 95 C the slices write back and bypass the stacked cache; below 85 C they use it again. -/
  | stackedDramBypass (die : Nat) (hot : Bool)
  /-- HOST_READ (R272). A host read of module memory is performed at its home slice. -/
  | hostRead (place : HostPlace) (bytes : Nat)
  /-- HOST_WRITE (R272). A host write is performed at its home slice, or discarded if poisoned. -/
  | hostWrite (place : HostPlace) (data : List Byte) (poisoned : Bool)
  /-- HOST_READ_TIMEOUT (R437). A module read of the host window unanswered after 10 ms raises LINK_ERROR. -/
  | hostReadTimeout (wid tix lane : Nat)
  /-- LINK_DOWN (R437). A link that fails to regain L0 within 100 ms is down. -/
  | linkDown
  /-- LINK_UP (R437). The link returns to L0 and later accesses proceed. -/
  | linkUp
  /-- FLR_VF (R437). Function Level Reset of a virtual function acts as a partition reset. -/
  | flrVf (part : Nat)
  /-- FLR_PF0 (R437). Function Level Reset of function 0 resets only module status registers. -/
  | flrPf0
  /-- PEER_PORT_DOWN (R438). A port failing three retrainings in 1 ms goes down and its ranks become unreachable. -/
  | peerPortDown (port : Nat)
  /-- DEBUG_RESUME (R337). The debug port resumes a halted TG with the effect of rett. -/
  | debugResume (core slot : Nat)
  /-- DEBUG_RESUME_NEXT (R337). The debug port resumes a halted TG with the effect of rett.next. -/
  | debugResumeNext (core slot : Nat)
  /-- FREEZE (R345). Freeze asserted at the debug port stops every clock within one cycle. -/
  | freeze
  /-- ATTESTATION_REQUEST (R332). The security engine returns a signed attestation report. -/
  | attestationRequest (part : Nat) (nonce : BitVec 384)
  /-- MODULE_RESET (R10). Module reset returns every field to its reset value, keeping the Carafe. -/
  | moduleReset
  /-- POWER_ON_BOOT (R331). At power-on the module runs its verified boot sequence. -/
  | powerOnBoot (images : List BootImage) (trained strips : Bool)
  /-- RECOVERY_BOOT (R440). A host write of 1 at BAR0 offset 0x8 makes the ROM verify and boot the staged image. -/
  | recoveryBoot (image : StagedImage)
  /-- SOFT_ERROR (R406). A soft error corrupts a stored sector or register word, leaving it correctable or uncorrectable. -/
  | softError (target : ErrorTarget) (uncorrectable : Bool)
  /-- TEMPERATURE_BAND_CHANGE (R306). A region's temperature crosses a band boundary and TBAND takes the new band. -/
  | temperatureBandChange (region : Nat) (band : BitVec 3)
  /-- OVERCURRENT_RELEASE (R430). One ms after input current falls below 75 A, the forced STEP of 12 or higher is lifted. -/
  | overcurrentRelease
  /-- PEER_PORT_UP (R438). A down Ziern link port is retrained and its ranks become reachable again. -/
  | peerPortUp (port : Nat)
  /-- FLIT_CRC_FAILURE (R438). A 64-byte flit fails its CRC and is replayed in order, counting toward retraining. -/
  | flitCrcFailure (port : Nat) (retrainingFails : Bool)
  /-- PEER_MEMORY_ACCESS (R390). A peer's read or write of this module's memory arrives and is performed at its home slice. -/
  | peerMemoryAccess (addr : Nat) (access : PeerAccess)
  deriving DecidableEq, Repr

end Sys2Proof
end

