-- ==== Sys2Proof/Machine/Encoding.lean ====
section
/-! DEFINITION. The encodings of spec/03_assembly_and_formats.md and spec/04_opcode_map.md: the words of
each format, the opcode and sub-operation of each instruction, and what stages 3 and 4 of R375 demand of
the fields of a word. -/

namespace Sys2Proof.Machine

/-! ### The seven formats and the slot word (R77 to R83, R217) -/

def packA (op : BitVec 8) (f : FmtA) : BitVec 64 :=
  0#4 ++ f.sub ++ f.mod ++ f.ty ++ f.c ++ f.b ++ f.a ++ f.d ++ f.g ++ op
def unpackA (w : BitVec 64) : FmtA where
  g := w.extractLsb' 8 4
  d := w.extractLsb' 12 9
  a := w.extractLsb' 21 9
  b := w.extractLsb' 30 9
  c := w.extractLsb' 39 9
  ty := w.extractLsb' 48 4
  mod := w.extractLsb' 52 4
  sub := w.extractLsb' 56 4
def packI (op : BitVec 8) (f : FmtI) : BitVec 64 := f.imm ++ f.subi ++ f.a ++ f.d ++ f.g ++ op
def unpackI (w : BitVec 64) : FmtI where
  g := w.extractLsb' 8 4
  d := w.extractLsb' 12 9
  a := w.extractLsb' 21 9
  subi := w.extractLsb' 30 2
  imm := w.extractLsb' 32 32
def packM (op : BitVec 8) (f : FmtM) : BitVec 64 :=
  f.off ++ f.sp ++ f.ty ++ f.ord ++ f.scope ++ f.xs ++ f.x ++ f.a ++ f.d ++ f.g ++ op
def unpackM (w : BitVec 64) : FmtM where
  g := w.extractLsb' 8 4
  d := w.extractLsb' 12 9
  a := w.extractLsb' 21 9
  x := w.extractLsb' 30 9
  xs := w.extractLsb' 39 2
  scope := w.extractLsb' 41 3
  ord := w.extractLsb' 44 2
  ty := w.extractLsb' 46 4
  sp := w.extractLsb' 50 2
  off := w.extractLsb' 52 12
def packMA (op : BitVec 8) (f : FmtMA) : BitVec 64 :=
  f.nr ++ f.sp ++ f.ord ++ f.scope ++ f.aop ++ f.ty ++ f.c ++ f.b ++ f.a ++ f.d ++ f.g ++ op
def unpackMA (w : BitVec 64) : FmtMA where
  g := w.extractLsb' 8 4
  d := w.extractLsb' 12 9
  a := w.extractLsb' 21 9
  b := w.extractLsb' 30 9
  c := w.extractLsb' 39 9
  ty := w.extractLsb' 48 4
  aop := w.extractLsb' 52 4
  scope := w.extractLsb' 56 3
  ord := w.extractLsb' 59 2
  sp := w.extractLsb' 61 2
  nr := w.extractLsb' 63 1
def packB (op : BitVec 8) (f : FmtB) : BitVec 64 := f.tgt ++ f.sub ++ f.ks ++ f.j ++ f.a ++ f.g ++ op
def unpackB (w : BitVec 64) : FmtB where
  g := w.extractLsb' 8 4
  a := w.extractLsb' 12 9
  j := w.extractLsb' 21 4
  ks := w.extractLsb' 25 3
  sub := w.extractLsb' 28 4
  tgt := w.extractLsb' 32 32
def packX (op : BitVec 8) (f : FmtX) : BitVec 64 :=
  f.rz ++ f.sc ++ f.cbb ++ f.cba ++ f.sh ++ f.tb ++ f.ta ++ f.acc ++ f.z ++ f.c ++ f.b ++ f.a ++ f.g ++ op
def unpackX (w : BitVec 64) : FmtX where
  g := w.extractLsb' 8 4
  a := w.extractLsb' 12 9
  b := w.extractLsb' 21 9
  c := w.extractLsb' 30 9
  z := w.extractLsb' 39 3
  acc := w.extractLsb' 42 1
  ta := w.extractLsb' 43 4
  tb := w.extractLsb' 47 4
  sh := w.extractLsb' 51 4
  cba := w.extractLsb' 55 3
  cbb := w.extractLsb' 58 3
  sc := w.extractLsb' 61 1
  rz := w.extractLsb' 62 2
def packC (op : BitVec 8) (f : FmtC) : BitVec 64 := f.rz ++ f.ch ++ f.c ++ f.b ++ f.a ++ f.g ++ op
def unpackC (w : BitVec 64) : FmtC where
  g := w.extractLsb' 8 4
  a := w.extractLsb' 12 9
  b := w.extractLsb' 21 9
  c := w.extractLsb' 30 9
  ch := w.extractLsb' 39 4
  rz := w.extractLsb' 43 21
def packS (op : BitVec 8) (f : FmtS) : BitVec 64 := f.imm ++ f.sreg ++ f.a ++ f.d ++ f.g ++ op
def unpackS (w : BitVec 64) : FmtS where
  g := w.extractLsb' 8 4
  d := w.extractLsb' 12 9
  a := w.extractLsb' 21 9
  sreg := w.extractLsb' 30 12
  imm := w.extractLsb' 42 22
def packSlot (op : BitVec 6) (f : FmtSlot) : BitVec 32 :=
  f.dq ++ f.pw ++ f.pd ++ f.ta ++ f.db ++ f.da ++ f.sb ++ f.sa ++ op
def unpackSlot (w : BitVec 32) : FmtSlot where
  sa := w.extractLsb' 6 4
  sb := w.extractLsb' 10 4
  da := w.extractLsb' 14 4
  db := w.extractLsb' 18 4
  ta := w.extractLsb' 22 4
  pd := w.extractLsb' 26 3
  pw := w.extractLsb' 29 1
  dq := w.extractLsb' 30 2

/-! ### Stage 3: sub-operation, MOD and compare-condition values (R98 to R100, R125, R126, R144) -/

/-- Whether the SUB, SUBI, AOP and MOD values are assigned, for some type, and are those of this
constructor. -/
def subOk : Instr → Bool
  | .nop _ => true
  | .add f | .sub f | .mul f | .mad f | .abs f | .neg f => (f.mod == 0 || f.mod == 6) && f.sub == 0
  | .cmp f => f.mod.toNat ≤ 5 && f.sub == 0
  | .fadd f | .fsub f | .fmul f | .fma f | .fdiv f | .fcmp f | .frcp f | .frsq f | .fsqrt f | .fexp2 f | .flog2 f | .fsinpi f | .fcospi f | .ftanh f | .pack f | .dot2 f | .dot4 f => f.mod.toNat ≤ 7 && f.sub == 0
  | .cvt f => f.mod.toNat ≤ 7
  | .unpack f => f.mod == 0 && f.sub.toNat ≤ 7
  | .shfl f => f.mod == 0 && f.sub.toNat % 8 ≤ 3
  | .vote f => f.mod == 0 && f.sub.toNat % 8 ≤ 2
  | .redux f => f.mod == 0 && f.sub.toNat % 8 ≤ 5
  | .bcast f | .popk f => f.mod == 0 && f.sub.toNat % 8 = 0
  | .cctlFlush f | .barInit f => f.mod == 0 && f.sub == 0
  | .cctlInv f | .barArrive f => f.mod == 0 && f.sub == 1
  | .barWait f => f.mod == 0 && f.sub == 2
  | .barSync f => f.mod == 0 && f.sub == 3
  | .mulhi f | .div f | .rem f | .min f | .max f | .and f | .or f | .xor f | .andn f | .not f | .shl f | .shr f | .sar f | .rol f | .bfe f | .bfi f | .popc f | .clz f | .ctz f | .brev f | .sel f | .mov f | .pand f | .por f | .pxor f | .pnot f | .fmin f | .fmax f | .fabs f | .fneg f | .txend f | .txabort f | .txtest f => f.mod == 0 && f.sub == 0
  | .movi f | .movhi f | .addi f | .andi f | .ori f | .xori f | .lea f | .phase f => f.subi == 0
  | .moviLabel f | .phaseClr f => f.subi == 1
  | .cmpiSigned _ | .cmpiUnsigned _ => true
  | .cmpiEquality f => f.subi.toNat ≤ 1
  | .atom f => f.aop.toNat ≤ 12 && f.nr == 0
  | .red f => f.aop.toNat ≤ 12 && f.nr == 1
  | .bra f => f.sub.toNat ≤ 2
  | .txbegin f | .split f | .join f | .call f | .ret f | .yield f | .sleep f | .exit f => f.sub == 0
  | .rett f => f.imm.getLsbD 0 == false
  | .rettNext f => f.imm.getLsbD 0 == true
  | _ => true

/-- What R219 and R384 demand of the port and tag fields of a slot word: no reserved destination or tag
action, and not one register twice. -/
def slotOk (f : FmtSlot) : Bool :=
  (f.da.toNat < 10 || f.da == 15) && (f.db.toNat < 10 || f.db == 15) &&
    (f.ta.toNat < 3 || 8 ≤ f.ta.toNat) && !(f.da == f.db && 4 ≤ f.da.toNat && f.da.toNat < 10)

/-! ### Stage 4: fields marked reserved, zero (R130, R137, R172, R174, R181, R199, R205, R208, R209) -/

/-- Whether every field that the instruction's rule marks reserved, zero, holds 0. -/
def reservedOk : Instr → Bool
  | .ld f | .st f => f.sp.toNat ≤ 1
  | .atom f | .red f => f.sp.toNat ≤ 1
  | .txend f => f.g == 0
  | .txbegin f => f.ks == 0 && f.g == 0
  | .bra f => f.j == 0 && f.ks == 0
  | .split f => f.g == 0
  | .join f => f.ks == 0 && f.tgt == 0 && f.g == 0
  | .call f => f.j == 0 && f.ks == 0 && f.g == 0
  | .ret f | .yield f | .sleep f => f.j == 0 && f.ks == 0 && f.tgt == 0 && f.g == 0
  | .exit f => f.j == 0 && f.ks == 0 && f.tgt == 0
  | .mma f => f.rz == 0 && (f.ta == 0xC || f.cba == 0) && (f.tb == 0xC || f.cbb == 0)
  | .zld f | .zst f => f.rz == 0 && f.acc == 0 && f.tb == 0 && f.sh == 0 && f.cba == 0 && f.cbb == 0 && f.sc == 0
  | .zrd f | .zwr f | .zclr f =>
    f.rz == 0 && f.acc == 0 && f.ta == 0 && f.tb == 0 && f.sh == 0 && f.cba == 0 && f.cbb == 0 && f.sc == 0
  | .cbld f => f.rz == 0 && f.z == 0 && f.acc == 0 && f.ta == 0 && f.tb == 0 && f.sh == 0 && f.cbb == 0 && f.sc == 0
  | .xfer f | .expect f | .waitc f | .xstat f => f.rz == 0
  | .phase f => f.imm.extractLsb' 18 14 == 0
  | .phaseClr f => f.imm == 0
  | .getsr f | .setsr f => f.imm.extractLsb' 1 21 == 0
  | .trap f | .brk f => f.imm.extractLsb' 16 6 == 0
  | .rett f | .rettNext f => f.imm.extractLsb' 1 21 == 0 && f.g == 0
  | .eqp f => f.sreg == 0 && f.imm.extractLsb' 16 6 == 0 && f.g == 0
  | .hop f => f.sreg == 0 && f.imm.extractLsb' 2 20 == 0 && f.g == 0
  | .launch f => f.sreg == 0 && f.imm.extractLsb' 8 14 == 0
  | .sNop f | .sMov f | .sAdd f | .sSub f | .sMul f | .sMulhi f | .sMin f | .sMax f
  | .sAbs f | .sNeg f | .sAnd f | .sOr f | .sXor f | .sAndn f | .sNot f | .sShl f
  | .sShr f | .sSar f | .sPopc f | .sClz f | .sCmpeq f | .sCmpne f | .sCmplt f | .sCmple f
  | .sCmpltu f | .sCmpleu f | .sDiv f | .sRem f | .sFadd f | .sFsub f | .sFmul f | .sFmin f
  | .sFmax f | .sFabs f | .sFneg f | .sFcmpeq f | .sFcmplt f | .sFcmple f | .sFrcp f | .sFrsq f
  | .sFsqrt f | .sFexp2 f | .sFlog2 f | .sFtanh f | .sCvtfi f | .sCvtif f | .sFdiv f | .sMark f => slotOk f
  | _ => true

/-- A T-form or V-form instruction or a slot operation, not an event. -/
def isWordInstr : Instr → Bool
  | .nop _ | .add _ | .sub _ | .mul _ | .mulhi _ | .mad _ | .div _ | .rem _ | .min _ | .max _ | .abs _ | .neg _ => true
  | .and _ | .or _ | .xor _ | .andn _ | .not _ | .shl _ | .shr _ | .sar _ | .rol _ | .bfe _ | .bfi _ | .popc _ => true
  | .clz _ | .ctz _ | .brev _ | .sel _ | .mov _ | .cmp _ | .movi _ | .moviLabel _ | .movhi _ | .addi _ | .andi _ | .ori _ => true
  | .xori _ | .cmpiSigned _ | .cmpiUnsigned _ | .cmpiEquality _ | .lea _ | .pand _ | .por _ | .pxor _ | .pnot _ | .shfl _ | .vote _ | .redux _ => true
  | .bcast _ | .popk _ | .fadd _ | .fsub _ | .fmul _ | .fma _ | .fdiv _ | .fmin _ | .fmax _ | .fabs _ | .fneg _ | .fcmp _ => true
  | .frcp _ | .frsq _ | .fsqrt _ | .fexp2 _ | .flog2 _ | .fsinpi _ | .fcospi _ | .ftanh _ | .cvt _ | .pack _ | .unpack _ | .dot2 _ => true
  | .dot4 _ | .ld _ | .st _ | .atom _ | .red _ | .prefetch _ | .cctlFlush _ | .cctlInv _ | .fence _ | .barInit _ | .barArrive _ | .barWait _ => true
  | .barSync _ | .gbar _ | .txbegin _ | .txend _ | .txabort _ | .txtest _ | .bra _ | .split _ | .join _ | .call _ | .ret _ | .yield _ => true
  | .sleep _ | .exit _ | .mma _ | .zld _ | .zst _ | .zrd _ | .zwr _ | .zclr _ | .cbld _ | .xfer _ | .expect _ | .waitc _ => true
  | .xstat _ | .phase _ | .phaseClr _ | .getsr _ | .setsr _ | .trap _ | .brk _ | .rett _ | .rettNext _ | .eqp _ | .hop _ | .launch _ => true
  | .sNop _ | .sMov _ | .sAdd _ | .sSub _ | .sMul _ | .sMulhi _ | .sMin _ | .sMax _ | .sAbs _ | .sNeg _ | .sAnd _ | .sOr _ => true
  | .sXor _ | .sAndn _ | .sNot _ | .sShl _ | .sShr _ | .sSar _ | .sPopc _ | .sClz _ | .sCmpeq _ | .sCmpne _ | .sCmplt _ | .sCmple _ => true
  | .sCmpltu _ | .sCmpleu _ | .sDiv _ | .sRem _ | .sFadd _ | .sFsub _ | .sFmul _ | .sFmin _ | .sFmax _ | .sFabs _ | .sFneg _ | .sFcmpeq _ => true
  | .sFcmplt _ | .sFcmple _ | .sFrcp _ | .sFrsq _ | .sFsqrt _ | .sFexp2 _ | .sFlog2 _ | .sFtanh _ | .sCvtfi _ | .sCvtif _ | .sFdiv _ | .sMark _ => true
  | _ => false

end Sys2Proof.Machine
end

