-- ==== Sys2Proof/WellFormed.lean ====
section
/-! DEFINITION. Well-formed instructions: those whose fields hold only values that spec/04_opcode_map.md
and the encoding tables assign. A well-formed instruction is the reading of exactly one word. -/

namespace Sys2Proof

/-- The instruction is a word of T-form, V-form or a slot, its sub-operation fields are assigned and name
its constructor (R98), and every field marked reserved, zero, holds 0 (R101). -/
def Instr.WellFormed (i : Instr) : Bool :=
  Machine.isWordInstr i && Machine.subOk i && Machine.reservedOk i

end Sys2Proof
end

