-- ==== Sys2Proof/Decode.lean ====
section
/-! DEFINITION. The decoder and the encoder of 64-bit instruction words and 32-bit slot words (R93 to
R103, R217, R375 stages 2 to 4, R379). The decoder is total and names what it refuses. -/

namespace Sys2Proof

open Sys2Proof.Machine

/-- Why a word is not decoded. -/
inductive DecodeError where
  /-- stage 2: a reserved opcode -/
  | opcode
  /-- stage 3: a reserved sub-operation -/
  | subOperation
  /-- stage 4: a field marked reserved, zero, is not 0 -/
  | reserved
  deriving DecidableEq, Repr

/-- The instruction of an opcode 0x00 to 0x0F: `none` where the opcode is reserved, `some none` where its
sub-operation is. -/
def instrOf0 (w : BitVec 64) (lo : BitVec 4) : Option (Option Instr) :=
  match lo with
  | 0x1 => some (some (.nop (unpackA w)))
  | 0x2 => some (some (.add (unpackA w)))
  | 0x3 => some (some (.sub (unpackA w)))
  | 0x4 => some (some (.mul (unpackA w)))
  | 0x5 => some (some (.mulhi (unpackA w)))
  | 0x6 => some (some (.mad (unpackA w)))
  | 0x7 => some (some (.div (unpackA w)))
  | 0x8 => some (some (.rem (unpackA w)))
  | 0x9 => some (some (.min (unpackA w)))
  | 0xA => some (some (.max (unpackA w)))
  | 0xB => some (some (.abs (unpackA w)))
  | 0xC => some (some (.neg (unpackA w)))
  | 0xD => some (some (.and (unpackA w)))
  | 0xE => some (some (.or (unpackA w)))
  | 0xF => some (some (.xor (unpackA w)))
  | _ => none

/-- The instruction of an opcode 0x10 to 0x1F: `none` where the opcode is reserved, `some none` where its
sub-operation is. -/
def instrOf1 (w : BitVec 64) (lo : BitVec 4) : Option (Option Instr) :=
  match lo with
  | 0x0 => some (some (.andn (unpackA w)))
  | 0x1 => some (some (.not (unpackA w)))
  | 0x2 => some (some (.shl (unpackA w)))
  | 0x3 => some (some (.shr (unpackA w)))
  | 0x4 => some (some (.sar (unpackA w)))
  | 0x5 => some (some (.rol (unpackA w)))
  | 0x6 => some (some (.bfe (unpackA w)))
  | 0x7 => some (some (.bfi (unpackA w)))
  | 0x8 => some (some (.popc (unpackA w)))
  | 0x9 => some (some (.clz (unpackA w)))
  | 0xA => some (some (.ctz (unpackA w)))
  | 0xB => some (some (.brev (unpackA w)))
  | 0xC => some (some (.sel (unpackA w)))
  | 0xD => some (some (.mov (unpackA w)))
  | 0xE => some (some (.cmp (unpackA w)))
  | _ => none

/-- The instruction of an opcode 0x20 to 0x2F: `none` where the opcode is reserved, `some none` where its
sub-operation is. -/
def instrOf2 (w : BitVec 64) (lo : BitVec 4) : Option (Option Instr) :=
  match lo with
  | 0x0 => some (
    match w.extractLsb' 30 2 with
      | 0 => some (.movi (unpackI w)) | 1 => some (.moviLabel (unpackI w)) | _ => none)
  | 0x1 => some (some (.movhi (unpackI w)))
  | 0x2 => some (some (.addi (unpackI w)))
  | 0x3 => some (some (.andi (unpackI w)))
  | 0x4 => some (some (.ori (unpackI w)))
  | 0x5 => some (some (.xori (unpackI w)))
  | 0x6 => some (some (.cmpiSigned (unpackI w)))
  | 0x7 => some (some (.cmpiUnsigned (unpackI w)))
  | 0x8 => some (some (.cmpiEquality (unpackI w)))
  | 0x9 => some (some (.lea (unpackI w)))
  | _ => none

/-- The instruction of an opcode 0x40 to 0x4F: `none` where the opcode is reserved, `some none` where its
sub-operation is. -/
def instrOf4 (w : BitVec 64) (lo : BitVec 4) : Option (Option Instr) :=
  match lo with
  | 0x0 => some (some (.pand (unpackA w)))
  | 0x1 => some (some (.por (unpackA w)))
  | 0x2 => some (some (.pxor (unpackA w)))
  | 0x3 => some (some (.pnot (unpackA w)))
  | 0x4 => some (some (.shfl (unpackA w)))
  | 0x5 => some (some (.vote (unpackA w)))
  | 0x6 => some (some (.redux (unpackA w)))
  | 0x7 => some (some (.bcast (unpackA w)))
  | 0x8 => some (some (.popk (unpackA w)))
  | _ => none

/-- The instruction of an opcode 0x60 to 0x6F: `none` where the opcode is reserved, `some none` where its
sub-operation is. -/
def instrOf6 (w : BitVec 64) (lo : BitVec 4) : Option (Option Instr) :=
  match lo with
  | 0x0 => some (some (.fadd (unpackA w)))
  | 0x1 => some (some (.fsub (unpackA w)))
  | 0x2 => some (some (.fmul (unpackA w)))
  | 0x3 => some (some (.fma (unpackA w)))
  | 0x4 => some (some (.fdiv (unpackA w)))
  | 0x5 => some (some (.fmin (unpackA w)))
  | 0x6 => some (some (.fmax (unpackA w)))
  | 0x7 => some (some (.fabs (unpackA w)))
  | 0x8 => some (some (.fneg (unpackA w)))
  | 0x9 => some (some (.fcmp (unpackA w)))
  | 0xA => some (some (.frcp (unpackA w)))
  | 0xB => some (some (.frsq (unpackA w)))
  | 0xC => some (some (.fsqrt (unpackA w)))
  | 0xD => some (some (.fexp2 (unpackA w)))
  | 0xE => some (some (.flog2 (unpackA w)))
  | 0xF => some (some (.fsinpi (unpackA w)))
  | _ => none

/-- The instruction of an opcode 0x70 to 0x7F: `none` where the opcode is reserved, `some none` where its
sub-operation is. -/
def instrOf7 (w : BitVec 64) (lo : BitVec 4) : Option (Option Instr) :=
  match lo with
  | 0x0 => some (some (.fcospi (unpackA w)))
  | 0x1 => some (some (.ftanh (unpackA w)))
  | 0x2 => some (some (.cvt (unpackA w)))
  | 0x3 => some (some (.pack (unpackA w)))
  | 0x4 => some (some (.unpack (unpackA w)))
  | 0x5 => some (some (.dot2 (unpackA w)))
  | 0x6 => some (some (.dot4 (unpackA w)))
  | _ => none

/-- The instruction of an opcode 0x90 to 0x9F: `none` where the opcode is reserved, `some none` where its
sub-operation is. -/
def instrOf9 (w : BitVec 64) (lo : BitVec 4) : Option (Option Instr) :=
  match lo with
  | 0x0 => some (some (.ld (unpackM w)))
  | 0x1 => some (some (.st (unpackM w)))
  | 0x2 => some (if w.getLsbD 63 then some (.red (unpackMA w)) else some (.atom (unpackMA w)))
  | 0x3 => some (some (.prefetch (unpackM w)))
  | 0x4 => some (
    match w.extractLsb' 56 4 with
      | 0 => some (.cctlFlush (unpackA w)) | 1 => some (.cctlInv (unpackA w)) | _ => none)
  | 0x5 => some (some (.fence (unpackM w)))
  | 0x6 => some (
    match w.extractLsb' 56 4 with
      | 0 => some (.barInit (unpackA w)) | 1 => some (.barArrive (unpackA w))
      | 2 => some (.barWait (unpackA w)) | 3 => some (.barSync (unpackA w)) | _ => none)
  | 0x7 => some (some (.gbar (unpackM w)))
  | 0x8 => some (some (.txbegin (unpackB w)))
  | 0x9 => some (some (.txend (unpackA w)))
  | 0xA => some (some (.txabort (unpackA w)))
  | 0xB => some (some (.txtest (unpackA w)))
  | _ => none

/-- The instruction of an opcode 0xB0 to 0xBF: `none` where the opcode is reserved, `some none` where its
sub-operation is. -/
def instrOfB (w : BitVec 64) (lo : BitVec 4) : Option (Option Instr) :=
  match lo with
  | 0x0 => some (some (.bra (unpackB w)))
  | 0x1 => some (some (.split (unpackB w)))
  | 0x2 => some (some (.join (unpackB w)))
  | 0x3 => some (some (.call (unpackB w)))
  | 0x4 => some (some (.ret (unpackB w)))
  | 0x5 => some (some (.yield (unpackB w)))
  | 0x6 => some (some (.sleep (unpackB w)))
  | 0x7 => some (some (.exit (unpackB w)))
  | _ => none

/-- The instruction of an opcode 0xC0 to 0xCF: `none` where the opcode is reserved, `some none` where its
sub-operation is. -/
def instrOfC (w : BitVec 64) (lo : BitVec 4) : Option (Option Instr) :=
  match lo with
  | 0x0 => some (some (.mma (unpackX w)))
  | 0x1 => some (some (.zld (unpackX w)))
  | 0x2 => some (some (.zst (unpackX w)))
  | 0x3 => some (some (.zrd (unpackX w)))
  | 0x4 => some (some (.zwr (unpackX w)))
  | 0x5 => some (some (.zclr (unpackX w)))
  | 0x6 => some (some (.cbld (unpackX w)))
  | 0x7 => some (some (.xfer (unpackC w)))
  | 0x8 => some (some (.expect (unpackC w)))
  | 0x9 => some (some (.waitc (unpackC w)))
  | 0xA => some (some (.xstat (unpackC w)))
  | 0xB => some (
    match w.extractLsb' 30 2 with
      | 0 => some (.phase (unpackI w)) | 1 => some (.phaseClr (unpackI w)) | _ => none)
  | _ => none

/-- The instruction of an opcode 0xD0 to 0xDF: `none` where the opcode is reserved, `some none` where its
sub-operation is. -/
def instrOfD (w : BitVec 64) (lo : BitVec 4) : Option (Option Instr) :=
  match lo with
  | 0x0 => some (some (.getsr (unpackS w)))
  | 0x1 => some (some (.setsr (unpackS w)))
  | 0x2 => some (some (.trap (unpackS w)))
  | 0x3 => some (some (.brk (unpackS w)))
  | 0x4 => some (if w.getLsbD 42 then some (.rettNext (unpackS w)) else some (.rett (unpackS w)))
  | 0x8 => some (some (.eqp (unpackS w)))
  | 0x9 => some (some (.hop (unpackS w)))
  | 0xA => some (some (.launch (unpackS w)))
  | _ => none

/-- The instruction that OP and the sub-operation name, with its fields (R93, R98). -/
def instrOf (w : BitVec 64) : Option (Option Instr) :=
  match w.extractLsb' 4 4 with
  | 0x0 => instrOf0 w (w.extractLsb' 0 4)
  | 0x1 => instrOf1 w (w.extractLsb' 0 4)
  | 0x2 => instrOf2 w (w.extractLsb' 0 4)
  | 0x4 => instrOf4 w (w.extractLsb' 0 4)
  | 0x6 => instrOf6 w (w.extractLsb' 0 4)
  | 0x7 => instrOf7 w (w.extractLsb' 0 4)
  | 0x9 => instrOf9 w (w.extractLsb' 0 4)
  | 0xB => instrOfB w (w.extractLsb' 0 4)
  | 0xC => instrOfC w (w.extractLsb' 0 4)
  | 0xD => instrOfD w (w.extractLsb' 0 4)
  | _ => none

/-- Bits [63:60] of format A, reserved, zero. -/
def topOk (w : BitVec 64) : Instr → Bool
  | .nop _ | .add _ | .sub _ | .mul _ | .mulhi _ | .mad _ | .div _ | .rem _ | .min _ | .max _
  | .abs _ | .neg _ | .and _ | .or _ | .xor _ | .andn _ | .not _ | .shl _ | .shr _ | .sar _
  | .rol _ | .bfe _ | .bfi _ | .popc _ | .clz _ | .ctz _ | .brev _ | .sel _ | .mov _ | .cmp _
  | .pand _ | .por _ | .pxor _ | .pnot _ | .shfl _ | .vote _ | .redux _ | .bcast _ | .popk _ | .fadd _
  | .fsub _ | .fmul _ | .fma _ | .fdiv _ | .fmin _ | .fmax _ | .fabs _ | .fneg _ | .fcmp _ | .frcp _
  | .frsq _ | .fsqrt _ | .fexp2 _ | .flog2 _ | .fsinpi _ | .fcospi _ | .ftanh _ | .cvt _ | .pack _ | .unpack _
  | .dot2 _ | .dot4 _ | .cctlFlush _ | .cctlInv _ | .barInit _ | .barArrive _ | .barWait _ | .barSync _ | .txend _ | .txabort _
  | .txtest _ => w.extractLsb' 60 4 == 0
  | _ => true

/-- Decode a T-form or V-form word. -/
def decodeTV (w : BitVec 64) : Except DecodeError Instr :=
  match instrOf w with
  | none => .error .opcode
  | some none => .error .subOperation
  | some (some i) =>
    if !subOk i then .error .subOperation
    else if topOk w i && reservedOk i then .ok i
    else .error .reserved

/-- The operation that OP names in a slot word (R103). -/
def slotOf (w : BitVec 32) : Option Instr :=
  match w.extractLsb' 0 6 with
  | 0x0 => some (.sNop (unpackSlot w))
  | 0x1 => some (.sMov (unpackSlot w))
  | 0x2 => some (.sAdd (unpackSlot w))
  | 0x3 => some (.sSub (unpackSlot w))
  | 0x4 => some (.sMul (unpackSlot w))
  | 0x5 => some (.sMulhi (unpackSlot w))
  | 0x6 => some (.sMin (unpackSlot w))
  | 0x7 => some (.sMax (unpackSlot w))
  | 0x8 => some (.sAbs (unpackSlot w))
  | 0x9 => some (.sNeg (unpackSlot w))
  | 0xA => some (.sAnd (unpackSlot w))
  | 0xB => some (.sOr (unpackSlot w))
  | 0xC => some (.sXor (unpackSlot w))
  | 0xD => some (.sAndn (unpackSlot w))
  | 0xE => some (.sNot (unpackSlot w))
  | 0xF => some (.sShl (unpackSlot w))
  | 0x10 => some (.sShr (unpackSlot w))
  | 0x11 => some (.sSar (unpackSlot w))
  | 0x12 => some (.sPopc (unpackSlot w))
  | 0x13 => some (.sClz (unpackSlot w))
  | 0x14 => some (.sCmpeq (unpackSlot w))
  | 0x15 => some (.sCmpne (unpackSlot w))
  | 0x16 => some (.sCmplt (unpackSlot w))
  | 0x17 => some (.sCmple (unpackSlot w))
  | 0x18 => some (.sCmpltu (unpackSlot w))
  | 0x19 => some (.sCmpleu (unpackSlot w))
  | 0x1A => some (.sDiv (unpackSlot w))
  | 0x1B => some (.sRem (unpackSlot w))
  | 0x20 => some (.sFadd (unpackSlot w))
  | 0x21 => some (.sFsub (unpackSlot w))
  | 0x22 => some (.sFmul (unpackSlot w))
  | 0x23 => some (.sFmin (unpackSlot w))
  | 0x24 => some (.sFmax (unpackSlot w))
  | 0x25 => some (.sFabs (unpackSlot w))
  | 0x26 => some (.sFneg (unpackSlot w))
  | 0x27 => some (.sFcmpeq (unpackSlot w))
  | 0x28 => some (.sFcmplt (unpackSlot w))
  | 0x29 => some (.sFcmple (unpackSlot w))
  | 0x2A => some (.sFrcp (unpackSlot w))
  | 0x2B => some (.sFrsq (unpackSlot w))
  | 0x2C => some (.sFsqrt (unpackSlot w))
  | 0x2D => some (.sFexp2 (unpackSlot w))
  | 0x2E => some (.sFlog2 (unpackSlot w))
  | 0x2F => some (.sFtanh (unpackSlot w))
  | 0x30 => some (.sCvtfi (unpackSlot w))
  | 0x31 => some (.sCvtif (unpackSlot w))
  | 0x32 => some (.sFdiv (unpackSlot w))
  | 0x33 => some (.sMark (unpackSlot w))
  | _ => none

/-- Decode a slot word. -/
def decodeSlot (w : BitVec 32) : Except DecodeError Instr :=
  match slotOf w with
  | none => .error .opcode
  | some i => if reservedOk i then .ok i else .error .reserved

/-- The instruction the decoder reads from a table word: 64 bits are a T-form or V-form word, 32 bits a
slot word. -/
def decodeTableWord (nbits w : Nat) : Option Instr :=
  if nbits = 32 then (decodeSlot (BitVec.ofNat 32 w)).toOption else (decodeTV (BitVec.ofNat 64 w)).toOption

/-- The word of a T-form or V-form instruction. -/
def encodeTV : Instr → Option (BitVec 64)
  | .nop f => some (packA 0x01 f)
  | .add f => some (packA 0x02 f)
  | .sub f => some (packA 0x03 f)
  | .mul f => some (packA 0x04 f)
  | .mulhi f => some (packA 0x05 f)
  | .mad f => some (packA 0x06 f)
  | .div f => some (packA 0x07 f)
  | .rem f => some (packA 0x08 f)
  | .min f => some (packA 0x09 f)
  | .max f => some (packA 0x0A f)
  | .abs f => some (packA 0x0B f)
  | .neg f => some (packA 0x0C f)
  | .and f => some (packA 0x0D f)
  | .or f => some (packA 0x0E f)
  | .xor f => some (packA 0x0F f)
  | .andn f => some (packA 0x10 f)
  | .not f => some (packA 0x11 f)
  | .shl f => some (packA 0x12 f)
  | .shr f => some (packA 0x13 f)
  | .sar f => some (packA 0x14 f)
  | .rol f => some (packA 0x15 f)
  | .bfe f => some (packA 0x16 f)
  | .bfi f => some (packA 0x17 f)
  | .popc f => some (packA 0x18 f)
  | .clz f => some (packA 0x19 f)
  | .ctz f => some (packA 0x1A f)
  | .brev f => some (packA 0x1B f)
  | .sel f => some (packA 0x1C f)
  | .mov f => some (packA 0x1D f)
  | .cmp f => some (packA 0x1E f)
  | .movi f => some (packI 0x20 f)
  | .moviLabel f => some (packI 0x20 f)
  | .movhi f => some (packI 0x21 f)
  | .addi f => some (packI 0x22 f)
  | .andi f => some (packI 0x23 f)
  | .ori f => some (packI 0x24 f)
  | .xori f => some (packI 0x25 f)
  | .cmpiSigned f => some (packI 0x26 f)
  | .cmpiUnsigned f => some (packI 0x27 f)
  | .cmpiEquality f => some (packI 0x28 f)
  | .lea f => some (packI 0x29 f)
  | .pand f => some (packA 0x40 f)
  | .por f => some (packA 0x41 f)
  | .pxor f => some (packA 0x42 f)
  | .pnot f => some (packA 0x43 f)
  | .shfl f => some (packA 0x44 f)
  | .vote f => some (packA 0x45 f)
  | .redux f => some (packA 0x46 f)
  | .bcast f => some (packA 0x47 f)
  | .popk f => some (packA 0x48 f)
  | .fadd f => some (packA 0x60 f)
  | .fsub f => some (packA 0x61 f)
  | .fmul f => some (packA 0x62 f)
  | .fma f => some (packA 0x63 f)
  | .fdiv f => some (packA 0x64 f)
  | .fmin f => some (packA 0x65 f)
  | .fmax f => some (packA 0x66 f)
  | .fabs f => some (packA 0x67 f)
  | .fneg f => some (packA 0x68 f)
  | .fcmp f => some (packA 0x69 f)
  | .frcp f => some (packA 0x6A f)
  | .frsq f => some (packA 0x6B f)
  | .fsqrt f => some (packA 0x6C f)
  | .fexp2 f => some (packA 0x6D f)
  | .flog2 f => some (packA 0x6E f)
  | .fsinpi f => some (packA 0x6F f)
  | .fcospi f => some (packA 0x70 f)
  | .ftanh f => some (packA 0x71 f)
  | .cvt f => some (packA 0x72 f)
  | .pack f => some (packA 0x73 f)
  | .unpack f => some (packA 0x74 f)
  | .dot2 f => some (packA 0x75 f)
  | .dot4 f => some (packA 0x76 f)
  | .ld f => some (packM 0x90 f)
  | .st f => some (packM 0x91 f)
  | .atom f => some (packMA 0x92 f)
  | .red f => some (packMA 0x92 f)
  | .prefetch f => some (packM 0x93 f)
  | .cctlFlush f => some (packA 0x94 f)
  | .cctlInv f => some (packA 0x94 f)
  | .fence f => some (packM 0x95 f)
  | .barInit f => some (packA 0x96 f)
  | .barArrive f => some (packA 0x96 f)
  | .barWait f => some (packA 0x96 f)
  | .barSync f => some (packA 0x96 f)
  | .gbar f => some (packM 0x97 f)
  | .txbegin f => some (packB 0x98 f)
  | .txend f => some (packA 0x99 f)
  | .txabort f => some (packA 0x9A f)
  | .txtest f => some (packA 0x9B f)
  | .bra f => some (packB 0xB0 f)
  | .split f => some (packB 0xB1 f)
  | .join f => some (packB 0xB2 f)
  | .call f => some (packB 0xB3 f)
  | .ret f => some (packB 0xB4 f)
  | .yield f => some (packB 0xB5 f)
  | .sleep f => some (packB 0xB6 f)
  | .exit f => some (packB 0xB7 f)
  | .mma f => some (packX 0xC0 f)
  | .zld f => some (packX 0xC1 f)
  | .zst f => some (packX 0xC2 f)
  | .zrd f => some (packX 0xC3 f)
  | .zwr f => some (packX 0xC4 f)
  | .zclr f => some (packX 0xC5 f)
  | .cbld f => some (packX 0xC6 f)
  | .xfer f => some (packC 0xC7 f)
  | .expect f => some (packC 0xC8 f)
  | .waitc f => some (packC 0xC9 f)
  | .xstat f => some (packC 0xCA f)
  | .phase f => some (packI 0xCB f)
  | .phaseClr f => some (packI 0xCB f)
  | .getsr f => some (packS 0xD0 f)
  | .setsr f => some (packS 0xD1 f)
  | .trap f => some (packS 0xD2 f)
  | .brk f => some (packS 0xD3 f)
  | .rett f => some (packS 0xD4 f)
  | .rettNext f => some (packS 0xD4 f)
  | .eqp f => some (packS 0xD8 f)
  | .hop f => some (packS 0xD9 f)
  | .launch f => some (packS 0xDA f)
  | _ => none

/-- The word of a slot operation. -/
def encodeSlot : Instr → Option (BitVec 32)
  | .sNop f => some (packSlot 0x00 f)
  | .sMov f => some (packSlot 0x01 f)
  | .sAdd f => some (packSlot 0x02 f)
  | .sSub f => some (packSlot 0x03 f)
  | .sMul f => some (packSlot 0x04 f)
  | .sMulhi f => some (packSlot 0x05 f)
  | .sMin f => some (packSlot 0x06 f)
  | .sMax f => some (packSlot 0x07 f)
  | .sAbs f => some (packSlot 0x08 f)
  | .sNeg f => some (packSlot 0x09 f)
  | .sAnd f => some (packSlot 0x0A f)
  | .sOr f => some (packSlot 0x0B f)
  | .sXor f => some (packSlot 0x0C f)
  | .sAndn f => some (packSlot 0x0D f)
  | .sNot f => some (packSlot 0x0E f)
  | .sShl f => some (packSlot 0x0F f)
  | .sShr f => some (packSlot 0x10 f)
  | .sSar f => some (packSlot 0x11 f)
  | .sPopc f => some (packSlot 0x12 f)
  | .sClz f => some (packSlot 0x13 f)
  | .sCmpeq f => some (packSlot 0x14 f)
  | .sCmpne f => some (packSlot 0x15 f)
  | .sCmplt f => some (packSlot 0x16 f)
  | .sCmple f => some (packSlot 0x17 f)
  | .sCmpltu f => some (packSlot 0x18 f)
  | .sCmpleu f => some (packSlot 0x19 f)
  | .sDiv f => some (packSlot 0x1A f)
  | .sRem f => some (packSlot 0x1B f)
  | .sFadd f => some (packSlot 0x20 f)
  | .sFsub f => some (packSlot 0x21 f)
  | .sFmul f => some (packSlot 0x22 f)
  | .sFmin f => some (packSlot 0x23 f)
  | .sFmax f => some (packSlot 0x24 f)
  | .sFabs f => some (packSlot 0x25 f)
  | .sFneg f => some (packSlot 0x26 f)
  | .sFcmpeq f => some (packSlot 0x27 f)
  | .sFcmplt f => some (packSlot 0x28 f)
  | .sFcmple f => some (packSlot 0x29 f)
  | .sFrcp f => some (packSlot 0x2A f)
  | .sFrsq f => some (packSlot 0x2B f)
  | .sFsqrt f => some (packSlot 0x2C f)
  | .sFexp2 f => some (packSlot 0x2D f)
  | .sFlog2 f => some (packSlot 0x2E f)
  | .sFtanh f => some (packSlot 0x2F f)
  | .sCvtfi f => some (packSlot 0x30 f)
  | .sCvtif f => some (packSlot 0x31 f)
  | .sFdiv f => some (packSlot 0x32 f)
  | .sMark f => some (packSlot 0x33 f)
  | _ => none

/-- The words of a well-formed instruction, as its bytes in memory: a 64-bit word or a 32-bit slot word,
little-endian (R8). An event has none. -/
def encode (i : Instr) : List Byte :=
  match encodeTV i with
  | some w => (List.range 8).map fun k => w.extractLsb' (8 * k) 8
  | none => match encodeSlot i with
    | some w => (List.range 4).map fun k => w.extractLsb' (8 * k) 8
    | none => []

end Sys2Proof
end

