-- ==== Sys2Proof/Config.lean ====
section
/-! DEFINITION. The free values: what spec/ leaves open and the machine nevertheless has. Each is an
opaque constant, so no proof can see a value of it. -/

namespace Sys2Proof.Config

/-- Whether L1 has lost a clean sector whose bytes differ from the slice's (R249 gives no
replacement rule). Read only where the two differ. Log 6. -/
opaque l1Lost : Nat → Bool
/-- Which of the leaves that translation caches hold, or that a walk now finds, an access uses (R260:
"either the old or the new leaf"). Read only where they differ. Log 7. -/
opaque tlbPick : Nat → Nat
/-- Whether a fetch returns the old word of a text that was stored to (R261). Log 8. -/
opaque fetchesOld : Nat → Bool
/-- Which of the groups of a transfer that have not landed lands next (R191). Log 9. -/
opaque landPick : Nat → Nat
/-- Cycles from the issue of a load, atomic or memory node to the return of its value, less one
(no figure in spec/; R444). Log 10. -/
opaque loadLatency : Nat → Nat
/-- Cycles until a gbar's answer, a transfer's first word and a receiver's acknowledgement arrive
(no figure in spec/). Log 10. -/
opaque linkLatency : Nat → Nat
/-- The operand code that TADDR names a join register by (R408 gives "as for a v register", and R67 gives
join registers no code). Log 15. -/
opaque joinCode : Nat → BitVec 9
/-- The code that TADDR names a codebook slot by (R409 refers to R408, which gives tiles alone). Log 15. -/
opaque slotCode : Nat → BitVec 64
/-- The rounding index of a result that is written once, to an s register, under keyed stochastic rounding:
R117 takes %glane, and no lane is named. Applied to the lowest passing lane. Log 16. -/
opaque onceGlane : Nat → Nat
/-- Which block's result an s register takes from a lane operation of width `.g` in V-form whose blocks
differ (R152 takes each block separately, and the strand has one register). Log 17. -/
opaque blockPick : Nat → Nat
/-- SHA-384 (R331, R332): named by spec/, not defined in it. Log 11. -/
opaque sha384 : List Byte → BitVec 384
/-- The security engine's ECDSA P-384 signature over a report (R332). Log 11. -/
opaque sign : List Byte → BitVec 768
/-- Whether an image's ECDSA P-384 signature verifies against the fused key (R331). Log 11. -/
opaque verifies : List Byte → Bool
/-- Which of the values that an aligned operand word has had since a matrix token's issue enters the token
(R188). Log 12. -/
opaque racePick : Nat → Nat → Nat
/-- Which words of an ended launch's transfers that have not landed still land (R197: "which of
them land is open"). Log 13. -/
opaque endLands : Nat → Bool
/-- Voltage settling: cycles, at most 256, until the regulator reaches the declared level (R308). -/
opaque settle : Nat → Nat
/-- Cycles that a gang placement takes, less one, modulo 64 (R299: "completes within 64 cycles"). Log 10. -/
opaque placeTime : Nat → Nat
/-- Which of the 256 interrupt words of a partition's virtual function a physical address is, if it is one (R326 gives
the page of interrupt words no address). Log 18. -/
opaque interruptWord : Nat → Nat → Option (BitVec 8)
/-- What agents of the host and of peers write to their own memories between two cycles, which the windows show: offset
from the start of the host window, in 64-byte units, and bytes (R254, R258). Log 97. -/
opaque outsideWrite : Nat → Option (Nat × List (BitVec 8))
/-- Where boot copies an image to (R331 gives no address). Log 29. -/
opaque imageBase : Nat → Nat
/-- A byte of a context save frame in a part to which R303 gives no layout, by its offset. Log 36. -/
opaque frameByte : Nat → Nat → BitVec 8

/-- What an owner node's range holds after an update whose operation R164 does not give the node's type (R236
states no result). Log 24. -/
opaque ownerOpen : Nat → BitVec 32

/-- Cycles from the first streamed tile record of a load to the last tile's acknowledgement ("about 100", R57).
Log 10. -/
opaque ackTime : Nat → Nat
/-- What a region controller measures as the region's energy over an interval, in nJ (R314). Log 28. -/
opaque energy : Nat → Nat
/-- Canonical work per µJ where the division gives no number, an interval without energy, or none of 32 bits (R51,
R52). Log 28. -/
opaque workOpen : Nat → Nat
/-- The 8 bytes of an attestation report that name rank and partition (R332 gives no layout). Log 29. -/
opaque reportIds : Nat → Nat → BitVec 64
/-- What a module that boots from a staged image meets in the steps that follow (R440): the images read from NVMe with
version and readability, whether training succeeds, whether the strips' ROM check does. Log 29. -/
opaque nvmeImages : Nat → List (List Byte × Nat × Bool)
opaque bootChecks : Nat → Bool × Bool
/-- Size and version of the image that the host has staged when it writes 1 to BAR0 offset 0x8 (R440 gives images no
format). Log 29. -/
opaque stagedImage : Nat → Nat × Nat
/-- A byte of module status beyond BOOTSTAT, and one of configuration space (R326, R331 give no contents), by the time and
the offset. Log 121. -/
opaque statusByte : Nat → Nat → BitVec 8
opaque configByte : Nat → Nat → BitVec 8
/-- The number that a Carafe entry gives a structure hit by a soft error (R442 gives no numbers). Log 29. -/
opaque structureCode : Nat → BitVec 8
/-- A reading of a power, current or temperature sensor, as a Carafe entry holds it (R442). Log 28. -/
opaque sensor : Nat → BitVec 64
/-- The traffic of a shared resource in a window, and the capacity against which it is reported (R325). Log 28. -/
opaque counterUsed : Nat → Nat
opaque counterCapacity : Nat → Nat
/-- Whether a condition of R431 holds in a region when RESTAT.CLR is written through the window. Log 28. -/
opaque stopHolds : Nat → Bool

end Sys2Proof.Config
end

