-- ==== Sys2Proof/Machine/State.lean ====
section
/-! DEFINITION. The whole state of one module, as plain data: everything INVENTORY.md lists under
`## State`, and the state after reset. -/

namespace Sys2Proof.Machine

/-- Sparse data by number: keys strictly rising. -/
abbrev Tbl (α : Type) := List (Nat × α)

/-- Bytes by address, in the canonical form of Laws/Memory.lean: addresses strictly rising, no entry
equal to what an unlisted address reads as. -/
abbrev Memory := List Host.Cell

/-- The trap and fault causes of R373 that the device raises (R374). -/
inductive Cause where
  | illegalOpcode | reservedField | badOperand | badType | badUniform | badScope | badForm
  | privileged | pcRange
  | divergentBranch | launchBudget | stackOverflow | stackUnderflow | joinMismatch
  | packetMalformed | gangUnplaceable
  | pageNotPresent | pagePermission | misaligned | noncanonical | scratchRange | badTableEntry
  | addressRange | linkError | dataError
  | barrierOverwritten | barrierBusy
  | expectOverflow | transferFault | tagOverflow | badDescriptor | tagNotHeld
  | codebookEmpty | codebookNotHeld
  | txIrrevocableLimit | txIrrevocableUse
  | fabricNodeFault | fabricStalled
  | breakpoint | watchpoint | singleStep | softwareTrap | handlerFault | saveFault | emergencyStop
  deriving DecidableEq, Repr

/-- The three forms (R36). -/
inductive Form where
  | t | v | s
  deriving DecidableEq, Repr

/-! ### Paths, threads, lanes -/

/-- Where a path waits (R23). -/
inductive Wait where
  /-- ready -/
  | none
  | join (n : Nat)
  /-- `bar.wait`, `bar.sync`: object address, token, and the mark of R381 -/
  | bar (addr : Nat) (token : Half) (marked : Bool)
  /-- `gbar`: object, token, the cycle the slice's answer is due once the phase has moved, mark -/
  | gbar (va pa : Nat) (token : Half) (answer : Option Nat) (marked : Bool)
  /-- `gbar` at an object that takes no arrival: the word, and the cycle of the slice's answer, when the trap is
  taken (R169) -/
  | refused (word : Dbl) (answer : Nat)
  /-- `waitc`: the tag, and the recorded address once FAULT has been set (R411) -/
  | chan (c : Nat) (fault : Option Dbl)
  /-- a `.w` lane operation at the path's PC: the cycle of its arrival and the word (R152) -/
  | lane (since : Nat) (word : Dbl)
  | sleep (until_ : Nat)
  | txend
  /-- `eqp` with a hop pending, since a cycle -/
  | eqp (since : Nat)
  deriving DecidableEq, Repr

/-- What a lane keeps of the cause that its record raised in S-form (R366). -/
structure CutMark where
  lane : Nat
  /-- canonical PC of the faulting node, its latched cause, iteration index and address -/
  pc : Word
  cause : Cause
  iter : Word
  addr : Dbl
  /-- the instruction being issued stands at that PC and, where it forms the address of an access, accesses that one -/
  now : Bool := false
  /-- it is known to repeat the access, whether or not it raises the cause again -/
  sure : Bool := false
  deriving DecidableEq, Repr

/-- One path: the lanes that run together (R27, R132, R134). -/
structure Path where
  mask : Mask
  pc : Word
  /-- the PC counts in the vector text -/
  vtext : Bool := false
  /-- the return stack, top first (R134) -/
  stack : List Word := []
  wait : Wait := .none
  /-- the lanes a re-issue is limited to (R363) -/
  limit : Option Mask := none
  /-- the next issue triggers no breakpoint and no watchpoint (R336) -/
  noDebug : Bool := false
  /-- SINGLE_STEPs that are due once the path goes on, behind waits that stepped instructions began: for each the lanes
  that were active (R337) -/
  stepDue : List Mask := []
  /-- V-form elements that have aborted and are back at `txend` (R174) -/
  parked : Mask := 0
  /-- V-form: transactions that the strand stands inside, whether or not an element is still in them (R174) -/
  nest : Nat := 0
  /-- lanes brought from a fault cut or launch point by R403, that have not repeated what raised the cause (R366) -/
  cut : List CutMark := []
  /-- lanes whose commit has failed while the path waits at `txend`, with their abort targets (R174) -/
  aborted : List (Nat × Word) := []
  /-- the path stands at a `txbegin` whose jN already holds its lanes (R177) -/
  queued : Bool := false
  /-- reads of the host window that its instruction makes are under way: the cycle of their answers, and their lanes
  (R437) -/
  asked : Option (Nat × Mask) := none
  deriving DecidableEq, Repr

/-- What a trap suspends (R361). -/
structure Suspended where
  paths : List Path
  run : Nat
  gave : Bool
  /-- index in `paths` of the path that trapped -/
  trapped : Nat
  /-- lanes of that path that performed the instruction -/
  done : Mask
  /-- the trapping lanes -/
  lanes : Mask
  /-- the lanes that `rett.next` takes past the instruction (R363, R381, R386, R411) -/
  skip : Mask
  /-- the trap came after the instruction, whose path stands at the next one (R337) -/
  after : Bool := false
  /-- cycles of the running path's turn so far (R27) -/
  turn : Nat := 0
  deriving DecidableEq, Repr

/-- Why a TG or strand stands halted (R337, R369). -/
inductive Halt where
  /-- waits for a command on an escalation record -/
  | escalated (inHandler : Bool)
  /-- an event that the debug port has claimed -/
  | debug
  deriving DecidableEq, Repr

/-- A value on its way to its destination (R444, R186). -/
structure Flight where
  fid : Nat
  /-- the cycle it returns; `none` while its matrix token is queued -/
  due : Option Nat
  /-- lane, register, value -/
  lanes : List (Nat × Nat × Word)
  sreg : Option (Nat × Dbl) := none
  deriving DecidableEq, Repr

/-- One instruction stream: a TG in T-form, a strand in V-form (R15, R29). -/
structure Thread where
  tgix : Nat
  strand : Bool := false
  slot : Nat := 0
  /-- s0 to s63; an unlisted one holds 0 -/
  sregs : Tbl Dbl := []
  /-- j0 to j15; an unlisted one is empty -/
  jregs : Tbl Mask := []
  paths : List Path := []
  /-- the lowest lane of the running path, or of the path that gave way last (R27) -/
  run : Nat := 0
  /-- that path has given way -/
  gave : Bool := false
  /-- cycles in which the running path has held the turn (R27, R444) -/
  turn : Nat := 0
  /-- the cycle from which a stalled path tries its instruction again (R186, R285) -/
  stalled : Nat := 0
  /-- cycle of the last issue -/
  last : Nat := 0
  /-- `yield` of a strand: it passes over its next issue slot (R135) -/
  gaveSlot : Bool := false
  /-- %cychi latch (R69) -/
  latch : Word := 0
  susp : Option Suspended := none
  /-- the handler's own paths, when it halts inside trap mode (R362, R372) -/
  inner : Option Suspended := none
  halt : Option Halt := none
  flights : List Flight := []
  deriving DecidableEq, Repr

/-- The states of R286. -/
inductive TxState where
  | out | queued | active | committing | irrev
  deriving DecidableEq, Repr

/-- One lane's transaction (R172 to R177, R279 to R288). -/
structure LaneTx where
  st : TxState := .out
  depth : Nat := 0
  /-- register of the abort cause (`vS`) -/
  vs : Nat := 0
  /-- abort target -/
  target : Word := 0
  /-- cycle of the outermost `txbegin` (R414) -/
  begun : Nat := 0
  /-- instructions executed irrevocably (R288) -/
  instrs : Nat := 0
  /-- read sectors: value by sector number -/
  reads : Tbl (BitVec 256) := []
  /-- write sectors: data and byte mask -/
  writes : Tbl (BitVec 256 × Word) := []
  /-- uncorrectable words of the logs: address / 4 (R406) -/
  bad : List Nat := []
  /-- the cycle of the `txend` that commits (R283) -/
  since : Nat := 0
  /-- the cycle of the first lock of this try of the commit -/
  firstLock : Option Nat := none
  /-- the sector whose lock was refused at the last restart -/
  refused : Option Nat := none
  consec : BitVec 8 := 0
  last : BitVec 8 := 0
  /-- an abort of the watchdog waits for the lane's next issue (R414) -/
  late : Bool := false
  deriving DecidableEq, Repr

/-- The trap-state registers of one canonical TG (R203, R360). -/
structure TrapRegs where
  cause : BitVec 8 := 0
  tm : Bool := false
  pc : BitVec 29 := 0
  mask : Word := 0
  tgix : BitVec 4 := 0
  addr : Dbl := 0
  iter : Word := 0
  form : Form := .t
  deriving DecidableEq, Repr

/-! ### The engines -/

/-- A word of a transfer held at a tag whose count is 0 (R192). -/
structure HeldWord where
  /-- the sending transfer, when it is one of this module, and the word's place in it -/
  xid : Option Nat
  pos : Nat := 0
  /-- its four bytes with their addresses -/
  bytes : List (Nat × Byte)
  deriving DecidableEq, Repr

/-- A channel tag (R192, R410). -/
structure Tag where
  count : Nat := 0
  /-- FAULT, with the recorded address -/
  fault : Option Dbl := none
  held : List HeldWord := []
  /-- 128-byte lines that transfers counted on the tag have written since a wait on it (R195) -/
  lines : List Nat := []
  /-- S-form: the record of the transfer port's token that raised the count last (R458) -/
  record : Nat := 0
  deriving DecidableEq, Repr

/-- What a matrix token does (R180, R182, R186, R187). -/
inductive MOp where
  | mma (z : Nat) (acc sc : Bool) (ta tb : BitVec 4) (k cba cbb a b c : Nat)
  | zld (z : Nat) (ty : BitVec 4) (addr stride : Nat)
  | zst (z : Nat) (ty : BitVec 4) (addr stride : Nat)
  /-- lane, column, register, row; the flight that carries the values -/
  | zrd (z : Nat) (dests : List (Nat × Nat × Nat × Nat)) (fid : Nat)
  /-- row, column, value -/
  | zwr (z : Nat) (vals : List (Nat × Nat × Word))
  | zclr (z : Nat)
  | cbld (slot addr : Nat)
  deriving DecidableEq, Repr

/-- A token of a matrix queue. -/
structure MTok where
  op : MOp
  /-- K groups still to enter the array (R185) -/
  left : Nat
  /-- the cycle from which they may enter, once the token stands first of those still to enter -/
  start : Option Nat := none
  /-- the cycle its last result is written, once every group has entered -/
  finish : Option Nat := none
  /-- the thread whose path issued it; every thread's once a strand has hopped to T-form (R188) -/
  tix : Option Nat
  /-- its last try failed on uncorrectable data (R409): TADDR of the cause -/
  failed : Option Dbl := none
  /-- the threads that a trap for it has gone to, and whether inside a handler: that trap's return has the token tried
  again -/
  told : List (Nat × Bool) := []
  /-- words of the scratchpad stored to while the token is queued: address, value before (R188) -/
  old : List (Nat × Word) := []
  deriving DecidableEq, Repr

/-- A throttle in force (R311). -/
structure Throttle where
  ends : Nat
  /-- a K group may enter from this cycle on -/
  next : Nat
  /-- a control token is accepted from this cycle on -/
  take : Nat := 0
  deriving DecidableEq, Repr

/-- Scratchpad, tiles, codebook slots, channel tags and matrix queue: what a workgroup holds on its
core, and what a tile of a fabric load holds (R16, R22, R235 to R237). -/
structure Pad where
  scratch : Memory := []
  /-- bytes of the allocation: `.scratch` rounded up to 4 KiB (R161) -/
  size : Nat := 0
  badSectors : List Nat := []
  /-- element `(i, j)` of tile `z` at key `1024 z + 32 i + j` -/
  z : Tbl Word := []
  badTiles : List Nat := []
  /-- loaded codebook slots, 32 bytes each -/
  cb : Tbl (BitVec 256) := []
  badSlots : List Nat := []
  tags : Tbl Tag := []
  queue : List MTok := []
  /-- cb4 product tables held, most recently used first (R185) -/
  pairs : List (Nat × Nat) := []
  /-- cycles of the last 256 in which a K group entered, newest first (R310) -/
  busy : List Nat := []
  throttle : Option Throttle := none
  deriving DecidableEq, Repr

/-- A declared burst (R205, R206). -/
structure Phase where
  onset : Nat
  stop : Nat
  int : Nat
  /-- the cycle in which it was performed (R312) -/
  since : Nat := 0
  /-- its onset has come: the burst is running -/
  running : Bool := false
  /-- saved by pre-emption: `onset` and `stop` are the cycles that remain (R207) -/
  held : Bool := false
  deriving DecidableEq, Repr

/-- One level of a transfer (R190, R191). -/
structure Level where
  count : Nat
  start : Nat
  sstr : Int
  dstr : Int
  scirc : Bool
  dcirc : Bool
  deriving DecidableEq, Repr

/-- Who issued a transfer, or holds a pad: a workgroup, or a tile of a launch in S-form. -/
inductive PadOwner where
  | workgroup (wid : Nat)
  | tile (lid tile : Nat)
  deriving DecidableEq, Repr

/-- A counted group that has been read and has not landed: for each element its bytes, its destination and, for a global
destination, the physical address (R191, R410). -/
structure ReadGroup where
  group : Nat
  els : List (List Byte × Nat × Nat)
  deriving DecidableEq, Repr

/-- A word sent to a receiver and not yet landed there: its place in loop order (twice the group, plus the word of the
group), the receiver's offset, and the port that a word for another module left by (R328). -/
structure SentWord where
  pos : Nat
  off : Nat
  port : Option Nat
  deriving DecidableEq, Repr

/-- A transfer under way (R193, R410). -/
structure Transfer where
  xid : Nat
  owner : PadOwner
  lid : Nat
  ch : Nat
  src : Nat
  dst : Nat
  ssp : Nat
  dsp : Nat
  esz : Nat
  peer : Nat
  rtag : Nat
  /-- receiving member: gang member (DSP 2) or workgroup index (DSP 3) -/
  member : Nat
  levels : List Level
  /-- counted groups not yet read, in loop order -/
  todo : List Nat
  /-- groups read and not yet landed: they land in any order -/
  ready : List ReadGroup := []
  /-- words sent to a receiver and not yet landed there, oldest first -/
  sent : List SentWord := []
  /-- words landed at a receiver of this module whose acknowledgement is on its way -/
  acks : Nat := 0
  /-- recorded address, and the words that will not land -/
  stop : Option (Dbl × Nat) := none
  start : Nat := 0
  deriving DecidableEq, Repr

/-! ### Workgroups -/

/-- A pending hop (R54). -/
structure HopReq where
  form : Form
  /-- the id of the equivalence point at which it is being carried out -/
  point : Option Nat := none
  /-- the cycle the hop completes, once every TG has reached the point (R56) -/
  due : Option Nat := none
  /-- the first cycle in which it may begin: the one after the Percolator's proposal, which a `setsr` of HOPCTL in the
  same cycle discards (R204) -/
  from_ : Nat := 0
  deriving DecidableEq, Repr

/-- A placed workgroup in T-form or V-form (R16, R22, R201). -/
structure Workgroup where
  lid : Nat
  w : Nat
  core : Nat
  /-- the cycle in which it was placed on its core (R301) -/
  placedAt : Nat := 0
  /-- it is being pre-empted: its TGs stop at instruction boundaries (R302) -/
  saving : Bool := false
  /-- physical address of its context save frame (R303, R397) -/
  frame : Nat := 0
  /-- offset of its scratchpad allocation in the core's portion (R248) -/
  base : Nat := 0
  strand : Bool := false
  ntg : Nat := 1
  nvregs : Nat := 1
  /-- the TG slot of each canonical TG (R298) -/
  slots : List Nat := []
  /-- lane register `r` of lane `l` at key `256 l + r`; an unlisted one holds 0 -/
  v : Tbl Word := []
  /-- k1 to k7, one bit for each lane; an unlisted one holds 0 -/
  k : Tbl Mask := []
  /-- lanes that have exited -/
  exited : Mask := 0
  tx : Tbl LaneTx := []
  threads : List Thread := []
  pad : Pad := {}
  fairt : Half := 256
  fpflags : BitVec 5 := 0
  skey : Word := 0
  rm : BitVec 3 := 0
  txctl : BitVec 8 := 8
  tvec : BitVec 29 := 0x1FFFFFFF
  phase : Option Phase := none
  hop : Option HopReq := none
  traps : Tbl TrapRegs := []
  /-- lanes whose outstanding read of the host window stays unanswered (R437) -/
  linkFails : List Nat := []
  /-- register words that hold uncorrectable data (R408): operand code, lane, thread or TG; s registers by 32-bit word,
  the upper one at code + 0x200; join register n at 0x200 + n -/
  badRegs : List (Nat × Nat) := []
  deriving DecidableEq, Repr

/-! ### The spatial fabric -/

/-- A token of a channel: data, or a marker (R213, R214, R458). -/
inductive Token where
  | data (data : Word) (tag mark : BitVec 4) (record : Nat)
  | marker
  deriving DecidableEq, Repr

/-- An input channel with its edge buffer (R225, R228, R241). -/
structure Channel where
  toks : List Token := []
  cfg : Dbl := 0
  /-- the edge buffer is still allocated -/
  buffered : Bool := false
  /-- the cycle after which it last took a packet, plus one (R226) -/
  took : Nat := 0
  /-- the cycle after which places were last freed, plus one, and how many: free from the next cycle on (R221) -/
  freed : Nat × Nat := (0, 0)
  /-- freed places whose credit a hot region's router holds, by the region cycle of its return (R313) -/
  held : List Nat := []
  deriving DecidableEq, Repr

/-- Where a staged packet must still go: a channel of the tile, or the tile's router. -/
inductive Dest where
  | chan (unit input : Nat)
  | router
  deriving DecidableEq, Repr

/-- A staging register (R215, R221, R225). -/
structure Staging where
  toks : List Token := []
  dests : List Dest := []
  /-- the cycle it was filled -/
  filled : Nat := 0
  cfg : Word := 0
  deriving DecidableEq, Repr

/-- A fault register (R365, R417, R423). -/
structure NodeFault where
  cause : Cause
  detail : Nat
  record : Nat
  iter : Word
  addr : Dbl
  tile : Nat
  unit : Nat
  /-- canonical PC of the node's site, and the cycle -/
  cpc : Word
  cycle : Nat
  deriving DecidableEq, Repr

/-- An access of a memory node under way, or its completion still to be sent (R233). -/
structure NodeAccess where
  value : Option Word
  tag : BitVec 4
  mark : BitVec 4
  record : Nat
  due : Nat
  /-- it has been performed, and its completion token is owed or sent -/
  performed : Bool := false
  deriving DecidableEq, Repr

/-- A unit of a tile: element, steer, merge, repeat, generator, memory, matrix, owner, transfer port
(R224). Fields that a kind of unit does not have stay at their initial value. -/
structure FUnit where
  q0 : Dbl := 0
  q1 : Dbl := 0
  ins : List Channel := []
  outs : List Staging := []
  /-- element: slot words and triggers -/
  slots : List (Word × Word) := []
  lits : List Word := []
  regs : List Word := []
  preds : BitVec 8 := 0
  /-- for each slot, the cycles its trigger has held unfired (R220) -/
  held : Tbl Nat := []
  /-- slots that stopped at a marker, named by the SMARK entries of a hop's point (R58) -/
  marked : List Nat := []
  /-- firings of each slot since the load began (R50); a node counts at 31 -/
  fired : Tbl Nat := []
  /-- element: record of the token dequeued last (R458) -/
  last : Nat := 0
  /-- steer and merge: index FIFO of record, arm, end mark (kept at the steer) -/
  fifo : List (Nat × Bool × BitVec 4) := []
  /-- steer: record counter; generator: offsets emitted in the pass; repeat: emissions of the block to come -/
  counter : Nat := 0
  /-- merge: window of arm tokens in arrival order -/
  window : List (Bool × Token) := []
  /-- repeat: the stored block, newest last; whether it is complete -/
  block : List Token := []
  whole : Bool := false
  /-- repeat: tokens still to emit; count token's record -/
  emit : List Token := []
  /-- generator: the pass under way: base, record, end mark of the gate token -/
  pass : Option (Word × Nat × Option (BitVec 4)) := none
  /-- the ungated pass has been made -/
  passed : Bool := false
  /-- memory node: a read of the host window is under way: the cycle of its answer, and whether the link has gone down since
  (R437) -/
  asked : Option (Nat × Bool) := none
  /-- memory node: access under way -/
  access : Option NodeAccess := none
  /-- owner, transfer port: first tokens taken -/
  taken : List Token := []
  /-- matrix node: `zrd` columns still to emit -/
  columns : List Token := []
  /-- completion tokens still to send -/
  owed : List Token := []
  /-- a SINK has finished the work of a token with end mark 15 (R238) -/
  finished : Bool := false
  /-- a latched fault: the unit takes no more tokens -/
  faulted : Bool := false
  /-- stopped at a marker (R214) -/
  stopped : Bool := false
  deriving DecidableEq, Repr

/-- A packet in a router (R226): tokens and route class. -/
structure Packet where
  toks : List Token
  cls : Nat
  /-- directions of its route entry still to be served: 0 local, 1 to 4 -/
  left : List Nat := []
  /-- the cycle it came -/
  came : Nat := 0
  deriving DecidableEq, Repr

/-- A tile of a fabric load (R224 to R226, R240). -/
structure FTile where
  core : Nat
  units : List FUnit := []
  routes : List Word := []
  /-- packets waiting at the router by port: 0 local, 1 north, 2 east, 3 south, 4 west -/
  ports : List (List Packet) := []
  /-- credits of packets that left, held in a hot region: port, places, region cycle of return (R313) -/
  credits : List (Nat × Nat × Nat) := []
  pad : Pad := {}
  deriving DecidableEq, Repr

/-- The states of a load (R423 STATE). -/
inductive LoadState where
  | loading | running | draining | freezing | frozen
  deriving DecidableEq, Repr

/-- Where the state of the records came from (R45, R57). -/
inductive EntryPoint where
  | entry
  | point (id : Nat)
  deriving DecidableEq, Repr

/-- A launch in S-form (R33, R57, R300, R365, R417 to R423). -/
structure Fabric where
  /-- index of the load in its graph -/
  load : Nat := 0
  /-- node-table entries of the load (R239), and index of its first fault cut in the equivalence table (R245) -/
  nfirst : Nat := 0
  ncount : Nat := 0
  cutBase : Nat := 0
  state : LoadState := .loading
  origin : Nat := 0
  width : Nat := 0
  height : Nat := 0
  tiles : List FTile := []
  /-- where the graph was entered, and the workgroups' state there -/
  entry : EntryPoint := .entry
  parked : List Workgroup := []
  /-- first record index of the load -/
  first : Nat := 0
  /-- cycles of streaming begun, of the last acknowledgement, of the first SINK token, of the first
  end mark 15 at a source (R343) -/
  t0 : Nat := 0
  /-- the cycles of streaming and of the last tile's acknowledgement to come; the steers' and other units' state is
  that of a saved load -/
  streamed : Nat := 0
  ackDue : Nat := 0
  resumed : Bool := false
  /-- the frames of its tiles (R303), and the sizes of those that it waits for (R397) -/
  frames : List (Nat × Nat) := []
  need : List Nat := []
  /-- the module cycle in which it took its tiles (R299) -/
  placedAt : Nat := 0
  t1 : Option Nat := none
  t2 : Option Nat := none
  t3 : Option Nat := none
  /-- kind-2 feeds: tile, element, input, tokens (R57) -/
  feeds : List (Nat × Nat × Nat × List Token) := []
  /-- region cycles without movement (R419) -/
  quiet : Nat := 0
  moved : Bool := false
  /-- latched causes that await delivery; the node fault that is reported -/
  faults : List NodeFault := []
  fault : Option NodeFault := none
  nflt : Nat := 0
  /-- records that have made a global store, atomic or owner update in the load (R403) -/
  stored : List Nat := []
  /-- the record at which a memory cause or a debug stop brings the load to positions -/
  stopAt : Option Nat := none
  /-- records with work left whose tokens were discarded there: they stand where the load began (R403) -/
  returned : List Nat := []
  /-- a hop out of S-form, or a save, drains by markers: target form, or none for a save -/
  drain : Option (Option Form) := none
  deriving DecidableEq, Repr

/-! ### Launches -/

/-- A load of a graph as it was read when the launch entered S-form (R392): the size of its region, its part of the node
table, and its tile records. -/
structure LoadPlan where
  width : Nat
  height : Nat
  nfirst : Nat
  ncount : Nat
  records : List (List Dbl)
  deriving DecidableEq, Repr

/-- A launch and what the strip keeps with it (R210, R291, R392). -/
structure Launch where
  part : Nat
  queue : Nat
  index : Nat
  /-- LID of R371 -/
  lidNo : Word := 0
  /-- the partition's BIND as stage 6 read it, and whether the launch is bound (R320, R329) -/
  bind : Half := 0
  bound : Bool := false
  pkt : List Dbl := []
  asid : Half := 0
  root : Nat := 0
  hdr : List Dbl := []
  eqs : List Dbl := []
  maps : List Dbl := []
  nodes : List Dbl := []
  /-- the context copy of the estimates: threaded, vector, spatial (R52) -/
  est : List Dbl := []
  thr : BitVec 8 := 12
  policy : BitVec 2 := 0
  form : Form := .t
  undecl : Dbl := 0
  eacc : Dbl := 0
  /-- nJ across all regions (R315) -/
  energy : Nat := 0
  /-- in S-form, canonical work since the last measurement, and `energy` then (R51) -/
  work : Nat := 0
  energyAt : Nat := 0
  /-- the cycle of the last begin or completion of a hop (R52) -/
  hopAt : Nat := 0
  /-- the cycle since which it runs in S-form (R52) -/
  spatialAt : Nat := 0
  /-- issue slots or firings lost to stalls, and all of them: counted in the interval, and in the one before; by region,
  or at key 64 in S-form (R51) -/
  stall : Tbl (Nat × Nat) := []
  stallOf : Tbl (Nat × Nat) := []
  /-- budget cycles used; counting has begun (R211) -/
  used : Nat := 0
  begun : Bool := false
  order : Nat := 0
  nextGang : Nat := 0
  /-- gangs that pre-emption sent back, ahead of the unplaced ones (R299) -/
  back : List Nat := []
  /-- placed gangs and the cycle of their placement -/
  placed : Tbl Nat := []
  retired : Nat := 0
  saved : List Workgroup := []
  savedFabric : Option Fabric := none
  /-- frames for leaving S-form that the launch holds, with their sizes (R399) -/
  reserved : List (Nat × Nat) := []
  /-- its start has been traced (R341) -/
  started : Bool := false
  /-- a pending hop to or from S -/
  hop : Option HopReq := none
  /-- workgroups parked at the launch point, the cycle the first one parked -/
  parked : List Workgroup := []
  parkedAt : Option Nat := none
  /-- no proposal to this form for so many intervals (R399) -/
  backoff : Nat := 0
  fabric : Option Fabric := none
  /-- the loads of its graph, read and judged when it entered S-form (R384, R392, R427) -/
  plans : List LoadPlan := []
  /-- a placement in S-form waits for a rectangle, since a cycle -/
  wantsFabric : Option Nat := none
  sflags : BitVec 5 := 0
  phase : Option Phase := none
  deriving DecidableEq, Repr

/-! ### Partitions -/

/-- A record that waits to be written to the escalation ring, and what it halts (R369 to R372). -/
structure EscRecord where
  doubles : List Dbl
  /-- launch; workgroup index and thread that stand halted -/
  lid : Nat
  target : Option (Nat × Nat)
  /-- a launch cause: only CMD 3 acts -/
  launchCause : Bool := false
  deriving DecidableEq, Repr

/-- The parts of an image that stage 4 reads (R392). -/
structure Image where
  hdr : List Dbl
  eqs : List Dbl
  maps : List Dbl
  nodes : List Dbl
  est : List Dbl
  deriving DecidableEq, Repr

/-- A packet in the strip's stages, or parked in the wait table (R296). -/
structure StripPacket where
  queue : Nat
  index : Nat
  /-- its TYPE (R292) -/
  type : Nat
  /-- where its queue's descriptor stood when stage 0 picked it, and where its slot stands (R320) -/
  qpa : Nat := 0
  slot : Nat := 0
  /-- empty until stage 1 has read the slot; a double that cannot be read is 0 here, and its number stands in `unread` -/
  doubles : List Dbl := []
  unread : List Nat := []
  /-- the buffer-list entries that stage 2 has read: BASE and Q1 (R295) -/
  bufs : List (Dbl × Dbl) := []
  asid : Half
  root : Nat
  /-- the image that stage 4 has read (R392) -/
  image : Option Image := none
  /-- a COPY's words still to move, once it has begun -/
  todo : Option (List Nat) := none
  /-- its work is done; stage 7 completes it -/
  done : Bool := false
  deriving DecidableEq, Repr

/-- What the Barista strip of its die holds for a partition (R291, R296, R297, R394). -/
structure Strip where
  awake : Bool := false
  last : Nat := 255
  /-- the cycle in which stage 0 last picked a queue -/
  servedAt : Nat := 0
  /-- the packets in stages 1 to 6, by stage -/
  stages : Tbl StripPacket := []
  parked : List StripPacket := []
  /-- queues that reasons 7 or 8 have refused -/
  refused : List Nat := []
  /-- packets started and not completed -/
  running : List StripPacket := []
  deriving DecidableEq, Repr

/-- A gang placement under way (R299). -/
structure Placing where
  lid : Nat
  gang : Nat
  /-- the gang has not been placed before -/
  fresh : Bool
  cores : List Nat
  frames : List Nat
  due : Nat
  deriving DecidableEq, Repr

/-- What a partition holds (R317, R319). -/
structure Resources where
  cores : List Nat := []
  slices : List Nat := []
  ways : Half := 0
  pairs : Word := 0
  home : List Byte := []
  /-- save pool: physical base, 64 KiB units -/
  save : Nat := 0
  saven : Nat := 0
  /-- bandwidth share in 64ths -/
  bwsh : Nat := 0
  deriving DecidableEq, Repr

/-- A hard partition (R317, R319, R340, R370). -/
structure Partition where
  /-- PD0 to PD7; PD6 holds THERM, STATUS and BUSY -/
  pd : List Dbl := [0, 0, 0, 0, 0, 0, 0, 0]
  /-- ED0 to ED2 -/
  ed : List Dbl := [0, 0, 0]
  /-- TD0 to TD3 -/
  td : List Dbl := [0, 0, 0, 0]
  res : Resources := {}
  /-- the resources that a CMD 1 under way brings in, once checked (R321, R435) -/
  next : Option Resources := none
  /-- locked sectors that it still has to move to their new homes: sector, holder's workgroup and lane (R321) -/
  moving : Option (List (Nat × Nat × Nat)) := none
  /-- that command has seen a launch end (R435 STATUS 4) -/
  lost : Bool := false
  /-- progress token: holder, then the requests in order: workgroup, lane -/
  tokenHolder : Option (Nat × Nat) := none
  tokenQueue : List (Nat × Nat) := []
  nextLid : Word := 0
  nextOrder : Nat := 0
  strip : Strip := {}
  placing : Option Placing := none
  /-- the launch that stands first and has failed to place, since a cycle -/
  firstFailed : Option (Nat × Nat) := none
  blocked : Bool := false
  escPending : List EscRecord := []
  escWritten : Tbl EscRecord := []
  supervisorIrq : Bool := false
  idle : Nat := 0
  /-- shared counters: closed window's value not yet readable, and the readable one -/
  windows : Tbl (Nat × Nat) := []
  /-- the idle energy account when the window under way began -/
  idleAt : Nat := 0
  thermalIrq : Bool := false
  deriving DecidableEq, Repr

/-! ### Cores, regions, the rest of the module -/

/-- An entry of a coalescing buffer (R250): masked bytes of one 128-byte line, by physical address. -/
structure CbEntry where
  line : Nat
  bytes : Tbl Byte
  born : Nat
  /-- its uncorrectable sectors (R406) -/
  bad : List Nat := []
  deriving DecidableEq, Repr

/-- A core (R201, R203, R247 to R250, R337). -/
structure Core where
  spu : Nat := 0
  /-- the last cycle in which its matrix unit took a K group (R309) -/
  mxLast : Option Nat := none
  /-- L1: 32-byte sectors by sector number -/
  l1 : Tbl (BitVec 256) := []
  /-- its uncorrectable sectors (R406) -/
  badL1 : List Nat := []
  cb : List CbEntry := []
  /-- a write to the host window was dropped and no system release has waited on it since (R437) -/
  dropped : Bool := false
  /-- instruction cache: words by physical address -/
  icache : Tbl Dbl := []
  bp : List Dbl := [0, 0, 0, 0, 0, 0, 0, 0]
  wp : List Dbl := [0, 0, 0, 0]
  dbg : Dbl := 0
  mbox : List Dbl := [0, 0, 0, 0, 0, 0, 0, 0]
  deriving DecidableEq, Repr

/-- A trace record whose walk waits: its partition, its SEQ and its bytes (R285, R341). -/
structure WaitingTrace where
  part : Nat
  seq : Word
  bytes : List Byte
  deriving DecidableEq, Repr

/-- A voltage/frequency region with its controller (R305 to R311, R423, R433). -/
structure Region where
  step : BitVec 4 := 0
  band : BitVec 3 := 0
  boost : Word := 0
  slotdly : BitVec 8 := 8
  minstep : BitVec 4 := 0
  sstep : BitVec 4 := 0
  /-- raise of the sustained step by the power response, 0 to 12 (R430) -/
  raise : Nat := 0
  /-- STEP 12 or higher is forced (R430) -/
  forced : Bool := false
  /-- one STEP more until the voltage is ready at this cycle (R308) -/
  settling : Option Nat := none
  /-- the cycle in which the regulator began to move -/
  movedAt : Nat := 0
  /-- RESTAT KIND and COUNT -/
  stopKind : BitVec 2 := 0
  stops : BitVec 8 := 0
  /-- region cycles, and the fraction of the next in sixteenths -/
  cycles : Nat := 0
  frac : Nat := 0
  /-- the measuring interval: its first cycle and that of the interval before, slot-cycles by launch and by core,
  canonical work by launch (R51, R314) -/
  intervalStart : Nat := 0
  intervalBefore : Nat := 0
  slotCycles : Tbl Nat := []
  coreCycles : Tbl Nat := []
  workOf : Tbl Nat := []
  /-- region cycles of the interval in which a launch stood on the region, and the launches that stood there throughout
  the interval before (R52) -/
  present : Tbl Nat := []
  ran : List Nat := []
  /-- cycle of the last matrix start (R309) -/
  lastStart : Option Nat := none
  /-- trace: SEQ and dropped records (R341, R416) -/
  seq : Word := 0
  dropped : Nat := 0
  /-- records whose walk waits at a locked table sector, oldest first (R285, R342) -/
  traceWait : List WaitingTrace := []
  /-- the read-out of R423 -/
  rcstat : Dbl := 0
  rcsel : Dbl := 0
  /-- RCUNIT and RCBUF of each tile and unit, at key 32 tile + unit -/
  rcunits : Tbl (Dbl × Dbl) := []
  rcflt : List Dbl := [0, 0, 0]
  /-- the partition of the load that the read-out tells of -/
  rcpart : Nat := 0
  deriving DecidableEq, Repr

/-- Where an access's translation is looked up (R255, R259). -/
structure Space where
  part : Nat
  asid : Half
  root : Nat
  core : Nat
  deriving DecidableEq, Repr

/-- A leaf that a translation cache holds (R259). -/
structure TlbEntry where
  part : Nat
  asid : Half
  /-- level of the leaf: 0, 1 or 2 -/
  level : Nat
  /-- virtual page number at that size -/
  page : Nat
  leaf : Dbl
  deriving DecidableEq, Repr

/-- An entry of a Carafe (R344, R442). -/
structure CarafeEntry where
  seq : Word
  kind : BitVec 8
  detail : BitVec 8
  region : Nat
  part : Nat
  cycle : Nat
  data : List Dbl
  deriving DecidableEq, Repr

/-- The black-box recorder of a die. -/
structure Carafe where
  seq : Word := 0
  entries : List CarafeEntry := []
  deriving DecidableEq, Repr

/-- A Ziern link port (R438). That every port is up right after reset is a DESIGN CHOICE (log 32): the spec gives its state
there nowhere. -/
structure Port where
  up : Bool := true
  /-- the cycles of the last failed retrainings, newest first -/
  fails : List Nat := []
  deriving DecidableEq, Repr

/-- What the cores of the Iavis cluster run (R1, R331): nothing before step 2, the first stage on core 0 in it, the firmware
in step 3, and the resident kernel once it has enabled the host link. Their programs are no part of the spec (log 80). -/
inductive IavisImage where
  | nothing | firstStage | firmware | kernel
  deriving DecidableEq, Repr

/-- Boot state (R331, R439 to R441). -/
structure Boot where
  state : BitVec 4 := 0
  step : BitVec 4 := 0
  code : BitVec 8 := 0
  /-- what the I/O die's 16 MiB staging SRAM holds (R331, R440) -/
  sram : Memory := []
  /-- the boot has failed, and the boot ROM recovers (R440) -/
  recovery : Bool := false
  /-- what the Iavis cluster runs -/
  iavis : IavisImage := .nothing
  /-- the Iavis cluster's four root ports that are up (R1, step 2) -/
  rootPorts : BitVec 4 := 0
  /-- MR0 to MR2 -/
  mr : List (BitVec 384) := [0, 0, 0]
  /-- the strips are configured from ROM (step 4) -/
  strips : Bool := false
  /-- fused: minimum image version, integrity of the secret; that the secret is good before anything has struck it is a
  DESIGN CHOICE (log 32) -/
  minVersion : Nat := 0
  secretGood : Bool := true
  deriving DecidableEq, Repr

/-- What leaves the module towards an outside agent; the newest first. -/
inductive Output where
  | hostData (data : List Byte)
  | completerAbort
  /-- Configuration Request Retry Status (R331) -/
  | configurationRetry
  | msix (part vector : Nat)
  | supervisorInterrupt (part : Nat)
  | thermalInterrupt (part : Nat)
  | report (data : List Byte) (signature : BitVec 768)
  | noReport
  | peerWord (port : Nat) (word : PeerWord)
  /-- a write that the home slice forwards to the host link or a peer port (R258) -/
  | windowWrite (pa : Nat) (data : List Byte)
  /-- an atomic that it forwards, as a PCI Express AtomicOp or its peer-link equivalent (R258): operation of R164, bytes,
  operand, comparand -/
  | windowAtomic (pa aop bytes operand comparand : Nat)
  /-- a guest's interrupt for a completion word (R326) -/
  | completionInterrupt (part : Nat)
  | peerData (data : List Byte)
  /-- a peer's read has met uncorrectable data (R408) -/
  | peerError
  /-- a received word has landed, or is refused (R438) -/
  | peerAnswer (landed : Bool)
  | poweredOff
  deriving DecidableEq, Repr

/-- An access from outside that has arrived at the module (R272, R390). -/
inductive Arrival where
  | hostRead (addr bytes : Nat)
  | hostWrite (addr : Nat) (data : List Byte)
  | peer (addr : Nat) (access : PeerAccess)
  deriving DecidableEq, Repr

/-- What the next steps issue: a path of a thread, or a slot of an element; and what ends the cycle. -/
inductive IssueItem where
  | thread (wid tix : Nat)
  | slot (lid tile elem slot : Nat)
  /-- the quiescence detector of a load, which judges a cycle once all of it has been done (R420, R421) -/
  | detector (lid : Nat)
  deriving DecidableEq, Repr

/-- What an instruction being executed runs for. -/
inductive Cursor where
  | none
  | thread (wid tix : Nat) (word : Dbl)
  | slot (lid tile elem slot : Nat)
  deriving DecidableEq, Repr

/-- The module. -/
structure State where
  cycle : Nat
  /-- the MODEL's own counter of the free values read (log 2) -/
  tick : Nat
  /-- the MODEL's own: events due now, instructions chosen for this cycle, and the acts of the outside
  world to come, each with its cycle (log 3) -/
  agenda : List Instr
  issue : List IssueItem
  inputs : List (Nat × Instr)
  cur : Cursor
  out : List Output
  mem : Memory
  badMem : List Nat
  /-- writes of device agents on their way to the slices, oldest first: physical address and bytes (R285, R340) -/
  deferred : List (Nat × List Byte)
  /-- relaxed stores of device agents whose walk waits at a locked table sector: where, virtual address and bytes (R52,
  R285) -/
  unwalked : List (Space × Nat × List Byte)
  /-- locked sectors: sector number, holder's workgroup and lane -/
  locks : List (Nat × Nat × Nat)
  tlb : List TlbEntry
  cores : Tbl Core
  regions : Tbl Region
  carafes : Tbl Carafe
  /-- the copies of the Carafes on on-package flash (R430) -/
  flash : Tbl Carafe
  parts : Tbl Partition
  launches : Tbl Launch
  wgs : Tbl Workgroup
  transfers : Tbl Transfer
  /-- the next identifiers of the MODEL -/
  nextId : Nat
  rank : BitVec 12
  /-- rank route table: entries that are not 0 -/
  routes : Tbl Byte
  ports : Tbl Port
  /-- words of peers for workgroups that are saved or not yet placed, in the order in which they came (R438) -/
  heldWords : List PeerWord
  /-- accesses from outside that wait for a locked sector, in the order in which they came (R272, R285) -/
  arrivals : List Arrival
  linkEnabled : Bool
  linkUp : Bool
  /-- dies whose stacked DRAM is bypassed (R434), and those under a thermal cap (R324) -/
  bypassed : List Nat
  capped : List Nat
  boot : Boot
  frozen : Bool
  powered : Bool
  deriving DecidableEq, Repr

/-- Why a step stops with a fault. -/
inductive Fault where
  /-- Raised by `exec` on an instruction of T-form or V-form when no path is issuing. Safe: `step`
  executes such an instruction only for a path that issues it. -/
  | noIssuingPath
  /-- Raised by `exec` on a slot operation when no element fires. Safe: `step` executes a slot
  operation only for an element that fires it. -/
  | noFiringElement
  deriving DecidableEq, Repr

/-- Why a step refuses. -/
inductive Refusal where
  /-- Raised by a dispatch arm of an instruction that has no meaning yet. Safe. -/
  | notModelled (mnemonic : String)
  deriving DecidableEq, Repr

/-- The outcome of a meaning. -/
abbrev Out := Host.Outcome State Fault Refusal

/-- The module right after reset (R10): nothing placed, every register at its reset value, memory with
nothing listed. -/
def State.reset : State where
  cycle := 0
  tick := 0
  agenda := []
  issue := []
  inputs := []
  cur := .none
  out := []
  mem := []
  badMem := []
  deferred := []
  unwalked := []
  locks := []
  tlb := []
  cores := []
  regions := []
  carafes := []
  flash := []
  parts := []
  launches := []
  wgs := []
  transfers := []
  nextId := 0
  rank := 0
  routes := []
  ports := []
  heldWords := []
  arrivals := []
  linkEnabled := false
  linkUp := false
  bypassed := []
  capped := []
  boot := {}
  frozen := false
  powered := true

end Sys2Proof.Machine
end

