-- ==== Sys2Proof/Machine/Table.lean ====
section
/-! DEFINITION. Sparse tables and memories in canonical form, little-endian access to them, and the
bit-field helpers of spec/00_scope.md (R6, R8, R14). -/

namespace Sys2Proof.Machine

/-- The value at a key, if one is listed. -/
def tfind {α : Type} : Tbl α → Nat → Option α
  | [], _ => none
  | (i, x) :: t, k => if i = k then some x else tfind t k

/-- The value at a key, or a default. -/
def tget {α : Type} (d : α) (m : Tbl α) (k : Nat) : α := (tfind m k).getD d

/-- List a value at a key, keeping keys rising. -/
def tset {α : Type} : Tbl α → Nat → α → Tbl α
  | [], k, x => [(k, x)]
  | (i, y) :: t, k, x =>
    if k < i then (k, x) :: (i, y) :: t else if k = i then (k, x) :: t else (i, y) :: tset t k x

/-- Remove a key. -/
def terase {α : Type} : Tbl α → Nat → Tbl α
  | [], _ => []
  | (i, y) :: t, k => if i = k then terase t k else (i, y) :: terase t k

/-- Write a value; the default is not listed. -/
def tput {α : Type} [DecidableEq α] (d : α) (m : Tbl α) (k : Nat) (x : α) : Tbl α :=
  if x = d then terase m k else tset m k x

/-- Change the entry at a key, if it is listed. -/
def tmod {α : Type} (m : Tbl α) (k : Nat) (f : α → α) : Tbl α :=
  match tfind m k with
  | some x => tset m k (f x)
  | none => m

/-- What a byte that nothing has written reads as (log 1). -/
def unwritten : Byte := 0

/-- One byte of a memory. -/
def memByte (m : Memory) (a : Nat) : Byte := tget unwritten m a

/-- Write one byte of a memory. -/
def memPut (m : Memory) (a : Nat) (b : Byte) : Memory := tput unwritten m a b

/-- The canonical form: addresses strictly rising, and no entry equal to what an unlisted address
reads as. -/
def Memory.wf (m : Memory) : Bool :=
  decide (List.Pairwise (fun x y : Host.Cell => x.1 < y.1) m) && m.all (fun x => x.2 != unwritten)

/-- The `n` bytes at `a`, little-endian (R8). -/
def readLE (m : Memory) (a : Nat) : Nat → Nat
  | 0 => 0
  | n + 1 => (memByte m a).toNat + 256 * readLE m (a + 1) n

/-- Write the low `n` bytes of a value at `a`, little-endian (R8). -/
def writeLE (m : Memory) (a : Nat) : Nat → Nat → Memory
  | 0, _ => m
  | n + 1, v => writeLE (memPut m a (BitVec.ofNat 8 v)) (a + 1) n (v / 256)

/-- Write a list of bytes from `a` on. -/
def writeBytes (m : Memory) (a : Nat) : List Byte → Memory
  | [] => m
  | b :: t => writeBytes (memPut m a b) (a + 1) t

/-- The cells of the bytes `f 0` to `f (n - 1)` from `a` on. -/
def cellsOf (f : Nat → Byte) (a n : Nat) : Memory :=
  (List.range n).filterMap fun i => if f i = unwritten then none else some (a + i, f i)

/-- Write the bytes `f 0` to `f (n - 1)` from `a` on. -/
def fillBlock (m : Memory) (a n : Nat) (f : Nat → Byte) : Memory :=
  (m.filter fun x => decide (x.1 < a)) ++ cellsOf f a n ++ m.filter fun x => decide (a + n ≤ x.1)

/-- The cells of `[lo, hi)` by their offsets. -/
def cutBlock (m : Memory) (lo hi : Nat) : Memory :=
  (m.filter fun x => decide (lo ≤ x.1) && decide (x.1 < hi)).map fun x => (x.1 - lo, x.2)

/-- The 32-bit words of a list of cells, little-endian, by word offset. -/
def wordsOf (m : Memory) : Tbl (BitVec 32) :=
  m.foldl (fun (z : Tbl (BitVec 32)) (x : Nat × Byte) =>
    tput 0 z (x.1 / 4) (tget 0 z (x.1 / 4) ||| (x.2.zeroExtend 32) <<< (8 * (x.1 % 4)))) []

/-- The `n` bytes from `a` on, in order. -/
def readBytes (m : Memory) (a : Nat) : Nat → List Byte
  | 0 => []
  | n + 1 => memByte m a :: readBytes m (a + 1) n

/-- x[hi:lo] of R6, as a number. -/
def fld {n : Nat} (x : BitVec n) (hi lo : Nat) : Nat := x.toNat / 2 ^ lo % 2 ^ (hi + 1 - lo)

/-- x[i] of R6. -/
def bitAt {n : Nat} (x : BitVec n) (i : Nat) : Bool := x.getLsbD i

/-- x[hi:lo] of a number. -/
def nfld (x hi lo : Nat) : Nat := x / 2 ^ lo % 2 ^ (hi + 1 - lo)

/-- low(x, n) of R14, for exact integers. -/
def lowInt (x : Int) (n : Nat) : Nat := (x % (2 ^ n : Nat)).toNat

/-- sext(x, n) of R14. -/
def sextNat (x n : Nat) : Int := if x % 2 ^ n < 2 ^ (n - 1) then (x % 2 ^ n : Nat) else (x % 2 ^ n : Nat) - (2 ^ n : Nat)

/-- clamp of R14. -/
def clampInt (x a b : Int) : Int := if x < a then a else if x > b then b else x

/-- Round up to a multiple. -/
def roundUp (x m : Nat) : Nat := (x + m - 1) / m * m

/-- The number of bits of a number: 0 for 0. -/
def bitLen (x : Nat) : Nat := if x = 0 then 0 else Nat.log2 x + 1

/-- The ones of a number among its low `n` bits. -/
def popCount (x : Nat) : Nat → Nat
  | 0 => 0
  | n + 1 => popCount x n + (if x.testBit n then 1 else 0)

/-- A mask with one bit for each listed lane. -/
def maskOf (l : List Nat) : Mask := l.foldl (fun m i => m ||| BitVec.ofNat 512 (2 ^ i)) 0

/-- The lanes of a mask among `n` lanes from `lo` on, ascending. -/
def lanesFrom (m : Mask) (lo n : Nat) : List Nat := (List.range' lo n).filter m.getLsbD

/-- The lanes of a mask, ascending, by the TGs that hold any. -/
def lanesOf (m : Mask) : List Nat :=
  (List.range 16).flatMap fun g => if fld m (32 * g + 31) (32 * g) = 0 then [] else lanesFrom m (32 * g) 32

/-- The lowest lane of a mask, 512 when it is empty. -/
def lowestLane (m : Mask) : Nat := if m = 0 then 512 else Nat.log2 (m &&& -m).toNat

/-- Replace one element of a list. -/
def setAt {α : Type} (l : List α) (i : Nat) (x : α) : List α := l.set i x

/-- The doubles of `n` consecutive 8-byte units. -/
def readDoubles (m : Memory) (a : Nat) : Nat → List Dbl
  | 0 => []
  | n + 1 => BitVec.ofNat 64 (readLE m a 8) :: readDoubles m (a + 8) n

end Sys2Proof.Machine
end

