-- ==== Sys2Proof/Machine/Numeric.lean ====
section
/-! DEFINITION. Floating-point formats, exact values and rounding: spec/05_number_formats.md, R105 to
R119. Exact values are dyadic numbers, with a mark for a remainder below the last place. -/

namespace Sys2Proof.Machine

/-- A floating-point format (R105): total bits, exponent bits, fraction bits, bias, whether it has
infinities. -/
structure FFmt where
  bits : Nat
  ebits : Nat
  fbits : Nat
  bias : Nat
  hasInf : Bool
  deriving DecidableEq, Repr

def fmtF32 : FFmt := ⟨32, 8, 23, 127, true⟩
def fmtF16 : FFmt := ⟨16, 5, 10, 15, true⟩
def fmtBf16 : FFmt := ⟨16, 8, 7, 127, true⟩
def fmtE5m2 : FFmt := ⟨8, 5, 2, 15, true⟩
def fmtE4m3 : FFmt := ⟨8, 4, 3, 7, false⟩

/-- An exact value: not a number, infinite, or `±(m + r) 2^e` with `0 < r < 1` when `sticky`, `r = 0`
otherwise. -/
inductive XVal where
  | nan
  | inf (neg : Bool)
  | fin (neg : Bool) (m : Nat) (e : Int) (sticky : Bool)
  deriving DecidableEq, Repr

/-- The flags of R119, at the bits of FPFLAGS (R120). -/
abbrev FFlags := BitVec 5
def flagNV : FFlags := 0b10000
def flagDZ : FFlags := 0b01000
def flagOF : FFlags := 0b00100
def flagUF : FFlags := 0b00010
def flagNX : FFlags := 0b00001

/-- The canonical NaN of a format (R107). -/
def canonNaN (f : FFmt) : Nat :=
  if f.hasInf then (2 ^ f.ebits - 1) * 2 ^ f.fbits + 2 ^ (f.fbits - 1) else 2 ^ (f.bits - 1) - 1

/-- The code of an infinity. -/
def infCode (f : FFmt) (neg : Bool) : Nat :=
  (if neg then 2 ^ (f.bits - 1) else 0) + (2 ^ f.ebits - 1) * 2 ^ f.fbits

/-- The code of the largest finite value (R105). -/
def maxCode (f : FFmt) (neg : Bool) : Nat :=
  (if neg then 2 ^ (f.bits - 1) else 0) +
    (if f.hasInf then (2 ^ f.ebits - 1) * 2 ^ f.fbits - 1 else 2 ^ (f.bits - 1) - 2)

/-- The value of a code (R105, R106). -/
def decodeFloat (f : FFmt) (x : Nat) : XVal :=
  let neg := x.testBit (f.bits - 1)
  let e := nfld x (f.bits - 2) f.fbits
  let m := x % 2 ^ f.fbits
  if f.hasInf && e == 2 ^ f.ebits - 1 then (if m = 0 then .inf neg else .nan)
  else if !f.hasInf && e == 2 ^ f.ebits - 1 && m == 2 ^ f.fbits - 1 then .nan
  else if e = 0 then .fin neg m (1 - f.bias - f.fbits) false
  else .fin neg (2 ^ f.fbits + m) ((e : Int) - f.bias - f.fbits) false

/-- The rounding modes of R113, `.dyn` resolved. -/
inductive RMode where
  | rne | rz | rd | ru | rna | rs | sat
  deriving DecidableEq, Repr

/-- The mode a MOD value 0 to 6 names (R73, R113). -/
def modeOf : Nat → RMode
  | 1 => .rz | 2 => .rd | 3 => .ru | 4 => .rna | 5 => .rs | 6 => .sat | _ => .rne

/-- The keyed mixing function of R115. -/
def mix (key : Word) (idx : Nat) : Word :=
  let x := key ^^^ BitVec.ofNat 32 (idx * 0x9E3779B1)
  let x := x ^^^ (x >>> 16)
  let x := x * 0x7FEB352D
  let x := x ^^^ (x >>> 15)
  let x := x * 0x846CA68B
  x ^^^ (x >>> 16)

/-- What a rounding needs beside the value: mode, key, index, and the position of the source significand's last
place (R116; `none`: d is 32). -/
structure RCtx where
  mode : RMode
  key : Word := 0
  idx : Nat := 0
  source : Option (Int × Nat) := none
  deriving DecidableEq, Repr

/-- d of R116 for a last kept position `q`: of the places of the source's significand those below it (log 30). -/
def discarded (r : RCtx) (q : Int) : Nat :=
  match r.source with
  | none => 32
  | some (lsb, places) => min 32 (min places (q - lsb).toNat)

/-- `|x|` in units of `2^q`: the whole part, then the remainder as a fraction `rem / 2^k`. -/
def splitAt (m : Nat) (e q : Int) : Nat × Nat × Nat :=
  let k := (q - e).toNat
  if q ≥ e then (m / 2 ^ k, m % 2 ^ k, k) else (m * 2 ^ (e - q).toNat, 0, 0)

/-- Whether `hi` is chosen between the neighbours (R113, R116). -/
def roundsUp (r : RCtx) (neg : Bool) (lo rem k : Nat) (sticky : Bool) (q : Int) : Bool :=
  if rem = 0 && !sticky then false
  else
    let half := 2 ^ k
    let above := 2 * rem > half || (2 * rem = half && sticky)
    let tie := 2 * rem = half && !sticky
    match r.mode with
    | .rz => false
    | .rd => neg
    | .ru => !neg
    | .rna => above || tie
    | .rs =>
      let d := discarded r q
      let rest := rem * 2 ^ d / 2 ^ k
      (mix r.key r.idx).toNat / 2 ^ (32 - d) < rest
    | .rne | .sat => above || (tie && lo % 2 = 1)

/-- Whether the overflow result of R113 is the largest finite value. -/
def overflowsToMax (mode : RMode) (neg : Bool) : Bool :=
  match mode with
  | .rz | .sat => true
  | .rd => !neg
  | .ru => neg
  | _ => false

/-- round(x, f, m) of R113, with the flags of R119: UF asks that the rounded result is nonzero (DEDUCED, log 100). -/
def roundFloat (f : FFmt) (r : RCtx) : XVal → Nat × FFlags
  | .nan => (canonNaN f, 0)
  | .inf neg =>
    if r.mode = .sat then (maxCode f neg, flagNX)
    else if f.hasInf then (infCode f neg, 0) else (canonNaN f, flagNV)
  | .fin neg m e sticky =>
    let sgn := if neg then 2 ^ (f.bits - 1) else 0
    if m = 0 && !sticky then (sgn, 0)
    else
      let top := (bitLen m : Int) - 1 + e
      let q := max top (1 - (f.bias : Int)) - f.fbits
      let (lo, rem, k) := splitAt m e q
      let inexact := rem ≠ 0 || sticky
      let n := if roundsUp r neg lo rem k sticky q then lo + 1 else lo
      let (n, q) := if n = 2 ^ (f.fbits + 1) then (2 ^ f.fbits, q + 1) else (n, q)
      let maxE : Int := if f.hasInf then f.bias else f.bias + 1
      let maxM := if f.hasInf then 2 ^ (f.fbits + 1) - 1 else 2 ^ (f.fbits + 1) - 2
      let ex := q + f.fbits
      if n ≥ 2 ^ f.fbits && (ex > maxE || (ex = maxE && n > maxM)) then
        let res := if overflowsToMax r.mode neg then maxCode f neg
          else if f.hasInf then infCode f neg else canonNaN f
        (res, flagOF ||| flagNX)
      else
        let code := if n < 2 ^ f.fbits then n else ((ex + f.bias).toNat) * 2 ^ f.fbits + (n - 2 ^ f.fbits)
        let uf := inexact && n ≠ 0 && n < 2 ^ f.fbits
        (sgn + code, (if inexact then flagNX else 0) ||| (if uf then flagUF else 0))

/-- round to an integer type of `w` bits (R114). -/
def roundInteger (signed : Bool) (w : Nat) (r : RCtx) : XVal → Nat × FFlags
  | .nan => (0, flagNV)
  | .inf neg => (lowInt (if neg then (if signed then -(2 ^ (w - 1) : Nat) else 0)
      else (if signed then (2 ^ (w - 1) - 1 : Nat) else (2 ^ w - 1 : Nat))) w, flagNV)
  | .fin neg m e sticky =>
    let (lo, rem, k) := splitAt m e 0
    let n := if roundsUp r neg lo rem k sticky 0 then lo + 1 else lo
    let x : Int := if neg then -(n : Int) else n
    let mn : Int := if signed then -(2 ^ (w - 1) : Nat) else 0
    let mx : Int := if signed then (2 ^ (w - 1) - 1 : Nat) else (2 ^ w - 1 : Nat)
    if x < mn then (lowInt mn w, flagNV) else if x > mx then (lowInt mx w, flagNV)
    else (lowInt x w, if rem ≠ 0 || sticky then flagNX else 0)

/-! ### Exact arithmetic -/

/-- The exact value of an integer. -/
def xOfInt (x : Int) : XVal := .fin (x < 0) x.natAbs 0 false

/-- A signed mantissa brought to the exponent `e0 ≤ e`. -/
def scaled (neg : Bool) (m : Nat) (e e0 : Int) : Int :=
  let n : Int := (m * 2 ^ (e - e0).toNat : Nat)
  if neg then -n else n

/-- Sum of exact values: NaN with NV for opposite infinities (R144), zero signs by R108. -/
def xAdd (mode : RMode) : XVal → XVal → XVal × FFlags
  | .nan, _ => (.nan, 0)
  | _, .nan => (.nan, 0)
  | .inf a, .inf b => if a = b then (.inf a, 0) else (.nan, flagNV)
  | .inf a, _ => (.inf a, 0)
  | _, .inf b => (.inf b, 0)
  | .fin na ma ea _, .fin nb mb eb _ =>
    if ma = 0 && mb = 0 then
      (.fin (if na = nb then na else mode = .rd) 0 0 false, 0)
    else
      let e0 := min (if ma = 0 then eb else ea) (if mb = 0 then ea else eb)
      let x := (if ma = 0 then 0 else scaled na ma ea e0) + (if mb = 0 then 0 else scaled nb mb eb e0)
      if x = 0 then (.fin (mode = .rd) 0 0 false, 0) else (.fin (x < 0) x.natAbs e0 false, 0)

/-- Product of exact values: 0 × infinity is NaN with NV. -/
def xMul : XVal → XVal → XVal × FFlags
  | .nan, _ => (.nan, 0)
  | _, .nan => (.nan, 0)
  | .inf a, .inf b => (.inf (a != b), 0)
  | .inf a, .fin nb mb _ _ => if mb = 0 then (.nan, flagNV) else (.inf (a != nb), 0)
  | .fin na ma _ _, .inf b => if ma = 0 then (.nan, flagNV) else (.inf (na != b), 0)
  | .fin na ma ea _, .fin nb mb eb _ => (.fin (na != nb) (ma * mb) (ea + eb) false, 0)

/-- Invert the sign. -/
def xNeg : XVal → XVal
  | .nan => .nan
  | .inf n => .inf (!n)
  | .fin n m e s => .fin (!n) m e s

/-- Multiply by a power of two, exactly. -/
def xScale (k : Int) : XVal → XVal
  | .fin n m e s => .fin n m (e + k) s
  | x => x

/-- `a × b + c`, exact (R144): 0 × infinity gives NaN and NV even when `c` is a NaN. -/
def xFma (mode : RMode) (a b c : XVal) : XVal × FFlags :=
  let (p, f) := xMul a b
  if f ≠ 0 then (.nan, f) else
    let (s, f') := xAdd mode p c
    (s, f ||| f')

/-- Exact sum of products and a last term (R151): any NaN, 0 × infinity or opposite infinities give
NaN; the last two raise NV. -/
def xDot (mode : RMode) (ps : List (XVal × XVal)) (c : XVal) : XVal × FFlags :=
  let terms := ps.map fun p => xMul p.1 p.2
  let nv := terms.foldl (fun f t => f ||| t.2) 0
  let vals := terms.map (·.1) ++ [c]
  let pos := vals.any fun v => v == .inf false
  let neg := vals.any fun v => v == .inf true
  if nv ≠ 0 then (.nan, flagNV)
  else if pos && neg then (.nan, flagNV)
  else if vals.any (· == .nan) then (.nan, 0)
  else match vals with
    | [] => (.fin false 0 0 false, 0)
    | v :: t => (t.foldl (fun acc x => (xAdd mode acc x).1) v, 0)

/-- Quotient with a sticky remainder, correct to more than 90 places. -/
def xQuot (na : Bool) (ma : Nat) (ea : Int) (nb : Bool) (mb : Nat) (eb : Int) : XVal :=
  let s := 128 + bitLen mb
  let n := ma * 2 ^ s
  .fin (na != nb) (n / mb) (ea - eb - s) (n % mb ≠ 0)

/-- `a / b` with the special cases of R118. -/
def xDiv : XVal → XVal → XVal × FFlags
  | .nan, _ => (.nan, 0)
  | _, .nan => (.nan, 0)
  | .inf _, .inf _ => (.nan, flagNV)
  | .inf a, .fin nb _ _ _ => (.inf (a != nb), 0)
  | .fin na _ _ _, .inf b => (.fin (na != b) 0 0 false, 0)
  | .fin na ma ea _, .fin nb mb eb _ =>
    if mb = 0 then (if ma = 0 then (.nan, flagNV) else (.inf (na != nb), flagDZ))
    else if ma = 0 then (.fin (na != nb) 0 0 false, 0)
    else (xQuot na ma ea nb mb eb, 0)

/-- Integer square root, by digits: `fuel` bit pairs. -/
def isqrtAux : Nat → Nat → Nat → Nat
  | 0, _, r => r
  | k + 1, n, r => let t := r + 2 ^ k; isqrtAux k n (if t * t ≤ n then t else r)

/-- Integer square root. -/
def isqrt (n : Nat) : Nat := isqrtAux (bitLen n / 2 + 1) n 0

/-- Square root (R118). -/
def xSqrt : XVal → XVal × FFlags
  | .nan => (.nan, 0)
  | .inf false => (.inf false, 0)
  | .inf true => (.nan, flagNV)
  | .fin neg m e _ =>
    if m = 0 then (.fin neg 0 0 false, 0)
    else if neg then (.nan, flagNV)
    else
      let (m, e) := if e % 2 = 0 then (m, e) else (2 * m, e - 1)
      let n := m * 2 ^ 256
      let r := isqrt n
      (.fin false r (e / 2 - 128) (r * r ≠ n), 0)

/-- Reciprocal square root (R118). -/
def xRsqrt : XVal → XVal × FFlags
  | .nan => (.nan, 0)
  | .inf false => (.fin false 0 0 false, 0)
  | .inf true => (.nan, flagNV)
  | .fin neg m e _ =>
    if m = 0 then (.inf neg, flagDZ)
    else if neg then (.nan, flagNV)
    else
      let (m, e) := if e % 2 = 0 then (m, e) else (2 * m, e - 1)
      let n := 2 ^ 320
      let r := isqrt (n / m)
      (.fin false r (-(e / 2) - 160) (r * r * m ≠ n), 0)

/-- Order of two finite or infinite exact values: `a < b`, with −0 equal to +0. -/
def xLt : XVal → XVal → Bool
  | .nan, _ => false
  | _, .nan => false
  | .inf a, .inf b => a && !b
  | .inf a, _ => a
  | _, .inf b => !b
  | .fin na ma ea _, .fin nb mb eb _ =>
    let e0 := min ea eb
    scaled na ma ea e0 < scaled nb mb eb e0

/-- Equality of values, with −0 equal to +0; a NaN equals nothing. -/
def xEq : XVal → XVal → Bool
  | .nan, _ => false
  | _, .nan => false
  | a, b => !xLt a b && !xLt b a

/-- The sign of a value that is not a NaN. -/
def xSign : XVal → Bool
  | .nan => false
  | .inf n => n
  | .fin n _ _ _ => n

end Sys2Proof.Machine
end

