-- ==== Sys2Proof/Machine/Operands.lean ====
section
/-! DEFINITION. Operand codes, type codes and packed elements: R67 to R76, R109, R457. What an operand
reads as and what writing a destination does. -/

namespace Sys2Proof.Machine

/-! ### Type codes (R75, R109) -/

/-- i64 and n64. -/
def isWide (ty : BitVec 4) : Bool := ty == 0xD || ty == 0xE
/-- Types whose elements are read with sext (R124): i32, i16x2, i8x4, i64. -/
def isSigned (ty : BitVec 4) : Bool := ty == 1 || ty == 6 || ty == 8 || ty == 0xD
/-- Element width and element count (R109). -/
def elemShape (ty : BitVec 4) : Nat × Nat :=
  match ty.toNat with
  | 4 | 5 | 6 | 7 => (16, 2)
  | 8 | 9 | 10 | 11 => (8, 4)
  | 12 => (4, 8)
  | 13 | 14 => (64, 1)
  | _ => (32, 1)
/-- The floating-point format of a type's elements, if they have one. -/
def fmtOf (ty : BitVec 4) : Option FFmt :=
  match ty.toNat with
  | 3 => some fmtF32 | 4 => some fmtF16 | 5 => some fmtBf16 | 10 => some fmtE4m3 | 11 => some fmtE5m2
  | _ => none

/-- Element `j` of a value. -/
def elem (x : Nat) (w j : Nat) : Nat := x / 2 ^ (w * j) % 2 ^ w
/-- The elements of a value at a type. -/
def elems (ty : BitVec 4) (x : Nat) : List Nat :=
  let (w, n) := elemShape ty
  (List.range n).map (elem x w)
/-- Put elements of `w` bits together, element 0 lowest. -/
def joinElems (w : Nat) : List Nat → Nat
  | [] => 0
  | e :: t => e % 2 ^ w + 2 ^ w * joinElems w t

/-! ### Operand codes (R67) -/

def isV (x : Opnd) : Bool := x.toNat < 0x100
def isS (x : Opnd) : Bool := 0x100 ≤ x.toNat && x.toNat < 0x140
def isK (x : Opnd) : Bool := 0x140 ≤ x.toNat && x.toNat < 0x148
def isSpecial (x : Opnd) : Bool := 0x150 ≤ x.toNat && x.toNat < 0x160
def isImm (x : Opnd) : Bool := 0x180 ≤ x.toNat
def isReserved (x : Opnd) : Bool := !(isV x || isS x || isK x || isSpecial x || isImm x)
/-- `%zero`, which fills unused fields (R84). -/
def opZero : Opnd := 0x15E
/-- What a field that must be uniform may hold (R376). -/
def isUniform (x : Opnd) : Bool :=
  isS x || isImm x || x == 0x140 || (isSpecial x && x != 0x150 && x != 0x151)

/-- The class of codes that a source field takes. -/
inductive SrcKind where
  /-- every code that is not reserved -/
  | any
  /-- k0 to k7 -/
  | pred
  /-- a global base: an s register or a pair (R85) -/
  | base
  deriving DecidableEq, Repr

/-- A field that the instruction reads: its code, whether it is read as 64 bits, its class, and whether
it must be uniform. -/
structure Src where
  code : Opnd
  wide : Bool := false
  kind : SrcKind := .any
  uni : Bool := false
  /-- of an s register all 64 bits are read, whatever the width of another source -/
  whole : Bool := false
  deriving DecidableEq, Repr

/-- The class of codes that a destination field takes. -/
inductive DstKind where
  /-- a lane register, an s register or k1 to k7 -/
  | any
  /-- a lane register or an s register -/
  | reg
  | lane
  | pred
  /-- an s register or a pair (`movhi`, `lea`) -/
  | wideReg
  deriving DecidableEq, Repr

/-- A destination field: its code, whether a lane destination is a pair, its class. -/
structure Dst where
  code : Opnd
  wide : Bool := false
  kind : DstKind := .any
  deriving DecidableEq, Repr

/-- What stages 5 to 11 of R375 judge a word against. -/
structure Env where
  nvregs : Nat
  zregs : Nat
  excl : Bool
  /-- the TG is in trap mode (R362) -/
  trap : Bool
  /-- the path runs the vector text -/
  vform : Bool
  /-- equivalence table and number of map entries (R385) -/
  eqs : List Dbl
  mapCount : Nat
  deriving DecidableEq, Repr

/-- A lane-register code within `.vregs`; a pair is even and whole (R71, R457). -/
def laneOk (n : Nat) (x : Opnd) (wide : Bool) : Bool :=
  if wide then x.toNat % 2 = 0 && x.toNat + 1 < n else x.toNat < n

/-- Whether a source passes stage 6. -/
def srcOk (n : Nat) (s : Src) : Bool :=
  match s.kind with
  | .any => if isV s.code then laneOk n s.code s.wide else !isReserved s.code
  | .pred => isK s.code
  | .base => isS s.code || (isV s.code && laneOk n s.code true)

/-- k1 to k7. -/
def isDstPred (x : Opnd) : Bool := isK x && x != 0x140

/-- Whether a destination passes stage 6. -/
def dstOk (n : Nat) (d : Dst) : Bool :=
  let v := isV d.code && laneOk n d.code d.wide
  match d.kind with
  | .any => v || isS d.code || isDstPred d.code
  | .reg => v || isS d.code
  | .lane => v
  | .pred => isDstPred d.code
  | .wideReg => isS d.code || (isV d.code && laneOk n d.code true)

/-! ### Reading and writing -/

/-- The issue of one instruction by one path: the unit it issues for, and the lanes that are active and
those of them that pass the guard. -/
structure Ctx where
  wid : Nat
  tix : Nat
  pix : Nat
  word : Dbl
  wg : Workgroup
  th : Thread
  path : Path
  la : Launch
  act : Mask
  pass : Mask
  deriving DecidableEq, Repr

/-- Lane register `r` of lane `l`. -/
def vGet (w : Workgroup) (l r : Nat) : Word := tget 0 w.v (256 * l + r)
/-- Write lane register `r` of lane `l`. A whole-word write gives the word a fresh code (R407). -/
def vPut (w : Workgroup) (l r : Nat) (x : Word) : Workgroup :=
  { w with v := tput 0 w.v (256 * l + r) x, badRegs := w.badRegs.filter (· != (r, l)) }

/-- s register `n` of a thread. -/
def sGet (t : Thread) (n : Nat) : Dbl := tget 0 t.sregs n
/-- Write s register `n` of thread `tix`. -/
def sPut (w : Workgroup) (tix n : Nat) (x : Dbl) : Workgroup :=
  { w with
    threads := w.threads.modify tix fun t => { t with sregs := tput 0 t.sregs n x }
    badRegs := w.badRegs.filter fun b => b != (0x100 + n, tix) && b != (0x300 + n, tix) }

/-- Write the upper word of an s register alone: only that word gets a fresh code (R407). -/
def sPutUpper (w : Workgroup) (tix n : Nat) (x : Dbl) : Workgroup :=
  { sPut w tix n x with badRegs := w.badRegs.filter (· != (0x300 + n, tix)) }

/-- Predicate `n` as a mask of lanes; k0 reads true everywhere. -/
def kGet (w : Workgroup) (n : Nat) : Mask := if n = 0 then BitVec.allOnes 512 else tget 0 w.k n
/-- Write predicate `n` of lane `l`, one bit of a word (R407). -/
def kPut (w : Workgroup) (n l : Nat) (b : Bool) : Workgroup :=
  let old := kGet w n
  let bit := BitVec.ofNat 512 (2 ^ l)
  { w with k := if n = 0 then w.k else tput 0 w.k n (if b then old ||| bit else old &&& ~~~bit) }

/-- A destination written in some lanes: the predicate word of a TG that is written in all 32 of them gets a fresh code, one
written in part keeps its error (R407). -/
def freshPred (w : Workgroup) (d : Opnd) (lanes : Mask) : Workgroup :=
  if isK d && w.badRegs ≠ [] then
    { w with badRegs := w.badRegs.filter fun b =>
        !(b.1 = d.toNat && lanes.extractLsb' (32 * b.2) 32 = BitVec.allOnes 32) }
  else w

/-- Join register `n`; empty is the empty mask. -/
def jGet (t : Thread) (n : Nat) : Mask := tget 0 t.jregs n

/-- The grid counts of a launch (R210 D2). -/
def gridOf (la : Launch) : Nat × Nat × Nat :=
  let d := la.pkt.getD 2 0
  (fld d 19 0 + 1, fld d 39 20 + 1, fld d 59 40 + 1)

/-- The form a path runs in, as %form reads it (R36, R68). -/
def pathForm (p : Path) : Nat := if p.vtext then 1 else 0

/-- A special, zero-extended (R68, R69); `%ones` is 32 ones here. -/
def specialVal (cycle : Nat) (c : Ctx) (code l : Nat) : Nat :=
  let (nx, ny, nz) := gridOf c.la
  match code with
  | 0x150 => l % 32
  | 0x151 => l
  | 0x152 => l / 32
  | 0x153 => c.wg.ntg
  | 0x154 => c.wg.w % nx
  | 0x155 => c.wg.w / nx % ny
  | 0x156 => c.wg.w / (nx * ny)
  | 0x157 => nx
  | 0x158 => ny
  | 0x159 => nz
  | 0x15A => c.wg.core
  | 0x15B => pathForm c.path
  | 0x15C => cycle % 2 ^ 32
  | 0x15D => c.th.latch.toNat
  | 0x15F => 2 ^ 32 - 1
  | _ => 0

/-- The value of a source operand in lane `l`, as 64 bits when `wide` and as 32 bits otherwise (R67 to
R71). -/
def readOp (cycle : Nat) (c : Ctx) (x : Opnd) (wide : Bool) (l : Nat) : Nat :=
  let n := x.toNat
  if isV x then
    if wide then (vGet c.wg l n).toNat + 2 ^ 32 * (vGet c.wg l (n + 1)).toNat else (vGet c.wg l n).toNat
  else if isS x then
    let v := (sGet c.th (n - 0x100)).toNat
    if wide then v else v % 2 ^ 32
  else if isK x then (if (kGet c.wg (n - 0x140)).getLsbD l then 1 else 0)
  else if isImm x then lowInt (sextNat (n - 0x180) 7) (if wide then 64 else 32)
  else if n = 0x15F && wide then 2 ^ 64 - 1
  else specialVal cycle c n l

/-- The 32-bit or 64-bit result written to a destination of lane `l` of thread `tix` (R66, R71): an s
register takes a 64-bit result whole, an i32 result sign-extended, any other zero-extended; a predicate
takes bit 0. -/
def writeOp (w : Workgroup) (tix : Nat) (x : Opnd) (wide signed : Bool) (l : Nat) (v : Nat) : Workgroup :=
  let n := x.toNat
  if isV x then
    let w := vPut w l n (BitVec.ofNat 32 v)
    if wide then vPut w l (n + 1) (BitVec.ofNat 32 (v / 2 ^ 32)) else w
  else if isS x then
    sPut w tix (n - 0x100)
      (if wide then BitVec.ofNat 64 v
        else if signed then BitVec.ofInt 64 (sextNat v 32) else BitVec.ofNat 64 (v % 2 ^ 32))
  else if isK x then kPut w (n - 0x140) l (v % 2 = 1)
  else w

end Sys2Proof.Machine
end

