-- ==== Sys2Proof/Machine/Flags.lean ====
section
/-! DEFINITION. FPFLAGS, FPCTL and the rounding an instruction asks for: R113 to R121, R143. -/

namespace Sys2Proof.Machine

/-- OR flags into FPFLAGS (R120). -/
def orFlags (w : Workgroup) (f : FFlags) : Workgroup := { w with fpflags := w.fpflags ||| f }

/-- The mode of a MOD value 0 to 7: MOD 7 reads FPCTL.RM (R113, R121). -/
def ctlMode (rm : BitVec 3) (mod : Nat) : RMode := if mod = 7 then modeOf rm.toNat else modeOf mod

/-- The position of the last place of a float operand's significand (R116). -/
def lastPlace (f : FFmt) (x : Nat) : Int :=
  match decodeFloat f x with
  | .fin _ _ e _ => e
  | _ => 0

/-- The rounding of element `j` in lane `l` for an instruction that takes its key and index from FPCTL and
%glane (R117). -/
def ctlRound (rm : BitVec 3) (key : Word) (mod l j : Nat) (source : Option (Int × Nat)) : RCtx :=
  { mode := ctlMode rm mod, key := key + BitVec.ofNat 32 j, idx := l, source := source }

/-- FPFLAGS as a register (R120). -/
def fpflagsReg (w : Workgroup) : Dbl := w.fpflags.zeroExtend 64
/-- FPCTL as a register (R121). -/
def fpctlReg (w : Workgroup) : Dbl := w.skey.zeroExtend 64 <<< 32 ||| w.rm.zeroExtend 64
/-- Writing FPCTL: a written RM of 7 is stored as 0 (R121). -/
def writeFpctl (w : Workgroup) (x : Dbl) : Workgroup :=
  { w with skey := x.extractLsb' 32 32, rm := if x.extractLsb' 0 3 = 7 then 0 else x.extractLsb' 0 3 }

/-! ### Integer results (R110, R114, R124) -/

/-- The value of a `w`-bit element: sext for the i types, zext otherwise. -/
def intOf (signed : Bool) (w x : Nat) : Int := if signed then sextNat x w else (x % 2 ^ w : Nat)
/-- The smallest value of an element type. -/
def intMin (signed : Bool) (w : Nat) : Int := if signed then -(2 ^ (w - 1) : Nat) else 0
/-- The largest value of an element type. -/
def intMax (signed : Bool) (w : Nat) : Int := if signed then (2 ^ (w - 1) - 1 : Nat) else (2 ^ w - 1 : Nat)
/-- The element written for an exact result: low(x, w), or the clamped value with MOD 6. -/
def narrow (sat signed : Bool) (w : Nat) (x : Int) : Nat :=
  lowInt (if sat then clampInt x (intMin signed w) (intMax signed w) else x) w

end Sys2Proof.Machine
end

