-- ==== Sys2Proof/Machine/Ops.lean ====
section
/-! DEFINITION. The named operations over registers, threads and slices: accessors, translation (R255 to
R262), trace records (R340 to R342, R416), leaving a transaction (R286), taking a trap (R357 to R361,
R369), escalation (R369 to R371) and the return from a trap (R363). -/

namespace Sys2Proof.Machine

/-! ### Accessors -/

def noLaunch : Launch := { part := 0, queue := 0, index := 0 }
def noWorkgroup : Workgroup := { lid := 0, w := 0, core := 0 }

def wgOf (s : State) (wid : Nat) : Option Workgroup := tfind s.wgs wid
def putWg (s : State) (wid : Nat) (w : Workgroup) : State := { s with wgs := tset s.wgs wid w }
def modWg (s : State) (wid : Nat) (f : Workgroup → Workgroup) : State := { s with wgs := tmod s.wgs wid f }
def modTh (s : State) (wid tix : Nat) (f : Thread → Thread) : State :=
  modWg s wid fun w => { w with threads := w.threads.modify tix f }
def modPath (s : State) (wid tix pix : Nat) (f : Path → Path) : State :=
  modTh s wid tix fun t => { t with paths := t.paths.modify pix f }
def launchOf (s : State) (lid : Nat) : Launch := (tfind s.launches lid).getD noLaunch
def modLaunch (s : State) (lid : Nat) (f : Launch → Launch) : State :=
  { s with launches := tmod s.launches lid f }
def partOf (s : State) (p : Nat) : Partition := tget {} s.parts p
def modPart (s : State) (p : Nat) (f : Partition → Partition) : State :=
  { s with parts := tset s.parts p (f (partOf s p)) }
def coreOf (s : State) (c : Nat) : Core := tget {} s.cores c
def modCore (s : State) (c : Nat) (f : Core → Core) : State :=
  { s with cores := tset s.cores c (f (coreOf s c)) }
/-- The region of a core: blocks of 4 by 4 of the package mesh (R305). -/
def regionOfCore (c : Nat) : Nat := c / 32 / 4 * 8 + c % 32 / 4
/-- The lowest core of a region (R305). -/
def firstCoreOf (r : Nat) : Nat := r / 8 * 128 + r % 8 * 4
/-- The 16 cores of a region, ascending (R305). -/
def coresOfRegion (r : Nat) : List Nat :=
  [0, 1, 2, 3].flatMap fun i => [0, 1, 2, 3].map fun j => firstCoreOf r + 32 * i + j
def regionOf (s : State) (r : Nat) : Region := tget {} s.regions r
def modRegion (s : State) (r : Nat) (f : Region → Region) : State :=
  { s with regions := tset s.regions r (f (regionOf s r)) }
def txOf (w : Workgroup) (l : Nat) : LaneTx := tget {} w.tx l
def setTx (w : Workgroup) (l : Nat) (t : LaneTx) : Workgroup := { w with tx := tput {} w.tx l t }
def trapOf (w : Workgroup) (g : Nat) : TrapRegs := tget {} w.traps g
/-- Advance the counter of the free values (log 2). -/
def ticked (s : State) : State := { s with tick := s.tick + 1 }

/-- A double of a launch's copy of the image header (R39). -/
def hdr (la : Launch) (n : Nat) : Dbl := la.hdr.getD n 0
/-- A double of a launch packet (R210). -/
def pkt (la : Launch) (n : Nat) : Dbl := la.pkt.getD n 0
/-- Virtual address of the image (R210 D1). -/
def imageOf (la : Launch) : Nat := (pkt la 1).toNat
/-- A bit of a 64-bit mask of registers. -/
def fullMask (ntg : Nat) : Mask := BitVec.ofNat 512 (2 ^ (32 * ntg) - 1)
/-- The lanes of canonical TG `g`. -/
def blockMask (g : Nat) : Mask := BitVec.ofNat 512 ((2 ^ 32 - 1) * 2 ^ (32 * g))

/-- The codes of R373. -/
def Cause.code : Cause → Nat
  | .illegalOpcode => 0x01 | .reservedField => 0x02 | .badOperand => 0x03 | .badType => 0x04
  | .badUniform => 0x05 | .badScope => 0x06 | .badForm => 0x07 | .privileged => 0x08 | .pcRange => 0x09
  | .divergentBranch => 0x10 | .launchBudget => 0x11 | .stackOverflow => 0x12 | .stackUnderflow => 0x13
  | .joinMismatch => 0x14 | .packetMalformed => 0x15 | .gangUnplaceable => 0x16
  | .pageNotPresent => 0x20 | .pagePermission => 0x21 | .misaligned => 0x22 | .noncanonical => 0x23
  | .scratchRange => 0x24 | .badTableEntry => 0x25 | .addressRange => 0x26 | .linkError => 0x27
  | .dataError => 0x28 | .barrierOverwritten => 0x30 | .barrierBusy => 0x31 | .expectOverflow => 0x38
  | .transferFault => 0x39 | .tagOverflow => 0x3A | .badDescriptor => 0x3B | .tagNotHeld => 0x3C
  | .codebookEmpty => 0x40 | .codebookNotHeld => 0x41 | .txIrrevocableLimit => 0x48
  | .txIrrevocableUse => 0x49 | .fabricNodeFault => 0x50 | .fabricStalled => 0x51 | .breakpoint => 0x58
  | .watchpoint => 0x59 | .singleStep => 0x5A | .softwareTrap => 0x5B | .handlerFault => 0x5C
  | .saveFault => 0x5D | .emergencyStop => 0x5E

/-- The causes marked E in R373: they never enter a handler (R374). -/
def Cause.escalates : Cause → Bool
  | .launchBudget | .packetMalformed | .gangUnplaceable | .fabricNodeFault | .fabricStalled
  | .handlerFault | .saveFault | .emergencyStop => true
  | _ => false

/-- The causes after which `rett.next` takes the whole path past its instruction, in V-form every block of the strand:
R386 and R381 say so, and R411 does of the `waitc`. -/
def Cause.passesWhole : Cause → Bool
  | .divergentBranch | .barrierOverwritten | .transferFault => true
  | _ => false

/-! ### Paths and turns (R27) -/

/-- A path that may issue: it waits nowhere and has lanes, or in V-form parked elements (R174). -/
def pathReady (p : Path) : Bool := p.wait == .none && (p.mask != 0 || (p.vtext && p.parked != 0))

/-- The ready paths of a thread with their indices. -/
def readyPaths (t : Thread) : List (Nat × Path) :=
  (t.paths.zipIdx.map fun x => (x.2, x.1)).filter fun x => pathReady x.2

/-- The path of least lowest lane. -/
def lowestPath : List (Nat × Path) → Option Nat
  | [] => none
  | x :: t => some (t.foldl (fun best y => if lowestLane y.2.mask < lowestLane best.2.mask then y else best) x).1

/-- The next ready path after a lane, in ascending order, wrapping (R27). -/
def nextPath (t : Thread) (lane : Nat) : Option Nat :=
  let r := readyPaths t
  match lowestPath (r.filter fun x => lane < lowestLane x.2.mask) with
  | some i => some i
  | none => lowestPath r

/-- The path that issues next: the running one unless it has given way or is not ready. -/
def pickPath (t : Thread) : Option Nat :=
  match (readyPaths t).find? (fun x => x.2.mask.getLsbD t.run || (x.2.vtext && x.2.parked != 0)) with
  | some (i, _) => if t.gave then nextPath t t.run else some i
  | none => nextPath t t.run

/-- Note the path that now holds the turn; its timer starts when it is another one (R27). -/
def takeTurn (t : Thread) (p : Path) : Thread :=
  let l := lowestLane p.mask
  if t.gave || l != t.run then { t with run := l, gave := false, turn := 1 } else t

/-- Lanes leave a path, which keeps the lanes `left`: the running path goes on with them (R27). -/
def keepTurn (t : Thread) (mask left : Mask) : Thread :=
  if !t.gave && mask.getLsbD t.run && left ≠ 0 then { t with run := lowestLane left } else t

/-- The path gives way (R27): the thread remembers its lowest lane. -/
def giveWay (t : Thread) (p : Path) : Thread := { t with run := lowestLane p.mask, gave := true, turn := 0, stalled := 0 }

/-- The marks that are left once an instruction has raised no cause (R366): an access that is known to be repeated uses
its mark up, another operation waits for the issue that raises its cause again (log 115). -/
def leftMarks (l : List CutMark) : List CutMark := l.filter fun x => !(x.now && x.sure)

/-- The path after an instruction: the next PC, its full active mask, no re-issue marks (R363). -/
def stepPath (p : Path) : Path := { p with pc := p.pc + 1, limit := none, noDebug := false, asked := none, cut := leftMarks p.cut }

/-- Lanes of `jN` that have arrived at a `join` naming it. -/
def arrivedAt (t : Thread) (n : Nat) : Mask :=
  t.paths.foldl (fun m p => if p.wait = .join n then m ||| p.mask else m) 0

/-- Complete the join on `jN` when every lane of its mask has arrived or exited: the arrived lanes form one path behind
the `join` of the lowest-numbered of them (R133), with the return stack of its path (DESIGN CHOICE, log 101). -/
def settleJoin (exited : Mask) (t : Thread) (n : Nat) : Thread :=
  let arrived := arrivedAt t n
  if arrived = 0 || (jGet t n &&& ~~~exited &&& ~~~arrived) ≠ 0 then t
  else
    let low := lowestLane arrived
    match t.paths.find? (fun p => p.wait = .join n && p.mask.getLsbD low) with
    | none => t
    | some p =>
      let all := t.paths.filter fun q => q.wait = .join n
      let q := { stepPath p with mask := arrived, wait := .none, cut := leftMarks (all.flatMap (·.cut)),
                                 stepDue := all.flatMap (·.stepDue) }
      { t with jregs := terase t.jregs n, paths := q :: t.paths.filter (fun p => p.wait ≠ .join n) }

/-- Drop paths with no lane left, then complete what joins can be completed (R24, R133). -/
def settlePaths (exited : Mask) (t : Thread) : Thread :=
  let t := { t with paths := t.paths.filter fun p => p.mask ≠ 0 || (p.vtext && p.parked ≠ 0) }
  (List.range 16).foldl (settleJoin exited) t

/-! ### Physical memory at the slices -/

/-- The holder of a sector's lock (R282, R288). -/
def lockHolder (s : State) (sec : Nat) : Option (Nat × Nat) :=
  (s.locks.find? fun x => x.1 = sec).map (·.2)
/-- Whether a sector of `[pa, pa + n)` is locked by another lane than the given one. -/
def lockedFor (s : State) (who : Option (Nat × Nat)) (pa n : Nat) : Bool :=
  (List.range' (pa / 32) ((pa + n - 1) / 32 + 1 - pa / 32)).any fun sec =>
    match lockHolder s sec with
    | none => false
    | some h => some h ≠ who
/-- Insert a number into a list without repeats. -/
def noteBad (l : List Nat) (n : Nat) : List Nat := if l.contains n then l else l ++ [n]
/-- Whether bytes of `[pa, pa + n)` lie in an uncorrectable sector (R407). -/
def badData (s : State) (pa n : Nat) : Bool := s.badMem.any fun sec => pa / 32 ≤ sec && sec ≤ (pa + n - 1) / 32
/-- Whether a physical address is in the host window, and whether it is in the peer window (R254). -/
def inHost (pa : Nat) : Bool := pa / 2 ^ 50 = 2
def inPeer (pa : Nat) : Bool := pa / 2 ^ 50 = 3
/-- Whether a peer's rank is reached: through a route whose port is up (R328, R438). -/
def rankUp (s : State) (r : Nat) : Bool :=
  let e := tget 0 s.routes r
  e.getLsbD 7 && fld e 3 0 < 12 && (tget {} s.ports (fld e 3 0)).up
/-- Whether the rank of a peer-window address is reached. -/
def peerUp (s : State) (pa : Nat) : Bool := rankUp s (pa / 2 ^ 38 % 4096)
/-- Write bytes at a slice; whole sectors get a fresh code (R407). -/
def memWrite (s : State) (pa : Nat) (bytes : List Byte) : State :=
  let hi := pa + bytes.length
  { s with mem := writeBytes s.mem pa bytes, badMem := s.badMem.filter fun sec => !(pa ≤ 32 * sec && 32 * sec + 32 ≤ hi) }
/-- The low `n` bytes of a number. -/
def toBytes : Nat → Nat → List Byte
  | 0, _ => []
  | n + 1, v => BitVec.ofNat 8 v :: toBytes n (v / 256)
/-- The number of a list of bytes, little-endian. -/
def ofBytes : List Byte → Nat
  | [] => 0
  | b :: t => b.toNat + 256 * ofBytes t

/-! ### Translation (R255 to R262) -/

/-- How a walk ends. -/
inductive Walk where
  | leaf (level : Nat) (entry : Dbl)
  | fails (c : Cause)
  /-- the entry's sector is locked (R285) -/
  | waits
  deriving DecidableEq, Repr

/-- The shift of the page at a leaf level: 64 KiB, 128 MiB, 256 GiB (R257). -/
def pageShift (level : Nat) : Nat := match level with | 0 => 16 | 1 => 27 | _ => 38

/-- Whether a valid entry breaks R262 at its level. -/
def entryBad (level : Nat) (e : Dbl) : Bool :=
  fld e 63 56 ≠ 0 || fld e 13 4 ≠ 0 ||
  if e.getLsbD 1 then
    level = 3 || fld e 55 54 = 3 || (fld e 51 14 * 2 ^ 14) % 2 ^ pageShift level ≠ 0
  else level = 0 || fld e 55 52 ≠ 0 || fld e 3 2 ≠ 0

/-- The walk from a table at `pa`, at a level (R257). -/
def walkFrom (s : State) (ea : Nat) : Nat → Nat → Walk
  | level, pa =>
    let at_ := pa + 8 * (ea / 2 ^ (16 + 11 * level) % 2048)
    if lockedFor s none at_ 8 then .waits
    else if badData s at_ 8 then .fails .dataError
    else
      let e : Dbl := BitVec.ofNat 64 (readLE s.mem at_ 8)
      if !e.getLsbD 0 then .fails .pageNotPresent
      else if entryBad level e then .fails .badTableEntry
      else if e.getLsbD 1 then .leaf level e
      else match level with
        | 0 => .fails .badTableEntry
        | l + 1 => walkFrom s ea l (fld e 51 14 * 2 ^ 14)

/-- Whether an address is canonical (R255). -/
def canonical (ea : Nat) : Bool := nfld ea 63 59 = 0 || nfld ea 63 59 = 31

/-- The physical address that a leaf gives (R257). -/
def leafPa (level : Nat) (e : Dbl) (ea : Nat) : Nat := fld e 51 14 * 2 ^ 14 + ea % 2 ^ pageShift level

/-- What an access needs (R258). -/
inductive Need where
  | read | write | both | fetch
  deriving DecidableEq, Repr

/-- Whether a leaf permits an access; stores to SHR pages are refused (R258, R324). -/
def permits (n : Need) (e : Dbl) : Bool :=
  let r := e.getLsbD 2
  let w := e.getLsbD 3 && !e.getLsbD 53
  match n with
  | .read => r
  | .write => w
  | .both => r && w
  | .fetch => r && e.getLsbD 52

/-- Whether a physical address exists for a partition: LPDDR of a channel pair it owns, or a window
(R254, R262, R317). -/
def physOk (s : State) (part pa : Nat) : Bool :=
  if pa < 2 ^ 40 then (partOf s part).res.pairs.getLsbD (pa / 2 ^ 35) else inHost pa || inPeer pa

/-- How a translation ends. -/
inductive Trans where
  | ok (pa : Nat) (attr : Nat) (s : State)
  | fails (c : Cause)
  | waits

/-- How a device read ends. -/
inductive Got (α : Type) where
  | ok (x : α)
  | fails (c : Cause)
  /-- a sector of it is locked (R285) -/
  | waits

/-- The leaves that translation caches hold for an address (R259). -/
def cachedLeaves (s : State) (sp : Space) (ea : Nat) : List (Nat × Dbl) :=
  (s.tlb.filter fun t => t.part = sp.part && t.asid = sp.asid && ea / 2 ^ pageShift t.level = t.page).map
    fun t => (t.level, t.leaf)

/-- Whether the memory that a leaf gives exists for a partition: a shared read-only page is every partition's that
maps it (R324). -/
def leafOk (s : State) (part : Nat) (e : Dbl) (pa : Nat) : Bool := physOk s part pa || (e.getLsbD 53 && pa < 2 ^ 40)

/-- Judge a leaf: ADDRESS_RANGE, then PAGE_PERMISSION (R401). -/
def judgeLeaf (s : State) (sp : Space) (need : Need) (ea level : Nat) (e : Dbl) : Trans :=
  let pa := leafPa level e ea
  if !leafOk s sp.part e pa then .fails .addressRange
  else if !permits need e then .fails .pagePermission
  else .ok pa (fld e 55 54) s

/-- Translate a canonical address. A cached leaf that differs from what a walk now finds may still be
used (R260); the leaf used is cached. -/
def translate (s : State) (sp : Space) (need : Need) (ea : Nat) : Trans :=
  let ea := ea % 2 ^ 60
  let fresh := walkFrom s ea 3 sp.root
  let old := (cachedLeaves s sp ea).filter fun x => fresh ≠ .leaf x.1 x.2
  let pick := if old = [] then 0 else Config.tlbPick s.tick % (old.length + 1)
  let s := if old = [] then s else ticked s
  match pick with
  | n + 1 => match old[n]? with
    | some (l, e) => judgeLeaf s sp need ea l e
    | none => .waits
  | 0 => match fresh with
    | .waits => .waits
    | .fails c => .fails c
    | .leaf l e =>
      let t : TlbEntry := ⟨sp.part, sp.asid, l, ea / 2 ^ pageShift l, e⟩
      judgeLeaf (if s.tlb.contains t then s else { s with tlb := t :: s.tlb }) sp need ea l e

/-- The leaf that an access has failed on for want of a permission is cached: its re-issue may use it, until a translation
invalidation, even when the entry has been changed since (R402). -/
def keepLeaf (s : State) (sp : Space) (cause : Cause) (ea : Nat) : State :=
  if cause ≠ .pagePermission then s else
  match walkFrom s (ea % 2 ^ 60) 3 sp.root with
  | .leaf l e =>
    let t : TlbEntry := ⟨sp.part, sp.asid, l, ea % 2 ^ 60 / 2 ^ pageShift l, e⟩
    if s.tlb.contains t then s else { s with tlb := t :: s.tlb }
  | _ => s

/-- A device read or write through a page table that leaves no trace in the caches: the physical address,
when the walk succeeds and the leaf permits it. -/
def probe (s : State) (sp : Space) (need : Need) (ea : Nat) : Got Nat :=
  if !canonical ea then .fails .noncanonical else
  match walkFrom s (ea % 2 ^ 60) 3 sp.root with
  | .leaf l e => match judgeLeaf s sp need (ea % 2 ^ 60) l e with
    | .ok pa _ _ => .ok pa
    | .fails c => .fails c
    | .waits => .waits
  | .fails c => .fails c
  | .waits => .waits

/-- The space of a launch on a core. -/
def spaceOf (la : Launch) (core : Nat) : Space := ⟨la.part, la.asid, la.root, core⟩

/-! ### The Carafe (R344, R442) -/

/-- The compute die of a core: the quarter of the package mesh that it lies in. -/
def dieOf (core : Nat) : Nat := core / 512 * 2 + core % 32 / 16

/-- One entry stands before another of its cycle: lower region, then lower KIND (R442). -/
def entryBefore (a b : CarafeEntry) : Bool := a.region < b.region || (a.region = b.region && a.kind.toNat < b.kind.toNat)

/-- Put an entry among those of its cycle, newest first: entries of one region and KIND keep the order in which they
came (log 74), and SEQ ascends. -/
def enterEntry (e : CarafeEntry) : List CarafeEntry → List CarafeEntry
  | [] => [e]
  | x :: t => if x.cycle = e.cycle && entryBefore e x then { x with seq := x.seq + 1 } :: enterEntry { e with seq := e.seq - 1 } t
    else e :: x :: t

/-- Enter an event in a die's Carafe: the last 4,096 are kept. -/
def carafe (s : State) (die kind detail region part : Nat) (data : List Dbl) : State :=
  let c := tget {} s.carafes die
  let e : CarafeEntry :=
    { seq := c.seq, kind := BitVec.ofNat 8 kind, detail := BitVec.ofNat 8 detail, region := region, part := part
      cycle := s.cycle, data := data }
  { s with carafes := tset s.carafes die { seq := c.seq + 1, entries := (enterEntry e c.entries).take 4096 } }

/-- The strip that serves a partition sits on the die of its lowest-numbered core (R296). -/
def stripCore (s : State) (part : Nat) : Nat := (partOf s part).res.cores.headD 0

/-! ### Errors that a read detects (R406 to R408, R442) -/

/-- A structure's number in a Carafe entry, of the registers that an operand code names (log 29). -/
def registerStructure (code : Nat) : Nat :=
  if code < 0x100 then 2 else if code < 0x140 then 3 else if code < 0x148 then 4
  else if 0x200 ≤ code && code < 0x220 then 6
  else if (List.range 16).any fun j => (Config.joinCode j).toNat = code then 5 else 7

/-- An uncorrectable error that a read of a core has detected is entered in the Carafe of its die: the structure's number,
and the physical address, scratchpad offset or register code. -/
def noteError (s : State) (core structure_ code : Nat) : State :=
  carafe s (if structure_ = 0 then 4 else dieOf core) 2 (Config.structureCode structure_).toNat 0 0 [BitVec.ofNat 64 code, 0]

/-- Where the walk of an address ends: at the memory that a leaf gives, or at the table entry that ends it. -/
def walkEnd (s : State) (ea : Nat) : Nat → Nat → Nat
  | level, pa =>
    let at_ := pa + 8 * (ea / 2 ^ (16 + 11 * level) % 2048)
    let e : Dbl := BitVec.ofNat 64 (readLE s.mem at_ 8)
    if badData s at_ 8 || !e.getLsbD 0 || entryBad level e then at_
    else if e.getLsbD 1 then leafPa level e ea
    else match level with
      | 0 => at_
      | l + 1 => walkEnd s ea l (fld e 51 14 * 2 ^ 14)

/-- The address at which a device's read of `n` bytes meets an uncorrectable sector, if it does. -/
def errorAt (s : State) (sp : Space) (n va : Nat) : Option Nat :=
  let pa := walkEnd s (va % 2 ^ 60) 3 sp.root
  if badData s pa n then some pa else none

/-- A device has failed to read some addresses: an uncorrectable sector among them is entered. -/
def noteReads (s : State) (sp : Space) (n : Nat) (l : List Nat) : State :=
  match l.findSome? (errorAt s sp n) with
  | some pa => noteError s sp.core 0 pa
  | none => s

/-- A core reports DATA_ERROR with a TADDR: of a register or tile, of its scratchpad, or of memory, its coalescing buffer
among it. -/
def noteAt (s : State) (sp : Space) (pad : Bool) (addr : Nat) : State :=
  if 2 ^ 60 ≤ addr && addr < 2 ^ 60 + 512 + 32 then noteError s sp.core (registerStructure (addr - 2 ^ 60)) (addr - 2 ^ 60)
  else if pad then noteError s sp.core 1 addr
  else
    let pa := walkEnd s (addr % 2 ^ 60) 3 sp.root
    noteError s sp.core (if badData s pa 8 then 0 else 9) pa

/-- The errors that a context holds: structure and code. -/
def padErrors (p : Pad) : List (Nat × Nat) :=
  (p.badSectors.map fun n => (1, 32 * n)) ++ (p.badTiles.map fun n => (6, 0x200 + n / 1024)) ++ p.badSlots.map fun n => (7, n)

/-! ### Texts (R39, R40, R359, R380) -/

/-- Virtual address and units of the running version's text: SIZE / 8 threaded, SIZE / 12 vector. -/
def textOf (la : Launch) (vtext : Bool) : Nat × Nat :=
  let d := hdr la (if vtext then 3 else 2)
  (imageOf la + fld d 31 0, fld d 63 32 / (if vtext then 12 else 8))

/-- The address of a unit of the text: 64-bit arithmetic on the signed PC. -/
def textAddr (la : Launch) (vtext : Bool) (pc : Word) : Nat :=
  lowInt ((textOf la vtext).1 + 8 * sextNat pc.toNat 32) 64

/-- Virtual address of the site entry of a vector-text unit (R359). -/
def siteAddr (la : Launch) (pc : Word) : Nat :=
  lowInt ((textOf la true).1 + 8 * (textOf la true).2 + 4 * pc.toNat) 64

/-- Read the site entry of a vector-text unit: a canonical PC (R359, R392). -/
def readSite (s : State) (la : Launch) (core : Nat) (pc : Word) : Got Nat :=
  match probe s (spaceOf la core) .read (siteAddr la pc) with
  | .fails c => .fails c
  | .waits => .waits
  | .ok pa =>
    if lockedFor s none pa 4 then .waits
    else if badData s pa 4 then .fails .dataError
    else .ok (readLE s.mem pa 4 % 2 ^ 29)

/-- The canonical PC that a site entry names; that of data where the entry cannot be read. Whoever asks has found it
unlocked in this cycle: the fetch, or `siteWaits`. -/
def siteOf (s : State) (la : Launch) (core : Nat) (pc : Word) : Nat :=
  match readSite { s with locks := [] } la core pc with
  | .ok n => n
  | _ => 0x1FFFFFFF

/-- Whether a PC counts a unit of the text (R380). -/
def unitInText (la : Launch) (p : Path) : Bool := 0 ≤ sextNat p.pc.toNat 32 && p.pc.toNat < (textOf la p.vtext).2

/-- A trap that names a path's canonical PC has to wait for the site entry, which is locked or whose walk waits (R285). -/
def siteWaits (s : State) (la : Launch) (core : Nat) (p : Path) : Bool :=
  p.vtext && unitInText la p && match readSite s la core p.pc with
    | .waits => true
    | _ => false

/-- Whether a PC lies in the text (R380): for V-form its site entry must name an instruction too. -/
def pcInText (s : State) (la : Launch) (core : Nat) (p : Path) : Bool :=
  unitInText la p && (!p.vtext || siteOf s la core p.pc ≠ 0x1FFFFFFF)

/-- The canonical PC of an instruction (R40, R359, R380). -/
def canonPc (s : State) (la : Launch) (core : Nat) (p : Path) : BitVec 29 :=
  if p.vtext && pcInText s la core p then BitVec.ofNat 29 (siteOf s la core p.pc) else BitVec.ofNat 29 p.pc.toNat

/-! ### Trace records (R340 to R342, R416) -/

/-- What a trace record says, less SEQ, REGION and CYC. -/
structure TraceRec where
  kind : Nat
  form : Nat := 0
  detail : Nat := 0
  tgix : Nat := 0
  point : Nat := 0
  image : Nat := 0
  mask : Nat := 0
  cpc : Nat := 0
  w : Nat := 0
  iter : Nat := 0
  d6 : Nat := 0
  d7 : Nat := 0
  deriving DecidableEq, Repr

/-- The 64 bytes of a record (R341). -/
def traceBytes (r : TraceRec) (seq region cyc : Nat) : List Byte :=
  [seq * 2 ^ 32 + region % 64 * 2 ^ 26 + r.form % 4 * 2 ^ 24 + r.detail % 256 * 2 ^ 16 + r.kind,
   cyc, r.tgix % 16 * 2 ^ 60 + r.point % 65536 * 2 ^ 44 + r.image / 2 ^ 16 % 2 ^ 44,
   r.mask % 2 ^ 32 * 2 ^ 32 + r.cpc % 2 ^ 29 * 8, r.w, r.iter % 2 ^ 32, r.d6, r.d7].flatMap (toBytes 8)

/-- A device agent's write sets out for its slice, behind those on their way: it lands when no sector of it is
locked (R285). -/
def sendWrite (s : State) (pa : Nat) (bytes : List Byte) : State := { s with deferred := s.deferred ++ [(pa, bytes)] }

/-- Whether an access can reach its memory: LINK_ERROR for a read of the host window without a link, or for
any access to an unreachable rank (R437, R438). -/
def reaches (s : State) (isRead : Bool) (pa : Nat) : Bool :=
  if inHost pa then s.linkUp || !isRead else if inPeer pa then peerUp s pa else true

/-- A relaxed store of a device agent through translation, if its page can be written; one whose walk meets a locked table
sector waits (R285). -/
def deviceStore (s : State) (sp : Space) (va : Nat) (bytes : List Byte) : State :=
  match probe s sp .write va with
  | .ok pa => if reaches s false pa then sendWrite s pa bytes else s
  | .fails _ => s
  | .waits => { s with unwalked := s.unwalked ++ [(sp, va, bytes)] }

/-- The stores whose walk waited are walked again. -/
def walkAgain (s : State) : State :=
  s.unwalked.foldl (fun s x => deviceStore s x.1 x.2.1 x.2.2) { s with unwalked := [] }

/-- Where slot WRIDX + k of a partition's ring stands, for a region that writes it (R340). -/
def ringPlace (s : State) (part region k : Nat) : Got Nat :=
  let td := (partOf s part).td
  let d1 := td.getD 1 0
  let size := fld d1 39 8 * 1024
  let va := (td.getD 0 0).toNat + 64 * (((td.getD 3 0).toNat + k) % size)
  if size = 0 then .fails .pageNotPresent else
  match probe s ⟨part, BitVec.ofNat 16 (fld d1 63 48), (td.getD 2 0).toNat, firstCoreOf region⟩ .write va with
  | .ok pa => if reaches s false pa then .ok pa else .fails .linkError
  | r => r

/-- A record sets out for its slot, and WRIDX advances (R416). -/
def putRecord (s : State) (part pa : Nat) (bytes : List Byte) : State :=
  modPart (sendWrite s pa bytes) part fun p =>
    { p with td := p.td.set 3 (BitVec.ofNat 64 ((p.td.getD 3 0).toNat + 1)) }

/-- Whether a partition traces records of a type: bit t of MASK, which is TD1[7:1] (R340). -/
def traces (d1 : Dbl) (kind : Nat) : Bool := d1.getLsbD 0 && (kind + 1 < 8) && d1.getLsbD (kind + 1)

/-- A record that cannot be written is dropped and counted. -/
def dropRecord (s : State) (region : Nat) : State :=
  modRegion s region fun g => { g with dropped := min (2 ^ 64 - 1) (g.dropped + 1) }

/-- A region writes a record: `none` while its walk waits. Once records have been dropped, and with gap records enabled, a
gap record goes ahead of the next record that can be written; it carries the SEQ of the last one dropped (R342, R416). -/
def writeRecord (s : State) (region : Nat) (w : WaitingTrace) : Option State :=
  let rg := regionOf s region
  match ringPlace s w.part region 0 with
  | .waits => none
  | .fails _ => some (dropRecord s region)
  | .ok first =>
    if rg.dropped = 0 || !traces ((partOf s w.part).td.getD 1 0) 6 then some (putRecord s w.part first w.bytes)
    else match ringPlace s w.part region 1 with
      | .waits => none
      | .fails _ => some (dropRecord s region)
      | .ok second =>
        let gap := traceBytes { kind := 6, d6 := rg.dropped } (w.seq - 1).toNat region rg.cycles
        some (modRegion (putRecord (putRecord s w.part first gap) w.part second w.bytes) region fun g => { g with dropped := 0 })

/-- A region's records are written in their order, until one waits. -/
def writeRecords (s : State) (region : Nat) : List WaitingTrace → State
  | [] => s
  | w :: t => match writeRecord s region w with
    | some s => writeRecords (modRegion s region fun g => { g with traceWait := t }) region t
    | none => s

/-- Every region tries again to write its waiting records. -/
def retryTraces (s : State) : State :=
  s.regions.foldl (fun s x => writeRecords s x.1 x.2.traceWait) s

/-- An event of an enabled type in a region is recorded. Its SEQ is the next one there, and it is written behind those that
wait. -/
def trace (s : State) (part region : Nat) (r : TraceRec) : State :=
  if !traces ((partOf s part).td.getD 1 0) r.kind then s
  else
    let rg := regionOf s region
    let w : WaitingTrace := ⟨part, rg.seq, traceBytes r rg.seq.toNat region rg.cycles⟩
    let all := rg.traceWait ++ [w]
    writeRecords (modRegion s region fun g => { g with seq := g.seq + 1, traceWait := all }) region all

/-! ### Leaving a transaction (R175, R286, R287, R415) -/

/-- The progress token passes to the next request (R287). -/
def passToken (s : State) (part : Nat) (who : Nat × Nat) : State :=
  modPart s part fun p =>
    if p.tokenHolder = some who then { p with tokenHolder := p.tokenQueue.head?, tokenQueue := p.tokenQueue.tail }
    else { p with tokenQueue := p.tokenQueue.filter (· ≠ who) }

/-- A lane leaves its transaction for OUT: logs and frames gone, locks freed, a token or request given
back (R286, R414, R415). -/
def leaveTx (s : State) (wid lane : Nat) : State :=
  match wgOf s wid with
  | none => s
  | some w =>
    let t := txOf w lane
    let s := { s with locks := s.locks.filter fun x => x.2 ≠ (wid, lane) }
    let s := putWg s wid (setTx w lane { consec := t.consec, last := t.last })
    if t.st = .irrev || t.st = .queued then passToken s (launchOf s w.lid).part (wid, lane) else s

/-- Values on their way to a lane's register, and those of queued `zrd`s, arrive there no more: a later write has come
before them (R186, R444). -/
def dropInFlight (w : Workgroup) (lane reg : Nat) : Workgroup :=
  { w with
    threads := w.threads.map fun t => { t with flights := t.flights.map fun f =>
      { f with lanes := f.lanes.filter fun x => !(x.1 = lane && x.2.1 = reg) } }
    pad := { w.pad with queue := w.pad.queue.map fun q => match q.op with
      | .zrd z dests fid => { q with op := .zrd z (dests.filter fun d => !(d.1 = lane && d.2.2.1 = reg)) fid }
      | _ => q } }

/-- An abort of a lane (R175, R286): the state it leaves, TXSTAT, and the value for its cause register. -/
def abortState (s : State) (wid lane cls detail : Nat) : State :=
  match wgOf s wid with
  | none => s
  | some w =>
    let t := txOf w lane
    let s := leaveTx s wid lane
    modWg s wid fun w =>
      let w := setTx w lane { consec := if t.consec = 255 then 255 else t.consec + 1, last := BitVec.ofNat 8 cls }
      vPut (dropInFlight w lane t.vs) lane t.vs (BitVec.ofNat 32 (cls + 256 * detail))

/-- Lanes of a path that have aborted, with their targets, leave it: in T-form they go to their abort
target, one path for each target, with a copy of the path's return stack; in V-form they leave the mask
until `txend` (R174, R175). -/
def routeAborts (s : State) (wid tix pix : Nat) (l : List (Nat × Word)) : State :=
  if l = [] then s else
  modTh s wid tix fun t =>
    match t.paths[pix]? with
    | none => t
    | some p =>
      let gone := maskOf (l.map (·.1))
      if p.vtext then
        let q := { p with mask := p.mask &&& ~~~gone, parked := p.parked ||| gone }
        { t with paths := t.paths.set pix q }
      else
        let targets := (l.map (·.2)).eraseDups
        let fresh := targets.map fun pc =>
          ({ mask := maskOf ((l.filter fun x => x.2 = pc).map (·.1)), pc := pc, stack := p.stack } : Path)
        let q := { p with mask := p.mask &&& ~~~gone }
        keepTurn { t with paths := t.paths.set pix q ++ fresh } p.mask q.mask

/-- Abort one lane at once: the new state, and the lane with its target, still to be routed. -/
def abortOne (s : State) (wid lane cls detail : Nat) : State × (Nat × Word) :=
  let target := ((wgOf s wid).map fun w => (txOf w lane).target).getD 0
  (abortState s wid lane cls detail, lane, target)

/-- Abort lanes, each with class and detail, in order. -/
def abortAll (s : State) (wid : Nat) : List (Nat × Nat × Nat) → State × List (Nat × Word)
  | [] => (s, [])
  | (l, cls, detail) :: t =>
    let (s, g) := abortOne s wid l cls detail
    let (s, gs) := abortAll s wid t
    (s, g :: gs)

/-- Abort lanes of a path and route them. -/
def abortLanes (s : State) (wid tix pix : Nat) (l : List (Nat × Nat × Nat)) : State :=
  let (s, gone) := abortAll s wid l
  routeAborts s wid tix pix gone

/-! ### Escalation (R369 to R371) -/

/-- The TMASK register of a mask of canonical TG `g` (R203). -/
def tmaskReg (g : Nat) (m : Word) : Nat := g * 2 ^ 32 + m.toNat

/-- The 32 lanes of canonical TG `g` of a mask. -/
def blockOf (m : Mask) (g : Nat) : Word := m.extractLsb' (32 * g) 32

/-- The eight doubles of an escalation record (R371). -/
def escDoubles (lidNo : Word) (orig cause tpc tmask taddr titer w image : Nat) (tm : Bool) (form : Nat) : List Dbl :=
  [lidNo.toNat * 2 ^ 32 + orig * 256 + cause, tpc, tmask, taddr, titer, w, image / 2 ^ 16 % 2 ^ 44,
   (if tm then 4 else 0) + form].map (BitVec.ofNat 64)

/-- A record joins those that wait to be written to the ring (R370). -/
def escalate (s : State) (part : Nat) (r : EscRecord) : State :=
  modPart s part fun p => { p with escPending := p.escPending ++ [r] }

/-! ### Taking a trap (R357 to R361, R369, R337) -/

/-- Whether the debug port has claimed an event on a core (R337). No claim bit covers a `brk` (DESIGN CHOICE, log 103). -/
def claimed (c : Core) (cause : Cause) (n : Nat) : Bool :=
  match cause with
  | .breakpoint => n < 8 && c.dbg.getLsbD (24 + n)
  | .watchpoint => n < 4 && c.dbg.getLsbD (20 + n)
  | .singleStep => c.dbg.getLsbD 19
  | _ => false

/-- What a trap reports: cause, trapping lanes, detail, the lanes that performed, and for a debug event
its number (R357, R358). -/
structure TrapArgs where
  cause : Cause
  lanes : Mask
  addr : Nat
  done : Mask := 0
  debugN : Nat := 8
  /-- the canonical PC reported, when it is not the instruction's (R337) -/
  pc : Option (BitVec 29) := none
  /-- a failed matrix token is reported (R409) -/
  token : Bool := false
  /-- TADDR is a scratchpad offset -/
  pad : Bool := false
  deriving DecidableEq, Repr

/-- Note at a failed matrix token the thread that the trap for it goes to, and whether inside a handler (R409). -/
def tellToken (tix : Nat) (nested : Bool) (a : TrapArgs) (p : Pad) : Pad :=
  if !a.token then p else
  { p with queue := p.queue.map fun t => if t.failed.isSome then { t with told := (tix, nested) :: t.told } else t }

/-- The mark of a path whose operation the trap repeats (R366). BAD_OPERAND and BAD_DESCRIPTOR of the T-form instruction report
another TADDR than the node's (R373, R403). -/
def repeated (p : Path) (a : TrapArgs) : Option CutMark :=
  p.cut.find? fun x => x.now && a.lanes.getLsbD x.lane &&
    (x.sure || (x.cause = a.cause && (x.addr = BitVec.ofNat 64 a.addr || a.cause = .badDescriptor || a.cause = .badOperand)))

/-- Path `pix` of a thread traps. The trap-state registers are set together; irrevocable trapping lanes
leave their transaction; every path is suspended; then the handler path starts, the debug port's claim
halts the thread, or the trap escalates. In trap mode a trap is HANDLER_FAULT. -/
def takeTrap (s : State) (wid tix pix : Nat) (a : TrapArgs) : State :=
  match wgOf s wid with
  | none => s
  | some w =>
    match w.threads[tix]? with
    | none => s
    | some t =>
      match t.paths[pix]? with
      | none => s
      | some p =>
        let la := launchOf s w.lid
        let g := if a.lanes = 0 then t.tgix else lowestLane a.lanes / 32
        let lanes := a.lanes &&& blockMask g
        let irrev := (lanesOf lanes).filter fun l => (txOf w l).st = .irrev && t.susp.isNone
        let cpc := a.pc.getD (canonPc s la w.core p)
        let held := claimed (coreOf s w.core) a.cause a.debugN
        let nested := t.susp.isSome
        let s := keepLeaf s (spaceOf la w.core) a.cause a.addr
        let s := if a.cause = .dataError && !a.token then noteAt s (spaceOf la w.core) a.pad a.addr else s
        let s := irrev.foldl (fun s l => leaveTx s wid l) s
        -- R363: the re-issue is for the lanes of the path that did not perform
        -- R366: the issue that repeats a fault of S-form names its iteration index, once
        let cut := repeated p a
        let paths := if cut.isNone then t.paths else
          t.paths.modify pix fun p => { p with cut := p.cut.filter fun x => !x.now }
        let full : Suspended :=
          { paths := paths, run := t.run, gave := t.gave, trapped := pix, done := a.done, lanes := lanes
            skip := if a.cause.passesWhole then a.lanes else lanes
            after := a.cause == .singleStep, turn := t.turn }
        let (regs, handler, halt) : Bool × Bool × Option Halt :=
          if held then (true, false, some .debug)
          else if nested then (false, false, some (.escalated true))
          else if w.tvec = 0x1FFFFFFF || a.cause.escalates then (true, false, some (.escalated false))
          else (true, true, none)
        let tform : Form := if cut.isSome then .s else if p.vtext then .v else .t
        let iter : Word := (cut.map (·.iter)).getD 0
        let s := trace s la.part (regionOfCore w.core)
          { kind := 1, form := if cut.isSome then 2 else pathForm p, detail := (if nested && !held then Cause.handlerFault else a.cause).code,
            tgix := g, image := imageOf la, mask := (blockOf lanes g).toNat, cpc := cpc.toNat, w := w.w,
            iter := iter.toNat, d6 := a.addr }
        let s := modWg s wid fun w =>
          let tr : TrapRegs :=
            { cause := BitVec.ofNat 8 a.cause.code, tm := true, pc := cpc, mask := blockOf lanes g,
              tgix := BitVec.ofNat 4 g, addr := BitVec.ofNat 64 a.addr, iter := iter, form := tform }
          let w := if regs then { w with traps := tset w.traps g tr } else w
          let w := { w with pad := tellToken tix nested a w.pad }
          { w with threads := w.threads.modify tix fun t =>
            let t := if nested then { t with inner := some full } else { t with susp := some full }
            { t with
              halt := halt
              run := lowestLane lanes
              gave := false
              turn := 0
              paths := if handler then [{ mask := lanes &&& ~~~w.exited, pc := w.tvec.zeroExtend 32 }] else [] } }
        match halt with
        | some (.escalated inHandler) =>
          escalate s la.part
            { doubles :=
                if inHandler then
                  escDoubles la.lidNo a.cause.code Cause.handlerFault.code cpc.toNat (tmaskReg g (blockOf lanes g))
                    a.addr 0 w.w (imageOf la) true 0
                else
                  escDoubles la.lidNo a.cause.code a.cause.code cpc.toNat (tmaskReg g (blockOf lanes g)) a.addr
                    iter.toNat w.w (imageOf la) false (match tform with | .t => 0 | .v => 1 | .s => 2)
              lid := w.lid, target := some (w.w, tix) }
        | _ => s

/-! ### The return from a trap (R363) -/

/-- The wait that a trapping path takes up again: at a barrier (R381). Any other instruction is issued again (R411). -/
def keptWait (w : Wait) : Wait :=
  match w with
  | .bar .. | .gbar .. => w
  | _ => .none

/-- The paths of a suspension taken up again: exited lanes are gone, and the trapping path is to issue its
instruction once more for the lanes that did not perform it, or goes on behind it. A wait that its performing lanes
have begun goes on (log 87), and so does a wait at `txend`, which ends once no lane commits any more. -/
def resumePaths (exited : Mask) (u : Suspended) (next : Bool) (noDebug : Bool) : List Path :=
  u.paths.zipIdx.map fun (p, i) =>
    let p := { p with mask := p.mask &&& ~~~exited, parked := p.parked &&& ~~~exited, asked := none }
    if i ≠ u.trapped || u.after then p
    else
      let undone := (p.limit.getD p.mask) &&& ~~~u.done &&& ~~~exited
      let undone := if next then undone &&& ~~~u.skip else undone
      if undone = 0 then
        if p.wait = .txend || (u.done &&& ~~~exited ≠ 0 && p.wait ≠ .none) then { p with limit := none }
        else { stepPath p with wait := .none }
      else
        { p with
          wait := if u.done = 0 then keptWait p.wait else .none
          limit := if undone = p.mask then none else some undone
          noDebug := noDebug && !next }

/-- The running path of a suspension, by a lane that it has left: one that has lost its lowest lane in the handler
goes on with the others (R27). -/
def resumeRun (exited : Mask) (u : Suspended) : Nat :=
  match u.paths.find? fun p => p.mask.getLsbD u.run with
  | some p => if !u.gave && (p.mask &&& ~~~exited) ≠ 0 then lowestLane (p.mask &&& ~~~exited) else u.run
  | none => u.run

/-- A failed matrix token is tried again when the handler of the trap that reported it returns (R409). -/
def retryToken (tix : Nat) (nested : Bool) (p : Pad) : Pad :=
  { p with queue := p.queue.map fun t => if t.told.contains (tix, nested) then { t with failed := none, told := [] } else t }

/-- `rett` and `rett.next` in a thread of a workgroup: trap mode ends and the suspended paths resume;
TCAUSE.TM := 0. -/
def returnWg (w : Workgroup) (tix : Nat) (next : Bool) : Workgroup :=
  let traps := w.traps.map fun x => (x.1, if (w.threads[tix]?.map fun t => t.strand || x.1 = t.tgix) = some true
    then { x.2 with tm := false } else x.2)
  { w with
    traps := traps
    pad := retryToken tix false (retryToken tix true w.pad)
    threads := w.threads.modify tix fun t =>
      match t.susp with
      | none => t
      | some u => settlePaths w.exited
          { t with susp := none, inner := none, halt := none, paths := resumePaths w.exited u next true,
                   run := resumeRun w.exited u, gave := u.gave, turn := u.turn } }

/-- `rett` and `rett.next`. -/
def returnFrom (s : State) (wid tix : Nat) (next : Bool) : State := modWg s wid fun w => returnWg w tix next

/-- A halted handler goes on (R372): its instruction is issued again, or is passed over, with TM kept. -/
def innerWg (w : Workgroup) (tix : Nat) (next : Bool) : Workgroup :=
  { w with pad := retryToken tix true w.pad, threads := w.threads.modify tix fun t =>
      match t.inner with
      | none => t
      | some u => settlePaths w.exited
          { t with inner := none, halt := none, paths := resumePaths w.exited u next true, run := resumeRun w.exited u,
                   gave := u.gave, turn := u.turn } }

/-- A halted thread of a workgroup resumes as after `rett` or `rett.next` (R337, R372). -/
def resumeWg (w : Workgroup) (tix : Nat) (next : Bool) : Workgroup :=
  match w.threads[tix]? with
  | none => w
  | some t => if t.halt = none then w else if t.inner.isSome then innerWg w tix next else returnWg w tix next

/-- A halted thread of a placed workgroup resumes. -/
def resumeHalted (s : State) (wid tix : Nat) (next : Bool) : State := modWg s wid fun w => resumeWg w tix next

end Sys2Proof.Machine
end

