-- ==== Sys2Proof/Machine/Memory.lean ====
section
/-! DEFINITION. The scratchpad, the coalescing buffer, L1 and the slices: R161, R162, R247 to R251, R264,
R285, R381, R401, R406 to R408. -/

namespace Sys2Proof.Machine

/-- How a read ends: a value, uncorrectable data, or a wait for a locked sector (R285). -/
inductive LoadRes where
  | ok (v : Nat) (s : State)
  | bad (c : Cause)
  | waits

/-! ### Barrier objects under waiting paths (R178, R381) -/

/-- The bytes `[a, a + n)` and the 8 bytes at `b` meet. -/
def meets (a n b : Nat) : Bool := a < b + 8 && b < a + n

/-- Mark the wait of a path. -/
def markWait (p : Path) : Path :=
  match p.wait with
  | .bar a t _ => { p with wait := .bar a t true }
  | .gbar va pa t r _ => { p with wait := .gbar va pa t r true }
  | _ => p

/-- Clear the mark of a path's wait. A `gbar` that waits on after its trap has its object judged anew: an answer that was
on its way is void (R381). -/
def unmarkWait (p : Path) : Path :=
  match p.wait with
  | .chan c _ => { p with wait := .chan c none }
  | .bar a t _ => { p with wait := .bar a t false }
  | .gbar va pa t _ _ => { p with wait := .gbar va pa t none false }
  | .refused .. => { p with wait := .none }
  | _ => p

/-- Change every path of a thread, suspended ones included. -/
def mapPaths (f : Path → Path) (t : Thread) : Thread :=
  { t with
    paths := t.paths.map f
    susp := t.susp.map fun u => { u with paths := u.paths.map f }
    inner := t.inner.map fun u => { u with paths := u.paths.map f } }

/-- Mark the waiting paths of one workgroup that a test picks: they take BARRIER_OVERWRITTEN (R381, R390). -/
def overwrittenIn (s : State) (wid : Nat) (hit : Wait → Bool) : State :=
  modWg s wid fun w =>
    { w with threads := w.threads.map (mapPaths fun p => if hit p.wait then markWait p else p) }

/-- The cause and detail that a marked wait takes: BARRIER_OVERWRITTEN (R381) or TRANSFER_FAULT (R411); and that of a
`gbar` whose object takes no arrival, once the slice's answer has returned (R169). -/
def markedCause (cycle : Nat) (x : Wait) : Option (Cause × Nat) :=
  match x with
  | .refused word d => if d ≤ cycle then some (.badOperand, word.toNat) else none
  | .bar a _ true => some (.barrierOverwritten, a)
  | .gbar va _ _ _ true => some (.barrierOverwritten, va)
  | .chan _ (some a) => some (.transferFault, a.toNat)
  | _ => none

/-- Taking TRANSFER_FAULT clears the tag's FAULT (R411). -/
def clearFault (x : Wait) (w : Workgroup) : Workgroup :=
  match x with
  | .chan c _ => { w with pad := { w.pad with tags := tmod w.pad.tags c fun t => { t with fault := none } } }
  | _ => w

/-- A path whose wait is marked takes its cause, when it is not suspended. -/
def deliverMarks (s : State) (wid tix : Nat) : State :=
  match (wgOf s wid).bind fun w => (w.threads[tix]?).map fun t => (w, t) with
  | none => s
  | some (w, t) =>
    match t.paths.zipIdx.findSome? fun (p, i) => (markedCause s.cycle p.wait).map fun x => (i, p, x) with
    | none => s
    | some (i, p, cause, addr) =>
      if siteWaits s (launchOf s w.lid) w.core p then s else
      takeTrap (modWg (modPath s wid tix i unmarkWait) wid (clearFault p.wait)) wid tix i
        { cause := cause, lanes := (p.limit.map (p.mask &&& ·)).getD p.mask, addr := addr }

/-! ### The scratchpad (R161, R248, R264) -/

/-- Whether scratchpad bytes lie inside an allocation. -/
def padHas (p : Pad) (a n : Nat) : Bool := a + n ≤ p.size
/-- Whether scratchpad bytes lie in an uncorrectable sector (R406). -/
def padBad (p : Pad) (a n : Nat) : Bool := p.badSectors.any fun sec => a / 32 ≤ sec && sec ≤ (a + n - 1) / 32
/-- Write scratchpad bytes; whole sectors get a fresh code (R407). -/
def padWrite (p : Pad) (a : Nat) (bytes : List Byte) : Pad :=
  { p with
    scratch := writeBytes p.scratch a bytes
    badSectors := p.badSectors.filter fun sec => !(a ≤ 32 * sec && 32 * sec + 32 ≤ a + bytes.length) }
/-- Whether the object at a scratchpad address is armed (R168). -/
def padArmed (p : Pad) (obj : Nat) : Bool := (memByte p.scratch (obj + 4)).getLsbD 0

/-- A queued token that reads the scratchpad keeps what stores after its issue overwrite: each aligned word
enters it with the old value or a new one (R188). -/
def keepOld (p : Pad) (a n : Nat) (t : MTok) : MTok :=
  match t.op with
  | .mma .. | .zld .. | .cbld .. =>
    { t with old := t.old ++ (List.range' (a / 4) ((a + n - 1) / 4 + 1 - a / 4)).map fun k =>
        (4 * k, BitVec.ofNat 32 (readLE p.scratch (4 * k) 4)) }
  | _ => t

/-- A write to a workgroup's scratchpad: the bytes, and the mark of every waiter on an armed object they meet
(R178, R390). -/
def padStore (s : State) (wid a : Nat) (bytes : List Byte) : State :=
  match wgOf s wid with
  | none => s
  | some w =>
    let s' := putWg s wid { w with pad := padWrite { w.pad with queue := w.pad.queue.map (keepOld w.pad a bytes.length) } a bytes }
    overwrittenIn s' wid fun x => match x with
      | .bar obj _ _ => meets a bytes.length obj && padArmed w.pad obj
      | _ => false

/-! ### L1, the coalescing buffer and the slices (R249, R250) -/

/-- The 32 bytes of a sector at its slice. -/
def sliceSector (s : State) (sec : Nat) : BitVec 256 := BitVec.ofNat 256 (readLE s.mem (32 * sec) 32)
/-- A byte of a 32-byte sector. -/
def sectorByte (x : BitVec 256) (pa : Nat) : Byte := x.extractLsb' (8 * (pa % 32)) 8
/-- Replace a byte of a sector. -/
def sectorPut (x : BitVec 256) (pa : Nat) (b : Byte) : BitVec 256 :=
  let sh := 8 * (pa % 32)
  (x &&& ~~~(0xFF#256 <<< sh)) ||| (b.zeroExtend 256 <<< sh)

/-- The byte that a core's coalescing buffer holds. -/
def cbByte (c : Core) (pa : Nat) : Option Byte :=
  c.cb.findSome? fun e => if e.line = pa / 128 then tfind e.bytes pa else none

/-- Whether bytes that a core's coalescing buffer holds lie in an uncorrectable sector of it (R406). -/
def cbBad (c : Core) (pa n : Nat) : Bool :=
  c.cb.any fun e => e.bad ≠ [] && (List.range n).any fun i => (tfind e.bytes (pa + i)).isSome && e.bad.contains ((pa + i) / 32)

/-- L1 takes in a sector, with a good code. -/
def l1Fill (sec : Nat) (x : BitVec 256) (c : Core) : Core :=
  { c with l1 := tset c.l1 sec x, badL1 := c.badL1.filter (· ≠ sec) }

/-- A core's own store reaches the L1 sector, if present (R249). -/
def l1Update (c : Core) (pa : Nat) (bytes : List Byte) : Core :=
  { c with l1 := bytes.zipIdx.foldl (fun l (b, i) => tmod l ((pa + i) / 32) fun x => sectorPut x (pa + i) b) c.l1 }

/-- What L1 takes in when it fills a sector: the slice's bytes, and over them the core's own stores that still
wait in the coalescing buffer (R249). -/
def fillSector (s : State) (core sec : Nat) : BitVec 256 :=
  (List.range 32).foldl (fun x i => match cbByte (coreOf s core) (32 * sec + i) with
    | some b => sectorPut x i b
    | none => x) (sliceSector s sec)

/-- Whether a path of a workgroup waits on a global object that bytes meet. -/
def gbarWaiter (w : Workgroup) (pa n : Nat) : Bool :=
  let on := fun (p : Path) => match p.wait with
    | .gbar _ obj _ _ _ => meets pa n obj
    | _ => false
  w.threads.any fun t => t.paths.any on || (t.susp.any fun u => u.paths.any on) || (t.inner.any fun u => u.paths.any on)

/-- Mark the waiters of a saved or parked workgroup on armed objects that bytes meet (R381). -/
def markSaved (hit : Wait → Bool) (w : Workgroup) : Workgroup :=
  { w with threads := w.threads.map (mapPaths fun p => if hit p.wait then markWait p else p) }

/-- A write to the host window or the peer window is forwarded to the link or the port (R258, R272). -/
def forward (s : State) (pa : Nat) (bytes : List Byte) : State :=
  if 2 ^ 51 ≤ pa then { s with out := .windowWrite pa bytes :: s.out } else s

/-- The memories of the host and of the peers, which the windows show, change as their own agents write them. -/
def outsideWrites (s : State) : State :=
  if !s.linkUp && s.routes = [] then s
  else match Config.outsideWrite s.tick with
    | none => ticked s
    | some (u, l) => ticked (memWrite s (2 ^ 51 + 64 * (u % 2 ^ 45)) (l.take 64))

/-- An atomic at the host window or the peer window leaves as one operation, whatever it stores (R258). -/
def forwardAtomic (s : State) (pa aop n operand comparand : Nat) : State :=
  if 2 ^ 51 ≤ pa then { s with out := .windowAtomic pa aop n operand comparand :: s.out } else s

/-- Bytes written at a slice: they are performed at every scope of the module, and a waiter on an armed
global barrier object they meet is marked (R178, R381, R390). A write to the host window with the link down
is dropped (R437). -/
def landBytes (s : State) (pa : Nat) (bytes : List Byte) : State :=
  if inHost pa && !s.linkUp then s
  else
    let hit : Wait → Bool := fun x => match x with
      | .gbar _ obj _ _ _ => meets pa bytes.length obj && (memByte s.mem (obj + 4)).getLsbD 0
      | _ => false
    let saved := s.launches.any fun x => x.2.saved.any fun w => gbarWaiter w pa bytes.length
    let s' := if saved then
      { s with launches := s.launches.map fun x => (x.1, { x.2 with saved := x.2.saved.map (markSaved hit) }) } else s
    (s.wgs.filter fun x => gbarWaiter x.2 pa bytes.length).foldl (fun s' x => overwrittenIn s' x.1 hit) (memWrite s' pa bytes)

/-- A write performed at a slice: one to a window goes on to the link or the port. -/
def sliceWrite (s : State) (pa : Nat) (bytes : List Byte) : State :=
  if inHost pa && !s.linkUp then s else forward (landBytes s pa bytes) pa bytes

/-- The writes of device agents on their way land, oldest first; one to a locked sector waits, and those behind it that
meet it wait with it (R285). -/
def landWrites (s : State) : State :=
  if s.deferred = [] then s else
  s.deferred.foldl (fun s x =>
    let blocked := s.deferred.any fun y => y.1 < x.1 + x.2.length && x.1 < y.1 + y.2.length
    if blocked || lockedFor s none x.1 x.2.length then { s with deferred := s.deferred ++ [x] }
    else sliceWrite s x.1 x.2) { s with deferred := [] }

/-- Runs of consecutive bytes. -/
def runs : Tbl Byte → List (Nat × List Byte)
  | [] => []
  | (a, b) :: t =>
    match runs t with
    | (a', l) :: r => if a' = a + 1 then (a, b :: l) :: r else (a, [b]) :: (a', l) :: r
    | [] => [(a, [b])]

/-- Drain one entry: only its masked bytes, in one indivisible write. `none` while a sector of it is locked
(R285). -/
def drainEntry (s : State) (core : Nat) (e : CbEntry) : Option State :=
  if e.bytes.any fun x => lockedFor s none x.1 1 then none
  else
    let s := modCore s core fun c =>
      { c with cb := c.cb.filter (· ≠ e), dropped := c.dropped || (inHost (128 * e.line) && !s.linkUp) }
    let s := (runs e.bytes).foldl (fun s r => sliceWrite s r.1 r.2) s
    -- a failing sector moves with its code (R406, R407)
    let bad := e.bad.filter fun sec => sec < 2 ^ 35 && e.bytes.any fun x => x.1 / 32 = sec
    some { s with badMem := bad.foldl noteBad s.badMem }

/-- Drain the entries of a core that a test picks, oldest first. -/
def drainWhere (s : State) (core : Nat) (pick : CbEntry → Bool) : Option State :=
  ((coreOf s core).cb.filter pick).foldlM (fun s e => drainEntry s core e) s

/-- Drain a core's whole coalescing buffer. -/
def drainAll (s : State) (core : Nat) : Option State := drainWhere s core fun _ => true

/-- Drain the entries of a core that no lock holds back. -/
def drainFree (s : State) (core : Nat) : State :=
  (coreOf s core).cb.foldl (fun s e => (drainEntry s core e).getD s) s

/-- A plain store enters the coalescing buffer, merging into its line's entry; a 33rd entry drains the one
filled longest ago. -/
def cbStore (s : State) (core pa : Nat) (bytes : List Byte) : Option State :=
  let line := pa / 128
  let put := fun (e : CbEntry) => { e with bytes := bytes.zipIdx.foldl (fun m (b, i) => tset m (pa + i) b) e.bytes }
  let c := coreOf s core
  let room := if c.cb.any (·.line = line) || c.cb.length < 32 then some s else
    match c.cb with
    | [] => some s
    | e :: _ => drainEntry s core e
  room.map fun s => modCore s core fun c =>
    let c := l1Update c pa bytes
    if c.cb.any (·.line = line) then { c with cb := c.cb.map fun e => if e.line = line then put e else e }
    else { c with cb := c.cb ++ [put { line := line, bytes := [], born := s.cycle }] }

/-- Remove bytes from the entries of a core. -/
def cbRemove (c : Core) (pa n : Nat) : Core :=
  let left := c.cb.map fun e => { e with bytes := e.bytes.filter fun x => !(pa ≤ x.1 && x.1 < pa + n) }
  { c with cb := left.filter fun e => e.bytes ≠ [] }

/-- A store at gang scope or wider goes to its slice alone (R162, R250). -/
def slicedStore (s : State) (core : Nat) (who : Option (Nat × Nat)) (pa : Nat) (bytes : List Byte) : Option State :=
  if lockedFor s who pa bytes.length then none
  else some (sliceWrite (modCore s core fun c => l1Update (cbRemove c pa bytes.length) pa bytes) pa bytes)

/-- A core has sent a store: one to the host window with the link down is dropped, and noted (R437). -/
def noteDropped (s : State) (core pa : Nat) : State :=
  if inHost pa && !s.linkUp then modCore s core fun k => { k with dropped := true } else s

/-- Whether a sector is in L1 for this load. L1 may have lost a copy that differs from what a fill would now
bring (R249); a failing slice sector leaves a good copy in place, and L1 drops a failing sector of its own (R407). -/
def l1Keeps (s : State) (core sec : Nat) : Option (BitVec 256) × State :=
  match tfind (coreOf s core).l1 sec with
  | none => (none, s)
  | some x =>
    if (coreOf s core).badL1.contains sec then
      (none, modCore (noteError s core 8 (32 * sec)) core fun c =>
        { c with l1 := terase c.l1 sec, badL1 := c.badL1.filter (· ≠ sec) })
    else if x = fillSector s core sec then (some x, s)
    else if Config.l1Lost s.tick then (none, ticked s) else (some x, ticked s)

/-- The value of bytes: those of the coalescing buffer first, the rest from a sector. -/
def mixedValue (c : Core) (sector : BitVec 256) (pa n : Nat) : Nat :=
  ofBytes ((List.range n).map fun i => (cbByte c (pa + i)).getD (sectorByte sector (pa + i)))

/-- Read at a slice: waits for a lock that another lane than `who` holds, fails on uncorrectable data. -/
def sliceRead (s : State) (who : Option (Nat × Nat)) (pa n : Nat) : LoadRes :=
  if lockedFor s who pa n then .waits
  else if badData s pa n then .bad .dataError
  else .ok (readLE s.mem pa n) s

/-- A load by a core (R162, R264): `wide` when its scope is gang or wider, which takes nothing from L1, and renews the
sector where L1 holds it, so that no later load of the core returns an older write (R276). Lines of ATTR 1 and 2 are
kept in no L1. `who` is the irrevocable lane that loads, if one does. -/
def coreLoad (s : State) (core : Nat) (who : Option (Nat × Nat)) (wide : Bool) (attr pa n : Nat) : LoadRes :=
  let c := coreOf s core
  let sec := pa / 32
  if cbBad c pa n then .bad .dataError
  else if (List.range n).all fun i => (cbByte c (pa + i)).isSome then .ok (mixedValue c 0 pa n) s
  else
    let (kept, s) := if wide || attr ≠ 0 then (none, s) else l1Keeps s core sec
    match kept with
    | some x => .ok (mixedValue c x pa n) s
    | none =>
      match sliceRead s who pa n with
      | .ok _ s =>
        let x := sliceSector s sec
        let s := if attr ≠ 0 || (wide && (tfind (coreOf s core).l1 sec).isNone) then s
          else modCore s core (l1Fill sec (fillSector s core sec))
        .ok (mixedValue c x pa n) s
      | r => r

/-- A read-modify-write at the slice (R163): the core's entry that holds the bytes drains first. The operation is named for
the windows (R258). -/
def sliceAtomic (s : State) (core pa n aop operand comparand : Nat) (f : Nat → Nat) : LoadRes :=
  match drainWhere s core fun e => e.line = pa / 128 && e.bytes.any fun x => pa ≤ x.1 && x.1 < pa + n with
  | none => .waits
  | some s =>
    match sliceRead s none pa n with
    | .ok old s =>
      let bytes := toBytes n (f old)
      .ok old (modCore (forwardAtomic (landBytes s pa bytes) pa aop n operand comparand) core fun c => l1Update c pa bytes)
    | r => r

/-- A release at gang scope or wider drains the core's buffer (R162). -/
def releaseGang (s : State) (core : Nat) : Option State := drainAll s core
/-- An acquire at gang scope or wider invalidates the core's global L1 lines (R162). -/
def acquireGang (s : State) (core : Nat) : State := modCore s core fun c => { c with l1 := [] }

end Sys2Proof.Machine
end

