-- ==== Sys2Proof/Machine/Checks.lean ====
section
/-! DEFINITION. Stages 5 to 11 of R375: what each instruction demands of a word's types, operand classes,
scope, uniformity, form, privilege and holdings, and the cause a word that breaks a demand raises (R376,
R377, R142, R159, R178, R198, R212, R362, R385). -/

namespace Sys2Proof.Machine

/-- What stages 5 to 11 judge, stage by stage. -/
structure Demands where
  /-- stage 5: the cause, if the types are refused -/
  types : Option Cause := none
  /-- stage 6: sources and destination, and the instruction's other operand limits -/
  srcs : List Src := []
  dst : Option Dst := none
  operands : Bool := true
  /-- stage 7 -/
  scope : Bool := true
  /-- stage 8: an s destination takes lane-varying sources (R72) -/
  reducing : Bool := false
  /-- stage 9 -/
  form : Bool := true
  /-- stage 10 -/
  privilege : Bool := true
  /-- stage 11: the cause, if the image does not hold what the word uses -/
  held : Option Cause := none
  deriving DecidableEq, Repr

/-- Stage 5 for a set of type codes. -/
def typeIn (l : List Nat) (ty : BitVec 4) : Option Cause :=
  if l.contains ty.toNat then none else some .badType
/-- Stage 5 with a MOD that is reserved for the type given (R377). -/
def typeThen (l : List Nat) (ty : BitVec 4) (ok : Bool) : Option Cause :=
  if l.contains ty.toNat then (if ok then none else some .illegalOpcode) else some .badType

/-- The type sets of R124. -/
def typesI : List Nat := [0, 1, 2, 6, 7, 8, 9, 13, 14]
def typesQ : List Nat := [0, 1, 2, 13, 14]
def typesB : List Nat := [0, 1, 2, 3, 4, 5, 6, 7, 8, 9, 10, 11, 12, 13, 14]
def typesBits : List Nat := [0, 1, 2]
/-- The types of R144. -/
def typesF : List Nat := [3, 4, 5]
/-- The integer types of `cvt`, `pack` and `dot4`: MOD is 0 or 6 (R148, R149, R151). -/
def isIntType (ty : BitVec 4) : Bool := (typesI ++ [12]).contains ty.toNat
def satMod (m : BitVec 4) : Bool := m == 0 || m == 6

/-- `D, A` at the type. -/
def demandA1 (types : List Nat) (f : FmtA) : Demands :=
  let w := isWide f.ty
  { types := typeIn types f.ty, srcs := [{ code := f.a, wide := w }], dst := some { code := f.d, wide := w } }
/-- `D, A, B` at the type. -/
def demandA2 (types : List Nat) (f : FmtA) : Demands :=
  let w := isWide f.ty
  { types := typeIn types f.ty, srcs := [{ code := f.a, wide := w }, { code := f.b, wide := w }],
    dst := some { code := f.d, wide := w } }
/-- `D, A, B, C` at the type. -/
def demandA3 (types : List Nat) (f : FmtA) : Demands :=
  let w := isWide f.ty
  { types := typeIn types f.ty,
    srcs := [{ code := f.a, wide := w }, { code := f.b, wide := w }, { code := f.c, wide := w }],
    dst := some { code := f.d, wide := w } }
/-- An immediate form with a source (R127). A lane register as A is judged as a 32-bit source also where the destination
is an s register, which takes 64 bits of A: it is refused as not uniform (DESIGN CHOICE, log 116). -/
def demandI (f : FmtI) : Demands := { srcs := [{ code := f.a, whole := isS f.d }], dst := some { code := f.d } }
/-- A predicate instruction (R128). -/
def demandP (f : FmtA) (srcs : List Opnd) : Demands :=
  { types := typeIn [0] f.ty, srcs := srcs.map fun x => { code := x, kind := .pred },
    dst := some { code := f.d, kind := .pred } }

/-- Types of `cvt` (R148). -/
def cvtTypes : List Nat := [0, 1, 2, 3, 4, 5, 6, 7, 8, 9, 10, 11, 13, 14]
/-- Stage 5 of `cvt`: both types, then MOD for an integer pair. -/
def cvtTypeCheck (f : FmtA) : Option Cause :=
  if !(cvtTypes.contains f.ty.toNat && cvtTypes.contains f.sub.toNat) then some .badType
  else if isIntType f.ty && isIntType f.sub && !satMod f.mod then some .illegalOpcode
  else none

/-- Types of an AOP (R164). -/
def aopTypes (aop : Nat) : List Nat :=
  match aop with
  | 0 | 1 | 2 => [1, 2, 13, 14]
  | 3 | 4 | 5 => [0, 1, 2, 13, 14]
  | 6 | 7 => [0, 1, 2, 3, 13, 14]
  | 8 | 9 => [2]
  | _ => [3, 4, 5]

/-- Stage 7 of a load, store or atomic (R162, R178). -/
def scopeOk (sp : BitVec 2) (scope : BitVec 3) (ord : BitVec 2) (ords : List Nat) : Bool :=
  ords.contains ord.toNat && scope.toNat ≤ 5 && (ord == 0 || scope != 0) && (sp == 0 || scope.toNat ≤ 2)

/-- The address operands of format M (R85). -/
def addrSrcs (f : FmtM) (uni : Bool) : List Src :=
  [{ code := f.a, wide := f.sp == 0, kind := if f.sp == 0 then .base else .any, uni := uni },
   { code := f.x, uni := uni }]

/-- The join register names a handler may use, and those others may (R142, R362). -/
def joinOk (trap : Bool) (j : BitVec 4) : Bool := decide (12 ≤ j.toNat) == trap

/-- The pairs of R183. -/
def mmaPair (ta tb : BitVec 4) : Bool :=
  (ta == 5 && tb == 5) || (ta == 4 && tb == 4) ||
    ((ta == 0xA || ta == 0xB) && (tb == 0xA || tb == 0xB)) ||
    ((ta == 8 || ta == 9) && (tb == 8 || tb == 9)) || (ta == 0xC && tb == 0xC)
/-- Whether a pair permits block scales (R183). -/
def mmaScales (ta : BitVec 4) : Bool := ta == 0xA || ta == 0xB || ta == 0xC

/-- An engine operand: uniform, 32 bits (R181, R198). -/
def engineSrc (x : Opnd) : Src := { code := x, uni := true }

/-- The registers of R201, R327, R337. -/
def sysRegs : List Nat :=
  [0x000, 0x001, 0x002, 0x003, 0x010, 0x011, 0x020, 0x021, 0x030, 0x031, 0x032, 0x033, 0x034, 0x040, 0x041,
   0x042, 0x043, 0x044, 0x045, 0x046, 0x050, 0x051, 0x052, 0x053, 0x054, 0x055, 0x056, 0x057, 0x058, 0x059,
   0x05A, 0x05B, 0x060, 0x061, 0x062, 0x063, 0x064, 0x065, 0x066, 0x067, 0x068, 0x070]
/-- The registers with an RW field (R200, R203, R120, R121). -/
def sysRegsRw : List Nat :=
  [0x001, 0x003, 0x010, 0x011, 0x020, 0x046, 0x060, 0x061, 0x062, 0x063, 0x064, 0x065, 0x066, 0x067]

/-- The entries of an equivalence table, three doubles each (R46). -/
def eqEntries : List Dbl → List (Dbl × Dbl × Dbl)
  | a :: b :: c :: t => (a, b, c) :: eqEntries t
  | _ => []
/-- The entry of a point (R385): exactly one with its id, of KIND 0 or 1, no reserved bit, its map range
within the map section. -/
def eqLookup (eqs : List Dbl) (mapCount id : Nat) : Option (Dbl × Dbl × Dbl) :=
  match (eqEntries eqs).filter fun e => fld e.1 15 0 = id with
  | [e] =>
    if fld e.1 17 16 ≤ 1 && fld e.1 63 48 = 0 && fld e.1 18 18 = 0 && fld e.2.1 31 29 = 0 && fld e.2.2 63 41 = 0
        && fld e.2.2 31 0 + fld e.2.2 40 32 ≤ mapCount then some e else none
  | _ => none

/-- What each instruction demands. -/
def demandsOf (e : Env) : Instr → Demands
  | .nop _ => {}
  | .add f | .sub f | .mul f | .mulhi f | .min f | .max f => demandA2 typesI f
  | .shl f | .shr f | .sar f => demandA2 typesI f
  | .mad f => demandA3 typesI f
  | .div f | .rem f | .rol f | .cmp f => demandA2 typesQ f
  | .abs f | .neg f => demandA1 typesI f
  | .and f | .or f | .xor f | .andn f => demandA2 typesB f
  | .not f | .mov f => demandA1 typesB f
  | .bfe f => demandA2 typesBits f
  | .bfi f => demandA3 typesBits f
  | .popc f | .clz f | .ctz f | .brev f => demandA1 typesQ f
  | .sel f =>
    let d := demandA2 typesB f
    { d with srcs := d.srcs ++ [{ code := f.c, kind := .pred }] }
  | .movi f | .moviLabel f => { dst := some { code := f.d } }
  | .movhi f | .lea f => { dst := some { code := f.d, wide := true, kind := .wideReg } }
  | .addi f | .andi f | .ori f | .xori f | .cmpiSigned f | .cmpiUnsigned f | .cmpiEquality f => demandI f
  | .pand f | .por f | .pxor f => demandP f [f.a, f.b]
  | .pnot f => demandP f [f.a]
  | .shfl f =>
    { types := typeIn typesB f.ty, srcs := [{ code := f.a, wide := isWide f.ty }, { code := f.b }],
      dst := some { code := f.d, wide := isWide f.ty, kind := .lane } }
  | .vote f =>
    { types := typeIn [0] f.ty, srcs := [{ code := f.a, kind := .pred }], reducing := true,
      dst := some { code := f.d, kind := if f.sub == 0b1010 then .lane else .any } }
  | .redux f =>
    let types := if f.sub.toNat % 8 ≤ 2 then [1, 2, 3, 13, 14] else [0, 1, 2, 13, 14]
    { demandA1 types f with reducing := true }
  | .bcast f =>
    { types := typeIn typesB f.ty, srcs := [{ code := f.a, wide := isWide f.ty }, { code := f.b, uni := true }],
      dst := some { code := f.d, wide := isWide f.ty }, reducing := true }
  | .popk f =>
    { types := typeIn [0] f.ty, srcs := [{ code := f.a, kind := .pred }], dst := some { code := f.d },
      reducing := true }
  | .fadd f | .fsub f | .fmul f | .fmin f | .fmax f => demandA2 typesF f
  | .fma f => demandA3 typesF f
  | .fdiv f => demandA2 [3] f
  | .fabs f | .fneg f => demandA1 typesF f
  | .fcmp f =>
    let d := demandA2 typesF f
    { d with operands := f.ty == 3 || !isK f.d }
  | .frcp f | .frsq f | .fsqrt f | .fexp2 f | .flog2 f | .fsinpi f | .fcospi f | .ftanh f => demandA1 [3] f
  | .cvt f =>
    { types := cvtTypeCheck f,
      srcs := { code := f.a, wide := isWide f.sub } :: (if f.mod == 5 then [{ code := f.b }, { code := f.c }] else []),
      dst := some { code := f.d, wide := isWide f.ty } }
  | .pack f =>
    { types := typeThen [4, 5, 6, 7, 8, 9, 10, 11, 12] f.ty (!isIntType f.ty || satMod f.mod),
      srcs := [{ code := f.a }, { code := f.b }] ++ (if (elemShape f.ty).2 > 2 then [{ code := f.c }] else []),
      dst := some { code := f.d } }
  | .unpack f =>
    { types := typeThen [4, 5, 6, 7, 8, 9, 10, 11, 12] f.ty (f.sub.toNat < (elemShape f.ty).2),
      srcs := [{ code := f.a }], dst := some { code := f.d } }
  | .dot2 f => demandA3 [4, 5] f
  | .dot4 f =>
    let d := demandA3 [8, 9, 10, 11] f
    { d with types := typeThen [8, 9, 10, 11] f.ty (!isIntType f.ty || satMod f.mod) }
  | .ld f =>
    { types := typeIn typesB f.ty, srcs := addrSrcs f false,
      dst := some { code := f.d, wide := isWide f.ty, kind := .reg }, scope := scopeOk f.sp f.scope f.ord [0, 1] }
  | .st f =>
    { types := typeIn typesB f.ty, srcs := addrSrcs f false ++ [{ code := f.d, wide := isWide f.ty }],
      scope := scopeOk f.sp f.scope f.ord [0, 2] }
  | .atom f =>
    { types := typeIn (aopTypes f.aop.toNat) f.ty,
      srcs := [{ code := f.a, wide := f.sp == 0, kind := if f.sp == 0 then .base else .any },
        { code := f.b, wide := isWide f.ty }] ++ (if f.aop == 7 then [{ code := f.c, wide := isWide f.ty }] else []),
      dst := some { code := f.d, wide := isWide f.ty, kind := .reg },
      scope := scopeOk f.sp f.scope f.ord [0, 1, 2, 3] }
  | .red f =>
    { types := typeIn (aopTypes f.aop.toNat) f.ty,
      srcs := [{ code := f.a, wide := f.sp == 0, kind := if f.sp == 0 then .base else .any },
        { code := f.b, wide := isWide f.ty }] ++ (if f.aop == 7 then [{ code := f.c, wide := isWide f.ty }] else []),
      operands := f.d == opZero, scope := scopeOk f.sp f.scope f.ord [0, 1, 2, 3] }
  | .prefetch f =>
    { srcs := addrSrcs f false,
      operands := f.d == opZero && f.ty == 0 && f.scope == 0 && f.ord == 0 && f.sp == 0 }
  | .cctlFlush f | .cctlInv f =>
    { types := typeIn [0] f.ty, srcs := [{ code := f.a, wide := true, uni := true }, { code := f.b, uni := true }] }
  | .fence f =>
    { operands := f.d == opZero && f.a == opZero && f.x == opZero && f.xs == 0 && f.ty == 0 && f.sp == 0 && f.off == 0,
      scope := f.ord != 0 && f.scope != 0 && f.scope.toNat ≤ 5 }
  | .barInit f | .barWait f =>
    { types := typeIn [0] f.ty, srcs := [{ code := f.a, uni := true }, { code := f.b, uni := true }] }
  | .barArrive f =>
    { types := typeIn [0] f.ty, srcs := [{ code := f.a, uni := true }], operands := isS f.d || f.d == opZero,
      dst := if isS f.d then some { code := f.d, wide := true, kind := .reg } else none }
  | .barSync f => { types := typeIn [0] f.ty, srcs := [{ code := f.a, uni := true }] }
  | .gbar f =>
    { srcs := addrSrcs { f with sp := 0 } true,
      operands := f.d == opZero && f.ty == 0 && f.scope == 0 && f.ord == 0 && f.sp == 0 }
  | .txbegin f =>
    { dst := some { code := f.a, kind := .lane }, operands := joinOk e.trap f.j, form := !e.trap }
  | .txend f => { types := typeIn [0] f.ty }
  | .txabort f => { types := typeIn [0] f.ty, srcs := [{ code := f.a }] }
  | .txtest f => { types := typeIn [0] f.ty, dst := some { code := f.d } }
  | .bra _ | .call _ | .ret _ | .yield _ | .exit _ => {}
  | .split f | .join f => { operands := joinOk e.trap f.j, form := !e.vform }
  | .sleep f => { srcs := [{ code := f.a, uni := true }] }
  | .mma f =>
    { types := if mmaPair f.ta f.tb && (f.sc == 0 || mmaScales f.ta) then none else some .badType,
      srcs := [engineSrc f.a, engineSrc f.b] ++ (if f.sc == 1 then [engineSrc f.c] else []),
      operands := f.z.toNat < e.zregs && (f.sc == 0 || f.c != opZero),
      held := if f.ta == 0xC && !e.excl then some .codebookNotHeld else none }
  | .zld f | .zst f =>
    { types := typeIn [0, 3, 4, 5] f.ta, srcs := [engineSrc f.a, engineSrc f.b], operands := f.z.toNat < e.zregs }
  | .zrd f =>
    { srcs := [{ code := f.b }], dst := some { code := f.a, kind := .lane }, operands := f.z.toNat < e.zregs }
  | .zwr f => { srcs := [{ code := f.a }, { code := f.b }], operands := f.z.toNat < e.zregs }
  | .zclr f => { operands := f.z.toNat < e.zregs }
  | .cbld f => { srcs := [engineSrc f.a], held := if e.excl then none else some .codebookNotHeld }
  | .xfer f =>
    { srcs := (List.range 8).map fun i => { code := f.a + BitVec.ofNat 9 i, wide := true }
      operands := isS f.a && f.a.toNat % 8 = 0, held := if e.excl then none else some .tagNotHeld }
  | .expect f => { srcs := [engineSrc f.a], held := if e.excl then none else some .tagNotHeld }
  | .waitc _ => { held := if e.excl then none else some .tagNotHeld }
  | .xstat f =>
    { dst := some { code := f.a, kind := .reg }, held := if e.excl then none else some .tagNotHeld }
  | .phase _ | .phaseClr _ => {}
  | .getsr f =>
    { dst := some { code := f.d, kind := if f.imm.getLsbD 0 then .lane else .reg },
      operands := sysRegs.contains f.sreg.toNat }
  | .setsr f =>
    { srcs := [{ code := f.a, uni := true, whole := true }], operands := f.d == opZero && sysRegs.contains f.sreg.toNat,
      privilege := sysRegsRw.contains f.sreg.toNat }
  | .trap f | .brk f => { operands := f.sreg == 0 }
  | .rett f | .rettNext f => { operands := f.sreg == 0, privilege := e.trap }
  | .eqp f => { operands := (eqLookup e.eqs e.mapCount (fld f.imm 15 0)).isSome }
  | .hop f => { operands := fld f.imm 1 0 ≠ 3, form := !e.trap }
  | .launch f =>
    { srcs := [{ code := f.a, wide := true, kind := .base }], dst := some { code := f.d, kind := .lane },
      form := !e.trap }
  | _ => {}

/-- Stage 8: every field that must be uniform is (R72, R376). -/
def uniformOk (d : Demands) : Bool :=
  let all := match d.dst with
    | some x => isS x.code && !d.reducing
    | none => false
  d.srcs.all fun s => isUniform s.code || !(s.uni || all)

/-- Stages 5 to 11, in order: the first cause found. -/
def judge (e : Env) (i : Instr) : Option Cause :=
  let d := demandsOf e i
  match d.types with
  | some c => some c
  | none =>
    if !(d.operands && d.srcs.all (srcOk e.nvregs) && (match d.dst with | some x => dstOk e.nvregs x | none => true))
    then some .badOperand
    else if !d.scope then some .badScope
    else if !uniformOk d then some .badUniform
    else if !d.form then some .badForm
    else if !d.privilege then some .privileged
    else d.held

/-- TADDR of a cause of stages 5 to 11: the word, but for `eqp` the id (R385). -/
def judgeAddr (word : Dbl) (c : Cause) : Instr → Nat
  | .eqp f => if c = .badOperand then fld f.imm 15 0 else word.toNat
  | _ => word.toNat

/-- What stages 5 to 11 see of an issue. -/
def envOf (c : Ctx) : Env where
  nvregs := c.wg.nvregs
  zregs := fld (hdr c.la 1) 12 9
  excl := (hdr c.la 0).getLsbD 51
  trap := c.th.susp.isSome
  vform := c.path.vtext
  eqs := c.la.eqs
  mapCount := fld (hdr c.la 6) 63 32 / 8

/-- The guard field of an instruction (R65); `nop` reads none (R378), and `bra` reads its guard as its
condition (R131). -/
def guardOf : Instr → BitVec 4
  | .nop _ | .bra _ => 0
  | .add f | .sub f | .mul f | .mulhi f | .mad f | .div f | .rem f | .min f | .max f | .abs f | .neg f | .and f
  | .or f | .xor f | .andn f | .not f | .shl f | .shr f | .sar f | .rol f | .bfe f | .bfi f | .popc f | .clz f
  | .ctz f | .brev f | .sel f | .mov f | .cmp f | .pand f | .por f | .pxor f | .pnot f | .shfl f | .vote f | .redux f
  | .bcast f | .popk f | .fadd f | .fsub f | .fmul f | .fma f | .fdiv f | .fmin f | .fmax f | .fabs f | .fneg f | .fcmp f
  | .frcp f | .frsq f | .fsqrt f | .fexp2 f | .flog2 f | .fsinpi f | .fcospi f | .ftanh f | .cvt f | .pack f | .unpack f | .dot2 f
  | .dot4 f | .cctlFlush f | .cctlInv f | .barInit f | .barArrive f | .barWait f | .barSync f | .txend f | .txabort f | .txtest f => f.g
  | .movi f | .moviLabel f | .movhi f | .addi f | .andi f | .ori f | .xori f | .cmpiSigned f | .cmpiUnsigned f | .cmpiEquality f | .lea f | .phase f
  | .phaseClr f => f.g
  | .ld f | .st f | .prefetch f | .fence f | .gbar f => f.g
  | .atom f | .red f => f.g
  | .txbegin f | .split f | .join f | .call f | .ret f | .yield f | .sleep f | .exit f => f.g
  | .mma f | .zld f | .zst f | .zrd f | .zwr f | .zclr f | .cbld f => f.g
  | .xfer f | .expect f | .waitc f | .xstat f => f.g
  | .getsr f | .setsr f | .trap f | .brk f | .rett f | .rettNext f | .eqp f | .hop f | .launch f => f.g
  | _ => 0

end Sys2Proof.Machine
end

