-- ==== Sys2Proof/Machine/Issue.lean ====
section
/-! DEFINITION. The issue of one instruction by one path: fetch, the stages of R375, the lanes that
perform, what a trap reports, and what follows an instruction. -/

namespace Sys2Proof.Machine

/-- A per-lane failure: its lane, its stage in R375, cause and detail. -/
structure Fail where
  lane : Nat
  stage : Nat
  cause : Cause
  addr : Nat
  deriving DecidableEq, Repr

/-- What an instruction's own rule gives once stages 1 to 13 have passed. -/
inductive Res where
  /-- the effect, in every passing lane but the failing ones and those that have aborted, which are listed
  with their targets; the path goes on at the next PC -/
  | done (s : State) (fails : List Fail) (gone : List (Nat × Word) := [])
  /-- the failing lanes keep the instruction from being performed in any lane (R139) -/
  | held (s : State) (fails : List Fail)
  /-- the path goes on at another PC -/
  | jump (s : State) (pc : Word)
  /-- the paths stand where the rule puts them -/
  | own (s : State)
  /-- the instruction is not performed yet: the paths stand where they try it again (R177) -/
  | stays (s : State)
  /-- a `txend` that has nothing to wait for: the path, or the strand, is past its transaction (R174) -/
  | endsTx (s : State)
  /-- an instruction-wide cause: no effect -/
  | wide (c : Cause) (addr : Nat)
  /-- the failure of a matrix token is reported, instruction-wide (R409) -/
  | tokenFails (addr : Nat)
  /-- an instruction-wide cause whose taking changes the state (R411) -/
  | wideAt (s : State) (c : Cause) (addr : Nat)
  /-- not issued: the path tries again (R186, R285) -/
  | stall
  /-- the lanes' reads of the host window are under way: the path tries again once their answers have come (R437) -/
  | asks (lanes : Mask)

/-! ### Addresses (R85) -/

/-- The address a lane forms in format M. -/
def addrM (cycle : Nat) (c : Ctx) (f : FmtM) (l : Nat) : Nat :=
  let base := readOp cycle c f.a (f.sp == 0) l
  let ix := sextNat (readOp cycle c f.x false l) 32 * (2 ^ f.xs.toNat : Nat)
  lowInt (base + ix + sextNat f.off.toNat 12) (if f.sp == 0 then 64 else 32)

/-- The address a lane forms in format MA. -/
def addrMA (cycle : Nat) (c : Ctx) (f : FmtMA) (l : Nat) : Nat := readOp cycle c f.a (f.sp == 0) l

/-- Bytes of an access in `ld` and `st` (R160). -/
def accessBytes (ty : BitVec 4) : Nat :=
  match ty.toNat with
  | 6 | 7 => 2
  | 8 | 9 => 1
  | 13 | 14 => 8
  | _ => 4

/-- The bytes that an instruction tested by watchpoints touches in a lane: scratchpad or global, whether it
loads, whether it stores, address, length (R335). -/
def touches (cycle : Nat) (c : Ctx) (i : Instr) (l : Nat) : Option (Bool × Bool × Bool × Nat × Nat) :=
  match i with
  | .ld f => some (f.sp == 1, true, false, addrM cycle c f l, accessBytes f.ty)
  | .st f => some (f.sp == 1, false, true, addrM cycle c f l, accessBytes f.ty)
  | .atom f | .red f => some (f.sp == 1, true, true, addrMA cycle c f l, if isWide f.ty then 8 else 4)
  | _ => none

/-! ### Stage 12: breakpoints and watchpoints (R334 to R336) -/

/-- Whether a signed comparison CMP holds (R203 BPCTL). The reserved 6 and 7 never hold (DESIGN CHOICE, log 126). -/
def bpCompare (cmp : Nat) (x y : Int) : Bool :=
  match cmp with
  | 0 => x = y | 1 => x ≠ y | 2 => x < y | 3 => x ≤ y | 4 => x > y | 5 => x ≥ y | _ => false

/-- The lanes that meet a breakpoint's condition, if it fires. -/
def bpLanes (cycle : Nat) (c : Ctx) (cpc : BitVec 29) (bp : Dbl) : Mask :=
  if !bp.getLsbD 0 || fld bp 42 14 ≠ cpc.toNat then 0
  else
    let opnd : Opnd := bp.extractLsb' 5 9
    let met := maskOf ((lanesOf c.pass).filter fun l =>
      opnd == opZero || bpCompare (fld bp 4 2) (sextNat (readOp cycle c opnd false l) 32) (sextNat (fld bp 63 43) 21))
    if bp.getLsbD 1 && met ≠ c.pass then 0 else met

/-- The lowest matching address of a lane's access under a watchpoint. A SZ below 8 and a BASE that is not aligned are taken
as written (DESIGN CHOICE, log 126). -/
def wpMatch (wp : Dbl) (t : Bool × Bool × Bool × Nat × Nat) : Option Nat :=
  let (sp, loads, stores, a, n) := t
  let kind := fld wp 1 0
  let covers := (stores && kind % 2 = 1) || (loads && kind / 2 = 1)
  let base := fld wp 63 8 * 256
  let sz := 2 ^ fld wp 7 3
  if covers && (wp.getLsbD 2 == sp) && a < base + sz && base < a + n then some (max a base) else none

/-- What stage 12 reports. -/
def debugStop (s : State) (c : Ctx) (i : Instr) : Option TrapArgs :=
  let co := coreOf s c.wg.core
  if c.path.noDebug || c.pass = 0 then none
  else if co.bp.all (· = 0) && co.wp.all (· = 0) then none
  else
    let cpc := canonPc s c.la c.wg.core c.path
    let bps := co.bp.zipIdx.findSome? fun (bp, n) =>
      let m := bpLanes s.cycle c cpc bp
      if m = 0 then none else some { cause := .breakpoint, lanes := m, addr := n, debugN := n }
    match bps with
    | some a => some a
    | none => co.wp.zipIdx.findSome? fun (wp, n) =>
      let hits := (lanesOf c.pass).filterMap fun l =>
        ((touches s.cycle c i l).bind (wpMatch wp)).map fun a => (l, a)
      match hits with
      | [] => none
      | (_, a) :: _ => some { cause := .watchpoint, lanes := maskOf (hits.map (·.1)), addr := a, debugN := n }

/-! ### Registers in flight and failing registers (R186, R408, R444) -/

/-- The register operands an instruction reads or writes. -/
def regsOf (d : Demands) : List (Opnd × Bool) :=
  (d.srcs.map fun x => (x.code, x.wide)) ++ (match d.dst with | some x => [(x.code, x.wide)] | none => [])

/-- The operands that breakpoints armed at the instruction test (R334). -/
def testedOpnds (s : State) (c : Ctx) : List (Opnd × Bool) :=
  let bps := (coreOf s c.wg.core).bp
  if c.path.noDebug || c.pass = 0 || bps.all (· = 0) then [] else
  let cpc := canonPc s c.la c.wg.core c.path
  (bps.filter fun bp => bp.getLsbD 0 && fld bp 42 14 = cpc.toNat).map fun bp => (bp.extractLsb' 5 9, false)

/-- The registers that an issue reads or writes, those that breakpoints test among them (R334, R444). -/
def awaited (s : State) (c : Ctx) (i : Instr) : List (Opnd × Bool) := regsOf (demandsOf (envOf c) i) ++ testedOpnds s c

/-- Whether a value in flight is bound for one of some registers. -/
def inFlight (c : Ctx) (l : List (Opnd × Bool)) : Bool :=
  c.th.flights.any fun f => l.any fun (x, w) =>
    (f.lanes.any fun y => c.act.getLsbD y.1 && (y.2.1 = x.toNat || (w && isV x && y.2.1 = x.toNat + 1))) ||
      (match f.sreg with | some (n, _) => x.toNat = 0x100 + n | none => false)

/-- The code of TADDR for a failing register (R408). -/
def badRegAddr (code : Nat) : Nat := 0x1000000000000000 + code

/-- Lanes whose copy of a source v register fails: stage 15. -/
def badLaneRegs (c : Ctx) (d : Demands) : List Fail :=
  if c.wg.badRegs = [] then [] else
  (lanesOf c.pass).filterMap fun l =>
    (d.srcs.findSome? fun x =>
      if isV x.code && c.wg.badRegs.contains (x.code.toNat, l) then some x.code.toNat
      else if isV x.code && x.wide && c.wg.badRegs.contains (x.code.toNat + 1, l) then some (x.code.toNat + 1)
      else none).map fun code => ⟨l, 15, .dataError, badRegAddr code⟩

/-- Whether a `txbegin` records its lanes in jN: some begin at depth 0, and jN does not hold them already (R172, R177). -/
def recordsJoin (c : Ctx) : Bool :=
  !c.path.queued && !c.path.vtext && (lanesOf c.pass).any fun l => (txOf c.wg l).st = .out

/-- The join registers that an instruction reads (R132, R133, R172, R177, R209, R212). -/
def joinRead (c : Ctx) : Instr → List Nat
  | .split f | .join f => [f.j.toNat]
  | .txbegin f => if recordsJoin c then [f.j.toNat] else []
  | .rett _ | .rettNext _ => [12, 13, 14, 15]
  | _ => []

/-- The predicate that selects an instruction's lanes: its guard, the condition of a `bra`, and the predicate of a
`split` (R65, R131, R132). -/
def predRead : Instr → List Nat
  | .bra f => [f.g.toNat % 8]
  | .split f => [f.ks.toNat]
  | i => [(guardOf i).toNat % 8]

/-- A failing s, k or j register that the instruction reads, guard included: instruction-wide. Where no lane passes
the guard only the guard itself is read (R376). -/
def badUniformReg (c : Ctx) (d : Demands) (i : Instr) : Option Nat :=
  if c.wg.badRegs = [] then none else
  let codes := (if c.pass = 0 then [] else d.srcs.map fun x => (x.code.toNat, x.wide || x.whole))
    ++ (((predRead i).filter (· ≠ 0)).map fun k => (0x140 + k, false))
  let hit := codes.find? fun (code, wide) =>
    if 0x100 ≤ code && code < 0x140 then
      c.wg.badRegs.contains (code, c.tix) || (wide && c.wg.badRegs.contains (code + 0x200, c.tix))
    else 0x140 ≤ code && code < 0x148 && (c.wg.badRegs.any fun b => b.1 = code && (lanesOf c.act).any (· / 32 = b.2))
  match hit with
  | some (code, _) => some (badRegAddr code)
  | none => ((if c.pass = 0 then [] else joinRead c i).find? fun j => c.wg.badRegs.contains (0x200 + j, c.tix)).map
      fun j => badRegAddr (Config.joinCode j).toNat

/-! ### Stage 13: the transaction state of each lane (R173, R288) -/

/-- The instructions listed in R173. -/
def txListed : Instr → Bool
  | .atom _ | .red _ | .fence _ | .barInit _ | .barArrive _ | .barWait _ | .barSync _ | .gbar _
  | .cctlFlush _ | .cctlInv _ | .launch _ | .xfer _ | .expect _ | .waitc _ | .sleep _ | .phase _ | .phaseClr _
  | .setsr _ => true
  | _ => false

/-- `txabort` and the listed instructions are refused in an irrevocable lane (R178). -/
def irrevRefused : Instr → Bool
  | .txabort _ => true
  | i => txListed i

/-- Stage 13: the lanes that abort with class 10, and the failing irrevocable lanes. A handler runs outside
its lanes' transactions (R286). -/
def txStage (c : Ctx) (i : Instr) : List Nat × List Fail :=
  if c.th.susp.isSome || c.wg.tx = [] then ([], [])
  else
    let op := fld c.word 7 0
    let ls := lanesOf c.pass
    (if txListed i then ls.filter fun l => (txOf c.wg l).st = .active else [],
     ls.filterMap fun l =>
      let t := txOf c.wg l
      if t.st ≠ .irrev then none
      else if t.instrs ≥ 4096 then some ⟨l, 13, .txIrrevocableLimit, 0⟩
      else if irrevRefused i then some ⟨l, 13, .txIrrevocableUse, op⟩
      else none)

/-- Count an instruction in the irrevocable lanes that execute it: from behind the granting `txbegin` to the `txend` (R288;
which of the two counts is DEDUCED, log 102). -/
def countIrrev (w : Workgroup) (trap : Bool) (pass : Mask) : Workgroup :=
  if trap || w.tx = [] then w else
  (lanesOf pass).foldl (fun w l =>
    let t := txOf w l
    if t.st = .irrev then setTx w l { t with instrs := t.instrs + 1 } else w) w

/-! ### What follows an instruction -/

/-- The lanes of a thread that have not exited. -/
def liveLanes (w : Workgroup) (t : Thread) : Mask :=
  let own := if t.strand then fullMask w.ntg else blockMask t.tgix
  own &&& ~~~w.exited

/-- A thread has retired: no lane is left (R24). -/
def retired (w : Workgroup) (t : Thread) : Bool := liveLanes w t = 0

/-- Drop empty paths and complete joins; a handler whose lanes have all exited ends as after `rett` (R362). -/
def settleThread (s : State) (wid tix : Nat) : State :=
  match wgOf s wid with
  | none => s
  | some w =>
    match w.threads[tix]? with
    | none => s
    | some t =>
      let t' := settlePaths w.exited t
      let s := putWg s wid { w with threads := w.threads.set tix t' }
      if t'.paths = [] && t'.susp.isSome && t'.halt.isNone then
        returnFrom s wid tix false
      else s

/-- Whether single-stepping is on for a thread (R337). -/
def stepping (s : State) (w : Workgroup) (t : Thread) : Bool :=
  let d := (coreOf s w.core).dbg
  d.getLsbD 18 && fld d 17 14 = t.slot

/-- The path, with its index, that holds the lowest of some lanes after their instruction; a strand's parked elements
are lanes of its path still. -/
def pathAfter (t : Thread) (act : Mask) : Option (Path × Nat) :=
  let lanes := fun (p : Path) => (p.mask ||| p.parked) &&& act
  match t.paths.zipIdx.filter fun x => lanes x.1 ≠ 0 with
  | [] => none
  | x :: r => some (r.foldl (fun b y => if lowestLane (lanes y.1) < lowestLane (lanes b.1) then y else b) x)

/-- The lanes that SINGLE_STEP reports: those that were active, in the block of the lowest one that has not exited
(R337, R358). -/
def steppedLanes (exited act : Mask) : Mask :=
  let live := act &&& ~~~exited
  if live = 0 then act else act &&& blockMask (lowestLane live / 32)

/-- SINGLE_STEP after an instruction that has completed; a path that waits, or whose site entry is locked, owes it (R285,
R337). Where every active lane has
exited it is raised for the TG or strand as long as that has not retired, and its handler has no lane (DEDUCED,
log 114). -/
def singleStep (s : State) (c : Ctx) : State :=
  match wgOf s c.wid with
  | none => s
  | some w =>
    match w.threads[c.tix]? with
    | none => s
    | some t =>
      if !stepping s w t || t.halt.isSome then s else
      let lanes := steppedLanes w.exited c.act
      match pathAfter t c.act with
      | none =>
        if retired w t then s else
        let s := modTh s c.wid c.tix fun t => { t with paths := t.paths ++ [{ stepPath c.path with mask := 0, wait := .none }] }
        settleThread (takeTrap s c.wid c.tix t.paths.length { cause := .singleStep, lanes := lanes, addr := 0 }) c.wid c.tix
      | some (p, i) =>
        if p.wait = .none && !siteWaits s c.la w.core p then
          takeTrap s c.wid c.tix i { cause := .singleStep, lanes := lanes, addr := 0 }
        else modPath s c.wid c.tix i fun p => { p with stepDue := p.stepDue ++ [lanes] }

/-- The trap of a list of per-lane failures (R358): the earliest stage, the cause of its lowest lane, the
lanes with that cause. -/
def trapOfFails (fails : List Fail) (done : Mask) : Option TrapArgs :=
  match fails with
  | [] => none
  | f :: t =>
    let first := t.foldl (fun b x => if x.stage < b.stage || (x.stage = b.stage && x.lane < b.lane) then x else b) f
    let same := (f :: t).filter fun x => x.cause = first.cause
    let lanes := maskOf (same.map (·.lane))
    let block := blockMask (lowestLane lanes / 32)
    let lanes := lanes &&& block
    let low := lowestLane lanes
    some { cause := first.cause, lanes := lanes, done := done
           addr := ((same.find? fun x => x.lane = low).map (·.addr)).getD 0 }

/-- One unit of canonical work for each active lane or element (R51; that inactive elements do not count: DESIGN CHOICE,
log 98). -/
def countWork (s : State) (c : Ctx) : State :=
  modRegion s (regionOfCore c.wg.core) fun g =>
    { g with workOf := tset g.workOf c.wg.lid (tget 0 g.workOf c.wg.lid + (lanesOf c.act).length) }

/-- Whether a failure is of an access to global memory or to the scratchpad (R175, R375): one of stage 15 or 16 of an
instruction that makes accesses, and not that of a register that it reads. -/
def ofAccess (c : Ctx) (f : Fail) : Bool :=
  [0x90, 0x91, 0x92].contains (fld c.word 7 0) && f.stage ≥ 15 && (f.cause ≠ .dataError || canonical f.addr)

/-- A failure that its lane's transaction takes: the lane aborts with class 6 (R175). -/
def revocable (c : Ctx) (f : Fail) : Bool := ofAccess c f && c.th.susp.isNone && (txOf c.wg f.lane).st = .active

/-- Whether an instruction word accesses the scratchpad. -/
def accessesPad (w : Dbl) : Bool :=
  match decodeTV w with
  | .ok (.ld f) | .ok (.st f) => f.sp == 1
  | .ok (.atom f) | .ok (.red f) => f.sp == 1
  | .ok (.barInit _) | .ok (.barArrive _) | .ok (.barWait _) | .ok (.barSync _) => true
  | _ => false

/-- The end of an issue: aborts of class 6, then the trap of what failed or the path's next PC. -/
def conclude (s : State) (c : Ctx) (fails : List Fail) (gone : List (Nat × Word)) (move : Path → Path) : State :=
  let aborts := fails.filter (revocable c)
  let traps := fails.filter fun f => !revocable c f
  let s := (aborts.filter (·.cause = .dataError)).foldl (fun s f =>
    noteAt s (spaceOf c.la c.wg.core) (accessesPad c.word) f.addr) (countWork s c)
  let (s, more) := abortAll s c.wid (aborts.map fun f => (f.lane, 6, f.cause.code))
  let s := routeAborts s c.wid c.tix c.pix (gone ++ more)
  let done := c.pass &&& ~~~maskOf (fails.map (·.lane) ++ gone.map (·.1))
  match trapOfFails traps done with
  | some a => takeTrap s c.wid c.tix c.pix { a with pad := a.cause = .dataError && accessesPad c.word }
  | none => singleStep (settleThread (modPath s c.wid c.tix c.pix move) c.wid c.tix) c

/-- A lane instruction of width `.w` (R98: SUB[3]). -/
def laneWide : Instr → Bool
  | .shfl f | .vote f | .redux f | .bcast f | .popk f => f.sub.getLsbD 3
  | _ => false

/-- The instructions whose effect does not need a lane: a strand whose elements are all parked still passes
them (R174), and a path with no passing lane arrives in a round of width `.w` (R152). -/
def runsEmpty : Instr → Bool
  | .bra _ | .call _ | .ret _ | .yield _ | .sleep _ | .txbegin _ | .txend _ | .eqp _ | .hop _ => true
  | i => laneWide i

/-- `txend`: where its lanes may not execute it, the path waits at it all the same (R174, R363). -/
def endsTx : Instr → Bool
  | .txend _ => true
  | _ => false

/-- The instructions that a path performs as a whole: a lane that may not perform one keeps it from every lane of its
path, since they choose where the whole path goes on, or have it arrive at once (R158; DEDUCED, log 88). -/
def movesPath (i : Instr) : Bool :=
  laneWide i || match i with
  | .bra _ | .call _ | .ret _ | .split _ | .join _ => true
  | _ => false

/-- The instructions performed once for the TG (R66, R181, R199): a failing lane leaves no effect. -/
def performedOnce (d : Demands) : Instr → Bool
  | .mma _ | .zld _ | .zst _ | .zclr _ | .cbld _ | .xfer _ | .expect _ | .waitc _ | .setsr _ | .phase _
  | .phaseClr _ => true
  | _ => match d.dst with
    | some x => isS x.code
    | none => false

/-- The thread holds off until it may try again: a stall does not give up the turn (R186). -/
def stalled (s : State) (c : Ctx) (until_ : Nat) : State :=
  modTh s c.wid c.tix fun t => { t with stalled := until_ }

/-- Cycle at which a value issued now returns. -/
def returnCycle (s : State) : Nat := s.cycle + 1 + Config.loadLatency s.tick

/-- The path asks the host link for lanes' values, or goes on waiting for them: a stall, as on an operand that is not yet
written (R437, R444). -/
def asking (s : State) (c : Ctx) (lanes : Mask) : State :=
  let d := (c.path.asked.map (·.1)).getD (returnCycle s)
  stalled (modPath (ticked s) c.wid c.tix c.pix fun p => { p with asked := some (d, lanes) }) c d

/-- The answers that a path has asked for have come. -/
def hasAnswers (cycle : Nat) (c : Ctx) : Bool := c.path.asked.any fun x => x.1 ≤ cycle

/-- The cycle in which the next value in flight of a thread returns. -/
def nextReturn (cycle : Nat) (t : Thread) : Nat :=
  match (t.flights.filterMap (·.due)).filter (cycle < ·) with
  | [] => cycle + 2
  | d :: l => l.foldl min d

/-- The issuing unit of the state, if there is one: the picked path of its thread, its active lanes and
those that pass the guard. -/
def ctxOf (s : State) (i : Instr) : Option Ctx :=
  match s.cur with
  | .thread wid tix word =>
    match wgOf s wid with
    | none => none
    | some w =>
      match w.threads[tix]? with
      | none => none
      | some t =>
        match pickPath t with
        | none => none
        | some pix =>
          match t.paths[pix]? with
          | none => none
          | some p =>
            let act := match p.limit with
              | some m => p.mask &&& m
              | none => p.mask
            let g := guardOf i
            let k := kGet w (g.toNat % 8)
            some { wid := wid, tix := tix, pix := pix, word := word, wg := w, th := t, path := p,
                   la := launchOf s w.lid, act := act, pass := act &&& (if g.toNat ≥ 8 then ~~~k else k) }
  | _ => none

/-- The path takes the turn (R27). -/
def begin (s : State) (c : Ctx) : State := modTh s c.wid c.tix fun t => takeTurn t c.path

/-- The instruction is issued: the issue's cycle, the launch's budget (R28, R211). -/
def issued (s : State) (c : Ctx) : State :=
  modLaunch (modTh s c.wid c.tix fun t => { t with last := s.cycle }) c.wg.lid fun la => { la with begun := true }

/-- The issuing path has reached a wait point and gives way, also where the wait is over at once (R23, R27; DEDUCED,
log 112). A strand is one path. -/
def passWait (s : State) (c : Ctx) : State :=
  if c.path.vtext then s else modTh s c.wid c.tix fun t => giveWay t c.path

/-- The issuing path has come to wait: it holds `p` and gives way (R23, R27). -/
def waitAt (s : State) (c : Ctx) (p : Path → Path) : State := passWait (modPath s c.wid c.tix c.pix p) c

/-- A strand comes out of one transaction: behind the outermost `txend` its parked elements are active again (R174). -/
def leaveNest (p : Path) : Path :=
  if p.nest ≤ 1 then { p with nest := 0, mask := p.mask ||| p.parked, parked := 0 } else { p with nest := p.nest - 1 }

/-- A path or a strand behind its `txend` (R174). -/
def passTxend (p : Path) : Path := if p.vtext then leaveNest (stepPath p) else stepPath p

/-- The path ends its turn, as `yield` has it do; a strand passes over its next issue slot (R27, R135). -/
def endTurn (s : State) (c : Ctx) : State :=
  modTh s c.wid c.tix fun t => if c.path.vtext then { t with gaveSlot := true } else giveWay t c.path

/-- The issue of a word that traps before it is an instruction of a path (R27, R28, R211). -/
def issueOf (s : State) (wid tix lid : Nat) (p : Path) : State :=
  modLaunch (modTh s wid tix fun t => { takeTurn t p with last := s.cycle }) lid fun la => { la with begun := true }

/-- Whether a source is %cyclo, whose reading latches the counter's high half (R69). -/
def readsCyclo (d : Demands) : Bool := d.srcs.any fun x => x.code == 0x15C
/-- Whether the issue itself reads it: a lane passes the guard, and the read is not that of a round (R65, R152). -/
def latches (c : Ctx) (d : Demands) (i : Instr) : Bool :=
  readsCyclo d && c.pass ≠ 0 && !(laneWide i && !c.path.vtext && !c.th.strand)

/-- Stages 13 to 16 and the effect, for a word that passed stages 1 to 12. R408 gives an uncorrectable s register no stage:
that its DATA_ERROR comes behind the stage-13 failures of irrevocable lanes, and takes the place of stage-13 aborts of
revocable ones, is a DESIGN CHOICE (log 124). -/
def perform (s : State) (c : Ctx) (i : Instr) (body : Ctx → State → Res) : State :=
  let d := demandsOf (envOf c) i
  let s0 := s
  let s := issued s c
  let (aborts, fails) := txStage c i
  let s1 := abortLanes s c.wid c.tix c.pix (aborts.map fun l => (l, 10, fld c.word 7 0))
  let out := maskOf (aborts ++ fails.map (·.lane))
  let c1 := { c with
    pass := c.pass &&& ~~~out
    act := c.act &&& ~~~maskOf aborts
    wg := (wgOf s1 c.wid).getD c.wg
    th := (((wgOf s1 c.wid).getD c.wg).threads[c.tix]?).getD c.th }
  let bad := badLaneRegs c1 d
  let c2 := { c1 with pass := c1.pass &&& ~~~maskOf (bad.map (·.lane)) }
  let fails := fails ++ bad
  let close := fun (s : State) (more : List Fail) (gone : List (Nat × Word)) (move : Path → Path) =>
    conclude s c1 (fails ++ more) gone move
  let held := fun (s : State) (more : List Fail) => conclude s { c1 with pass := 0 } (fails ++ more) [] id
  let wide := fun (a : TrapArgs) =>
    if fails.any (·.stage = 13) then held s1 []
    else if c2.pass = 0 then close s1 [] [] stepPath
    else takeTrap s1 c.wid c.tix c.pix a
  match badUniformReg c d i with
  | some a =>
    if fails.any (·.stage = 13) then held s1 []
    else takeTrap s c.wid c.tix c.pix { cause := .dataError, lanes := c.act, addr := a }
  | none =>
    if (performedOnce d i || movesPath i) && fails ≠ [] then held s1 []
    else if c2.pass = 0 && !(runsEmpty i && (fails = [] && aborts = [] || endsTx i)) then close s1 [] [] stepPath
    else
      let s2 := modWg s1 c.wid fun w => countIrrev w c.th.susp.isSome c2.pass
      let s2 := if latches c2 d i then
        modTh s2 c.wid c.tix fun t => { t with latch := BitVec.ofNat 32 (s.cycle / 2 ^ 32) } else s2
      match body c2 s2 with
      | .done s' more gone =>
        -- R357: what is performed once has no effect where a lane of it traps
        if more.any (!revocable c1 ·) && performedOnce d i then conclude s' { c1 with pass := 0 } (fails ++ more) gone stepPath
        else close s' more gone stepPath
      | .held s' more => held s' more
      | .jump s' pc => close s' [] [] fun p => { stepPath p with pc := pc }
      | .own s' =>
        if fails ≠ [] then close s' [] [] id
        else singleStep (settleThread (countWork s' c1) c.wid c.tix) c1
      | .stays s' => if fails ≠ [] then held s' [] else settleThread (countWork s' c1) c.wid c.tix
      | .endsTx s' =>
        if fails ≠ [] then close (modPath s' c.wid c.tix c.pix fun p => { p with wait := .txend }) [] [] id
        else close s' [] [] passTxend
      | .wide cause a => wide { cause := cause, lanes := c1.act, addr := a }
      | .tokenFails a => wide { cause := .dataError, lanes := c1.act, addr := a, token := true }
      | .wideAt s' cause a => takeTrap s' c.wid c.tix c.pix { cause := cause, lanes := c1.act, addr := a }
      | .stall => stalled s0 c (s.cycle + 2)
      | .asks lanes => asking s0 c lanes

/-- The issue of an instruction: stages 5 to 11, a wait for values in flight to its registers (R444), stage 12, then its
effect. -/
def issue (i : Instr) (s : State) (body : Ctx → State → Res) : Out :=
  match ctxOf s i with
  | none => .fault .noIssuingPath
  | some c =>
    let s := begin s c
    let c := { c with th := (((wgOf s c.wid).getD c.wg).threads[c.tix]?).getD c.th, la := launchOf s c.wg.lid }
    match judge (envOf c) i with
    | some cause =>
      .next (takeTrap (issued s c) c.wid c.tix c.pix { cause := cause, lanes := c.act, addr := judgeAddr c.word cause i })
    | none =>
      if inFlight c (awaited s c i) then .next (stalled s c (nextReturn s.cycle c.th))
      else match debugStop s c i with
      | some a => .next (takeTrap (issued s c) c.wid c.tix c.pix a)
      | none => .next (perform s c i body)

/-! ### Fetch (R261, R380) -/

/-- How a fetch ends. -/
inductive Fetched where
  | word (w : Dbl) (s : State)
  /-- the state after a trap, a wait, or nothing left to issue -/
  | ended (s : State)

/-- A mark judged against an instruction that issues. -/
def markNow (cycle : Nat) (c : Ctx) (i : Instr) (m : CutMark) : CutMark :=
  let stands := c.pass.getLsbD m.lane && m.pc = c.path.pc
  match touches cycle c i m.lane with
  | some t => { m with now := stands && t.2.2.2.1 = m.addr.toNat, sure := true }
  | none => { m with now := stands, sure := false }

/-- The word that is issued repeats, in a lane that R403 has brought back, what raised its cause in S-form: it is the
instruction of the faulting node, and where it accesses memory the address is that of the fault. Of an engine's
operation the issue that raises the latched cause again is the one (R366; DEDUCED, log 115). -/
def flagCut (s : State) (wid tix : Nat) (word : Dbl) : State :=
  match decodeTV word with
  | .error _ => s
  | .ok i => match ctxOf { s with cur := .thread wid tix word } i with
    | none => s
    | some c =>
      if c.path.cut = [] then s else modPath s wid tix c.pix fun p => { p with cut := p.cut.map (markNow s.cycle c i) }

/-- Stage 1 for the path that issues next: lanes that a watchdog has aborted go to their target first
(R414), a step that is owed is taken, then the word is fetched. -/
def fetch (s : State) (wid tix : Nat) : Fetched :=
  match wgOf s wid with
  | none => .ended s
  | some w =>
    match w.threads[tix]? with
    | none => .ended s
    | some t =>
      match pickPath t with
      | none => .ended s
      | some pix =>
        match t.paths[pix]? with
        | none => .ended s
        | some p =>
          let la := launchOf s w.lid
          let act := (p.limit.map (p.mask &&& ·)).getD p.mask
          let late := if w.tx = [] || t.susp.isSome then [] else (lanesOf p.mask).filter fun l => (txOf w l).late
          if late ≠ [] then
            -- the abort itself was recorded when the watchdog ran out
            let gone := maskOf late
            let targets := ((late.map fun l => (txOf w l).target)).eraseDups
            let fresh := targets.map fun pc =>
              ({ mask := maskOf (late.filter fun l => (txOf w l).target = pc), pc := pc, stack := p.stack } : Path)
            let s := modTh s wid tix fun t =>
              let q := { p with mask := p.mask &&& ~~~gone, parked := if p.vtext then p.parked ||| gone else p.parked }
              { t with paths := t.paths.set pix q ++ (if p.vtext then [] else fresh) }
            let s := modWg s wid fun w => late.foldl (fun w l => setTx w l { txOf w l with late := false }) w
            .ended (settleThread s wid tix)
          else match p.stepDue with
          | m :: rest =>
            if siteWaits s (launchOf s w.lid) w.core p then .ended (modTh s wid tix fun t => { t with stalled := s.cycle + 2 }) else
            let s := modPath s wid tix pix fun p => { p with stepDue := rest }
            if stepping s w t then
              .ended (takeTrap (modTh s wid tix (takeTurn · p)) wid tix pix { cause := .singleStep, lanes := m, addr := 0 })
            else .ended s
          | [] =>
            let stop := fun (c : Cause) (a : Nat) =>
              Fetched.ended (takeTrap (issueOf s wid tix w.lid p) wid tix pix { cause := c, lanes := act, addr := a })
            let wait := Fetched.ended (modTh s wid tix fun t => { t with stalled := s.cycle + 2 })
            let va := textAddr la p.vtext p.pc
            if !unitInText la p then stop .pcRange (lowInt (8 * sextNat p.pc.toNat 32) 64)
            else match (if p.vtext then readSite s la w.core p.pc else .ok 0) with
            | .waits => wait
            | .fails c => stop c (if c = .dataError then siteAddr la p.pc else va)
            | .ok site =>
              if site = 0x1FFFFFFF then stop .pcRange (lowInt (8 * sextNat p.pc.toNat 32) 64)
              else if !canonical va then stop .noncanonical va
              else
                match translate s (spaceOf la w.core) .fetch va with
                | .waits => wait
                | .fails c => stop c va
                | .ok pa _ s =>
                  if badData s pa 8 then stop .dataError va
                  else
                    let now : Dbl := BitVec.ofNat 64 (readLE s.mem pa 8)
                    let give := fun (x : Dbl) (s : State) => Fetched.word x (flagCut s wid tix x)
                    match tfind (coreOf s w.core).icache pa with
                    | some old =>
                      if old = now then give now s
                      else if Config.fetchesOld s.tick then give old (ticked s)
                      else give now (modCore (ticked s) w.core fun c => { c with icache := tset c.icache pa now })
                    | none => give now (modCore s w.core fun c => { c with icache := tset c.icache pa now })

/-- A word that is not an instruction, or breaks stage 4 (R379). -/
def refuseWord (s : State) (wid tix : Nat) (word : Dbl) (e : DecodeError) : State :=
  match (wgOf s wid).bind fun w => (w.threads[tix]?).map fun t => (w, t) with
  | none => s
  | some (w, t) =>
    match pickPath t with
    | none => s
    | some pix =>
      match t.paths[pix]? with
      | none => s
      | some p =>
        takeTrap (issueOf s wid tix w.lid p) wid tix pix
          { cause := if e = .reserved then .reservedField else .illegalOpcode
            lanes := (p.limit.map (p.mask &&& ·)).getD p.mask, addr := word.toNat }

end Sys2Proof.Machine
end

