-- ==== Sys2Proof/Machine/Integer.lean ====
section
/-! DEFINITION. Integer, logic, move, compare, immediate and predicate instructions: R95, R124 to R128. -/

namespace Sys2Proof.Machine

/-- Write a result in every passing lane, or once to an s register from the lowest of them (R66; where it reads %tgix in
V-form: DESIGN CHOICE, log 99). -/
def eachLane (c : Ctx) (s : State) (d : Opnd) (wide signed : Bool) (val : Nat → Nat) : State :=
  modWg s c.wid fun w =>
    if isS d then writeOp w c.tix d wide signed 0 (val (lowestLane c.pass))
    else freshPred ((lanesOf c.pass).foldl (fun w l => writeOp w c.tix d wide signed l (val l)) w) d c.pass

/-- i32 results are sign-extended into s registers, all others zero-extended (R71). -/
def signsResult (ty : BitVec 4) : Bool := ty == 1

/-- The element-by-element integer pattern of R124: `op` gets the element width and the operands' elements,
as values of the type. -/
def aluValue (ty : BitVec 4) (sat : Bool) (op : Nat → List Int → Int) (xs : List Nat) : Nat :=
  let (w, n) := elemShape ty
  joinElems w ((List.range n).map fun j =>
    narrow sat (isSigned ty) w (op w (xs.map fun x => intOf (isSigned ty) w (elem x w j))))

/-- A format A instruction whose result in a lane is a function of its sources' values there. -/
def laneRun (f : FmtA) (srcs : List Opnd) (val : List Nat → Nat) (c : Ctx) (s : State) : Res :=
  .done (eachLane c s f.d (isWide f.ty) (signsResult f.ty) fun l =>
    val (srcs.map fun x => readOp s.cycle c x (isWide f.ty) l)) []

/-- The integer pattern for an instruction. -/
def aluRun (f : FmtA) (srcs : List Opnd) (op : Nat → List Int → Int) (c : Ctx) (s : State) : Res :=
  laneRun f srcs (aluValue f.ty (f.mod == 6) op) c s

/-- Operand `i` of an operation. -/
def arg (l : List Int) (i : Nat) : Int := l.getD i 0

def intMul (_ : Nat) (l : List Int) : Int := arg l 0 * arg l 1
def intMulhi (w : Nat) (l : List Int) : Int := arg l 0 * arg l 1 / (2 ^ w : Nat)
/-- a div b, truncated; all ones for b = 0 (R110). -/
def intDiv (_ : Nat) (l : List Int) : Int := if arg l 1 = 0 then -1 else (arg l 0).tdiv (arg l 1)
/-- a − b × (a div b); a for b = 0. -/
def intRem (_ : Nat) (l : List Int) : Int :=
  if arg l 1 = 0 then arg l 0 else arg l 0 - arg l 1 * (arg l 0).tdiv (arg l 1)
/-- The shift count: element of B reduced to the low bits that R110 gives for the width. -/
def shiftCount (w : Nat) (b : Int) : Nat := (b % (w : Int)).toNat
def intShl (w : Nat) (l : List Int) : Int := arg l 0 * (2 ^ shiftCount w (arg l 1) : Nat)
def intShr (w : Nat) (l : List Int) : Int := ((lowInt (arg l 0) w / 2 ^ shiftCount w (arg l 1) : Nat) : Int)
def intSar (w : Nat) (l : List Int) : Int := arg l 0 / (2 ^ shiftCount w (arg l 1) : Nat)
def intRol (w : Nat) (l : List Int) : Int :=
  let a := lowInt (arg l 0) w
  let n := shiftCount w (arg l 1)
  ((a * 2 ^ n + a / 2 ^ (w - n) : Nat) : Int)

/-- Bits of a value at a type: 64 or 32. -/
def typeBits (ty : BitVec 4) : Nat := if isWide ty then 64 else 32

/-- Bit-field extract (R126). -/
def bfeValue (signed : Bool) (a b : Nat) : Nat :=
  let pos := b % 32
  let len := min (b / 256 % 64) (32 - pos)
  let x := a / 2 ^ pos % 2 ^ len
  if signed && len > 0 then lowInt (sextNat x len) 32 else x
/-- Bit-field insert (R126). -/
def bfiValue (a b c : Nat) : Nat :=
  let pos := c % 32
  let len := min (c / 256 % 64) (32 - pos)
  let field := a / 2 ^ pos % 2 ^ len
  (a - field * 2 ^ pos) + b % 2 ^ len * 2 ^ pos
/-- Trailing zeros among `n` bits. -/
def ctzValue (x : Nat) : Nat → Nat
  | 0 => 0
  | n + 1 => if x % 2 = 1 then 0 else 1 + ctzValue (x / 2) n
/-- Reverse `n` bits. -/
def revBits (x : Nat) : Nat → Nat
  | 0 => 0
  | n + 1 => x % 2 * 2 ^ n + revBits (x / 2) n
/-- A compare condition 0 to 5 (R99). -/
def condHolds (cc : Nat) (a b : Int) : Bool :=
  match cc with
  | 0 => a = b | 1 => a ≠ b | 2 => a < b | 3 => a ≤ b | 4 => a > b | _ => a ≥ b

def nth (l : List Nat) (i : Nat) : Nat := l.getD i 0

/-! ### Format A -/

def execNop (f : FmtA) (s : State) : Out := issue (.nop f) s fun _ s => .done s []
def execAdd (f : FmtA) (s : State) : Out := issue (.add f) s (aluRun f [f.a, f.b] fun _ l => arg l 0 + arg l 1)
def execSub (f : FmtA) (s : State) : Out := issue (.sub f) s (aluRun f [f.a, f.b] fun _ l => arg l 0 - arg l 1)
def execMul (f : FmtA) (s : State) : Out := issue (.mul f) s (aluRun f [f.a, f.b] intMul)
def execMulhi (f : FmtA) (s : State) : Out := issue (.mulhi f) s (aluRun f [f.a, f.b] intMulhi)
def execMad (f : FmtA) (s : State) : Out :=
  issue (.mad f) s (aluRun f [f.a, f.b, f.c] fun _ l => arg l 0 * arg l 1 + arg l 2)
def execDiv (f : FmtA) (s : State) : Out := issue (.div f) s (aluRun f [f.a, f.b] intDiv)
def execRem (f : FmtA) (s : State) : Out := issue (.rem f) s (aluRun f [f.a, f.b] intRem)
def execMin (f : FmtA) (s : State) : Out :=
  issue (.min f) s (aluRun f [f.a, f.b] fun _ l => min (arg l 0) (arg l 1))
def execMax (f : FmtA) (s : State) : Out :=
  issue (.max f) s (aluRun f [f.a, f.b] fun _ l => max (arg l 0) (arg l 1))
def execAbs (f : FmtA) (s : State) : Out := issue (.abs f) s (aluRun f [f.a] fun _ l => (arg l 0).natAbs)
def execNeg (f : FmtA) (s : State) : Out := issue (.neg f) s (aluRun f [f.a] fun _ l => -arg l 0)
def execAnd (f : FmtA) (s : State) : Out :=
  issue (.and f) s (laneRun f [f.a, f.b] fun l => nth l 0 &&& nth l 1)
def execOr (f : FmtA) (s : State) : Out :=
  issue (.or f) s (laneRun f [f.a, f.b] fun l => nth l 0 ||| nth l 1)
def execXor (f : FmtA) (s : State) : Out :=
  issue (.xor f) s (laneRun f [f.a, f.b] fun l => nth l 0 ^^^ nth l 1)
def execAndn (f : FmtA) (s : State) : Out :=
  issue (.andn f) s (laneRun f [f.a, f.b] fun l => nth l 0 &&& (2 ^ typeBits f.ty - 1 - nth l 1))
def execNot (f : FmtA) (s : State) : Out :=
  issue (.not f) s (laneRun f [f.a] fun l => 2 ^ typeBits f.ty - 1 - nth l 0)
def execShl (f : FmtA) (s : State) : Out := issue (.shl f) s (aluRun f [f.a, f.b] intShl)
def execShr (f : FmtA) (s : State) : Out := issue (.shr f) s (aluRun f [f.a, f.b] intShr)
def execSar (f : FmtA) (s : State) : Out := issue (.sar f) s (aluRun f [f.a, f.b] intSar)
def execRol (f : FmtA) (s : State) : Out := issue (.rol f) s (aluRun f [f.a, f.b] intRol)
def execBfe (f : FmtA) (s : State) : Out :=
  issue (.bfe f) s (laneRun f [f.a, f.b] fun l => bfeValue (f.ty == 1) (nth l 0) (nth l 1))
def execBfi (f : FmtA) (s : State) : Out :=
  issue (.bfi f) s (laneRun f [f.a, f.b, f.c] fun l => bfiValue (nth l 0) (nth l 1) (nth l 2))
def execPopc (f : FmtA) (s : State) : Out :=
  issue (.popc f) s (laneRun f [f.a] fun l => popCount (nth l 0) (typeBits f.ty))
def execClz (f : FmtA) (s : State) : Out :=
  issue (.clz f) s (laneRun f [f.a] fun l => typeBits f.ty - bitLen (nth l 0))
def execCtz (f : FmtA) (s : State) : Out :=
  issue (.ctz f) s (laneRun f [f.a] fun l => ctzValue (nth l 0) (typeBits f.ty))
def execBrev (f : FmtA) (s : State) : Out :=
  issue (.brev f) s (laneRun f [f.a] fun l => revBits (nth l 0) (typeBits f.ty))
def execSel (f : FmtA) (s : State) : Out :=
  issue (.sel f) s (laneRun f [f.a, f.b, f.c] fun l => if nth l 2 = 1 then nth l 0 else nth l 1)
def execMov (f : FmtA) (s : State) : Out := issue (.mov f) s (laneRun f [f.a] fun l => nth l 0)
def execCmp (f : FmtA) (s : State) : Out :=
  issue (.cmp f) s (aluRun f [f.a, f.b] fun _ l => if condHolds f.mod.toNat (arg l 0) (arg l 1) then 1 else 0)

/-! ### Immediate forms (R127) -/

/-- An immediate form: 32 bits to a lane destination, 64 to an s register, bit 0 to a predicate. -/
def immRun (f : FmtI) (val : Nat → Nat) (c : Ctx) (s : State) : Res :=
  .done (eachLane c s f.d (isS f.d) false fun l => val (readOp s.cycle c f.a (isS f.d) l)) []

/-- sext(IMM32, 32) as 64 bits; the low 32 are those of a lane destination. -/
def immVal (f : FmtI) : Nat := lowInt (sextNat f.imm.toNat 32) 64

/-- Virtual address of the instruction that issues. -/
def hereAddr (c : Ctx) : Nat := textAddr c.la c.path.vtext c.path.pc

/-- Write 64 bits to an s register or a pair. -/
def wideRun (f : FmtI) (val : Nat → Nat) (c : Ctx) (s : State) : Res :=
  .done (eachLane c s f.d true false fun l => val (readOp s.cycle c f.d true l)) []

def execMovi (f : FmtI) (s : State) : Out := issue (.movi f) s (immRun f fun _ => immVal f)
def execMoviLabel (f : FmtI) (s : State) : Out :=
  issue (.moviLabel f) s fun c s =>
    immRun f (fun _ => lowInt (hereAddr c - imageOf c.la + sextNat f.imm.toNat 32) 32) c s
/-- `movhi`: bits [63:32] of an s register, or the upper register of a pair; the rest is kept. -/
def movhiRun (f : FmtI) (c : Ctx) (s : State) : Res :=
  if isS f.d then
    let n := f.d.toNat - 0x100
    .done (modWg s c.wid fun w =>
      sPutUpper w c.tix n (BitVec.ofNat 64 ((sGet c.th n).toNat % 2 ^ 32 + f.imm.toNat * 2 ^ 32))) []
  else .done (eachLane c s (f.d + 1) false false fun _ => f.imm.toNat) []
def execMovhi (f : FmtI) (s : State) : Out := issue (.movhi f) s (movhiRun f)
def execAddi (f : FmtI) (s : State) : Out :=
  issue (.addi f) s (immRun f fun a => (a + immVal f) % 2 ^ 64)
def execAndi (f : FmtI) (s : State) : Out := issue (.andi f) s (immRun f fun a => a &&& immVal f)
def execOri (f : FmtI) (s : State) : Out := issue (.ori f) s (immRun f fun a => a ||| immVal f)
def execXori (f : FmtI) (s : State) : Out := issue (.xori f) s (immRun f fun a => a ^^^ immVal f)
def execCmpiSigned (f : FmtI) (s : State) : Out :=
  issue (.cmpiSigned f) s (immRun f fun a =>
    if condHolds (f.subi.toNat + 2) (sextNat a 32) (sextNat f.imm.toNat 32) then 1 else 0)
def execCmpiUnsigned (f : FmtI) (s : State) : Out :=
  issue (.cmpiUnsigned f) s (immRun f fun a =>
    if condHolds (f.subi.toNat + 2) (a % 2 ^ 32 : Nat) f.imm.toNat then 1 else 0)
def execCmpiEquality (f : FmtI) (s : State) : Out :=
  issue (.cmpiEquality f) s (immRun f fun a =>
    if condHolds f.subi.toNat (a % 2 ^ 32 : Nat) f.imm.toNat then 1 else 0)
def execLea (f : FmtI) (s : State) : Out :=
  issue (.lea f) s fun c s => wideRun f (fun _ => lowInt (hereAddr c + sextNat f.imm.toNat 32) 64) c s

/-! ### Predicates (R128) -/

/-- A predicate instruction: the truth of its sources in each lane. -/
def predRun (f : FmtA) (srcs : List Opnd) (op : List Nat → Bool) (c : Ctx) (s : State) : Res :=
  .done (eachLane c s f.d false false fun l => if op (srcs.map fun x => readOp s.cycle c x false l) then 1 else 0) []

def execPand (f : FmtA) (s : State) : Out :=
  issue (.pand f) s (predRun f [f.a, f.b] fun l => nth l 0 = 1 && nth l 1 = 1)
def execPor (f : FmtA) (s : State) : Out :=
  issue (.por f) s (predRun f [f.a, f.b] fun l => nth l 0 = 1 || nth l 1 = 1)
def execPxor (f : FmtA) (s : State) : Out :=
  issue (.pxor f) s (predRun f [f.a, f.b] fun l => nth l 0 ≠ nth l 1)
def execPnot (f : FmtA) (s : State) : Out := issue (.pnot f) s (predRun f [f.a] fun l => nth l 0 ≠ 1)

end Sys2Proof.Machine
end

