-- ==== Sys2Proof/Machine/Special.lean ====
section
/-! DEFINITION. The special functions of R118 that are not algebraic: `fexp2`, `flog2`, `fsinpi`,
`fcospi`, `ftanh`. Each gives the exact value where it is a dyadic number, and otherwise a mantissa of
more than 200 places below the result's leading one, marked sticky, which the rounding of R113 then
rounds once (log 14). Numbers here are multiples of `2^-288`. -/

namespace Sys2Proof.Machine

/-- Places of the fixed-point numbers of this file. -/
def fxPlaces : Nat := 288
def fxOne : Nat := 2 ^ 288
/-- π and ln 2, to 288 places. -/
def fxPi : Nat :=
  0x3243f6a8885a308d313198a2e03707344a4093822299f31d0082efa98ec4e6c89452821e638d01377 / 2 ^ 32
def fxLn2 : Nat :=
  0xb17217f7d1cf79abc9e3b39803f2f6af40f343267298b62d8a0d175b8baafa2be7b876206debac98 / 2 ^ 32

def fxMul (a b : Nat) : Nat := a * b / 2 ^ 288

/-- `Σ term_k` with `term_{k+1} = term_k y / (k + d)`: the series of `exp` (d = 1) and of
`expm1(y)/y` (d = 2). -/
def expSeries : Nat → Nat → Nat → Nat → Nat
  | 0, _, _, _ => 0
  | fuel + 1, y, term, d => term + expSeries fuel y (fxMul term y / d) (d + 1)

/-- `Σ (±) term_k` with alternating signs and `term_{k+1} = term_k y2 / (d (d + 1))`: the series of
`sin(√y2)/√y2` (d = 2) and `cos(√y2)` (d = 1). The sum stays positive for the arguments used. -/
def trigSeries : Nat → Nat → Nat → Nat → Int
  | 0, _, _, _ => 0
  | fuel + 1, y2, term, d => (term : Int) - trigSeries fuel y2 (fxMul term y2 / (d * (d + 1))) (d + 2)

/-- `Σ t^(2k) / (2k + 1)`: the series of `atanh(t)/t`. -/
def atanhSeries : Nat → Nat → Nat → Nat → Nat
  | 0, _, _, _ => 0
  | fuel + 1, t2, pow, d => pow / d + atanhSeries fuel t2 (fxMul pow t2) (d + 2)

/-- A dyadic `m 2^e` as a fixed-point number. -/
def fxOf (m : Nat) (e : Int) : Nat :=
  if e + 288 ≥ 0 then m * 2 ^ (e + 288).toNat else m / 2 ^ (-(e + 288)).toNat

/-- `2^x` (R118). -/
def xExp2 : XVal → XVal × FFlags
  | .nan => (.nan, 0)
  | .inf false => (.inf false, 0)
  | .inf true => (.fin false 0 0 false, 0)
  | .fin neg m e _ =>
    if m = 0 then (.fin false 1 0 false, 0)
    else
      -- x beyond ±1024: only the size of the result matters
      if (bitLen m : Int) + e > 11 then (.fin false 1 (if neg then -1100 else 1100) false, 0)
      else
        let whole : Int := if e ≥ 0 then (m * 2 ^ e.toNat : Nat) else (m / 2 ^ (-e).toNat : Nat)
        let rest := if e ≥ 0 then 0 else m % 2 ^ (-e).toNat
        if rest = 0 then (.fin false 1 (if neg then -whole else whole) false, 0)
        else
          let f := fxOf rest e
          let (n, f) := if neg then (-whole - 1, fxOne - f) else (whole, f)
          (.fin false (expSeries 90 (fxMul f fxLn2) fxOne 1) (n - 288) true, 0)

/-- `log2 x` (R118). -/
def xLog2 : XVal → XVal × FFlags
  | .nan => (.nan, 0)
  | .inf false => (.inf false, 0)
  | .inf true => (.nan, flagNV)
  | .fin neg m e _ =>
    if m = 0 then (.inf true, flagDZ)
    else if neg then (.nan, flagNV)
    else
      let l := bitLen m
      if m = 2 ^ (l - 1) then (xOfInt ((l : Int) - 1 + e), 0)
      else
        -- y in [3/4, 3/2), x = y 2^n
        let up := m * 2 ≥ 3 * 2 ^ (l - 1)
        let n : Int := (l : Int) - 1 + e + (if up then 1 else 0)
        let den : Nat := if up then 2 ^ l else 2 ^ (l - 1)
        -- t = (y - 1) / (y + 1), exact as a quotient of integers
        let d : Int := (m : Int) - den
        let t : Nat := d.natAbs * fxOne / (m + den)
        let s := atanhSeries 80 (fxMul t t) fxOne 1
        -- ln y = 2 t s; log2 y = ln y / ln 2
        let ly : Nat := 2 * (d.natAbs * s / (m + den)) * fxOne / fxLn2
        let v : Int := n * (fxOne : Nat) + (if d < 0 then -(ly : Int) else ly)
        (.fin (v < 0) v.natAbs (-288) true, 0)

/-- `sin(π r)` for a dyadic `r = m 2^e` with `0 < r ≤ 1/4`: mantissa and exponent. -/
def sinPiSmall (m : Nat) (e : Int) : XVal :=
  let y := fxMul (fxOf m e) fxPi
  let f := fxMul (trigSeries 60 (fxMul y y) fxOne 2).toNat fxPi
  .fin false (m * f) (e - 288) true

/-- `cos(π r)` for a dyadic `r = m 2^e` with `0 < r ≤ 1/4`. For a small `r` the value lies just below
1, and the mantissa says so. -/
def cosPiSmall (m : Nat) (e : Int) : XVal :=
  let y := fxMul (fxOf m e) fxPi
  let c := (trigSeries 60 (fxMul y y) fxOne 1).toNat
  .fin false (if c ≥ fxOne then fxOne - 1 else c) (-288) true

/-- `sin(π r)` for `0 ≤ r < 2`, with `r = m 2^e`, `e ≤ -2`; `none` where it is 0. -/
def sinPiTurn (m : Nat) (e : Int) : Option XVal :=
  let half := 2 ^ (-e).toNat          -- 1
  let (neg, m) := if m ≥ half then (true, m - half) else (false, m)
  -- r in [0, 1): reflect to [0, 1/2]
  let m := if 2 * m > half then half - m else m
  if m = 0 then none
  else if 2 * m = half then some (.fin neg 1 0 false)
  else
    let v := if 4 * m ≤ half then sinPiSmall m e else cosPiSmall (half / 2 - m) e
    some (if neg then xNeg v else v)

/-- Reduce a magnitude modulo 2, at an exponent of at most −2. -/
def modTwo (m : Nat) (e : Int) : Nat × Int :=
  if e ≥ 1 then (0, -2)
  else if e > -2 then (m * 2 ^ (e + 2).toNat % 8, -2)
  else (m % 2 ^ (1 - e).toNat, e)

/-- `sin(π x)` (R118, R147). -/
def xSinPi : XVal → XVal × FFlags
  | .nan => (.nan, 0)
  | .inf _ => (.nan, flagNV)
  | .fin neg m e _ =>
    let (r, e') := modTwo m e
    match sinPiTurn r e' with
    | none => (.fin neg 0 0 false, 0)
    | some v => (if neg then xNeg v else v, 0)

/-- `cos(π x)` (R118, R147): `sin(π (|x| + 1/2))`. -/
def xCosPi : XVal → XVal × FFlags
  | .nan => (.nan, 0)
  | .inf _ => (.nan, flagNV)
  | .fin _ m e _ =>
    let (r, e') := modTwo m e
    let r := (r + 2 ^ (-e' - 1).toNat) % 2 ^ (1 - e').toNat
    match sinPiTurn r e' with
    | none => (.fin false 0 0 false, 0)
    | some v => (v, 0)

/-- `tanh x` (R118). -/
def xTanh : XVal → XVal × FFlags
  | .nan => (.nan, 0)
  | .inf n => (.fin n 1 0 false, 0)
  | .fin neg m e _ =>
    if m = 0 then (.fin neg 0 0 false, 0)
    else if (bitLen m : Int) + e > 7 then (.fin neg (fxOne - 1) (-288) true, 0)
    else
      let x := fxOf m e
      if x ≤ fxOne then
        -- tanh x = x E / (1 + x E) with E = expm1(2 x) / (2 x)
        let s := expSeries 110 (2 * x) fxOne 2
        let f := s * fxOne / (fxOne + fxMul x s)
        -- below 1, also where x x / 3 is less than the last place
        (.fin neg (m * (if f ≥ fxOne then fxOne - 1 else f)) (e - 288) true, 0)
      else
        let n := 2 * x / fxLn2
        let p := expSeries 90 (2 * x - n * fxLn2) fxOne 1 * 2 ^ n
        -- 1 - 2 / (e^2x + 1)
        let v := fxOne - 2 * fxOne * fxOne / (p + fxOne)
        (.fin neg (if v ≥ fxOne then fxOne - 1 else v) (-288) true, 0)

end Sys2Proof.Machine
end

