-- ==== Sys2Proof/Machine/Floating.lean ====
section
/-! DEFINITION. Floating-point arithmetic, special functions, conversions, packing and dot products: R143
to R151. -/

namespace Sys2Proof.Machine

/-- A value and the flags it raises. -/
abbrev Flagged := Nat × FFlags

/-- Write results with their flags in every passing lane, or once to an s register (R66, R120). `val` gets
the lane whose operands are read and the index that stands for %glane (R117). -/
def eachFlagged (c : Ctx) (s : State) (d : Opnd) (wide signed : Bool) (val : Nat → Nat → Flagged) : State :=
  modWg s c.wid fun w =>
    if isS d then
      let l := lowestLane c.pass
      let (x, fl) := val l (Config.onceGlane l)
      orFlags (writeOp w c.tix d wide signed 0 x) fl
    else (lanesOf c.pass).foldl (fun w l =>
      let (x, fl) := val l l
      orFlags (writeOp w c.tix d wide signed l x) fl) w

/-- Put rounded elements together and OR their flags. -/
def joinFlagged (w : Nat) (l : List Flagged) : Flagged :=
  (joinElems w (l.map (·.1)), l.foldl (fun f x => f ||| x.2) 0)

/-- The element-wise pattern of R143: an exact result, rounded once; an element that raises NV or DZ keeps
that flag and, for NV, no other (R119). -/
def fpValue (w : Workgroup) (ty : BitVec 4) (mod idx : Nat) (op : RMode → List XVal → XVal × FFlags)
    (xs : List Nat) : Flagged :=
  match fmtOf ty with
  | none => (0, 0)
  | some f =>
    let n := (elemShape ty).2
    joinFlagged f.bits ((List.range n).map fun j =>
      let r := ctlRound w.rm w.skey mod idx j none
      let (x, fl) := op r.mode (xs.map fun x => decodeFloat f (elem x f.bits j))
      let (v, fr) := roundFloat f r x
      (v, fl ||| fr))

/-- A floating-point instruction of format A. -/
def fpRun (f : FmtA) (srcs : List Opnd) (op : RMode → List XVal → XVal × FFlags) (c : Ctx) (s : State) : Res :=
  .done (eachFlagged c s f.d false false fun l i =>
    fpValue c.wg f.ty f.mod.toNat i op (srcs.map fun x => readOp s.cycle c x false l)) []

def xarg (l : List XVal) (i : Nat) : XVal := l.getD i .nan

/-- Elements of codes, without rounding (R145). -/
def codeRun (f : FmtA) (srcs : List Opnd) (op : FFmt → List Nat → Nat) (c : Ctx) (s : State) : Res :=
  .done (eachLane c s f.d false false fun l =>
    match fmtOf f.ty with
    | none => 0
    | some fm =>
      let xs := srcs.map fun x => readOp s.cycle c x false l
      joinElems fm.bits ((List.range (elemShape f.ty).2).map fun j => op fm (xs.map fun x => elem x fm.bits j))) []

/-- A code is a NaN of its format. -/
def isNanCode (f : FFmt) (x : Nat) : Bool := decodeFloat f x == .nan
/-- `a` orders below `b`, with −0 below +0 (R145). -/
def codeLess (f : FFmt) (a b : Nat) : Bool :=
  let x := decodeFloat f a
  let y := decodeFloat f b
  xLt x y || (xEq x y && xSign x && !xSign y)
/-- Smaller or larger of two codes (R145). -/
def codeMin (f : FFmt) (a b : Nat) : Nat :=
  if isNanCode f a || isNanCode f b then canonNaN f else if codeLess f b a then b else a
def codeMax (f : FFmt) (a b : Nat) : Nat :=
  if isNanCode f a || isNanCode f b then canonNaN f else if codeLess f a b then b else a
/-- Clear or invert the sign bit; a NaN gives the canonical NaN (R145). -/
def codeAbs (f : FFmt) (a : Nat) : Nat := if isNanCode f a then canonNaN f else a % 2 ^ (f.bits - 1)
def codeNeg (f : FFmt) (a : Nat) : Nat :=
  if isNanCode f a then canonNaN f else (a + 2 ^ (f.bits - 1)) % 2 ^ f.bits

/-- A floating compare: truth, and NV for an ordered compare of a NaN (R146). -/
def fcmpHolds (cc : Nat) (a b : XVal) : Bool × FFlags :=
  let un := a == .nan || b == .nan
  match cc with
  | 0 => (!un && xEq a b, 0)
  | 1 => (un || !xEq a b, 0)
  | 2 => (!un && xLt a b, if un then flagNV else 0)
  | 3 => (!un && (xLt a b || xEq a b), if un then flagNV else 0)
  | 4 => (!un && xLt b a, if un then flagNV else 0)
  | 5 => (!un && (xLt b a || xEq a b), if un then flagNV else 0)
  | 6 => (un, 0)
  | _ => (!un, 0)

/-! ### R144 to R147 -/

def execFadd (f : FmtA) (s : State) : Out :=
  issue (.fadd f) s (fpRun f [f.a, f.b] fun m l => xAdd m (xarg l 0) (xarg l 1))
def execFsub (f : FmtA) (s : State) : Out :=
  issue (.fsub f) s (fpRun f [f.a, f.b] fun m l => xAdd m (xarg l 0) (xNeg (xarg l 1)))
def execFmul (f : FmtA) (s : State) : Out :=
  issue (.fmul f) s (fpRun f [f.a, f.b] fun _ l => xMul (xarg l 0) (xarg l 1))
def execFma (f : FmtA) (s : State) : Out :=
  issue (.fma f) s (fpRun f [f.a, f.b, f.c] fun m l => xFma m (xarg l 0) (xarg l 1) (xarg l 2))
def execFdiv (f : FmtA) (s : State) : Out :=
  issue (.fdiv f) s (fpRun f [f.a, f.b] fun _ l => xDiv (xarg l 0) (xarg l 1))
def execFmin (f : FmtA) (s : State) : Out :=
  issue (.fmin f) s (codeRun f [f.a, f.b] fun fm l => codeMin fm (nth l 0) (nth l 1))
def execFmax (f : FmtA) (s : State) : Out :=
  issue (.fmax f) s (codeRun f [f.a, f.b] fun fm l => codeMax fm (nth l 0) (nth l 1))
def execFabs (f : FmtA) (s : State) : Out := issue (.fabs f) s (codeRun f [f.a] fun fm l => codeAbs fm (nth l 0))
def execFneg (f : FmtA) (s : State) : Out := issue (.fneg f) s (codeRun f [f.a] fun fm l => codeNeg fm (nth l 0))

/-- `fcmp`: 1 or 0 in each element (R146). -/
def fcmpRun (f : FmtA) (c : Ctx) (s : State) : Res :=
  .done (eachFlagged c s f.d false false fun l _ =>
    match fmtOf f.ty with
    | none => (0, 0)
    | some fm =>
      let a := readOp s.cycle c f.a false l
      let b := readOp s.cycle c f.b false l
      joinFlagged fm.bits ((List.range (elemShape f.ty).2).map fun j =>
        let (t, fl) := fcmpHolds f.mod.toNat (decodeFloat fm (elem a fm.bits j)) (decodeFloat fm (elem b fm.bits j))
        (if t then 1 else 0, fl))) []
def execFcmp (f : FmtA) (s : State) : Out := issue (.fcmp f) s (fcmpRun f)

/-- 1.0 -/
def xOne : XVal := .fin false 1 0 false

def execFrcp (f : FmtA) (s : State) : Out := issue (.frcp f) s (fpRun f [f.a] fun _ l => xDiv xOne (xarg l 0))
def execFrsq (f : FmtA) (s : State) : Out := issue (.frsq f) s (fpRun f [f.a] fun _ l => xRsqrt (xarg l 0))
def execFsqrt (f : FmtA) (s : State) : Out := issue (.fsqrt f) s (fpRun f [f.a] fun _ l => xSqrt (xarg l 0))
def execFexp2 (f : FmtA) (s : State) : Out := issue (.fexp2 f) s (fpRun f [f.a] fun _ l => xExp2 (xarg l 0))
def execFlog2 (f : FmtA) (s : State) : Out := issue (.flog2 f) s (fpRun f [f.a] fun _ l => xLog2 (xarg l 0))
def execFsinpi (f : FmtA) (s : State) : Out := issue (.fsinpi f) s (fpRun f [f.a] fun _ l => xSinPi (xarg l 0))
def execFcospi (f : FmtA) (s : State) : Out := issue (.fcospi f) s (fpRun f [f.a] fun _ l => xCosPi (xarg l 0))
def execFtanh (f : FmtA) (s : State) : Out := issue (.ftanh f) s (fpRun f [f.a] fun _ l => xTanh (xarg l 0))

/-! ### Conversions (R148) -/

/-- Every value of the source format is a value of the destination format. -/
def widens (src dst : FFmt) : Bool := src.ebits ≤ dst.ebits && src.fbits ≤ dst.fbits

/-- One element converted. -/
def cvtElem (sty dty : BitVec 4) (sat : Bool) (r : RCtx) (x : Nat) : Flagged :=
  let ws := (elemShape sty).1
  let wd := (elemShape dty).1
  match fmtOf sty, fmtOf dty with
  | some fs, some fd =>
    let v := decodeFloat fs x
    if widens fs fd then roundFloat fd { mode := .rne } v
    else roundFloat fd { r with source := some (lastPlace fs x, fs.fbits + 1) } v
  | some fs, none => roundInteger (isSigned dty) wd { r with source := some (lastPlace fs x, fs.fbits + 1) } (decodeFloat fs x)
  | none, some fd => roundFloat fd { r with source := some (0, ws) } (xOfInt (intOf (isSigned sty) ws x))
  | none, none => (narrow sat (isSigned dty) wd (intOf (isSigned sty) ws x), 0)

/-- `cvt`: element by element when the counts agree, otherwise element 0 alone; identical types copy. -/
def cvtValue (sty dty : BitVec 4) (sat : Bool) (r : Nat → RCtx) (a : Nat) : Flagged :=
  if sty = dty then (a, 0)
  else
    let (ws, ns) := elemShape sty
    let (wd, nd) := elemShape dty
    if ns = nd then joinFlagged wd ((List.range nd).map fun j => cvtElem sty dty sat (r j) (elem a ws j))
    else cvtElem sty dty sat (r 0) (elem a ws 0)

/-- The rounding of element `j` of a `cvt` (R117): MOD 5 takes key and index from B and C. -/
def cvtRound (cycle : Nat) (c : Ctx) (f : FmtA) (l i j : Nat) : RCtx :=
  if f.mod == 5 then
    { mode := .rs, key := BitVec.ofNat 32 (readOp cycle c f.b false l + j),
      idx := (i + readOp cycle c f.c false l) % 2 ^ 32 }
  else ctlRound c.wg.rm c.wg.skey f.mod.toNat i j none

def cvtRun (f : FmtA) (c : Ctx) (s : State) : Res :=
  .done (eachFlagged c s f.d (isWide f.ty) (signsResult f.ty) fun l i =>
    cvtValue f.sub f.ty (f.mod == 6) (cvtRound s.cycle c f l i) (readOp s.cycle c f.a (isWide f.sub) l)) []
def execCvt (f : FmtA) (s : State) : Out := issue (.cvt f) s (cvtRun f)

/-! ### Packed values (R149, R150) -/

/-- An element made from a 32-bit source. -/
def packElem (ty : BitVec 4) (sat : Bool) (r : RCtx) (x : Nat) : Flagged :=
  match fmtOf ty with
  | some fd => roundFloat fd { r with source := some (lastPlace fmtF32 x, 24) } (decodeFloat fmtF32 x)
  | none => (narrow sat (isSigned ty) (elemShape ty).1 (intOf (isSigned ty) 32 x), 0)

def packRun (f : FmtA) (c : Ctx) (s : State) : Res :=
  .done (eachFlagged c s f.d false false fun l i =>
    let (w, n) := elemShape f.ty
    let r := fun j => ctlRound c.wg.rm c.wg.skey f.mod.toNat i j none
    let a := packElem f.ty (f.mod == 6) (r 0) (readOp s.cycle c f.a false l)
    let b := packElem f.ty (f.mod == 6) (r 1) (readOp s.cycle c f.b false l)
    let rest := if n > 2 then (List.range (n - 2)).map fun j => (elem (readOp s.cycle c f.c false l) w j, (0 : FFlags)) else []
    joinFlagged w (a :: b :: rest)) []
def execPack (f : FmtA) (s : State) : Out := issue (.pack f) s (packRun f)

/-- One element widened exactly. -/
def unpackValue (ty : BitVec 4) (x : Nat) : Nat :=
  match fmtOf ty with
  | some fs => (roundFloat fmtF32 { mode := .rne } (decodeFloat fs x)).1
  | none => lowInt (intOf (isSigned ty) (elemShape ty).1 x) 32

def unpackRun (f : FmtA) (c : Ctx) (s : State) : Res :=
  .done (eachLane c s f.d false (isSigned f.ty) fun l =>
    unpackValue f.ty (elem (readOp s.cycle c f.a false l) (elemShape f.ty).1 f.sub.toNat)) []
def execUnpack (f : FmtA) (s : State) : Out := issue (.unpack f) s (unpackRun f)

/-! ### Dot products (R151) -/

/-- The exact dot product plus C, rounded or narrowed once. -/
def dotValue (w : Workgroup) (ty : BitVec 4) (mod idx : Nat) (a b c : Nat) : Flagged :=
  match fmtOf ty with
  | some fs =>
    let r := ctlRound w.rm w.skey mod idx 0 none
    let ps := (List.range (elemShape ty).2).map fun j =>
      (decodeFloat fs (elem a fs.bits j), decodeFloat fs (elem b fs.bits j))
    let (x, fl) := xDot r.mode ps (decodeFloat fmtF32 c)
    let (v, fr) := roundFloat fmtF32 r x
    (v, fl ||| fr)
  | none =>
    let sg := isSigned ty
    let sum := (List.range 4).foldl (fun (t : Int) j => t + intOf sg 8 (elem a 8 j) * intOf sg 8 (elem b 8 j)) (intOf sg 32 c)
    (narrow (mod = 6) sg 32 sum, 0)

def dotRun (f : FmtA) (c : Ctx) (s : State) : Res :=
  .done (eachFlagged c s f.d false (isSigned f.ty) fun l i =>
    dotValue c.wg f.ty f.mod.toNat i (readOp s.cycle c f.a false l) (readOp s.cycle c f.b false l)
      (readOp s.cycle c f.c false l)) []
def execDot2 (f : FmtA) (s : State) : Out := issue (.dot2 f) s (dotRun f)
def execDot4 (f : FmtA) (s : State) : Out := issue (.dot4 f) s (dotRun f)

end Sys2Proof.Machine
end

