-- ==== Sys2Proof/Machine/Lane.lean ====
section
/-! DEFINITION. Lane instructions: R152 to R158. -/

namespace Sys2Proof.Machine

/-- A lane that takes part, with the issue it takes part in. -/
structure Part where
  lane : Nat
  ctx : Ctx
  deriving DecidableEq, Repr

/-- The fields of a lane instruction. -/
def laneFields : Instr → Option FmtA
  | .shfl f | .vote f | .redux f | .bcast f | .popk f => some f
  | _ => none

/-- Width `.w` (R98: SUB[3]). -/
def isWideLane (f : FmtA) : Bool := f.sub.getLsbD 3

/-- A value as a reduction takes it up: the canonical NaN for a NaN (R107, R145). -/
def reduxSeed (f : FmtA) (x : Nat) : Nat := if f.ty == 3 && isNanCode fmtF32 x then canonNaN fmtF32 else x

/-- A reduction step on values of `w` bits (R155). -/
def reduxStep (f : FmtA) (x y : Flagged) : Flagged :=
  let w := typeBits f.ty
  let sg := isSigned f.ty
  let op := f.sub.toNat % 8
  if f.ty == 3 then
    match op with
    | 0 =>
      let (v, fl) := xAdd .rne (decodeFloat fmtF32 x.1) (decodeFloat fmtF32 y.1)
      let (r, fr) := roundFloat fmtF32 { mode := .rne } v
      (r, x.2 ||| fl ||| fr)
    | 1 => (codeMin fmtF32 x.1 y.1, 0)
    | _ => (codeMax fmtF32 x.1 y.1, 0)
  else
    match op with
    | 0 => ((x.1 + y.1) % 2 ^ w, 0)
    | 1 => (if intOf sg w y.1 < intOf sg w x.1 then y.1 else x.1, 0)
    | 2 => (if intOf sg w x.1 < intOf sg w y.1 then y.1 else x.1, 0)
    | 3 => (x.1 &&& y.1, 0)
    | 4 => (x.1 ||| y.1, 0)
    | _ => (x.1 ^^^ y.1, 0)

/-- Whether a part's predicate A holds. -/
def partPred (cycle : Nat) (f : FmtA) (p : Part) : Bool := readOp cycle p.ctx f.a false p.lane = 1

/-- The result that is one for a whole group. -/
def groupValue (cycle : Nat) (i : Instr) (f : FmtA) (g : List Part) : Flagged :=
  match i with
  | .vote _ =>
    match f.sub.toNat % 8 with
    | 0 => (if g.any (partPred cycle f) then 1 else 0, 0)
    | 1 => (if g.all (partPred cycle f) then 1 else 0, 0)
    | _ => (g.foldl (fun n p => if partPred cycle f p then n + 2 ^ (p.lane % 32) else n) 0, 0)
  | .redux _ =>
    match g.map fun p => (reduxSeed f (readOp cycle p.ctx f.a (isWide f.ty) p.lane), (0 : FFlags)) with
    | [] => (0, 0)
    | x :: t => t.foldl (reduxStep f) x
  | .popk _ => ((g.filter (partPred cycle f)).length, 0)
  | _ => (0, 0)

/-- The result in one lane of a group, given the group's own result. -/
def laneValue (cycle : Nat) (i : Instr) (f : FmtA) (g : List Part) (all : Nat) (p : Part) : Nat :=
  let w := isWide f.ty
  let size := if isWideLane f then 32 * p.ctx.wg.ntg else 32
  let ix := if isWideLane f then p.lane else p.lane % 32
  let base := p.lane - ix
  match i with
  | .shfl _ =>
    let b : Int := readOp cycle p.ctx f.b false p.lane
    let src : Int := match f.sub.toNat % 8 with
      | 0 => b
      | 1 => ix - b
      | 2 => ix + b
      | _ => ((ix ^^^ b.toNat : Nat) : Int)
    let from_ : Option Part := match src.toNat? with
      | some n => if n < size then g.find? fun q => q.lane = base + n else none
      | none => none
    match from_ with
    | some q => readOp cycle q.ctx f.a w q.lane
    | none => readOp cycle p.ctx f.a w p.lane
  | .bcast _ =>
    let b := readOp cycle p.ctx f.b false p.lane
    match (if b < size then g.find? fun q => q.lane = base + b else none) with
    | some q => readOp cycle q.ctx f.a w q.lane
    | none => 0
  | .vote _ =>
    if f.sub == 0b1010 then
      -- `.ballot.w`: the lane with %lane = l receives the word of TG l
      g.foldl (fun n q => if q.lane / 32 = p.lane % 32 && partPred cycle f q then n + 2 ^ (q.lane % 32) else n) 0
    else all
  | _ => all

/-- Write one group's results. -/
def groupEffect (cycle wid : Nat) (i : Instr) (f : FmtA) (s : State) (g : List Part) : State :=
  let (all, fl) := groupValue cycle i f g
  if isS f.d then
    let firsts := g.filter fun p => (g.find? fun q => q.ctx.tix = p.ctx.tix) == some p
    modWg s wid fun w => orFlags (firsts.foldl (fun w p =>
      writeOp w p.ctx.tix f.d (isWide f.ty) (signsResult f.ty) 0 (laneValue cycle i f g all p)) w) fl
  else
    let vals := g.map fun p => (p, laneValue cycle i f g all p)
    modWg s wid fun w => orFlags (freshPred (vals.foldl (fun w (p, v) =>
      writeOp w p.ctx.tix f.d (isWide f.ty) (signsResult f.ty) p.lane v) w) f.d (maskOf (g.map (·.lane)))) fl

/-- The groups of a participating set: blocks of 32 with the same g, or the whole set (R152). -/
def groupsOf (f : FmtA) (ps : List Part) : List (List Part) :=
  if isWideLane f then [ps]
  else ((List.range 16).map fun g => ps.filter fun p => p.lane / 32 = g).filter (· ≠ [])

/-- The effect of a lane instruction on its participating set. In V-form with several blocks, an s
register takes the result of one of them. -/
def laneEffect (wid : Nat) (i : Instr) (s : State) (ps : List Part) : State :=
  match laneFields i with
  | none => s
  | some f =>
    let gs := groupsOf f ps
    if isS f.d && gs.length > 1 then
      let pick := Config.blockPick s.tick % gs.length
      let order := gs.eraseIdx pick ++ (gs[pick]?).toList
      order.foldl (groupEffect s.cycle wid i f) (ticked s)
    else gs.foldl (groupEffect s.cycle wid i f) s

/-- The parts of one path: its active lanes that pass the guard. -/
def partsOf (c : Ctx) : List Part := (lanesOf c.pass).map fun l => ⟨l, c⟩

/-- The issue context of a path of a thread that waits in a round. -/
def roundCtx (s : State) (wid : Nat) (w : Workgroup) (i : Instr) (tix pix : Nat) (t : Thread) (p : Path) : Ctx :=
  let g := guardOf i
  let k := kGet w (g.toNat % 8)
  let act := (p.limit.map (p.mask &&& ·)).getD p.mask
  { wid := wid, tix := tix, pix := pix, word := 0, wg := w, th := t, path := p, la := launchOf s w.lid, act := act,
    pass := act &&& (if g.toNat ≥ 8 then ~~~k else k) }

/-- The first path of a thread to have reached the round at `pc`: its index. -/
def roundPath (t : Thread) (pc : Word) : Option (Nat × Path) :=
  let at_ := t.paths.zipIdx.filterMap fun (p, i) => match p.wait with
    | .lane since _ => if p.pc = pc then some (since, i, p) else none
    | _ => none
  match at_ with
  | [] => none
  | x :: r => some (r.foldl (fun b y => if y.1 < b.1 then y else b) x).2

/-- A TG whose lanes have read %cyclo in a round latches the half of that cycle (R69). -/
def latchRound (s : State) (wid tix : Nat) (i : Instr) (ps : List Part) : State :=
  if ps.any fun p => readsCyclo (demandsOf (envOf p.ctx) i) then
    modTh s wid tix fun t => { t with latch := BitVec.ofNat 32 (s.cycle / 2 ^ 32) } else s

/-- Perform the round at `pc` when every TG that has not retired has reached it (R152, R24). -/
def roundAt (s : State) (wid : Nat) (pc : Word) (word : Dbl) : State :=
  match wgOf s wid, decodeTV word with
  | some w, .ok i =>
    let open_ := w.threads.zipIdx.filter fun (t, _) => !retired w t
    let here := open_.filterMap fun (t, tix) => (roundPath t pc).map fun x => (tix, t, x.1, x.2)
    if here.length ≠ open_.length || here = [] then s
    else
      let parts := fun (x : Nat × Thread × Nat × Path) => partsOf (roundCtx s wid w i x.1 x.2.2.1 x.2.1 x.2.2.2)
      let s := here.foldl (fun s x => latchRound s wid x.1 i (parts x)) (laneEffect wid i s (here.flatMap parts))
      here.foldl (fun s (tix, _, pix, _) => modPath s wid tix pix fun p => { stepPath p with wait := .none }) s
  | _, _ => s

/-- Perform every round of a workgroup that is complete, as after an arrival, a retirement or a handler's return: one
after the other, since a later path of a TG takes part in a later round (R152). -/
def settleRounds (s : State) (wid : Nat) : State :=
  match wgOf s wid with
  | none => s
  | some w =>
    let open_ := (w.threads.flatMap (·.paths)).filterMap fun p => match p.wait with
      | .lane _ word => some (p.pc, word)
      | _ => none
    open_.foldl (fun s (pc, word) => roundAt s wid pc word) s

/-- A lane instruction: at once over the path's lanes, or in T-form with width `.w` as a wait point whose
last arrival performs the round. -/
def laneOpRun (i : Instr) (f : FmtA) (c : Ctx) (s : State) : Res :=
  if isWideLane f && !c.path.vtext && !c.th.strand then
    .own (roundAt (waitAt s c fun p => { p with wait := .lane s.cycle c.word }) c.wid c.path.pc c.word)
  else .done (laneEffect c.wid i s (partsOf c)) []

def execShfl (f : FmtA) (s : State) : Out := issue (.shfl f) s (laneOpRun (.shfl f) f)
def execVote (f : FmtA) (s : State) : Out := issue (.vote f) s (laneOpRun (.vote f) f)
def execRedux (f : FmtA) (s : State) : Out := issue (.redux f) s (laneOpRun (.redux f) f)
def execBcast (f : FmtA) (s : State) : Out := issue (.bcast f) s (laneOpRun (.bcast f) f)
def execPopk (f : FmtA) (s : State) : Out := issue (.popk f) s (laneOpRun (.popk f) f)

end Sys2Proof.Machine
end

