-- ==== Sys2Proof/Machine/Transaction.lean ====
section
/-! DEFINITION. Per-lane transactions: R172 to R177, R279 to R288, R414. -/

namespace Sys2Proof.Machine

/-! ### Logs, quotas, locks (R252, R279, R282, R288) -/

/-- Sectors that a lane has logged as read, or as written. -/
def logSize (write : Bool) (t : LaneTx) : Nat := if write then t.writes.length else t.reads.length

/-- Whether the lane's own quota, its canonical TG's and the core's 768 frames have room for one more sector
(R279). -/
def txRoom (s : State) (w : Workgroup) (lane : Nat) (write : Bool) : Bool :=
  let own := logSize write (txOf w lane)
  let block := (w.tx.filter fun x => x.1 / 32 = lane / 32).foldl (fun n x => n + logSize write x.2) 0
  let here := s.wgs.filter fun x => x.2.core = w.core
  let frames := here.foldl (fun n x => x.2.tx.foldl (fun n y => n + y.2.reads.length + y.2.writes.length) n) 0
  own < (if write then 8 else 16) && block < (if write then 128 else 256) && frames < 768

/-- XOR of the six low bytes of a line number (R252). -/
def lineHash (x : Nat) : Nat :=
  (List.range 6).foldl (fun h i => h ^^^ nfld x (8 * i + 7) (8 * i)) 0

/-- The slice that homes a sector for a partition (R252). -/
def homeSlice (s : State) (part sec : Nat) : Nat := ((partOf s part).res.home.getD (lineHash (sec / 4)) 0).toNat

/-- The partition of a lock's holder. -/
def lockPart (s : State) (wid : Nat) : Option Nat := (wgOf s wid).map fun w => (launchOf s w.lid).part

/-- Whether the lock table of a sector's slice has room: 512 locks (R282). A slice is one partition's (R317). -/
def lockRoom (s : State) (part sec : Nat) : Bool :=
  (s.locks.filter fun x => lockPart s x.2.1 = some part && homeSlice s part x.1 = homeSlice s part sec).length < 512

/-- Whether a holder of a lock is an irrevocable lane. -/
def heldIrrev (s : State) (h : Nat × Nat) : Bool :=
  match wgOf s h.1 with
  | some w => (txOf w h.2).st = .irrev
  | none => false

/-- How a request for a lock ends. -/
inductive LockRes where
  | held (s : State)
  /-- a revocable commit holds it, or the slice's table is full -/
  | waits
  /-- an irrevocable lane holds it -/
  | irrev
  deriving DecidableEq

/-- Lock a sector for a lane. -/
def lockSector (s : State) (part : Nat) (who : Nat × Nat) (sec : Nat) : LockRes :=
  match lockHolder s sec with
  | some h => if h = who then .held s else if heldIrrev s h then .irrev else .waits
  | none => if lockRoom s part sec then .held { s with locks := s.locks ++ [(sec, who.1, who.2)] } else .waits

/-- How a transactional access of a lane ends. -/
inductive TxRes where
  | ok (v : Nat) (s : State)
  | aborts (cls detail : Nat)
  /-- an abort of class 6 for an uncorrectable error: where it lies, as in a Carafe entry (R408) -/
  | errs (structure_ code : Nat)
  | fails (stage : Nat) (c : Cause) (addr : Nat)
  | waits

/-- An irrevocable lane locks the sector it touches: at most 64 distinct ones (R288). -/
def irrevLock (s : State) (part : Nat) (who : Nat × Nat) (sec : Nat) (k : State → TxRes) : TxRes :=
  if lockHolder s sec ≠ some who && 64 ≤ (s.locks.filter fun x => x.2 = who).length then
    .fails 13 .txIrrevocableLimit 1
  else
    match lockSector s part who sec with
    | .held s => k s
    | _ => .waits

/-- Bytes of a lane's write sector, or of a value where the mask does not cover them (R280). -/
def logBytes (t : LaneTx) (sector : BitVec 256) (pa n : Nat) : Nat :=
  let own := tfind t.writes (pa / 32)
  ofBytes ((List.range n).map fun i => match own with
    | some (d, m) => if m.getLsbD ((pa + i) % 32) then sectorByte d (pa + i) else sectorByte sector (pa + i)
    | none => sectorByte sector (pa + i))

/-- Whether a lane's write log covers bytes. -/
def logCovers (t : LaneTx) (pa n : Nat) : Bool :=
  match tfind t.writes (pa / 32) with
  | some (_, m) => (List.range n).all fun i => m.getLsbD ((pa + i) % 32)
  | none => false

/-- Whether bytes lie in an uncorrectable word of a lane's logs (R406). -/
def logBad (t : LaneTx) (pa n : Nat) : Bool := t.bad.any fun k => pa / 4 ≤ k && k ≤ (pa + n - 1) / 4

/-- A transactional load (R173, R280, R285, R288, R408). `ea` is the virtual address reported. That a sector that is not
reached, or fails, aborts with class 6 also where the read log is full is a DESIGN CHOICE (log 113): the spec orders
class 6 and class 3 nowhere. -/
def txLoad (s : State) (wid lane attr pa n ea : Nat) : TxRes :=
  match wgOf s wid with
  | none => .waits
  | some w =>
    let t := txOf w lane
    let sec := pa / 32
    if t.st = .irrev then
      irrevLock s (launchOf s w.lid).part (wid, lane) sec fun s =>
        if !reaches s true pa then .fails 16 .linkError ea else
        match coreLoad s w.core (some (wid, lane)) true attr pa n with
        | .ok v s => .ok v s
        | .bad c => .fails 16 c ea
        | .waits => .waits
    else
      if logBad t pa n then .errs 10 pa else
      match (if logCovers t pa n then some 0 else tfind t.reads sec) with
      | some x => .ok (logBytes t x pa n) s
      | none =>
        match lockHolder s sec with
        | some h => if heldIrrev s h then .aborts 9 0 else .waits
        | none =>
          if !reaches s true pa then .aborts 6 Cause.linkError.code
          else if badData s (32 * sec) 32 then .errs 0 (32 * sec)
          else if !txRoom s w lane false then .aborts 3 0
          else
            let x := sliceSector s sec
            let t := { t with reads := tset t.reads sec x }
            -- the core's L1 copy is renewed, so that no later load of the core returns an older write (R276)
            let s := if attr = 0 && (tfind (coreOf s w.core).l1 sec).isSome then
              modCore s w.core (l1Fill sec (fillSector s w.core sec)) else s
            .ok (logBytes t x pa n) (putWg s wid (setTx w lane t))

/-- A transactional store (R173, R280, R288). -/
def txStore (s : State) (wid lane pa ea : Nat) (bytes : List Byte) : TxRes :=
  match wgOf s wid with
  | none => .waits
  | some w =>
    let t := txOf w lane
    let sec := pa / 32
    if t.st = .irrev then
      irrevLock s (launchOf s w.lid).part (wid, lane) sec fun s =>
        if !reaches s false pa then .fails 16 .linkError ea else
        match slicedStore s w.core (some (wid, lane)) pa bytes with
        | some s => .ok 0 (noteDropped s w.core pa)
        | none => .waits
    else
      let log := fun (old : BitVec 256 × Word) =>
        let new := bytes.zipIdx.foldl (fun (d, m) (b, i) =>
          (sectorPut d (pa + i) b, m ||| BitVec.ofNat 32 (2 ^ ((pa + i) % 32)))) old
        let bad := t.bad.filter fun k => !(pa ≤ 4 * k && 4 * k + 4 ≤ pa + bytes.length)
        TxRes.ok 0 (putWg s wid (setTx w lane { t with writes := tset t.writes sec new, bad := bad }))
      match tfind t.writes sec with
      | some old => log old
      | none =>
        if (lockHolder s sec).any (heldIrrev s) then .aborts 9 0
        else if !reaches s false pa then .aborts 6 Cause.linkError.code
        else if !txRoom s w lane true then .aborts 4 0
        else log (0, 0)

/-! ### `txbegin` (R172, R177, R286) -/

/-- Request the partition's progress token, which is granted first in, first out (R287). -/
def requestToken (s : State) (part : Nat) (who : Nat × Nat) : State :=
  modPart s part fun p =>
    if p.tokenHolder.isNone then { p with tokenHolder := some who } else { p with tokenQueue := p.tokenQueue ++ [who] }

/-- A lane begins: the record of R172. -/
def beginTx (w : Workgroup) (cycle lane vs : Nat) (target : Word) (st : TxState) : Workgroup :=
  let t := txOf w lane
  vPut (setTx w lane { st := st, depth := 1, vs := vs, target := target, begun := cycle, consec := t.consec, last := t.last })
    lane vs 0

/-- What a `txbegin` does to one lane. -/
inductive BeginRes where
  | begins (st : TxState)
  | nests
  | aborts
  | limit
  | queues
  deriving DecidableEq

/-- The row of R286 that applies to a lane. -/
def beginOf (s : State) (w : Workgroup) (part wid lane : Nat) : BeginRes :=
  let t := txOf w lane
  match t.st with
  | .out => if t.consec.toNat < w.txctl.toNat then .begins .active else .queues
  | .queued => if (partOf s part).tokenHolder = some (wid, lane) then .begins .irrev else .queues
  | .irrev => if t.depth < 7 then .nests else .limit
  | _ => if t.depth < 7 then .nests else .aborts

/-- Apply a row to a lane. A queued lane keeps its request. -/
def beginLane (s : State) (part wid vs : Nat) (target : Word) (lane : Nat) (r : BeginRes) : State :=
  match r with
  | .begins st => modWg s wid fun w => beginTx w s.cycle lane vs target st
  | .nests => modWg s wid fun w => setTx w lane { txOf w lane with depth := (txOf w lane).depth + 1 }
  | .queues =>
    match wgOf s wid with
    | none => s
    | some w =>
      if (txOf w lane).st = .queued then s
      else requestToken (putWg s wid (setTx w lane { txOf w lane with st := .queued })) part (wid, lane)
  | _ => s

/-- `txbegin` (R172, R177). -/
def txbeginRun (f : FmtB) (c : Ctx) (s : State) : Res :=
  let lanes := lanesOf c.pass
  let rows := lanes.map fun l => (l, beginOf s c.wg c.la.part c.wid l)
  let zero := maskOf ((rows.filter fun r => (match r.2 with | .begins _ | .queues => true | _ => false)).map (·.1))
  let writesJ := recordsJoin c
  if writesJ && jGet c.th f.j.toNat ≠ 0 then .wide .joinMismatch f.j.toNat
  else
    let opens := rows.any fun r => (match r.2 with | .begins _ => true | _ => false)
    match (if opens then drainAll s c.wg.core else some s) with
    | none => .stall
    | some s =>
      let s := if writesJ then
        modTh s c.wid c.tix fun t => { t with jregs := tput 0 t.jregs f.j.toNat zero } else s
      let target := c.path.pc + f.tgt
      let queued := rows.filter fun r => r.2 = .queues
      let stay := maskOf (queued.map (·.1))
      let wait := c.path.vtext && stay ≠ 0
      -- in V-form a strand that must stay begins nothing
      let todo := if wait then queued else rows
      let s := todo.foldl (fun s r => beginLane s c.la.part c.wid f.a.toNat target r.1 r.2) s
      let (s, gone) := if wait then (s, []) else
        abortAll s c.wid ((rows.filter fun r => r.2 = .aborts).map fun r => (r.1, 5, 0))
      let fails := if wait then [] else
        (rows.filter fun r => r.2 = .limit).map fun r => Fail.mk r.1 13 .txIrrevocableLimit 2
      let go := c.path.mask &&& ~~~stay
      if wait || (stay ≠ 0 && go = 0) then
        .stays (endTurn (modPath s c.wid c.tix c.pix fun p =>
          { p with queued := !p.vtext, limit := if p.vtext then p.limit else none }) c)
      else
        let s := if stay = 0 then s else
          modTh s c.wid c.tix fun t =>
            { t with paths := t.paths.modify c.pix (fun p => { p with mask := go, queued := false }) ++
                [{ mask := stay, pc := c.path.pc, stack := c.path.stack, queued := true }] }
        let s := modPath s c.wid c.tix c.pix fun p => { p with queued := false, nest := if p.vtext then p.nest + 1 else 0 }
        .done s fails gone

/-! ### `txend` and the commit (R174, R282, R283) -/

/-- Whether a lane waits for its commit. -/
def committing (w : Workgroup) (lane : Nat) : Bool :=
  let t := txOf w lane
  t.st = .committing || (t.st = .irrev && t.depth = 0)

/-- The end of a path's wait at `txend`: committed lanes go on, aborted ones go to their targets, one path for
each target; in V-form the parked elements are active again (R174). -/
def endTxWait (w : Workgroup) (t : Thread) (pix : Nat) : Thread :=
  match t.paths[pix]? with
  | none => t
  | some p =>
    if p.wait ≠ .txend || (lanesOf p.mask).any (committing w) then t
    else if p.vtext then { t with paths := t.paths.set pix (passTxend { p with wait := .none }) }
    else
      let gone := maskOf (p.aborted.map (·.1))
      let targets := (p.aborted.map (·.2)).eraseDups
      let left := p.mask &&& ~~~gone
      -- where no lane has committed, the first of them takes the steps that are owed (R337)
      let fresh := targets.zipIdx.map fun (pc, k) =>
        ({ mask := maskOf ((p.aborted.filter fun x => x.2 = pc).map (·.1)), pc := pc, stack := p.stack,
           stepDue := if k = 0 && left = 0 then p.stepDue else [] } : Path)
      { t with paths := t.paths.set pix { passTxend p with wait := .none, mask := left, aborted := [] } ++ fresh }

/-- End the waits at `txend` of a workgroup's threads that have ended. -/
def settleTxend (s : State) (wid : Nat) : State :=
  modWg s wid fun w =>
    { w with threads := w.threads.map fun t =>
        if t.susp.isSome || !(t.paths.any fun p => p.wait = .txend) then t
        else settlePaths w.exited ((List.range t.paths.length).foldl (endTxWait w) t) }

/-- `txend` (R174). Lanes with empty logs commit at once; the wait then gives way and is over, and where every lane only
comes out of a nested transaction the path keeps its turn. Lanes whose commit has failed while others trapped at this
`txend` leave for their targets with the wait's end. -/
def txendRun (_ : FmtA) (c : Ctx) (s : State) : Res :=
  if c.th.susp.isSome then .done s []
  else
    let lanes := (lanesOf c.pass).filter fun l => (txOf c.wg l).st ≠ .out
    let s := modWg s c.wid fun w => lanes.foldl (fun w l =>
      let t := txOf w l
      if t.depth > 1 then setTx w l { t with depth := t.depth - 1 }
      else if t.st = .irrev then setTx w l { t with depth := 0, since := s.cycle }
      else if t.reads = [] && t.writes = [] then setTx w l { last := t.last }
      else setTx w l { t with st := .committing, since := s.cycle }) w
    let w := (wgOf s c.wid).getD c.wg
    if (lanesOf c.path.mask).any (committing w) || c.path.aborted ≠ [] then
      .own (waitAt s c fun p => { p with wait := .txend })
    else .endsTx (if lanes.any fun l => (txOf c.wg l).depth ≤ 1 then passWait s c else s)

/-- A commit has failed: the lane's abort, with its target kept until the path's wait ends. -/
def failCommit (s : State) (wid lane cls detail : Nat) : State :=
  let (s, gone) := abortOne s wid lane cls detail
  let mark := fun (p : Path) => if p.wait = .txend && p.mask.getLsbD lane && !p.vtext then
    { p with aborted := p.aborted ++ [gone] } else p
  modWg s wid fun w => { w with threads := w.threads.map fun t =>
    { t with paths := t.paths.map mark, susp := t.susp.map fun u => { u with paths := u.paths.map mark } } }

/-- The lane leaves its transaction with its effects in place: locks freed, CONSEC 0, an acquire at partition
scope by its core. -/
def closeCommit (s : State) (wid lane core : Nat) : State :=
  let s := acquireGang (leaveTx s wid lane) core
  modWg s wid fun w => setTx w lane { last := (txOf w lane).last }

/-- The sectors that take over an uncorrectable word of a lane's write log: it moves with its code (R406, R407). -/
def spoilWrites (s : State) (t : LaneTx) : State :=
  let bad := (t.bad.map (· / 8)).filter fun sec => (tfind t.writes sec).isSome
  { s with badMem := bad.foldl noteBad s.badMem }

/-- Write a lane's write sectors at their slices, and to the core's own L1 copies. -/
def applyWrites (s : State) (core : Nat) (l : Tbl (BitVec 256 × Word)) : State :=
  l.foldl (fun s (sec, d, m) =>
    let bytes := (List.range 32).filterMap fun i =>
      if m.getLsbD i then some (32 * sec + i, sectorByte d i) else none
    (runs bytes).foldl (fun s r => sliceWrite (modCore s core fun c => l1Update c r.1 r.2) r.1 r.2) s) s

/-- Lock sectors in ascending order, as far as they can be had: the sector refused, if one is. -/
def lockAll (s : State) (part : Nat) (who : Nat × Nat) : List Nat → State × Option (Nat × Bool)
  | [] => (s, none)
  | sec :: t =>
    match lockSector s part who sec with
    | .held s => lockAll s part who t
    | .waits => (s, some (sec, false))
    | .irrev => (s, some (sec, true))

/-- The sectors of a lane's logs, ascending. -/
def logSectors (t : LaneTx) : List Nat :=
  (t.writes.foldl (fun (m : Tbl Unit) x => tset m x.1 ()) (t.reads.foldl (fun m x => tset m x.1 ()) [])).map (·.1)

/-- Validation and outcome, with every lock held (R282 steps 2 and 3). -/
def finishCommit (s : State) (wid lane : Nat) (w : Workgroup) (t : LaneTx) : State :=
  match t.reads.find? fun x => badData s (32 * x.1) 32 || (logBad t (32 * x.1) 32 && (tfind t.writes x.1).isNone) with
  | some (sec, _) =>
    let place := if badData s (32 * sec) 32 then 0 else 10
    failCommit (noteError s w.core place (32 * sec)) wid lane 6 Cause.dataError.code
  | none =>
    if t.reads.any fun x => sliceSector s x.1 ≠ x.2 then failCommit s wid lane 1 0
    else closeCommit (spoilWrites (applyWrites s w.core t.writes) t) wid lane w.core

/-- One step of a lane's commit: the release's drain before its first lock, then its locks, then its outcome. -/
def commitStep (s : State) (wid lane : Nat) : State :=
  match wgOf s wid with
  | none => s
  | some w =>
    let t := txOf w lane
    if !committing w lane then s
    else if t.st = .irrev then
      -- R288: a release and an acquire at partition scope; its own locks hold nothing back
      match drainAll { s with locks := s.locks.filter fun x => x.2 ≠ (wid, lane) } w.core with
      | some s => closeCommit s wid lane w.core
      | none => s
    else
      let part := (launchOf s w.lid).part
      let need := logSectors t
      let has := need.filter fun sec => lockHolder s sec = some (wid, lane)
      if has = need then finishCommit s wid lane w t
      else if t.refused.any fun sec => (lockHolder s sec).isSome || !lockRoom s part sec then s
      else if t.firstLock.any fun f => f + 256 ≤ s.cycle then s
      else match (if has = [] then drainAll s w.core else some s) with
        | none => s
        | some s =>
          let (s', refused) := lockAll s part (wid, lane) need
          match refused with
          | some (_, true) => failCommit s wid lane 9 0
          | _ =>
            let any := s'.locks.any fun x => x.2 = (wid, lane)
            modWg s' wid fun w => setTx w lane
              { t with refused := none
                       firstLock := if any then some (t.firstLock.getD s.cycle) else none }

/-- TX_COMMIT (R282). -/
def execTxCommit (wid lane : Nat) (s : State) : Out := .next (settleTxend (commitStep s wid lane) wid)

/-- COMMIT_LOCK_TIMEOUT (R282): every lock is freed, and the commit starts again once the refused one is
free. -/
def execCommitLockTimeout (wid lane : Nat) (s : State) : Out :=
  match wgOf s wid with
  | none => .next s
  | some w =>
    let t := txOf w lane
    let part := (launchOf s w.lid).part
    let missing := (logSectors t).find? fun sec => lockHolder s sec ≠ some (wid, lane)
    if t.st ≠ .committing || missing.isNone || !(t.firstLock.any fun f => f + 256 ≤ s.cycle) then .next s
    else
      let refused := (logSectors t).find? fun sec =>
        lockHolder s sec ≠ some (wid, lane) && ((lockHolder s sec).isSome || !lockRoom s part sec)
      let s := { s with locks := s.locks.filter fun x => x.2 ≠ (wid, lane) }
      .next (modWg s wid fun w => setTx w lane { t with firstLock := none, refused := refused })

def execTxbegin (f : FmtB) (s : State) : Out := issue (.txbegin f) s (txbeginRun f)
def execTxend (f : FmtA) (s : State) : Out := issue (.txend f) s (txendRun f)

/-! ### `txabort`, `txtest` (R176, R286) and the watchdog (R414) -/

/-- Abort the passing lanes that are inside a transaction, with class 2. -/
def txabortRun (f : FmtA) (c : Ctx) (s : State) : Res :=
  if c.th.susp.isSome then .done s []
  else
    let l := (lanesOf c.pass).filter fun l => (txOf c.wg l).st = .active
    let (s', gone) := abortAll s c.wid (l.map fun l => (l, 2, readOp s.cycle c f.a false l % 256))
    .done s' [] gone

/-- The status that `txtest` writes; 0 in a handler (R286). -/
def txStatus (c : Ctx) (l : Nat) : Nat :=
  let t := txOf c.wg l
  if c.th.susp.isSome || t.st = .out then 0 else 1 + 2 * t.depth + (if t.st = .irrev then 16 else 0)

def execTxabort (f : FmtA) (s : State) : Out := issue (.txabort f) s (txabortRun f)
/-- `txtest`. Into an s register goes the status of the lowest passing lane (DESIGN CHOICE, log 99). -/
def execTxtest (f : FmtA) (s : State) : Out :=
  issue (.txtest f) s fun c s => .done (eachLane c s f.d false false (txStatus c)) []

/-- Whether the watchdog of a lane has run out (R414). -/
def watchdogDue (s : State) (w : Workgroup) (lane : Nat) : Bool :=
  let t := txOf w lane
  t.st = .active && t.begun + 65536 ≤ s.cycle

/-- The lanes of a path whose watchdog has run out abort with class 7: at once when the path can issue, at
their next issue otherwise. -/
def watchdogAt (s : State) (wid lane : Nat) (w : Workgroup) : State :=
  let late := fun (s : State) =>
    let target := (txOf w lane).target
    let s := abortState s wid lane 7 0
    modWg s wid fun w => setTx w lane { txOf w lane with late := true, target := target }
  match w.threads.zipIdx.find? fun (t, _) => (liveLanes w t).getLsbD lane with
  | none => late s
  | some (t, tix) =>
    match t.paths.zipIdx.find? fun (p, _) => p.mask.getLsbD lane with
    | none => late s
    | some (p, pix) =>
      if t.susp.isSome || t.halt.isSome || p.wait ≠ .none then late s
      else
        let all := (lanesOf p.mask).filter (watchdogDue s w)
        settleThread (abortLanes s wid tix pix (all.map fun l => (l, 7, 0))) wid tix

/-- TX_WATCHDOG (R414). -/
def execTxWatchdog (wid lane : Nat) (s : State) : Out :=
  match wgOf s wid with
  | none => .next s
  | some w => .next (if watchdogDue s w lane then watchdogAt s wid lane w else s)

end Sys2Proof.Machine
end

