-- ==== Sys2Proof/Machine/MemoryOps.lean ====
section
/-! DEFINITION. Loads, stores, atomics, fences, prefetch and cache control: R160 to R167, R401, R402, R408,
R444. -/

namespace Sys2Proof.Machine

/-! ### One lane's address and location (R401) -/

/-- Where a lane's access goes: a scratchpad offset, or a physical address with the ATTR of its page. -/
inductive Place where
  | pad (off : Nat)
  | mem (pa attr : Nat)
  deriving DecidableEq

/-- How the checks of stage 15 end for a lane. -/
inductive Located where
  | at_ (p : Place) (s : State)
  | fails (c : Cause)
  | waits

/-- Stage 15 for one address: NONCANONICAL, MISALIGNED, SCRATCH_RANGE, then the walk (R401). -/
def locateAccess (s : State) (c : Ctx) (global : Bool) (need : Need) (ea n : Nat) : Located :=
  if global then
    if !canonical ea then .fails .noncanonical
    else if ea % n ≠ 0 then .fails .misaligned
    else match translate s (spaceOf c.la c.wg.core) need ea with
      | .ok pa attr s => .at_ (.mem pa attr) s
      | .fails cause => .fails cause
      | .waits => .waits
  else if ea % n ≠ 0 then .fails .misaligned
  else if !padHas c.wg.pad ea n then .fails .scratchRange
  else .at_ (.pad ea) s

/-- What the lanes of one instruction have given so far. -/
structure Access where
  st : State
  fails : List Fail := []
  /-- lanes that have aborted, with their targets -/
  gone : List (Nat × Word) := []
  vals : List (Nat × Nat) := []
  /-- lanes whose reads of the host window are still to be answered (R437) -/
  asks : Mask := 0
  /-- a lane that is in no transaction has accessed global memory -/
  plain : Bool := false

/-- Whether a lane's global accesses are those of a transaction (R173, R286). -/
def inTx (c : Ctx) (l : Nat) : Bool := c.th.susp.isNone && ((txOf c.wg l).st = .active || (txOf c.wg l).st = .irrev)

/-- The passing lanes that are in no transaction. -/
def plainLanes (c : Ctx) : List Nat := (lanesOf c.pass).filter fun l => !inTx c l

/-- The lanes whose accesses are made: every passing one. An access made once is made by the lowest lane outside a
transaction, and by every lane inside one, whose log is its own (R173, R280). -/
def accessLanes (c : Ctx) (once : Bool) : List Nat :=
  if !once then lanesOf c.pass
  else if c.wg.tx = [] then (lanesOf c.pass).take 1
  else (lanesOf c.pass).filter fun l => inTx c l || (plainLanes c).head? = some l

/-- A failure: of the lane, or of every lane that the access is made for. -/
def accessFail (c : Ctx) (once : Bool) (l stage : Nat) (cause : Cause) (addr : Nat) : List Fail :=
  if !once || inTx c l then [⟨l, stage, cause, addr⟩] else (plainLanes c).map fun l => ⟨l, stage, cause, addr⟩

/-- Run a list of lanes: `none` when one of them waits for a locked sector (R285). -/
def eachAccess (lanes : List Nat) (f : Access → Nat → Option Access) (s : State) : Option Access :=
  lanes.foldlM f { st := s }

/-- Take the outcome of a transactional access into account. -/
def joinTx (c : Ctx) (once : Bool) (a : Access) (l : Nat) : TxRes → Option Access
  | .ok v s => some { a with st := s, vals := a.vals ++ [(l, v)] }
  | .aborts cls detail =>
    let (s, g) := abortOne a.st c.wid l cls detail
    some { a with st := s, gone := a.gone ++ [g] }
  | .errs place code =>
    let (s, g) := abortOne (noteError a.st c.wg.core place code) c.wid l 6 Cause.dataError.code
    some { a with st := s, gone := a.gone ++ [g] }
  | .fails stage cause addr => some { a with fails := a.fails ++ accessFail c once l stage cause addr }
  | .waits => none

/-- A lane's read of the host window is under way. -/
def asksFor (a : Access) (l : Nat) : Access := { a with asks := a.asks ||| (1 <<< l) }

/-- A read of the host window that stays unanswered (R437): the mark is used up. -/
def unanswered (s : State) (wid l pa : Nat) : Option State :=
  match wgOf s wid with
  | some w => if inHost pa && w.linkFails.contains l then
      some (putWg s wid { w with linkFails := w.linkFails.erase l }) else none
  | none => none

/-- Scratchpad bytes that a queued `zst` of the thread still has to write (R188). -/
def zstPending (w : Workgroup) (tix a n : Nat) : Bool :=
  w.pad.queue.any fun t => t.tix.all (· = tix) && (match t.op with
    | .zst _ ty addr stride =>
      let e := if ty == 4 || ty == 5 then 2 else 4
      (List.range 32).any fun i => a < addr + i * stride + 32 * e && addr + i * stride < a + n
    | _ => false)

/-! ### Values in flight (R444) -/

/-- The values of lanes set out for a destination. -/
def sendHome (s : State) (c : Ctx) (d : Opnd) (wide : Bool) (vals : List (Nat × Nat)) : State :=
  if vals = [] then s else
  let n := d.toNat
  let lanes := if isS d then [] else vals.flatMap fun (l, v) =>
    (l, n, BitVec.ofNat 32 v) :: (if wide then [(l, n + 1, BitVec.ofNat 32 (v / 2 ^ 32))] else [])
  let sreg := if isS d then vals.head?.map fun x => (n - 0x100, BitVec.ofNat 64 x.2) else none
  let f : Flight := { fid := s.nextId, due := some (returnCycle s), lanes := lanes, sreg := sreg }
  ticked { modTh s c.wid c.tix (fun t => { t with flights := t.flights ++ [f] }) with nextId := s.nextId + 1 }

/-- LOAD_VALUE_RETURN (R444): the values are written, whichever path runs. -/
def execLoadValueReturn (wid tix fid : Nat) (s : State) : Out :=
  match (wgOf s wid).bind (·.threads[tix]?) with
  | none => .next s
  | some t =>
    match t.flights.find? fun f => f.fid = fid && (f.due.any fun d => d ≤ s.cycle) with
    | none => .next s
    | some f => .next <| modWg s wid fun w =>
        let w := f.lanes.foldl (fun w (l, r, x) => vPut w l r x) w
        let w := match f.sreg with
          | some (n, x) => sPut w tix n x
          | none => w
        { w with threads := w.threads.modify tix fun t => { t with flights := t.flights.filter (·.fid ≠ fid) } }

/-! ### Loads (R160 to R162) -/

/-- What a load writes: extended by its type to 64 bits (R71, R160). -/
def loadValue (ty : BitVec 4) (x : Nat) : Nat :=
  match ty.toNat with
  | 1 => lowInt (sextNat x 32) 64
  | 6 => lowInt (sextNat x 16) 64
  | 8 => lowInt (sextNat x 8) 64
  | _ => x

/-- The load of one lane. -/
def loadLane (f : FmtM) (c : Ctx) (once : Bool) (a : Access) (l : Nat) : Option Access :=
  let s := a.st
  let n := accessBytes f.ty
  let ea := addrM s.cycle c f l
  let fail := fun (a : Access) stage cause => some { a with fails := a.fails ++ accessFail c once l stage cause ea }
  match locateAccess s c (f.sp == 0) .read ea n with
  | .waits => none
  | .fails cause => fail a 15 cause
  | .at_ (.pad off) s =>
    let pad := ((wgOf s c.wid).getD c.wg).pad
    if zstPending c.wg c.tix off n then none
    else if padBad pad off n then fail a 16 .dataError
    else some { a with st := s, vals := a.vals ++ [(l, readLE pad.scratch off n)] }
  | .at_ (.mem pa attr) s =>
    match unanswered s c.wid l pa with
    | some s => fail { a with st := s } 16 .linkError
    | none =>
      if inTx c l then joinTx c once a l (txLoad s c.wid l attr pa n ea)
      else if !reaches s true pa then fail a 16 .linkError
      else if inHost pa && !hasAnswers s.cycle c then some (asksFor a l)
      else match coreLoad s c.wg.core none (decide (3 ≤ f.scope.toNat)) attr pa n with
        | .ok v s => some { a with st := s, vals := a.vals ++ [(l, v)], plain := true }
        | .bad cause => fail a 16 cause
        | .waits => none

/-- `ld`: the values set out for the destination; an acquire at gang scope or wider then drops L1. -/
def ldRun (f : FmtM) (c : Ctx) (s : State) : Res :=
  let once := isS f.d
  match eachAccess (accessLanes c once) (loadLane f c once) s with
  | none => .stall
  | some a =>
    if a.asks ≠ 0 then .asks a.asks else
    let s := if a.plain && f.ord == 1 && 3 ≤ f.scope.toNat then acquireGang a.st c.wg.core else a.st
    let wide := isWide f.ty
    -- a trap of a lane of a load that is performed once leaves its destination alone (R357)
    let vals := if once && a.fails.any (!revocable c ·) then [] else a.vals
    .done (sendHome s c f.d wide (vals.map fun x => (x.1, loadValue f.ty x.2))) a.fails a.gone

def execLd (f : FmtM) (s : State) : Out := issue (.ld f) s (ldRun f)

/-! ### Stores (R160 to R162) -/

/-- A store is made once when its data and every operand of its address are uniform (R161, R376). -/
def storeOnce (f : FmtM) : Bool := isUniform f.d && isUniform f.a && isUniform f.x

/-- A plain global store: to the coalescing buffer, or at gang scope or wider to its slice. -/
def plainStore (s : State) (core : Nat) (scope : BitVec 3) (pa : Nat) (bytes : List Byte) : Option State :=
  if 3 ≤ scope.toNat then slicedStore s core none pa bytes else cbStore s core pa bytes

/-- What a lane's store needs: a commit will read and write the sectors of a revocable transaction's stores (R258). -/
def storeNeed (c : Ctx) (l : Nat) : Need := if c.th.susp.isNone && (txOf c.wg l).st = .active then .both else .write

/-- The store of one lane. -/
def storeLane (f : FmtM) (c : Ctx) (once : Bool) (a : Access) (l : Nat) : Option Access :=
  let s := a.st
  let n := accessBytes f.ty
  let ea := addrM s.cycle c f l
  let bytes := toBytes n (readOp s.cycle c f.d (isWide f.ty) l)
  let fail := fun (a : Access) stage cause => some { a with fails := a.fails ++ accessFail c once l stage cause ea }
  match locateAccess s c (f.sp == 0) (storeNeed c l) ea n with
  | .waits => none
  | .fails cause => fail a 15 cause
  | .at_ (.pad off) s =>
    if zstPending c.wg c.tix off n then none
    else some { a with st := padStore s c.wid off bytes }
  | .at_ (.mem pa _) s =>
    if inTx c l then joinTx c once a l (txStore s c.wid l pa ea bytes)
    else if !reaches s false pa then fail a 16 .linkError
    else if f.ord == 2 && f.scope == 5 && (coreOf s c.wg.core).dropped then
      -- R437: a system release that waits on dropped writes
      fail { a with st := modCore s c.wg.core fun k => { k with dropped := false } } 16 .linkError
    else (plainStore s c.wg.core f.scope pa bytes).map fun s =>
      { a with st := if 3 ≤ f.scope.toNat then noteDropped s c.wg.core pa else s, plain := true }

/-- `st`: a release at gang scope or wider drains the core's buffer first. -/
def stRun (f : FmtM) (c : Ctx) (s : State) : Res :=
  let once := storeOnce f
  let lanes := accessLanes c once
  let releases := f.sp == 0 && f.ord == 2 && 3 ≤ f.scope.toNat && lanes.any fun l => !inTx c l
  match (if releases then releaseGang s c.wg.core else some s) with
  | none => .stall
  | some s =>
    match eachAccess lanes (storeLane f c once) s with
    | none => .stall
    | some a => .done a.st a.fails a.gone

def execSt (f : FmtM) (s : State) : Out := issue (.st f) s (stRun f)

/-! ### Atomics (R163, R164) -/

/-- One element of a floating-point atomic: RNE add, or the minimum and maximum of R145; no flag is raised. -/
def fatomElem (fm : FFmt) (aop old b : Nat) : Nat :=
  match aop with
  | 10 => (roundFloat fm { mode := .rne } (xAdd .rne (decodeFloat fm old) (decodeFloat fm b)).1).1
  | 11 => codeMin fm old b
  | _ => codeMax fm old b

/-- The new value of R164, of `8n` bits. -/
def atomNew (aop : Nat) (ty : BitVec 4) (b cmp old : Nat) : Nat :=
  let w := typeBits ty
  let v := intOf (isSigned ty) w
  match aop with
  | 0 => (old + b) % 2 ^ w
  | 1 => if v b < v old then b else old
  | 2 => if v old < v b then b else old
  | 3 => old &&& b
  | 4 => old ||| b
  | 5 => old ^^^ b
  | 6 => b
  | 7 => if old = cmp then b else old
  | 8 => if old ≥ b then 0 else old + 1
  | 9 => if old = 0 || old > b then b else old - 1
  | _ =>
    let (ew, n) := elemShape ty
    match fmtOf ty with
    | some fm => joinElems ew ((List.range n).map fun j => fatomElem fm aop (elem old ew j) (elem b ew j))
    | none => old

/-- The atomics that a page of the host or peer window takes: `.add`, `.xchg` and `.cas` (R258). -/
def linkAtomic (aop : BitVec 4) : Bool := aop == 0 || aop == 6 || aop == 7

/-- The atomic of one lane. -/
def atomLane (f : FmtMA) (c : Ctx) (once : Bool) (a : Access) (l : Nat) : Option Access :=
  let s := a.st
  let wide := isWide f.ty
  let n := if wide then 8 else 4
  let ea := addrMA s.cycle c f l
  let b := readOp s.cycle c f.b wide l
  let cmp := if f.aop == 7 then readOp s.cycle c f.c wide l else 0
  let new := atomNew f.aop.toNat f.ty b cmp
  let fail := fun (a : Access) stage cause => some { a with fails := a.fails ++ accessFail c once l stage cause ea }
  match locateAccess s c (f.sp == 0) .both ea n with
  | .waits => none
  | .fails cause => fail a 15 cause
  | .at_ (.pad off) s =>
    let pad := ((wgOf s c.wid).getD c.wg).pad
    if zstPending c.wg c.tix off n then none
    else if padBad pad off n then fail a 16 .dataError
    else
      let old := readLE pad.scratch off n
      some { a with st := padStore s c.wid off (toBytes n (new old)), vals := a.vals ++ [(l, old)] }
  | .at_ (.mem pa attr) s =>
    if attr ≠ 0 && !linkAtomic f.aop then fail a 15 .pagePermission else
    match unanswered s c.wid l pa with
    | some s => fail { a with st := s } 16 .linkError
    | none =>
      if !reaches s true pa then fail a 16 .linkError
      else if inHost pa && !hasAnswers s.cycle c then some (asksFor a l)
      else if f.ord.getLsbD 1 && f.scope == 5 && (coreOf s c.wg.core).dropped then
        fail { a with st := modCore s c.wg.core fun k => { k with dropped := false } } 16 .linkError
      else match sliceAtomic s c.wg.core pa n f.aop.toNat b cmp new with
        | .ok old s => some { a with st := s, vals := a.vals ++ [(l, old)], plain := true }
        | .bad cause => fail a 16 cause
        | .waits => none

/-- `atom` and `red`: in ascending lane order, with the release before and the acquire after. -/
def atomRun (f : FmtMA) (returns : Bool) (c : Ctx) (s : State) : Res :=
  let once := returns && isS f.d
  let lanes := accessLanes c once
  let wideScope := f.sp == 0 && 3 ≤ f.scope.toNat
  match (if wideScope && f.ord.getLsbD 1 then releaseGang s c.wg.core else some s) with
  | none => .stall
  | some s =>
    match eachAccess lanes (atomLane f c once) s with
    | none => .stall
    | some a =>
      if a.asks ≠ 0 then .asks a.asks else
      let s := if wideScope && a.plain && f.ord.getLsbD 0 then acquireGang a.st c.wg.core else a.st
      let s := if returns then
        sendHome s c f.d (isWide f.ty) (a.vals.map fun x => (x.1, if f.ty == 1 then lowInt (sextNat x.2 32) 64 else x.2))
      else s
      .done s a.fails a.gone

def execAtom (f : FmtMA) (s : State) : Out := issue (.atom f) s (atomRun f true)
def execRed (f : FmtMA) (s : State) : Out := issue (.red f) s (atomRun f false)

/-! ### Fences, prefetch, cache control (R165 to R167) -/

/-- `fence`: accesses are performed in program order here, so a fence of gang scope or wider drains and
invalidates, and a narrower one only advances the PC. -/
def fenceRun (f : FmtM) (c : Ctx) (s : State) : Res :=
  if f.scope.toNat < 3 then .done s []
  else match (if f.ord.getLsbD 1 then releaseGang s c.wg.core else some s) with
    | none => .stall
    | some s =>
      -- R437: a system release that waits on dropped writes, those of its own drain among them
      if f.ord.getLsbD 1 && f.scope == 5 && (coreOf s c.wg.core).dropped then
        .done (modCore s c.wg.core fun k => { k with dropped := false })
          ((lanesOf c.pass).map fun l => ⟨l, 16, .linkError, hereAddr c⟩)
      else .done (if f.ord.getLsbD 0 then acquireGang s c.wg.core else s) []

def execFence (f : FmtM) (s : State) : Out := issue (.fence f) s (fenceRun f)

/-- The physical address of a canonical address that a walk finds, whatever its permissions; nothing is
cached. -/
def mapped (s : State) (sp : Space) (ea : Nat) : Got Nat :=
  if !canonical ea then .fails .noncanonical else
  match walkFrom s (ea % 2 ^ 60) 3 sp.root with
  | .leaf l e =>
    let pa := leafPa l e (ea % 2 ^ 60)
    if leafOk s sp.part e pa then .ok pa else .fails .addressRange
  | .fails c => .fails c
  | .waits => .waits

/-- Whether a walk of `mapped` meets a locked table sector (R285). -/
def mapWaits (s : State) (sp : Space) (ea : Nat) : Bool := match mapped s sp ea with | .waits => true | _ => false

/-- Bring a line's sectors into L1, where they are not yet and can be read. -/
def fillLine (s : State) (core pa : Nat) : State :=
  (List.range 4).foldl (fun s i =>
    let sec := pa / 128 * 4 + i
    if (tfind (coreOf s core).l1 sec).isSome || lockedFor s none (32 * sec) 32 || badData s (32 * sec) 32
        || inHost pa || inPeer pa then s
    else modCore s core (l1Fill sec (fillSector s core sec))) s

/-- `prefetch`: never a fault; addresses that are misaligned (to the 4 bytes of its TY, log 90) or do not translate are
skipped. -/
def prefetchRun (f : FmtM) (c : Ctx) (s : State) : Res :=
  let eas := ((lanesOf c.pass).map (addrM s.cycle c f)).filter fun ea => ea % accessBytes f.ty = 0
  let sp := spaceOf c.la c.wg.core
  if eas.any (mapWaits s sp) then .stall
  else .done (eas.foldl (fun s ea => match mapped s sp ea with
    | .ok pa => fillLine s c.wg.core pa
    | _ => s) s) []

def execPrefetch (f : FmtM) (s : State) : Out := issue (.prefetch f) s (prefetchRun f)

/-- The pieces of a byte range that lie in one 64 KiB page each: address, length. -/
def pieces : Nat → Nat → Nat → List (Nat × Nat)
  | 0, _, _ => []
  | fuel + 1, a, n =>
    if n = 0 then [] else
    let k := min n (0x10000 - a % 0x10000)
    (a % 2 ^ 64, k) :: pieces fuel (a + k) (n - k)

/-- The pieces of the range that a `cctl` names, by virtual address. -/
def cctlRange (s : State) (c : Ctx) (f : FmtA) : List (Nat × Nat) :=
  let l := lowestLane c.pass
  let len := readOp s.cycle c f.b false l
  pieces (len / 0x10000 + 2) (readOp s.cycle c f.a true l) len

/-- The mapped pieces of a range, by physical address; none while a walk meets a locked table sector (R285). -/
def cctlPieces (s : State) (c : Ctx) (f : FmtA) : Option (List (Nat × Nat)) :=
  (cctlRange s c f).foldlM (fun l (a, n) => match mapped s (spaceOf c.la c.wg.core) a with
    | .ok pa => some (l ++ [(pa, n)])
    | .fails _ => some l
    | .waits => none) []

/-- `cctl.flush`: the entries that hold bytes of the range drain. -/
def cctlFlushRun (f : FmtA) (c : Ctx) (s : State) : Res :=
  match (cctlPieces s c f).bind fun ps =>
    drainWhere s c.wg.core fun e => e.bytes.any fun x => ps.any fun (pa, n) => pa ≤ x.1 && x.1 < pa + n with
  | none => .stall
  | some s => .done s []

/-- `cctl.inv`: the L1 lines that hold bytes of the range are dropped. -/
def cctlInvRun (f : FmtA) (c : Ctx) (s : State) : Res :=
  match cctlPieces s c f with
  | none => .stall
  | some ps => .done (modCore s c.wg.core fun k => { k with l1 := k.l1.filter fun x =>
      !(ps.any fun (pa, n) => pa / 128 ≤ x.1 / 4 && x.1 / 4 ≤ (pa + n - 1) / 128) }) []

def execCctlFlush (f : FmtA) (s : State) : Out := issue (.cctlFlush f) s (cctlFlushRun f)
def execCctlInv (f : FmtA) (s : State) : Out := issue (.cctlInv f) s (cctlInvRun f)

end Sys2Proof.Machine
end

