-- ==== Sys2Proof/Machine/Barrier.lean ====
section
/-! DEFINITION. Barriers: R168 to R171, R188, R381, R409. -/

namespace Sys2Proof.Machine

/-! ### Barrier objects (R168, R169) -/

/-- The fields of a barrier object. -/
structure BarObj where
  phase : Half
  rz : BitVec 15
  armed : Bool
  count : Nat
  pending : Nat
  deriving DecidableEq, Repr

def BarObj.ofNat (x : Nat) : BarObj :=
  ⟨BitVec.ofNat 16 (nfld x 63 48), BitVec.ofNat 15 (nfld x 47 33), x.testBit 32, nfld x 31 16, nfld x 15 0⟩

def BarObj.toNat (b : BarObj) : Nat :=
  b.phase.toNat * 2 ^ 48 + b.rz.toNat * 2 ^ 33 + (if b.armed then 2 ^ 32 else 0) + b.count % 65536 * 65536 + b.pending % 65536

/-- The completions of an arrival: while the lanes left reach PENDING. -/
def arriveLoop : Nat → Nat → BarObj → BarObj
  | 0, _, b => b
  | fuel + 1, n, b =>
    if b.pending ≤ n then arriveLoop fuel (n - b.pending) { b with phase := b.phase + 1, pending := b.count }
    else { b with pending := b.pending - n }

/-- An arrival of `n` lanes (R169): the object. The token is the phase before. -/
def arriveAt (b : BarObj) (default n : Nat) : BarObj :=
  arriveLoop (n + 2) n (if b.armed then b else { b with count := default, pending := default, armed := true })

/-- The wait on a token has ended (R169). -/
def waitEnded (phase token : Half) : Bool :=
  let d := (phase - token).toNat
  1 ≤ d && d ≤ 32767

/-- The object takes no arrival. -/
def BarObj.refuses (b : BarObj) : Bool := b.armed && b.count = 0

/-! ### Waits that end -/

/-- End the waits of a thread's paths on scratchpad objects whose phase has moved past their token. A suspended
path takes its wait up again later, and a marked wait takes its cause. -/
def settleBarThread (w : Workgroup) (t : Thread) : Thread :=
  { t with paths := t.paths.map fun p => match p.wait with
      | .bar a tok false =>
        if waitEnded (BarObj.ofNat (readLE w.pad.scratch a 8)).phase tok then { stepPath p with wait := .none } else p
      | _ => p }

/-- End a workgroup's scratchpad waits that have ended. -/
def settleBars (s : State) (wid : Nat) : State :=
  modWg s wid fun w => { w with threads := w.threads.map (settleBarThread w) }

/-- Whether a path of the workgroup waits on the scratchpad object. -/
def barWaited (w : Workgroup) (obj : Nat) : Bool :=
  let on := fun (p : Path) => match p.wait with
    | .bar a _ _ => a = obj
    | _ => false
  w.threads.any fun t => t.paths.any on || (t.susp.any fun u => u.paths.any on) || (t.inner.any fun u => u.paths.any on)

/-! ### Matrix tokens before an arrival (R188, R409) -/

/-- A token of the thread is still queued. -/
def tokensQueued (w : Workgroup) (tix : Nat) : Bool := w.pad.queue.any fun t => t.tix.all (· = tix)

/-- The recorded failure of the token at the head of the queue. -/
def failedHead (w : Workgroup) : Option Dbl := w.pad.queue.head?.bind (·.failed)

/-- Behind a failed token the trap goes to this thread, and behind others the path holds off. -/
def behindTokens (c : Ctx) (k : Res) : Res :=
  if !tokensQueued c.wg c.tix then k
  else match failedHead c.wg with
    | some a => .tokenFails a.toNat
    | none => .stall

/-- The path holds off behind its thread's tokens, unless the queue stands at a failed one: that is reported by the
instructions of R409 alone. -/
def afterTokens (c : Ctx) (k : Res) : Res :=
  if tokensQueued c.wg c.tix && (failedHead c.wg).isNone then .stall else k

/-! ### `bar` (R170) -/

/-- The object's scratchpad address. -/
def barAddr (c : Ctx) (s : State) (f : FmtA) : Nat := readOp s.cycle c f.a false (lowestLane c.pass)

/-- The stage-15 and stage-16 failures of a scratchpad object, in every passing lane. -/
def barFails (c : Ctx) (off : Nat) : List Fail :=
  let all := fun (stage : Nat) (cause : Cause) => (lanesOf c.pass).map fun l => Fail.mk l stage cause off
  if off % 8 ≠ 0 then all 15 .misaligned
  else if !padHas c.wg.pad off 8 then all 15 .scratchRange
  else if padBad c.wg.pad off 8 then all 16 .dataError
  else []

/-- The object at an address. -/
def barObject (c : Ctx) (off : Nat) : BarObj := BarObj.ofNat (readLE c.wg.pad.scratch off 8)

/-- Replace an object; arrivals and `bar.init` are not writes in the sense of R390. -/
def putBar (s : State) (wid off : Nat) (b : BarObj) : State :=
  modWg s wid fun w => { w with pad := { w.pad with scratch := writeLE w.pad.scratch off 8 b.toNat } }

/-- `bar.init`. -/
def barInitRun (f : FmtA) (c : Ctx) (s : State) : Res :=
  let off := barAddr c s f
  let n := readOp s.cycle c f.b false (lowestLane c.pass)
  if barWaited c.wg off then .wide .barrierBusy off
  else if n = 0 || 65535 < n then .wide .badOperand c.word.toNat
  else match barFails c off with
    | [] => .done (putBar s c.wid off { barObject c off with count := n, pending := n, armed := true }) []
    | fails => .done s fails

/-- An arrival of the passing lanes: then `k` gets the state and the token. -/
def arriveRun (f : FmtA) (c : Ctx) (s : State) (k : State → Half → Res) : Res :=
  let off := barAddr c s f
  let b := barObject c off
  let fails := barFails c off
  if fails = [] && b.refuses then .wide .badOperand c.word.toNat
  else if fails ≠ [] then .done s fails
  else behindTokens c <|
    let b' := arriveAt b (32 * c.wg.ntg) (lanesOf c.pass).length
    k (settleBars (putBar s c.wid off b') c.wid) b.phase

/-- `bar.arrive`: the token to an s register, or nowhere. -/
def barArriveRun (f : FmtA) (c : Ctx) (s : State) : Res :=
  arriveRun f c s fun s tok =>
    .done (if isS f.d then modWg s c.wid fun w => writeOp w c.tix f.d true false 0 tok.toNat else s) []

/-- The path waits on a token, unless the wait has ended already. -/
def waitRun (off : Nat) (tok : Half) (c : Ctx) (s : State) : Res :=
  let b := BarObj.ofNat (readLE ((wgOf s c.wid).getD c.wg).pad.scratch off 8)
  if waitEnded b.phase tok then .done (passWait s c) []
  else .own (waitAt s c fun p => { p with wait := .bar off tok false })

/-- `bar.wait`. -/
def barWaitRun (f : FmtA) (c : Ctx) (s : State) : Res :=
  let off := barAddr c s f
  match barFails c off with
  | [] => waitRun off (BitVec.ofNat 16 (readOp s.cycle c f.b false (lowestLane c.pass))) c s
  | fails => .done s fails

/-- `bar.sync`. -/
def barSyncRun (f : FmtA) (c : Ctx) (s : State) : Res :=
  arriveRun f c s fun s tok => waitRun (barAddr c s f) tok c s

def execBarInit (f : FmtA) (s : State) : Out := issue (.barInit f) s (barInitRun f)
def execBarArrive (f : FmtA) (s : State) : Out := issue (.barArrive f) s (barArriveRun f)
def execBarWait (f : FmtA) (s : State) : Out := issue (.barWait f) s (barWaitRun f)
def execBarSync (f : FmtA) (s : State) : Out := issue (.barSync f) s (barSyncRun f)

/-! ### `gbar` (R171) -/

/-- `gbar`: the core's buffer drains, the lanes arrive at the slice, and the path waits for its answer; where the object
takes no arrival the answer brings the trap (R169). -/
def gbarRun (f : FmtM) (c : Ctx) (s : State) : Res :=
  let ea := addrM s.cycle c { f with sp := 0 } (lowestLane c.pass)
  let fails := fun (stage : Nat) (cause : Cause) =>
    Res.done s ((lanesOf c.pass).map fun l => Fail.mk l stage cause ea)
  if !canonical ea then fails 15 .noncanonical
  else if ea % 8 ≠ 0 then fails 15 .misaligned
  else match translate s (spaceOf c.la c.wg.core) .read ea with
    | .waits => .stall
    | .fails cause => fails 15 cause
    | .ok pa _ s' =>
      if !reaches s true pa then fails 16 .linkError
      else behindTokens c <| match drainAll s' c.wg.core with
        | none => .stall
        | some s' =>
          match sliceRead s' none pa 8 with
          | .waits => .stall
          | .bad cause => fails 16 cause
          | .ok x s' =>
            let b := BarObj.ofNat x
            if b.refuses then
              let due := s'.cycle + 1 + Config.linkLatency s'.tick
              .own (ticked (modPath s' c.wid c.tix c.pix fun p => { p with wait := .refused c.word due }))
            else
              let gang := fld (hdr c.la 1) 24 18
              let b' := arriveAt b (gang * 32 * c.wg.ntg) (lanesOf c.pass).length
              let s' := forwardAtomic { s' with mem := writeLE s'.mem pa 8 b'.toNat } pa 7 8 b'.toNat x
              .own (waitAt s' c fun p => { p with wait := .gbar ea pa b.phase none false })

def execGbar (f : FmtM) (s : State) : Out := issue (.gbar f) s (gbarRun f)

/-- The home slice sends its answer once the phase has moved past a path's token. -/
def answerGbar (s : State) (p : Path) : Path :=
  match p.wait with
  | .gbar va pa tok none false =>
    if waitEnded (BarObj.ofNat (readLE s.mem pa 8)).phase tok then
      { p with wait := .gbar va pa tok (some (s.cycle + 1 + Config.linkLatency s.tick)) false } else p
  | _ => p

/-- GBAR_PHASE_COMPLETE (R171): the answer has come; the wait ends and the core drops its global L1 lines. -/
def execGbarPhaseComplete (wid tix lane : Nat) (s : State) : Out :=
  match wgOf s wid with
  | none => .next s
  | some w =>
    match w.threads[tix]? with
    | none => .next s
    | some t =>
      let due := fun (p : Path) => match p.wait with
        | .gbar _ _ _ (some d) false => p.mask.getLsbD lane && d ≤ s.cycle
        | _ => false
      if !t.paths.any due then .next s
      else .next <| acquireGang
        (modTh s wid tix fun t => { t with paths := t.paths.map fun p => if due p then { stepPath p with wait := .none } else p })
        w.core

end Sys2Proof.Machine
end

