-- ==== Sys2Proof/Machine/Control.lean ====
section
/-! DEFINITION. Control instructions and traps from programs: R130 to R136, R208, R209, R363, R386, R409. -/

namespace Sys2Proof.Machine

/-! ### Branches (R131, R386) -/

/-- Whether a branch is taken, from the active lanes and those in which the condition holds; `none` when a
uniform branch diverges. With no active element left a branch is not taken. -/
def branchTaken (sub : Nat) (act held : Mask) : Option Bool :=
  match sub with
  | 0 => if held = 0 then some false else if held = act then some true else none
  | 1 => some (held ≠ 0)
  | _ => some (held ≠ 0 && held = act)

/-- The active lanes in which a guard field holds. -/
def guardHeld (c : Ctx) (g : BitVec 4) : Mask :=
  let k := kGet c.wg (g.toNat % 8)
  c.act &&& (if g.toNat ≥ 8 then ~~~k else k)

/-- `bra`. -/
def braRun (f : FmtB) (c : Ctx) (s : State) : Res :=
  let held := guardHeld c f.g
  match branchTaken f.sub.toNat c.act held with
  | none => .wide .divergentBranch (blockOf held (lowestLane c.act / 32)).toNat
  | some true => .jump s (c.path.pc + f.tgt)
  | some false => .done s []

def execBra (f : FmtB) (s : State) : Out := issue (.bra f) s (braRun f)

/-! ### Divergence (R132, R133) -/

/-- `split`. Under a limited re-issue jN records the path's whole mask, and the lanes that do not issue go on
at PC + 1. -/
def splitRun (f : FmtB) (c : Ctx) (s : State) : Res :=
  let n := f.j.toNat
  if jGet c.th n ≠ 0 then .wide .joinMismatch n
  else
    let taken := c.act &&& kGet c.wg f.ks.toNat
    let rest := c.path.mask &&& ~~~taken
    let s := modTh s c.wid c.tix fun t => { t with jregs := tput 0 t.jregs n c.path.mask }
    if taken = 0 then .done s []
    else if rest = 0 then .jump s (c.path.pc + f.tgt)
    else
      let there : Path := { c.path with mask := taken, pc := c.path.pc + f.tgt, limit := none, noDebug := false }
      .own (modTh s c.wid c.tix fun t =>
        { t with turn := 0, paths := t.paths.modify c.pix (fun p => { stepPath p with mask := rest }) ++ [there] })

/-- `join`: the wait begins; `settleThread` ends it at once when nothing is missing. -/
def joinRun (f : FmtB) (c : Ctx) (s : State) : Res :=
  let n := f.j.toNat
  let m := jGet c.th n
  if m = 0 then .done s []
  else if c.act &&& ~~~m ≠ 0 then .wide .joinMismatch n
  else .own (waitAt s c fun p => { p with wait := .join n, limit := none })

def execSplit (f : FmtB) (s : State) : Out := issue (.split f) s (splitRun f)
def execJoin (f : FmtB) (s : State) : Out := issue (.join f) s (joinRun f)

/-! ### The return stack (R134) -/

/-- `call`. -/
def callRun (f : FmtB) (c : Ctx) (s : State) : Res :=
  if 16 ≤ c.path.stack.length then .wide .stackOverflow c.word.toNat
  else .jump (modPath s c.wid c.tix c.pix fun p => { p with stack := (c.path.pc + 1) :: p.stack }) (c.path.pc + f.tgt)

/-- `ret`. -/
def retRun (_ : FmtB) (c : Ctx) (s : State) : Res :=
  match c.path.stack with
  | [] => .wide .stackUnderflow c.word.toNat
  | pc :: rest => .jump (modPath s c.wid c.tix c.pix fun p => { p with stack := rest }) pc

def execCall (f : FmtB) (s : State) : Out := issue (.call f) s (callRun f)
def execRet (f : FmtB) (s : State) : Out := issue (.ret f) s (retRun f)

/-! ### Giving way (R27, R135) -/

/-- `yield`: the path ends its turn, and goes on at the next PC when it next runs. -/
def yieldRun (_ : FmtB) (c : Ctx) (s : State) : Res := .done (endTurn s c) []

/-- `sleep`: the path may issue again once the cycles after this one have passed. -/
def sleepRun (f : FmtB) (c : Ctx) (s : State) : Res :=
  let n := min (readOp s.cycle c f.a false (lowestLane c.pass)) 1048576
  if n = 0 then .done (endTurn s c) []
  else .own (waitAt s c fun p => { p with wait := .sleep (s.cycle + 1 + n) })

def execYield (f : FmtB) (s : State) : Out := issue (.yield f) s (yieldRun f)
def execSleep (f : FmtB) (s : State) : Out := issue (.sleep f) s (sleepRun f)

/-- SLEEP_EXPIRE (R135): the path that holds the lane is ready again. -/
def execSleepExpire (wid tix lane : Nat) (s : State) : Out :=
  .next (modTh s wid tix fun t =>
    { t with paths := t.paths.map fun p => match p.wait with
        | .sleep u => if p.mask.getLsbD lane && u ≤ s.cycle then { stepPath p with wait := .none } else p
        | _ => p })

/-! ### `exit` (R24, R136, R286, R409) -/

/-- Whether every lane of the workgroup that has not exited is among these. -/
def lastLanes (w : Workgroup) (m : Mask) : Bool := fullMask w.ntg &&& ~~~w.exited &&& ~~~m = 0

/-- Lanes leave for good: out of their transactions, with the joins and rounds that waited for them. -/
def removeLanes (s : State) (wid : Nat) (m : Mask) : State :=
  let s := (lanesOf m).foldl (fun s l => match wgOf s wid with
    | some w => if (txOf w l).st = .out then s else leaveTx s wid l
    | none => s) s
  modWg s wid fun w => { w with exited := w.exited ||| m }

/-- `exit`. -/
def exitRun (_ : FmtB) (c : Ctx) (s : State) : Res :=
  match (if lastLanes c.wg c.pass then failedHead c.wg else none) with
  | some a => .tokenFails a.toNat
  | none =>
    let s := removeLanes s c.wid c.pass
    let left := c.path.mask &&& ~~~c.pass
    let s := modPath s c.wid c.tix c.pix fun p => { p with mask := left }
    let s := modTh s c.wid c.tix fun t => if left = 0 then giveWay t c.path else keepTurn t c.path.mask left
    .done (settleRounds s c.wid) []

def execExit (f : FmtB) (s : State) : Out := issue (.exit f) s (exitRun f)

/-! ### Traps from programs (R208, R209) -/

/-- Every passing lane traps at the instruction. -/
def softTrap (cause : Cause) (addr : Nat) (c : Ctx) (s : State) : Res :=
  .done s ((lanesOf c.pass).map fun l => ⟨l, 14, cause, addr⟩)

def execTrap (f : FmtS) (s : State) : Out := issue (.trap f) s (softTrap .softwareTrap (fld f.imm 15 0))
def execBrk (f : FmtS) (s : State) : Out := issue (.brk f) s (softTrap .breakpoint (0x10000 + fld f.imm 15 0))

/-- What keeps a handler from returning: the lowest join register of j12 to j15 that is not empty, or all ones
for a missing lane (R212, R373). -/
def returnBlock (c : Ctx) : Option Nat :=
  match [12, 13, 14, 15].find? fun n => jGet c.th n ≠ 0 with
  | some n => some n
  | none =>
    let need := (c.th.susp.map (·.lanes)).getD 0 &&& ~~~c.wg.exited
    if need &&& ~~~c.act ≠ 0 then some (2 ^ 64 - 1) else none

/-- `rett` and `rett.next`. -/
def rettRun (next : Bool) (c : Ctx) (s : State) : Res :=
  match returnBlock c with
  | some a => .wide .joinMismatch a
  | none => .own (settleRounds (returnFrom s c.wid c.tix next) c.wid)

def execRett (f : FmtS) (s : State) : Out := issue (.rett f) s (rettRun false)
def execRettNext (f : FmtS) (s : State) : Out := issue (.rettNext f) s (rettRun true)

end Sys2Proof.Machine
end

