-- ==== Sys2Proof/Machine/Points.lean ====
section
/-! DEFINITION. Equivalence points, hop proposals and the hops between T-form and V-form: R43 to R47, R53 to
R56, R138, R385, R399, R400. -/

namespace Sys2Proof.Machine

/-- The fields of an equivalence-table entry (R46). -/
structure PointEntry where
  id : Nat
  kind : Nat
  cpc : Word
  vpc : Option Word
  smark : Nat
  smarkn : Nat
  mapix : Nat
  mapn : Nat
  deriving DecidableEq, Repr

def pointOf (e : Dbl × Dbl × Dbl) : PointEntry where
  id := fld e.1 15 0
  kind := fld e.1 17 16
  cpc := BitVec.ofNat 32 (fld e.1 47 19)
  vpc := if fld e.2.1 28 0 = 0x1FFFFFFF then none else some (BitVec.ofNat 32 (fld e.2.1 28 0))
  smark := fld e.2.1 47 32
  smarkn := fld e.2.1 63 48
  mapix := fld e.2.2 31 0
  mapn := fld e.2.2 40 32

/-- The entry of an id that an `eqp` finds (R385). -/
def pointNamed (la : Launch) (id : Nat) : Option PointEntry :=
  (eqLookup la.eqs (fld (hdr la 6) 63 32 / 8) id).map pointOf

/-- The map entries of a point (R46, R47). -/
def mapOf (la : Launch) (e : PointEntry) : List Dbl := (la.maps.drop e.mapix).take e.mapn

/-- A map entry's KIND, and whether its OPND is in the set of R47. -/
def mapKind (m : Dbl) : Nat := fld m 11 9
def mapOpndOk (m : Dbl) : Bool :=
  let o := fld m 8 0
  o < 0x120 || (0x141 ≤ o && o ≤ 0x147)

/-- What the debug port reports of a register at a point: dead when the point's map lists it as dead, or does not list it
(R42). -/
def reportsDead (la : Launch) (e : PointEntry) (opnd : Nat) : Bool :=
  !((mapOf la e).any fun m => fld m 8 0 = opnd && mapKind m ≠ 5)

/-- Whether a group point's map has a defect (R385). -/
def groupMapBad (la : Launch) (e : PointEntry) : Bool :=
  (mapOf la e).any fun m => !mapOpndOk m || !(mapKind m = 0 || mapKind m = 5)

/-- A burst that a phase declares is running (R55, R206). -/
def burstRuns (p : Option Phase) : Bool := p.any (·.running)

/-- Whether an image holds a version (R39 FORMS). -/
def hasVersion (la : Launch) (form : Form) : Bool :=
  (hdr la 0).getLsbD (match form with | .t => 48 | .v => 49 | .s => 50)

/-- The hop pending for a workgroup. -/
def pendingHop (s : State) (w : Workgroup) : Option HopReq :=
  match w.hop with
  | some h => some h
  | none => (launchOf s w.lid).hop

/-- A point allows a hop (R43, R55). -/
def pointAllows (h : HopReq) (e : PointEntry) : Bool :=
  match h.form with
  | .s => e.kind = 1 && h.point.all (· = e.id)
  | .v => e.vpc.isSome
  | .t => true

/-- The conditions of R55, R134, R289 and R364 that the whole workgroup meets at a point; an element that has aborted
and waits for its transaction's end is still held by it (R174). -/
def pointHolds (w : Workgroup) (h : HopReq) (e : PointEntry) : Bool :=
  (w.tx.all fun x => x.2.st = .out) && !burstRuns w.phase
    && (w.threads.all fun t => retired w t || (t.jregs = [] && t.susp.isNone && t.paths.all fun p => p.parked = 0))
    && pointAllows h e

/-- The same conditions as far as they concern a thread itself, which arrives at a point: those of the other threads and
of the burst are judged once the workgroup stands there (R55). -/
def threadHolds (w : Workgroup) (t : Thread) (h : HopReq) (e : PointEntry) : Bool :=
  (w.tx.all fun x => x.2.st = .out || !(liveLanes w t).getLsbD x.1) && t.jregs = [] && t.susp.isNone
    && (t.paths.all fun p => p.parked = 0) && pointAllows h e

/-! ### Gathering at a point (R44) -/

/-- Whether every lane of a thread that has not exited waits at the `eqp` at `pc`. -/
def atPoint (t : Thread) (pc : Word) : Bool :=
  t.susp.isNone && t.halt.isNone && (t.paths.all fun p => p.pc = pc && (match p.wait with | .eqp _ => true | _ => false))

/-- The PC and the earliest cycle of the workgroup's waits at a point. -/
def pointWait (w : Workgroup) : Option (Word × Nat) :=
  let l := (w.threads.flatMap fun t => if t.susp.isSome then [] else t.paths).filterMap fun p => match p.wait with
    | .eqp since => some (p.pc, since)
    | _ => none
  match l with
  | [] => none
  | x :: t => some (t.foldl (fun b y => if y.2 < b.2 then y else b) x)

/-- Every TG that has not retired has reached the point. -/
def gathered (w : Workgroup) (pc : Word) : Bool := w.threads.all fun t => retired w t || atPoint t pc

/-- The point that the `eqp` names at which a workgroup waits; a walk that meets a locked table sector waits (R285). -/
def pointAt (s : State) (w : Workgroup) (pc : Word) (vtext : Bool) : Got (Option PointEntry) :=
  let la := launchOf s w.lid
  match probe s (spaceOf la w.core) .fetch (textAddr la vtext pc) with
  | .ok pa => match decodeTV (BitVec.ofNat 64 (readLE s.mem pa 8)) with
    | .ok (.eqp f) => .ok (pointNamed la (fld f.imm 15 0))
    | _ => .ok none
  | .fails _ => .ok none
  | .waits => .waits

/-- When the last TG has reached the point and all conditions hold, a hop between T-form and V-form begins; it completes
16 cycles later (R55, R56). -/
def gatherPoint (s : State) (wid : Nat) (e : PointEntry) : State :=
  match wgOf s wid with
  | none => s
  | some w =>
    match pointWait w, w.hop with
    | some (pc, _), some h =>
      if h.due.isNone && h.from_ ≤ s.cycle && gathered w pc && pointHolds w h e then
        modLaunch (putWg s wid { w with hop := some { h with point := some e.id, due := some (s.cycle + 16) } }) w.lid
          fun la => { la with hopAt := s.cycle }
      else s
    | _, _ => s

/-- `eqp` (R44). -/
def eqpRun (f : FmtS) (c : Ctx) (s : State) : Res :=
  match pendingHop s c.wg, pointNamed c.la (fld f.imm 15 0) with
  | some h, some e =>
    if !threadHolds c.wg c.th h e || c.path.stack ≠ [] then .done s []
    else if h.form ≠ .s && e.kind = 0 && groupMapBad c.la e then
      .done (modWg s c.wid fun w => { w with hop := none }) []
    else
      let s := waitAt s c fun p => { p with wait := .eqp s.cycle, limit := none }
      let s := if h.form = .s then s else gatherPoint s c.wid e
      .own s
  | _, _ => .done s []

def execEqp (f : FmtS) (s : State) : Out := issue (.eqp f) s (eqpRun f)

/-- Whether the waits at a point are over without a hop: no hop is pending any more, 4,096 cycles have passed, another TG
is held back elsewhere (R44), or every TG has arrived and the hop cannot be carried out here (R55). -/
def pointLimit (s : State) (w : Workgroup) : Bool :=
  match pointWait w with
  | none => false
  | some (pc, since) =>
    match pendingHop s w with
    | none => true
    | some h =>
      h.due.isNone &&
        (since + 4096 ≤ s.cycle
          || (w.threads.any fun t => !retired w t && !atPoint t pc && (t.halt.isSome || t.paths.all fun p => p.wait ≠ .none))
          || (gathered w pc && match pointAt s w pc w.strand with
            | .ok (some e) => !pointHolds w h e
            | .waits => false
            | _ => true))

/-- Every path that waits at a point goes on past it. -/
def passPoint (t : Thread) : Thread :=
  { t with paths := t.paths.map fun p => match p.wait with | .eqp _ => { stepPath p with wait := .none } | _ => p }

/-- EQP_WAIT_LIMIT (R44). -/
def execEqpWaitLimit (wid : Nat) (s : State) : Out :=
  match wgOf s wid with
  | none => .next s
  | some w =>
    if pointLimit s w then .next (putWg s wid { w with threads := w.threads.map passPoint }) else .next s

/-! ### Proposals (R53, R54, R138, R399) -/

/-- A hop of the launch is running (R59). -/
def hopRuns (s : State) (lid : Nat) : Bool :=
  let la := launchOf s lid
  (la.hop.any fun h => h.point.isSome) || la.parked ≠ [] || (la.form ≠ .s && (la.wantsFabric.isSome || la.fabric.isSome))
    || (la.fabric.any fun f => f.drain.any (·.isSome))
    || s.wgs.any fun x => x.2.lid = lid && (x.2.hop.any fun h => h.due.isSome)

/-- HOPCTL's policy lets a hop between two forms be proposed (R53). -/
def policyAllows (policy : Nat) (a b : Form) : Bool :=
  match policy with
  | 1 => a ≠ .s && b ≠ .s
  | 2 => true
  | _ => false

/-- Workgroups of a launch (R210). -/
def workgroupsOf (la : Launch) : Nat := let (x, y, z) := gridOf la; x * y * z

/-- A workgroup without a pending hop that has not begun. -/
def dropHop (w : Workgroup) : Workgroup := { w with hop := w.hop.filter fun h => h.due.isSome }

/-- Cancel the pending hops of a launch that have not begun, those of its saved workgroups too. -/
def cancelHops (s : State) (lid : Nat) : State :=
  let s := modLaunch s lid fun la => { la with hop := la.hop.filter fun h => h.point.isSome, saved := la.saved.map dropHop }
  { s with wgs := s.wgs.map fun x => if x.2.lid = lid then (x.1, dropHop x.2) else x }

/-- A proposal for the workgroups of a launch on a region, or for the whole launch when S-form is a side. It replaces the
older proposals of every workgroup that it covers, of one that already runs in the form too (R54). -/
def propose (s : State) (lid region from_ : Nat) (form : Form) : State :=
  let la := launchOf s lid
  if hopRuns s lid || !hasVersion la form || !policyAllows la.policy.toNat la.form form || la.form = form && form = .s
      || (form = .s && (0 < la.backoff || 2 ^ 32 ≤ workgroupsOf la * (32 * (fld (hdr la 1) 17 13)))) then s
  else if form = .s || la.form = .s then
    modLaunch (cancelHops s lid) lid fun la => { la with hop := some { form := form, from_ := from_ } }
  else
    let s := modLaunch s lid fun la => { la with hop := none }
    { s with wgs := s.wgs.map fun x =>
        if x.2.lid = lid && regionOfCore x.2.core = region then
          (x.1, { x.2 with hop := if x.2.strand ≠ (form == .v) then some { form := form, from_ := from_ } else none })
        else x }

/-- The form a `hop` names. -/
def hopForm (f : FmtS) : Form :=
  match fld f.imm 1 0 with
  | 0 => .t
  | 1 => .v
  | _ => .s

/-- `hop` (R138): discarded when the named form is the running one. -/
def hopRun (f : FmtS) (c : Ctx) (s : State) : Res :=
  let form := hopForm f
  if (if c.wg.strand then Form.v else .t) = form then .done s []
  else .done (propose s c.wg.lid (regionOfCore c.wg.core) s.cycle form) []

def execHop (f : FmtS) (s : State) : Out := issue (.hop f) s (hopRun f)

/-! ### Hops between T-form and V-form (R56) -/

/-- The trace record of a hop (R341). -/
def traceHop (s : State) (w : Workgroup) (from_ into : Nat) (point : Nat) (cpc : Nat) : State :=
  let la := launchOf s w.lid
  trace s la.part (regionOfCore w.core)
    { kind := 2, form := from_, detail := into, point := point, image := imageOf la, cpc := cpc, w := w.w }

/-- The values that a hop carries to a new thread: s0 to s31 and loads in flight; it clears the %cychi latch (R56, R69). -/
def hopThread (t : Thread) (lanes : Mask) : Thread :=
  { t with
    sregs := t.sregs.filter fun x => x.1 < 32
    jregs := []
    latch := 0
    flights := t.flights.map fun f =>
      { f with lanes := f.lanes.filter fun x => lanes.getLsbD x.1, sreg := f.sreg.filter fun x => x.1 < 32 }
    turn := 0
    gave := false
    gaveSlot := false
    stalled := 0 }

/-- The thread of lowest number that has not retired. -/
def firstLive (w : Workgroup) : Option (Nat × Thread) :=
  (w.threads.zipIdx.find? fun (t, _) => !retired w t).map fun x => (x.2, x.1)

/-- Codes of failing registers that are the lanes' own, and those of s0 to s31, which a hop carries along (R56, R407). -/
def laneCode (n : Nat) : Bool := n < 0x100 || (0x140 ≤ n && n < 0x148)
def lowCode (n : Nat) : Bool := (0x100 ≤ n && n < 0x120) || (0x300 ≤ n && n < 0x320)

/-- The workgroup as a strand, at a V-form PC. -/
def toStrand (w : Workgroup) (vpc : Word) : Workgroup :=
  match firstLive w with
  | none => w
  | some (g, t) =>
    let lanes := fullMask w.ntg &&& ~~~w.exited
    let others := (w.threads.zipIdx.filter fun x => x.2 ≠ g).flatMap fun x => x.1.flights.map fun f => { f with sreg := none }
    let base := hopThread { t with flights := t.flights ++ others } lanes
    let strand : Thread :=
      { base with tgix := 0, strand := true, slot := w.slots.getD g 0, run := lowestLane lanes
                  paths := [{ mask := lanes, pc := vpc, vtext := true }] }
    { w with
      strand := true
      threads := [strand]
      hop := none
      badRegs := (w.badRegs.filter fun b => laneCode b.1 || (lowCode b.1 && b.2 = g)).map
        fun b => if laneCode b.1 then b else (b.1, 0)
      pad := { w.pad with queue := w.pad.queue.map fun q => { q with tix := some 0 } } }

/-- The workgroup as TGs, each at a canonical PC; a TG whose elements have all exited has no path. -/
def toThreads (w : Workgroup) (cpc : Word) : Workgroup :=
  match w.threads with
  | [] => w
  | t :: _ =>
    let ts := (List.range w.ntg).map fun g =>
      let lanes := blockMask g &&& ~~~w.exited
      let base := hopThread t lanes
      { base with tgix := g, strand := false, slot := w.slots.getD g 0, run := lowestLane lanes
                  paths := if lanes = 0 then [] else [{ mask := lanes, pc := cpc }] }
    { w with
      strand := false
      threads := ts
      hop := none
      badRegs := w.badRegs.flatMap fun b =>
        if laneCode b.1 then [b]
        else if lowCode b.1 then (List.range w.ntg).map fun g => (b.1, g)
        else []
      pad := { w.pad with queue := w.pad.queue.map fun q => { q with tix := none } } }

/-- The hop of a workgroup that is due: its entry. -/
def dueHop (s : State) (w : Workgroup) (form : Form) : Option PointEntry :=
  match w.hop with
  | some h =>
    if h.form = form && (h.due.any fun d => d ≤ s.cycle) then h.point.bind (pointNamed (launchOf s w.lid)) else none
  | none => none

/-- Complete a hop; the core's buffer drains first (R250). -/
def completeHop (s : State) (wid : Nat) (form : Form) (f : Workgroup → PointEntry → Workgroup) : State :=
  match wgOf s wid with
  | none => s
  | some w =>
    match dueHop s w form, drainAll s w.core with
    | some e, some s =>
      let s := modLaunch (putWg s wid (f w e)) w.lid fun la => { la with hopAt := s.cycle }
      traceHop s w (if w.strand then 1 else 0) (match form with | .t => 0 | .v => 1 | .s => 2) e.id e.cpc.toNat
    | _, _ => s

/-- HOP_T_TO_V_COMPLETE (R56). -/
def execHopTToVComplete (wid : Nat) (s : State) : Out :=
  .next (completeHop s wid .v fun w e => match e.vpc with
    | some vpc => if w.strand then w else toStrand w vpc
    | none => w)

/-- HOP_V_TO_T_COMPLETE (R56). -/
def execHopVToTComplete (wid : Nat) (s : State) : Out :=
  .next (completeHop s wid .t fun w e => if w.strand then toThreads w e.cpc else w)

end Sys2Proof.Machine
end

