-- ==== Sys2Proof/Machine/System.lean ====
section
/-! DEFINITION. System registers and power phases: R199 to R207, R308, R315, R327. -/

namespace Sys2Proof.Machine

/-! ### Reading (R199, R203) -/

/-- The STEP that a region runs at: one more while its voltage settles (R308), and 12 or more while an
overcurrent forces it (R430). -/
def stepOf (g : Region) : Nat :=
  let n := if g.settling.isSome then min 15 (g.step.toNat + 1) else g.step.toNat
  if g.forced then max 12 n else n

/-- FSTEP as a `getsr` of a cycle reads it: from before the update that a `phase` makes in that cycle (R199, R308). -/
def stepRead (cycle : Nat) (g : Region) : Nat := stepOf (if g.movedAt = cycle then { g with settling := none } else g)

/-- HOPCTL (R203). -/
def hopctl (la : Launch) : Dbl :=
  BitVec.ofNat 64 (la.thr.toNat * 2 ^ 16 + fld (pkt la 3) 13 12 * 2 ^ 12 + fld (pkt la 3) 11 10 * 2 ^ 10 + la.policy.toNat)

/-- TXSTAT of a lane (R203). -/
def txstat (t : LaneTx) : Dbl :=
  BitVec.ofNat 64 ((if t.st = .irrev then 2 ^ 17 else 0) + (if t.st = .queued then 2 ^ 16 else 0)
    + t.consec.toNat * 256 + t.last.toNat)

/-- The number that TFORM holds for a form (R203). -/
def formNo (x : Form) : Nat := match x with | .t => 0 | .v => 1 | .s => 2

/-- A trap-state register (R203). -/
def trapReg (r : TrapRegs) (n : Nat) : Dbl :=
  match n with
  | 0x040 => BitVec.ofNat 64 ((if r.tm then 2 ^ 15 else 0) + r.cause.toNat)
  | 0x041 => r.pc.zeroExtend 64
  | 0x042 => BitVec.ofNat 64 (r.tgix.toNat * 2 ^ 32 + r.mask.toNat)
  | 0x043 => r.addr
  | 0x044 => r.iter.zeroExtend 64
  | _ => BitVec.ofNat 64 (formNo r.form)

/-- The value of a system register for lane `l` (R201, R203, R120, R121, R327, R337). -/
def sysRead (s : State) (c : Ctx) (n l : Nat) : Dbl :=
  let core := coreOf s c.wg.core
  let region := regionOf s (regionOfCore c.wg.core)
  let wg := (wgOf s c.wid).getD c.wg
  match n with
  | 0x000 => BitVec.ofNat 64 (pathForm c.path)
  | 0x001 => hopctl c.la
  | 0x002 => BitVec.ofNat 64 (fld (pkt c.la 3) 14 14)
  | 0x003 => wg.fairt.zeroExtend 64
  | 0x010 => fpflagsReg wg
  | 0x011 => fpctlReg wg
  | 0x020 => wg.txctl.zeroExtend 64
  | 0x021 => txstat (txOf wg l)
  | 0x030 => BitVec.ofNat 64 (stepRead s.cycle region)
  | 0x031 => region.band.zeroExtend 64
  | 0x032 => region.boost.zeroExtend 64
  | 0x033 => c.la.undecl
  | 0x034 => c.la.eacc
  | 0x046 => wg.tvec.zeroExtend 64
  | 0x068 => core.dbg
  | 0x070 => s.rank.zeroExtend 64
  | _ =>
    if 0x040 ≤ n && n ≤ 0x045 then trapReg (trapOf wg (l / 32)) n
    else if 0x050 ≤ n && n ≤ 0x057 then core.bp.getD (n - 0x050) 0
    else if 0x058 ≤ n && n ≤ 0x05B then core.wp.getD (n - 0x058) 0
    else if 0x060 ≤ n && n ≤ 0x067 then core.mbox.getD (n - 0x060) 0
    else 0

/-- FPFLAGS is read and written behind the matrix tokens of the thread, whose flags it takes (R120, R186). -/
def behindFlags (n : Nat) (c : Ctx) (k : Res) : Res := if n = 0x010 then afterTokens c k else k

/-- `getsr`, `getsr.hi`: a v destination takes each passing lane's half, an s destination the value of the
lowest passing lane. -/
def getsrRun (f : FmtS) (c : Ctx) (s : State) : Res :=
  let n := f.sreg.toNat
  behindFlags n c <|
  if isS f.d then .done (eachLane c s f.d true false fun l => (sysRead s c n l).toNat) []
  else .done (eachLane c s f.d false false fun l =>
    (sysRead s c n l).toNat / (if f.imm.getLsbD 0 then 2 ^ 32 else 1) % 2 ^ 32) []

def execGetsr (f : FmtS) (s : State) : Out := issue (.getsr f) s (getsrRun f)

/-! ### Writing (R199, R200, R203, R204) -/

/-- POLICY as stored: a value above CAP, or 3, is stored as CAP. -/
def storedPolicy (la : Launch) (x : Nat) : BitVec 2 :=
  let cap := fld (pkt la 3) 11 10
  BitVec.ofNat 2 (if x = 3 || x > cap then cap else x)

/-- The write of a register that has an RW field; the others keep their value (R11). -/
def sysWrite (s : State) (c : Ctx) (n : Nat) (x : Dbl) : State :=
  match n with
  | 0x001 => modLaunch (cancelHops s c.wg.lid) c.wg.lid fun la =>
      { la with thr := x.extractLsb' 16 8, policy := storedPolicy la (fld x 1 0) }
  | 0x003 => modTh (modWg s c.wid fun w => { w with fairt := if fld x 15 0 < 16 then 16 else x.extractLsb' 0 16 })
      c.wid c.tix fun t => { t with turn := 0 }
  | 0x010 => modWg s c.wid fun w => { w with fpflags := x.extractLsb' 0 5 }
  | 0x011 => modWg s c.wid fun w => writeFpctl w x
  | 0x020 => modWg s c.wid fun w => { w with txctl := if fld x 7 0 = 0 then 1 else x.extractLsb' 0 8 }
  | 0x046 => modWg s c.wid fun w => { w with tvec := x.extractLsb' 0 29 }
  | _ =>
    if 0x060 ≤ n && n ≤ 0x067 then modCore s c.wg.core fun k => { k with mbox := k.mbox.set (n - 0x060) x }
    else s

/-- `setsr`: performed once. -/
def setsrRun (f : FmtS) (c : Ctx) (s : State) : Res :=
  behindFlags f.sreg.toNat c <| .done (sysWrite s c f.sreg.toNat (BitVec.ofNat 64 (readOp s.cycle c f.a true (lowestLane c.pass)))) []

def execSetsr (f : FmtS) (s : State) : Out := issue (.setsr f) s (setsrRun f)

/-! ### Phases (R205 to R207, R308) -/

/-- The phase that an immediate declares in a cycle. -/
def phaseOf (imm : Word) (cycle : Nat) : Phase :=
  let onset := cycle + fld imm 9 0 * 64
  { onset := onset, stop := onset + 2 ^ fld imm 17 14 * 256, int := fld imm 13 10 + 1, since := cycle, running := onset = cycle }

/-- A region's regulator begins to move its voltage: with a short onset the region runs one STEP more until
it is ready. -/
def prepareRegion (s : State) (region onset : Nat) : State :=
  if onset ≥ 256 then s
  else modRegion (ticked s) region fun g =>
    { g with settling := some (s.cycle + Config.settle s.tick % 257)
             movedAt := if g.settling.isSome then g.movedAt else s.cycle }

/-- `phase`: replaces the workgroup's phase and ends its throttle. -/
def phaseRun (f : FmtI) (c : Ctx) (s : State) : Res :=
  let s := modWg s c.wid fun w => { w with phase := some (phaseOf f.imm s.cycle), pad := { w.pad with throttle := none } }
  .done (prepareRegion s (regionOfCore c.wg.core) (fld f.imm 9 0 * 64)) []

/-- `phase.clr`. -/
def phaseClrRun (_ : FmtI) (c : Ctx) (s : State) : Res :=
  .done (modWg s c.wid fun w => { w with phase := none }) []

def execPhase (f : FmtI) (s : State) : Out := issue (.phase f) s (phaseRun f)
def execPhaseClr (f : FmtI) (s : State) : Out := issue (.phaseClr f) s (phaseClrRun f)

/-- The phase of a workgroup or of a launch in S-form. -/
def phaseAt (s : State) : PhaseOwner → Option Phase
  | .workgroup wid => (wgOf s wid).bind (·.phase)
  | .launch lid => (launchOf s lid).phase

/-- Replace it. -/
def setPhase (s : State) (o : PhaseOwner) (p : Option Phase) : State :=
  match o with
  | .workgroup wid => modWg s wid fun w => { w with phase := p }
  | .launch lid => modLaunch s lid fun la => { la with phase := p }

/-- PHASE_ONSET (R205): the burst runs from its onset on. -/
def execPhaseOnset (o : PhaseOwner) (s : State) : Out :=
  match phaseAt s o with
  | some p => .next (if p.onset ≤ s.cycle then setPhase s o (some { p with running := true }) else s)
  | none => .next s

/-- PHASE_BURST_END (R206): the burst ends when its length has elapsed. -/
def execPhaseBurstEnd (o : PhaseOwner) (s : State) : Out :=
  match phaseAt s o with
  | some p => .next (if p.stop ≤ s.cycle then setPhase s o none else s)
  | none => .next s

end Sys2Proof.Machine
end

