-- ==== Sys2Proof/Machine/Matrix.lean ====
section
/-! DEFINITION. The matrix unit: R122, R123, R179 to R188, R309 to R312, R408, R409. -/

namespace Sys2Proof.Machine

/-! ### Pads (a workgroup's, or a tile's in S-form) -/

def noFabric : Fabric := {}
def noTile : FTile := { core := 0 }
def tileOf (f : Fabric) (n : Nat) : FTile := f.tiles.getD n noTile
def fabricOf (s : State) (lid : Nat) : Fabric := (launchOf s lid).fabric.getD noFabric
def modFabric (s : State) (lid : Nat) (f : Fabric → Fabric) : State :=
  modLaunch s lid fun la => { la with fabric := la.fabric.map f }
def modTile (s : State) (lid tile : Nat) (f : FTile → FTile) : State :=
  modFabric s lid fun x => { x with tiles := x.tiles.modify tile f }

/-- The pad of an owner. -/
def padOf (s : State) : PadOwner → Pad
  | .workgroup wid => ((wgOf s wid).getD noWorkgroup).pad
  | .tile lid tile => (tileOf (fabricOf s lid) tile).pad
/-- Change it. -/
def modPad (s : State) (o : PadOwner) (f : Pad → Pad) : State :=
  match o with
  | .workgroup wid => modWg s wid fun w => { w with pad := f w.pad }
  | .tile lid tile => modTile s lid tile fun t => { t with pad := f t.pad }
/-- Write bytes of a pad's scratchpad. -/
def padWriteAt (s : State) (o : PadOwner) (a : Nat) (bytes : List Byte) : State :=
  match o with
  | .workgroup wid => padStore s wid a bytes
  | .tile .. => modPad s o fun p => padWrite { p with queue := p.queue.map (keepOld p a bytes.length) } a bytes

/-- A write by an earlier token of the same queue: to a later one its bytes are no race (R180). -/
def overlayOld (a : Nat) (bytes : List Byte) (t : MTok) : MTok :=
  { t with old := t.old.map fun x =>
      (x.1, BitVec.ofNat 32 (ofBytes ((toBytes 4 x.2.toNat).zipIdx.map fun (b, k) =>
        if a ≤ x.1 + k then bytes.getD (x.1 + k - a) b else b))) }

/-- The scratchpad writes of a token (R180, R186). -/
def tokenWrites (s : State) (o : PadOwner) (writes : List (Nat × List Byte)) : State :=
  let q := (padOf s o).queue
  let s := writes.foldl (fun s x => padWriteAt s o x.1 x.2) s
  modPad s o fun p => { p with queue := q.map fun t => writes.foldl (fun t x => overlayOld x.1 x.2 t) t }

/-! ### Operands (R182, R184, R188) -/

/-- An aligned word of a token's operand: the value it has, or one that it has had since the issue. -/
def raceWord (tick : Nat) (p : Pad) (t : MTok) (a : Nat) : Nat :=
  let now := readLE p.scratch a 4
  let olds := (t.old.filter fun x => x.1 = a).map fun x => x.2.toNat
  if olds = [] then now else (olds ++ [now]).getD (Config.racePick tick a % (olds.length + 1)) now

/-- Bytes of a token's operand, inside one aligned word. -/
def operandAt (tick : Nat) (p : Pad) (t : MTok) (a n : Nat) : Nat :=
  if t.old = [] then readLE p.scratch a n
  else raceWord tick p t (a / 4 * 4) / 2 ^ (8 * (a % 4)) % 2 ^ (8 * n)

/-- The code of element `(row, k)` of an operand at `base`, rows of `K` elements. -/
def operandCode (rd : Nat → Nat → Nat) (ty : BitVec 4) (kk base row k : Nat) : Nat :=
  if ty == 4 || ty == 5 then rd (base + (row * kk + k) * 2) 2
  else if ty == 0xC then rd (base + (row * kk + k) / 2) 1 / 2 ^ (4 * (k % 2)) % 16
  else rd (base + row * kk + k) 1

/-- Entry `c` of a codebook slot (R111). -/
def cbEntry (p : Pad) (slot c : Nat) : Nat := ((tget 0 p.cb slot).toNat / 2 ^ (16 * c)) % 2 ^ 16

/-- The value of a float operand's code, cb4 decoded through its slot. -/
def operandVal (p : Pad) (ty : BitVec 4) (slot code : Nat) : XVal :=
  if ty == 0xC then decodeFloat fmtBf16 (cbEntry p slot code)
  else match fmtOf ty with
    | some f => decodeFloat f code
    | none => .nan

/-- A value under a block-scale byte (R112). -/
def scaleVal (x : XVal) (byte : Nat) : XVal := if byte = 255 then .nan else xScale ((byte : Int) - 127) x

/-- The group size n (R122). -/
def groupSize (ta : BitVec 4) : Nat := if ta == 4 || ta == 5 then 1 else if ta == 0xC then 4 else 2

/-- `c := RNE(c + t)` for one group of products (R122). -/
def addGroup (acc : Nat × FFlags) (ps : List (XVal × XVal)) : Nat × FFlags :=
  let (x, f) := xDot .rne ps (decodeFloat fmtF32 acc.1)
  let (v, fr) := roundFloat fmtF32 { mode := .rne } x
  (v, acc.2 ||| f ||| fr)

/-- `RNE(z + c)` of two f32 codes. -/
def addF32 (a b : Nat) : Nat × FFlags :=
  let (x, f) := xAdd .rne (decodeFloat fmtF32 a) (decodeFloat fmtF32 b)
  let (v, fr) := roundFloat fmtF32 { mode := .rne } x
  (v, f ||| fr)

/-- What an `mma` computes for one element of its tile (R122, R123, R184). -/
def mmaElem (tick : Nat) (p : Pad) (t : MTok) (z : Nat) (acc sc : Bool) (ta tb : BitVec 4)
    (kk cba cbb a b c i j : Nat) : Nat × FFlags :=
  let rd := operandAt tick p t
  let old := (tget 0 p.z (1024 * z + 32 * i + j)).toNat
  if ta == 8 || ta == 9 then
    let sum := (List.range kk).foldl (fun (s : Int) k =>
      s + intOf (ta == 8) 8 (operandCode rd ta kk a i k) * intOf (tb == 8) 8 (operandCode rd tb kk b j k)) 0
    (lowInt ((if acc then (old : Int) else 0) + sum) 32, 0)
  else
    let n := groupSize ta
    let av := fun k =>
      let x := operandVal p ta cba (operandCode rd ta kk a i k)
      if sc then scaleVal x (rd (c + i * (kk / 32) + k / 32) 1) else x
    let bv := fun k =>
      let x := operandVal p tb cbb (operandCode rd tb kk b j k)
      if sc then scaleVal x (rd (c + kk + j * (kk / 32) + k / 32) 1) else x
    let (r, f) := (List.range (kk / n)).foldl (fun s g =>
      addGroup s ((List.range n).map fun e => (av (n * g + e), bv (n * g + e)))) (0, 0)
    if acc then
      let (v, f') := addF32 old r
      (v, f ||| f')
    else (r, f)

/-! ### Tiles -/

/-- Write a whole tile. -/
def putTile (p : Pad) (z : Nat) (val : Nat → Nat → Word) : Pad :=
  let new := (List.range 1024).filterMap fun e =>
    let x := val (e / 32) (e % 32)
    if x = 0 then none else some (1024 * z + e, x)
  { p with
    z := (p.z.filter fun x => x.1 < 1024 * z) ++ new ++ p.z.filter fun x => 1024 * (z + 1) ≤ x.1
    badTiles := p.badTiles.filter fun e => e / 1024 ≠ z }

/-- Bytes per element of a tile image (R186). -/
def tileBytes (ty : BitVec 4) : Nat := if ty == 4 || ty == 5 then 2 else 4
/-- The stride in force (R186). -/
def tileStride (ty : BitVec 4) (b : Nat) : Nat := if b = 0 then 32 * tileBytes ty else b

/-- An element as `zld` widens it. -/
def widen (ty : BitVec 4) (x : Nat) : Nat :=
  match (if ty == 4 || ty == 5 then fmtOf ty else none) with
  | some f => (roundFloat fmtF32 { mode := .rne } (decodeFloat f x)).1
  | none => x
/-- An element as `zst` narrows it. -/
def narrowTile (ty : BitVec 4) (x : Nat) : Nat × FFlags :=
  match (if ty == 4 || ty == 5 then fmtOf ty else none) with
  | some f =>
    -- a conversion of a NaN gives the canonical NaN and no flag
    roundFloat f { mode := .rne } (decodeFloat fmtF32 x)
  | none => (x, 0)

/-! ### Performing a token (R180, R186, R187) -/

/-- What a token does: the pad, flags, scratchpad writes, and lane, register and value. -/
structure TokenResult where
  pad : Pad
  flags : FFlags := 0
  writes : List (Nat × List Byte) := []
  regs : List (Nat × Nat × Word) := []

/-- The effect of a token on its pad. Of two elements of one `zwr` that name the same tile element, the value of the
higher-numbered one stays (DESIGN CHOICE, log 125). -/
def performToken (tick : Nat) (p : Pad) (t : MTok) : TokenResult :=
  match t.op with
  | .mma z acc sc ta tb k cba cbb a b c =>
    let vals := (List.range 1024).map fun e => mmaElem tick p t z acc sc ta tb k cba cbb a b c (e / 32) (e % 32)
    { pad := putTile p z fun i j => BitVec.ofNat 32 (vals.getD (32 * i + j) (0, 0)).1
      flags := vals.foldl (fun f x => f ||| x.2) 0 }
  | .zld z ty addr stride =>
    let e := tileBytes ty
    { pad := putTile p z fun i j => BitVec.ofNat 32 (widen ty (operandAt tick p t (addr + i * stride + j * e) e)) }
  | .zst z ty addr stride =>
    let e := tileBytes ty
    let rows := (List.range 32).map fun i => (List.range 32).map fun j =>
      narrowTile ty (tget 0 p.z (1024 * z + 32 * i + j)).toNat
    { pad := p
      flags := rows.foldl (fun f r => r.foldl (fun f x => f ||| x.2) f) 0
      writes := rows.zipIdx.map fun (r, i) => (addr + i * stride, r.flatMap fun x => toBytes e x.1) }
  | .zrd z dests _ =>
    { pad := p, regs := dests.map fun (l, col, reg, row) => (l, reg, tget 0 p.z (1024 * z + 32 * row + col)) }
  | .zwr z vals =>
    { pad := vals.foldl (fun p (row, col, x) =>
        { p with
          z := tput 0 p.z (1024 * z + 32 * row + col) x
          badTiles := p.badTiles.filter (· ≠ 1024 * z + 32 * row + col) }) p }
  | .zclr z => { pad := putTile p z fun _ _ => 0 }
  | .cbld slot addr =>
    let x := (List.range 8).foldl (fun n i => n + operandAt tick p t (addr + 4 * i) 4 * 2 ^ (32 * i)) 0
    { pad := { p with
        cb := tset p.cb slot (BitVec.ofNat 256 x)
        badSlots := p.badSlots.filter (· ≠ slot)
        pairs := p.pairs.filter fun y => y.1 ≠ slot && y.2 ≠ slot } }

/-- TADDR of a failing tile (R408). -/
def tileCode (z : Nat) : Nat := 0x1000000000000200 + z

/-- The offset of the first uncorrectable sector of `[a, a + n)`. -/
def padBadAt (p : Pad) (a n : Nat) : Option Nat :=
  ((List.range' (a / 32) ((a + n - 1) / 32 + 1 - a / 32)).find? p.badSectors.contains).map fun sec => max a (32 * sec)

/-- Bytes of an operand of 32 rows or columns of `k` elements. -/
def operandBytes (ty : BitVec 4) (k : Nat) : Nat :=
  if ty == 4 || ty == 5 then 64 * k else if ty == 0xC then 16 * k else 32 * k

/-- What a token's reads meet, if they fail (R408, R409). -/
def tokenBad (p : Pad) (t : MTok) : Option Dbl :=
  if p.badSectors = [] && p.badTiles = [] && p.badSlots = [] then none else
  let scratch := fun a n => (padBadAt p a n).map (BitVec.ofNat 64)
  let tile := fun z => if p.badTiles.any (· / 1024 = z) then some (BitVec.ofNat 64 (tileCode z)) else none
  let slot := fun n => if p.badSlots.contains n then some (Config.slotCode n) else none
  match t.op with
  | .mma z acc sc ta tb k cba cbb a b c =>
    [scratch a (operandBytes ta k), scratch b (operandBytes tb k), if sc then scratch c (2 * k) else none,
     if ta == 0xC then slot cba else none, if tb == 0xC then slot cbb else none,
     if acc then tile z else none].findSome? id
  | .zld _ ty addr stride => (List.range 32).findSome? fun i => scratch (addr + i * stride) (32 * tileBytes ty)
  | .zst z .. => tile z
  | .zrd z dests _ =>
    if dests.any fun d => p.badTiles.contains (1024 * z + 32 * d.2.2.2 + d.2.1) then
      some (BitVec.ofNat 64 (tileCode z)) else none
  | .cbld _ addr => scratch addr 32
  | .zwr .. | .zclr _ => none

/-- The token at the head has its last result due. -/
def headDue (cycle : Nat) (p : Pad) : Option MTok :=
  match p.queue with
  | t :: _ => if t.failed.isNone && (t.finish.any fun f => f ≤ cycle) then some t else none
  | [] => none

/-- The flight that a `zrd` fills. -/
def MOp.flight : MOp → Option Nat
  | .zrd _ _ fid => some fid
  | _ => none

/-- MATRIX_TOKEN_COMPLETE (R180, R409): the token at the head of a workgroup's queue is performed, or it fails
and stays. -/
def execMatrixTokenComplete (wid : Nat) (s : State) : Out :=
  match wgOf s wid with
  | none => .next s
  | some w =>
    match headDue s.cycle w.pad with
    | none => .next s
    | some t =>
      match tokenBad w.pad t with
      | some a => .next (modWg (noteAt s (spaceOf (launchOf s w.lid) w.core) true a.toNat) wid fun w =>
          { w with pad := { w.pad with queue := { t with failed := some a } :: w.pad.queue.tail } })
      | none =>
        let r := performToken s.tick w.pad t
        let s := if t.old = [] then s else ticked s
        let s := modWg s wid fun w =>
          let w := orFlags { w with pad := { r.pad with queue := r.pad.queue.tail } } r.flags
          let w := r.regs.foldl (fun w x => vPut w x.1 x.2.1 x.2.2) w
          match t.op.flight with
          | some fid => { w with threads := w.threads.map fun th =>
              { th with flights := th.flights.filter (·.fid ≠ fid) } }
          | none => w
        .next (tokenWrites s (.workgroup wid) r.writes)

/-! ### The array's time (R185, R309 to R311) -/

/-- K groups of a token. -/
def MOp.groups : MOp → Nat
  | .mma _ _ _ ta _ k .. => k / groupSize ta
  | _ => 0

/-- The cb4 product table that a token needs. -/
def MOp.pair : MOp → Option (Nat × Nat)
  | .mma _ _ _ ta _ _ cba cbb .. => if ta == 0xC then some (cba, cbb) else none
  | _ => none

/-- Change the first token of a queue whose groups have not all entered. -/
def modEntering (q : List MTok) (f : MTok → MTok) : List MTok :=
  match q with
  | [] => []
  | t :: r => if t.finish.isNone then f t :: r else t :: modEntering r f

/-- That token. -/
def entering (p : Pad) : Option MTok := if p.queue.any (·.failed.isSome) then none else p.queue.find? (·.finish.isNone)

/-- A `cbld` ahead of the token that prepares names a slot of its pair: it discards the tables of its slot when it is
performed, and the token waits for that (R180, R185). -/
def slotComing (p : Pad) (x : Nat × Nat) : Bool :=
  (p.queue.takeWhile (·.finish.isSome)).any fun q => match q.op with
    | .cbld m _ => m = x.1 || m = x.2
    | _ => false

/-- The token that comes to stand first prepares: a missing product table takes 256 cycles (R185). -/
def prepare (cycle : Nat) (p : Pad) : Pad :=
  match entering p with
  | none => p
  | some t =>
    if t.start.isSome || t.op.pair.any (slotComing p) then p else
    let (start, pairs) := match t.op.pair with
      | none => (cycle, p.pairs)
      | some x =>
        (if p.pairs.contains x then cycle else cycle + 256, (x :: p.pairs.filter (· ≠ x)).take 4)
    { p with pairs := pairs, queue := modEntering p.queue fun t => { t with start := some start } }

/-- A K group enters: the queue after it, and whether it was throttled. -/
def enterGroup (cycle : Nat) (p : Pad) : Pad :=
  { p with
    busy := cycle :: p.busy
    throttle := p.throttle.map fun h => { h with next := cycle + 4 }
    queue := modEntering p.queue fun t =>
      { t with left := t.left - 1, finish := if t.left = 1 then some (cycle + 70) else none } }

/-- A token that moves a tile or loads a slot takes its turn in one cycle. -/
def enterMove (cycle : Nat) (p : Pad) : Pad :=
  match entering p with
  | none => p
  | some t => if t.left = 0 && (t.start.any fun x => x ≤ cycle) then
      { p with queue := modEntering p.queue fun t => { t with finish := some (cycle + 1) } } else p

/-- Busy cycles of the 256 before a cycle (R310). -/
def busyCount (cycle : Nat) (p : Pad) : Nat := (p.busy.filter fun b => b < cycle && cycle ≤ b + 256).length

/-- The queue was in excess at the end of the cycle before this one, under the intensity in force, and no `phase` was
performed in that cycle (R310, R312). -/
def inExcess (cycle : Nat) (phase : Option Phase) (p : Pad) : Bool :=
  (phase.all fun x => x.since + 1 ≠ cycle) && busyCount cycle p > ((phase.map (·.int)).getD 0 + 1) * 16

/-- The first cycle in which a group of a queue that is throttled from this cycle on may enter: 4 after the last one. -/
def nextGroup (cycle : Nat) (p : Pad) : Nat := ((p.busy.find? fun b => b ≤ cycle).map (· + 4)).getD cycle

/-- A throttle from a cycle on. -/
def throttleFrom (cycle : Nat) (p : Pad) : Throttle := { ends := cycle + 20000, next := nextGroup cycle p, take := cycle }

/-- The throttle in force in a cycle: one whose time is up is over in that cycle already, unless the queue is in excess
(R311). -/
def inForce (cycle : Nat) (phase : Option Phase) (p : Pad) : Option Throttle :=
  p.throttle.filter fun h => cycle < h.ends || inExcess cycle phase p

/-- A group of the first token may enter in this cycle, as far as its own queue goes: a queue in excess at the end of the
cycle before is throttled in this one already (R311). -/
def mayEnter (cycle : Nat) (phase : Option Phase) (p : Pad) : Bool :=
  match entering p with
  | none => false
  | some t => (t.start.any fun x => x ≤ cycle) && 0 < t.left && match inForce cycle phase p with
    | some h => h.next ≤ cycle
    | none => !inExcess cycle phase p || nextGroup cycle p ≤ cycle

/-- A throttled queue accepts a control token at most every 4 cycles (R311). -/
def mayTake (cycle : Nat) (p : Pad) : Bool := p.throttle.all fun h => h.take ≤ cycle
/-- It has accepted one. -/
def tookToken (cycle : Nat) (p : Pad) : Pad := { p with throttle := p.throttle.map fun h => { h with take := cycle + 4 } }

/-- The phase that governs an owner's queue. -/
def phaseOfOwner (s : State) : PadOwner → Option Phase
  | .workgroup wid => phaseAt s (.workgroup wid)
  | .tile lid _ => phaseAt s (.launch lid)

/-- Start a pad's throttle if it is in excess. -/
def startThrottle (cycle : Nat) (phase : Option Phase) (p : Pad) : Pad :=
  if p.throttle.isNone && inExcess cycle phase p then { p with throttle := some (throttleFrom cycle p) } else p

/-- End it when its time is up; it starts again at once in excess. -/
def endThrottle (cycle : Nat) (phase : Option Phase) (p : Pad) : Pad :=
  match p.throttle with
  | some h => if cycle < h.ends then p else
      { p with throttle := if inExcess cycle phase p then some { h with ends := cycle + 20000 } else none }
  | none => p

/-- Change every pad of an owner: a workgroup's, or those of a launch's tiles (R313). -/
def modPads (s : State) (o : PhaseOwner) (f : Pad → Pad) : State :=
  match o with
  | .workgroup wid => modPad s (.workgroup wid) f
  | .launch lid => modFabric s lid fun x => { x with tiles := x.tiles.map fun t => { t with pad := f t.pad } }

/-- THROTTLE_START (R311). -/
def execThrottleStart (o : PhaseOwner) (s : State) : Out := .next (modPads s o (startThrottle s.cycle (phaseAt s o)))

/-- THROTTLE_END (R311). -/
def execThrottleEnd (o : PhaseOwner) (s : State) : Out := .next (modPads s o (endThrottle s.cycle (phaseAt s o)))

/-! ### Issue (R181 to R187, R198, R408, R409) -/

/-- The value of an engine operand. In V-form `%tgix` reads there as that of the lowest passing element (DESIGN CHOICE, log
99). -/
def engineOp (c : Ctx) (s : State) (x : Opnd) : Nat := readOp s.cycle c x false (lowestLane c.pass)

/-- Put a token at the end of the queue. -/
def queueToken (c : Ctx) (op : MOp) (s : State) : State :=
  modWg s c.wid fun w =>
    { w with pad := { w.pad with queue := w.pad.queue ++ [{ op := op, left := op.groups, tix := some c.tix }] } }

/-- A failed token at the head is reported by the next matrix instruction (R409). -/
def behindFailed (c : Ctx) (k : Res) : Res :=
  match failedHead c.wg with
  | some a => .tokenFails a.toNat
  | none => k

/-- The first range of scratchpad operands that leaves the allocation. -/
def rangeFails (p : Pad) (l : List (Nat × Nat)) : Option Nat :=
  (l.find? fun x => !padHas p x.1 x.2).map (·.1)

/-- Whether a slot is loaded, or will be by a queued `cbld`. -/
def slotLoaded (p : Pad) (n : Nat) : Bool :=
  (tfind p.cb n).isSome || p.queue.any fun t => match t.op with | .cbld m _ => m = n | _ => false

/-- Stage 14 of an engine instruction: MISALIGNED at the first address off its alignment, SCRATCH_RANGE at the
first range outside. -/
def engineChecks (p : Pad) (aligned : List (Nat × Bool)) (ranges : List (Nat × Nat)) (k : Res) : Res :=
  match aligned.find? fun x => !x.2 with
  | some x => .wide .misaligned x.1
  | none => match rangeFails p ranges with
    | some a => .wide .scratchRange a
    | none => k

/-- The token of an `mma` word, with its operands' values. -/
def mmaOp (f : FmtX) (a b c : Nat) : MOp :=
  .mma f.z.toNat (f.acc == 1) (f.sc == 1) f.ta f.tb (32 * (f.sh.toNat + 1)) f.cba.toNat f.cbb.toNat a b c

/-- The scratchpad ranges that an `mma` reads. -/
def mmaRanges (f : FmtX) (a b c : Nat) : List (Nat × Nat) :=
  let k := 32 * (f.sh.toNat + 1)
  [(a, operandBytes f.ta k), (b, operandBytes f.tb k)] ++ (if f.sc == 1 then [(c, 2 * k)] else [])

/-- The first empty slot that a cb4 `mma` names. -/
def emptySlot (p : Pad) (f : FmtX) : Option Nat :=
  if f.ta == 0xC then [f.cba.toNat, f.cbb.toNat].find? fun n => !slotLoaded p n else none

/-- `mma`. -/
def mmaRun (f : FmtX) (x : Ctx) (s : State) : Res :=
  let a := engineOp x s f.a
  let b := engineOp x s f.b
  let c := if f.sc == 1 then engineOp x s f.c else 0
  engineChecks x.wg.pad [(a, a % 64 = 0), (b, b % 64 = 0), (c, c % 64 = 0)] (mmaRanges f a b c) <|
    match emptySlot x.wg.pad f with
    | some n => .wide .codebookEmpty n
    | none => behindFailed x <|
      -- each `mma` is one control token for the throttle (R185)
      if !mayTake s.cycle x.wg.pad then .stall
      else .done (modPad (queueToken x (mmaOp f a b c) s) (.workgroup x.wid) (tookToken s.cycle)) []

/-- The checks of `zld` and `zst`: alignment of address and stride, the 32 rows. -/
def tileChecks (f : FmtX) (c : Ctx) (s : State) (k : Nat → Nat → Res) : Res :=
  let e := tileBytes f.ta
  let a := engineOp c s f.a
  let b := engineOp c s f.b
  let st := tileStride f.ta b
  engineChecks c.wg.pad [(a, a % e = 0 && (b = 0 || (b % e = 0 && 32 * e ≤ b)))] [(a, 31 * st + 32 * e)]
    (behindFailed c (k a st))

def zldRun (f : FmtX) (c : Ctx) (s : State) : Res :=
  tileChecks f c s fun a st => .done (queueToken c (.zld f.z.toNat f.ta a st) s) []
def zstRun (f : FmtX) (c : Ctx) (s : State) : Res :=
  tileChecks f c s fun a st => .done (queueToken c (.zst f.z.toNat f.ta a st) s) []

/-- The rows of the passing lanes, and the failures of rows above 31. -/
def rowsOf (c : Ctx) (s : State) (x : Opnd) : List (Nat × Nat) × List Fail :=
  let rows := (lanesOf c.pass).map fun l => (l, readOp s.cycle c x false l)
  (rows.filter fun r => r.2 ≤ 31, (rows.filter fun r => 31 < r.2).map fun r => ⟨r.1, 15, .badOperand, c.word.toNat⟩)

/-- `zrd`: the destinations stand in flight until the token is served. -/
def zrdRun (f : FmtX) (c : Ctx) (s : State) : Res :=
  behindFailed c <|
    let (rows, fails) := rowsOf c s f.b
    if rows = [] then .done s fails else
    let reg := f.a.toNat
    let fl : Flight := { fid := s.nextId, due := none, lanes := rows.map fun r => (r.1, reg, 0) }
    let s := { modTh s c.wid c.tix (fun t => { t with flights := t.flights ++ [fl] }) with nextId := s.nextId + 1 }
    .done (queueToken c (.zrd f.z.toNat (rows.map fun r => (r.1, r.1 % 32, reg, r.2)) fl.fid) s) fails

/-- `zwr`. -/
def zwrRun (f : FmtX) (c : Ctx) (s : State) : Res :=
  behindFailed c <|
    let (rows, fails) := rowsOf c s f.b
    if rows = [] then .done s fails else
    .done (queueToken c (.zwr f.z.toNat (rows.map fun r =>
      (r.2, r.1 % 32, BitVec.ofNat 32 (readOp s.cycle c f.a false r.1)))) s) fails

def zclrRun (f : FmtX) (c : Ctx) (s : State) : Res :=
  behindFailed c (.done (queueToken c (.zclr f.z.toNat) s) [])

def cbldRun (f : FmtX) (c : Ctx) (s : State) : Res :=
  let a := engineOp c s f.a
  engineChecks c.wg.pad [(a, a % 32 = 0)] [(a, 32)] <|
    behindFailed c (.done (queueToken c (.cbld f.cba.toNat a) s) [])

def execMma (f : FmtX) (s : State) : Out := issue (.mma f) s (mmaRun f)
def execZld (f : FmtX) (s : State) : Out := issue (.zld f) s (zldRun f)
def execZst (f : FmtX) (s : State) : Out := issue (.zst f) s (zstRun f)
def execZrd (f : FmtX) (s : State) : Out := issue (.zrd f) s (zrdRun f)
def execZwr (f : FmtX) (s : State) : Out := issue (.zwr f) s (zwrRun f)
def execZclr (f : FmtX) (s : State) : Out := issue (.zclr f) s (zclrRun f)
def execCbld (f : FmtX) (s : State) : Out := issue (.cbld f) s (cbldRun f)

end Sys2Proof.Machine
end

