-- ==== Sys2Proof/Machine/Transfer.lean ====
section
/-! DEFINITION. Transfers and channel tags: R189 to R198, R327 to R329, R410 to R413, R438. -/

namespace Sys2Proof.Machine

/-! ### Descriptors (R189, R190, R198) -/

/-- A level double with its START. -/
def levelOf (d : Dbl) (start : Nat) : Level where
  count := fld d 15 0
  start := start
  sstr := sextNat (fld d 40 18) 23
  dstr := sextNat (fld d 63 41) 23
  scirc := d.getLsbD 16
  dcirc := d.getLsbD 17

/-- The levels of four doubles, `n` of them in use, with the starts of D3. -/
def levelsOf (ds : List Dbl) (starts : Dbl) (n : Nat) : List Level :=
  (ds.take n).zipIdx.map fun (d, i) => levelOf d (fld starts (16 * i + 15) (16 * i))

/-- A level in use breaks R190. -/
def levelBad (l : Level) : Bool := l.count = 0 || l.start ≥ l.count || (l.start ≠ 0 && !l.scirc && !l.dcirc)

/-- The level doubles and START fields beyond the levels in use are all zero. -/
def restZero (ds : List Dbl) (starts : Dbl) (n : Nat) : Bool :=
  (ds.drop n).all (· = 0) && starts.toNat / 2 ^ (16 * n) = 0

/-- The continuation's levels, from its eight doubles. -/
def contLevels (d : List Dbl) : Option (List Level) :=
  let d2 := d.getD 2 0
  let n := fld d2 7 6 + 1
  let ls := levelsOf (d.drop 4) (d.getD 3 0) n
  if d.getD 0 0 = 0 && d.getD 1 0 = 0 && d2.toNat = (n - 1) * 64 && restZero (d.drop 4) (d.getD 3 0) n
      && ls.all fun l => !levelBad l then some ls else none

/-- How reading a descriptor ends. -/
inductive DescRes where
  | ok (src dst ssp dsp esz peer rtag member : Nat) (levels : List Level)
  | bad
  | range (addr : Nat)
  | data (addr : Nat)

/-- Elements of a transfer. -/
def elemCount (ls : List Level) : Nat := ls.foldl (fun n l => n * l.count) 1

/-- The eight doubles of a descriptor judged against a pad and a gang size. -/
def readDesc (p : Pad) (gang : Nat) (d : List Dbl) : DescRes :=
  let g := fun i => d.getD i 0
  let d2 := g 2
  let ssp := fld d2 1 0
  let dsp := fld d2 3 2
  let esz := fld d2 5 4
  let n := fld d2 7 6 + 1
  let own := levelsOf (d.drop 4) (g 3) n
  let member := fld d2 19 14
  let low := fld d2 63 49 = 0 && !d2.getLsbD 13 && ssp ≤ 1 && (ssp = 0 || fld (g 0) 63 32 = 0)
    && (dsp = 0 || fld (g 1) 63 32 = 0) && restZero (d.drop 4) (g 3) n && (own.all fun l => !levelBad l)
    && (dsp ≠ 2 || member < gang) && (!d2.getLsbD 8 || n = 4)
  let finish := fun (ls : List Level) =>
    if elemCount ls * 2 ^ esz % 4 ≠ 0 then DescRes.bad
    else .ok (g 0).toNat (g 1).toNat ssp dsp esz (fld d2 35 24) (fld d2 23 20) member ls
  if !low then .bad
  else if !d2.getLsbD 8 then finish own
  else
    let a := 64 * fld d2 48 36
    if !padHas p a 64 then .range a
    else match padBadAt p a 64 with
      | some b => .data b
      | none => match contLevels (readDoubles p.scratch a 8) with
        | some more => finish (own ++ more)
        | none => .bad

/-! ### Elements (R191, R192) -/

/-- The offsets, in elements, of one element of the loop: source and destination. -/
def elemOffsets : List Level → Nat → Int × Int
  | [], _ => (0, 0)
  | l :: t, ix =>
    let n := ix % l.count
    let at_ := fun (circ : Bool) => if circ then (l.start + n) % l.count else n
    let (so, d) := elemOffsets t (ix / l.count)
    (so + at_ l.scirc * l.sstr, d + at_ l.dcirc * l.dstr)

/-- Source and destination address of an element. -/
def elemAddrs (src dst ssp dsp esz : Nat) (ls : List Level) (ix : Nat) : Nat × Nat :=
  let (so, d) := elemOffsets ls ix
  let sz : Int := (2 ^ esz : Nat)
  (lowInt (src + so * sz) (if ssp = 0 then 64 else 32), lowInt (dst + d * sz) (if dsp = 0 then 64 else 32))

/-- Least and greatest offset of one side. -/
def offsetBounds (ls : List Level) (source : Bool) : Int × Int :=
  ls.foldl (fun (lo, hi) l =>
    let x := ((l.count : Int) - 1) * (if source then l.sstr else l.dstr)
    (if x < 0 then lo + x else lo, if x > 0 then hi + x else hi)) (0, 0)

/-- Whether every byte of an own-scratchpad side lies in the allocation. Only addresses that wrap are looked at
one by one. -/
def sideInside (p : Pad) (base esz : Nat) (ls : List Level) (source : Bool) : Bool :=
  let sz : Int := (2 ^ esz : Nat)
  let (lo, hi) := offsetBounds ls source
  let first : Int := base + lo * sz
  let last : Int := base + hi * sz + sz
  if 0 ≤ first && last ≤ p.size then true
  else if 0 ≤ first && last ≤ 2 ^ 32 then false
  else (List.range (elemCount ls)).all fun ix =>
    let (so, d) := elemOffsets ls ix
    padHas p (lowInt (base + (if source then so else d) * sz) 32) (2 ^ esz)

/-- Elements that are counted together (R192). -/
def groupElems (esz : Nat) : Nat := if esz < 2 then 4 else 1
/-- Elements of group `g`. -/
def groupMembers (esz total g : Nat) : List Nat :=
  (List.range' (g * groupElems esz) (groupElems esz)).filter (· < total)
/-- Words of a group. -/
def groupWords (esz total g : Nat) : Nat := (groupMembers esz total g).length * 2 ^ esz / 4
/-- Groups of a transfer. -/
def groupCount (esz total : Nat) : Nat := (total + groupElems esz - 1) / groupElems esz

/-! ### Tags (R192, R195, R411) -/

def tagOf (p : Pad) (c : Nat) : Tag := tget {} p.tags c
def setTag (p : Pad) (c : Nat) (t : Tag) : Pad := { p with tags := tput {} p.tags c t }
def modTag (s : State) (o : PadOwner) (c : Nat) (f : Tag → Tag) : State := modPad s o fun p => setTag p c (f (tagOf p c))

/-- The core of an owner, and its launch. -/
def ownerCore (s : State) : PadOwner → Nat
  | .workgroup wid => ((wgOf s wid).getD noWorkgroup).core
  | .tile lid tile => (tileOf (fabricOf s lid) tile).core
def ownerLaunch (s : State) : PadOwner → Nat
  | .workgroup wid => ((wgOf s wid).getD noWorkgroup).lid
  | .tile lid _ => lid

/-- The core drops its L1 lines that hold bytes written by transfers counted on a tag (R195). -/
def acquireTag (s : State) (o : PadOwner) (c : Nat) : State :=
  let lines := (tagOf (padOf s o) c).lines
  if lines = [] then s else
  modTag (modCore s (ownerCore s o) fun k => { k with l1 := k.l1.filter fun x => !lines.contains (x.1 / 4) }) o c
    fun t => { t with lines := [] }

/-- A path of the thread waits on the tag. -/
def waitsOn (c : Nat) (p : Path) : Bool := p.wait = .chan c none

/-- A tag has reached count 0: the waits on it end (R195). A transfer port that watches the tag owes a token for
it (R237). -/
def tagReached (s : State) (o : PadOwner) (c : Nat) : State :=
  if (tagOf (padOf s o) c).count ≠ 0 then s else
  match o with
  | .workgroup wid =>
    match wgOf s wid with
    | none => s
    | some w =>
      if !(w.threads.any fun t => t.paths.any (waitsOn c)) then s else
      acquireTag (modWg s wid fun w =>
        { w with threads := w.threads.map fun t =>
            { t with paths := t.paths.map fun p => if waitsOn c p then { stepPath p with wait := .none } else p } }) o c
  | .tile lid tile =>
    acquireTag (modTile s lid tile fun t =>
      { t with units := t.units.modify 31 fun u =>
          if u.q0.getLsbD c then { u with owed := u.owed ++ [.data 0 (BitVec.ofNat 4 c) 0 (tagOf t.pad c).record] } else u }) o c

/-- The waits on tags whose count is 0 end: those of paths that a trap had suspended among them (R195, R411). -/
def settleTags (s : State) (wid : Nat) : State :=
  match wgOf s wid with
  | none => s
  | some w =>
    let tags := (w.threads.flatMap (·.paths)).filterMap fun p => match p.wait with
      | .chan c none => some c
      | _ => none
    tags.foldl (fun s c => tagReached s (.workgroup wid) c) s

/-- A word of a transfer that a transfer port started lands: its load moves (R419). -/
def ownerMoves (s : State) (o : PadOwner) : State :=
  match o with
  | .tile lid _ => modFabric s lid fun f => { f with moved := true }
  | .workgroup _ => s

/-- A tag's count falls by words that have landed. -/
def lowerTag (s : State) (o : PadOwner) (c n : Nat) : State :=
  if n = 0 then s else
  tagReached (modTag (ownerMoves s o) o c fun t => { t with count := t.count - n }) o c

/-- Change a transfer. -/
def modXfer (s : State) (xid : Nat) (f : Transfer → Transfer) : State := { s with transfers := tmod s.transfers xid f }

/-- The load of a transfer moves. -/
def xferMoves (s : State) (xid : Nat) : State := ((tfind s.transfers xid).map fun t => ownerMoves s t.owner).getD s

/-- A transfer that has nothing left to do is gone. -/
def settleXfer (s : State) (xid : Nat) : State :=
  match tfind s.transfers xid with
  | some t => if t.todo = [] && t.ready = [] && t.sent = [] && t.acks = 0 && t.stop.isNone then
      { s with transfers := terase s.transfers xid } else s
  | none => s

/-! ### Landing at a receiver (R192, R329, R412, R438) -/

/-- Where a word of a DSP 2 or DSP 3 transfer goes. -/
inductive Receiver where
  | at_ (wid : Nat)
  /-- saved, or not placed yet: held at the sender or the module -/
  | waits
  /-- no such receiver, or it has retired -/
  | none
  deriving DecidableEq, Repr

/-- Gang size and workgroup count of a launch (R39, R210). -/
def gangSize (la : Launch) : Nat := fld (pkt la 3) 5 0 + 1
def workgroupCount (la : Launch) : Nat := let (x, y, z) := gridOf la; x * y * z
/-- The workgroups of a gang. -/
def gangMembers (la : Launch) (g : Nat) : List Nat := List.range' (g * gangSize la) (gangSize la)

/-- The placed workgroup of an index. -/
def placedWg (s : State) (lid w : Nat) : Option Nat :=
  (s.wgs.find? fun x => x.2.lid = lid && x.2.w = w).map (·.1)

/-- Workgroup `w` of a launch as a receiver. -/
def receiverOf (s : State) (lid w : Nat) : Receiver :=
  match tfind s.launches lid with
  | none => .none
  | some la =>
    match placedWg s lid w with
    | some wid => .at_ wid
    | none =>
      let gang := w / gangSize la
      if la.nextGang ≤ gang || la.back.contains gang || (la.saved.any fun x => x.w = w) || (la.parked.any fun x => x.w = w)
          || la.fabric.isSome then .waits
      else .none

/-- The launch that a collective binding names in this module: it was bound with that BIND (R320, R329). -/
def boundLaunch (s : State) (bind : Nat) : Option Nat :=
  (s.launches.find? fun x => x.2.bound && x.2.bind.toNat = bind).map (·.1)

/-- Whether a transfer's words leave the module: DSP 3 with another rank (R328). -/
def leavesModule (s : State) (t : Transfer) : Bool := t.dsp = 3 && t.peer ≠ s.rank.toNat

/-- Remove the oldest sent word that a test picks. -/
def dropSent (pick : SentWord → Bool) (l : List SentWord) : List SentWord :=
  match l with
  | [] => []
  | x :: t => if pick x then t else x :: dropSent pick t

/-- Write bytes that stand at scattered addresses. -/
def writeScattered (s : State) (o : PadOwner) (bytes : List (Nat × Byte)) : State :=
  (runs bytes).foldl (fun s r => padWriteAt s o r.1 r.2) s

/-- A word of this module's transfer has landed at a receiver of this module: its acknowledgement starts. -/
def acknowledge (s : State) (h : HeldWord) : State :=
  match h.xid with
  | some x => modXfer (xferMoves s x) x fun t => { t with sent := dropSent (·.pos = h.pos) t.sent, acks := t.acks + 1 }
  | none => { s with out := .peerAnswer true :: s.out }

/-- A word lands at a workgroup, or is held there while the tag's count is 0. -/
def landWord (s : State) (wid tag : Nat) (h : HeldWord) : State :=
  let o := PadOwner.workgroup wid
  if (tagOf (padOf s o) tag).count = 0 then modTag s o tag fun t => { t with held := t.held ++ [h] }
  else lowerTag (acknowledge (writeScattered s o h.bytes) h) o tag 1

/-- A word's bytes lie in a receiver's allocation (R412). -/
def wordFits (s : State) (wid : Nat) (h : HeldWord) : Bool :=
  h.bytes.all fun x => padHas (padOf s (.workgroup wid)) x.1 1

/-- Held words land while the tag's count lasts (R192). -/
def releaseHeld : Nat → State → Nat → Nat → State
  | 0, s, _, _ => s
  | fuel + 1, s, wid, tag =>
    let t := tagOf (padOf s (.workgroup wid)) tag
    match t.held with
    | [] => s
    | h :: rest =>
      if t.count = 0 then s
      else releaseHeld fuel (landWord (modTag s (.workgroup wid) tag fun t => { t with held := rest }) wid tag h) wid tag

/-! ### A transfer that stops (R410, R412) -/

/-- The transfer stops at an element of group `from_`: the words of that group and of every later one that have not landed
will not land, the groups before it go on. A transfer that has stopped before stops at the earlier element. -/
def stopXfer (s : State) (xid from_ addr : Nat) : State :=
  modXfer s xid fun t =>
    let total := elemCount t.levels
    let gone := (t.todo ++ t.ready.map (·.group)).filter (from_ ≤ ·)
    let words := gone.foldl (fun n g => n + groupWords t.esz total g) ((t.sent.filter fun x => from_ ≤ x.pos / 2).length)
    { t with
      todo := t.todo.filter (· < from_)
      ready := t.ready.filter (·.group < from_)
      sent := t.sent.filter fun x => x.pos / 2 < from_
      stop := some (BitVec.ofNat 64 addr, (t.stop.map (·.2)).getD 0 + words) }

/-- The first of some words in loop order: its place and offset. -/
def firstWord : List (Nat × Nat) → Option (Nat × Nat)
  | [] => none
  | x :: l => some (l.foldl (fun b y => if y.1 < b.1 then y else b) x)

/-- The words of a transfer that have not landed at their receiver, by place and offset: of a group not sent its first. -/
def unlanded (t : Transfer) : List (Nat × Nat) :=
  t.sent.map (fun x => (x.pos, x.off)) ++ t.ready.map (fun g => (2 * g.group, (g.els.head?.map (·.2.1)).getD 0)) ++
    t.todo.map fun g => (2 * g, (elemAddrs t.src t.dst t.ssp t.dsp t.esz t.levels (g * groupElems t.esz)).2)

/-- A word already sent is refused since its receiver is gone: its transfer stops at the earliest element in loop order
that has not landed there, for none of them can (R410, R412). -/
def refuseWordOf (s : State) (h : HeldWord) : State :=
  match h.xid with
  | none => { s with out := .peerAnswer false :: s.out }
  | some x =>
    match tfind s.transfers x with
    | none => s
    | some t =>
      if !t.sent.any (·.pos = h.pos) then s else stopXfer s x 0 (((firstWord (unlanded t)).map (·.2)).getD 0)

/-- Mark the paths that wait on a tag, suspended ones included: they take TRANSFER_FAULT (R411). -/
def faultWaits (c : Nat) (addr : Dbl) (p : Path) : Path := if waitsOn c p then { p with wait := .chan c (some addr) } else p

/-- FAULT is set at a tag with its address, the first one kept; the paths that wait on it trap. -/
def setFault (s : State) (o : PadOwner) (c : Nat) (addr : Dbl) : State :=
  let kept := (tagOf (padOf s o) c).fault.getD addr
  let s := modTag s o c fun t => { t with fault := some kept }
  match o with
  | .tile .. => s
  | .workgroup wid =>
    let s := modWg s wid fun w => { w with threads := w.threads.map (mapPaths (faultWaits c kept)) }
    (List.range ((wgOf s wid).getD noWorkgroup).threads.length).foldl (fun s tix => deliverMarks s wid tix) s

/-- A stopped transfer has nothing more to land. -/
def stopDue (t : Transfer) : Bool := t.stop.isSome && t.todo = [] && t.ready = [] && t.sent = [] && t.acks = 0

/-- Words that have left the module stop the transfer at the first of them in loop order, at a refusal or where their port
has gone down (R410, R438). -/
def stopAway (s : State) (xid : Nat) (lost : List SentWord) : State :=
  match firstWord (lost.map fun x => (x.pos, x.off)) with
  | none => s
  | some x => stopXfer s xid (x.1 / 2) x.2

/-- TRANSFER_STOP (R410): once the earlier groups have landed, the count falls and FAULT is set. For a transfer
to a peer it is also the peer's refusal of words that it has not acknowledged (R438). -/
def execTransferStop (xid : Nat) (s : State) : Out :=
  match tfind s.transfers xid with
  | none => .next s
  | some t =>
    if stopDue t then
      let (addr, words) := t.stop.getD (0, 0)
      let s := { s with transfers := terase s.transfers xid }
      .next (lowerTag (setFault s t.owner t.ch addr) t.owner t.ch words)
    else .next (stopAway s xid (t.sent.filter (·.port.isSome)))

/-! ### One group (R191, R401, R410) -/

/-- How the accesses of an element end. -/
inductive ElemRes where
  | ok (bytes : List Byte) (dst : Nat) (pa : Nat) (s : State)
  | fails (addr : Nat)
  | waits

/-- A global side of an element: NONCANONICAL, MISALIGNED, the walk, the link (R401, R437, R438). -/
def globalSide (s : State) (o : PadOwner) (need : Need) (a n : Nat) : Option (Option (Nat × State)) :=
  let la := launchOf s (ownerLaunch s o)
  if !canonical a || a % n ≠ 0 then some none
  else match translate s (spaceOf la (ownerCore s o)) need a with
    | .fails _ => some none
    | .waits => none
    | .ok pa _ s =>
      if !reaches s (need = .read) pa || (need = .read && badData s pa n) then some none
      else if lockedFor s none pa n then none
      else some (some (pa, s))

/-- The receiver of a transfer's words. -/
def targetOf (s : State) (t : Transfer) : Receiver :=
  if t.dsp = 2 then
    match t.owner with
    | .workgroup wid => match wgOf s wid with
      | some w => receiverOf s t.lid (w.w / gangSize (launchOf s t.lid) * gangSize (launchOf s t.lid) + t.member)
      | none => .none
    | .tile .. => .none
  else match boundLaunch s (launchOf s t.lid).bind.toNat with
    | some lid => if t.member < workgroupCount (launchOf s lid) then receiverOf s lid t.member else .none
    | none => .none

/-- An uncorrectable error that the read of the source of one of some elements has met at an address is entered (R408,
R442). -/
def noteSource (s : State) (t : Transfer) (els : List Nat) (a : Nat) : State :=
  let n := 2 ^ t.esz
  let sp := spaceOf (launchOf s (ownerLaunch s t.owner)) (ownerCore s t.owner)
  if els.all fun ix => (elemAddrs t.src t.dst t.ssp t.dsp t.esz t.levels ix).1 ≠ a then s
  else if t.ssp = 1 then (if padBad (padOf s t.owner) a n then noteError s sp.core 1 a else s) else noteReads s sp n [a]

/-- Read one element's source and judge its destination. -/
def checkElem (s : State) (t : Transfer) (ix : Nat) : ElemRes :=
  let n := 2 ^ t.esz
  let (sa, da) := elemAddrs t.src t.dst t.ssp t.dsp t.esz t.levels ix
  let source : Option (Option (List Byte × State)) :=
    if t.ssp = 1 then
      let p := padOf s t.owner
      if padBad p sa n then some none else some (some (readBytes p.scratch sa n, s))
    else (globalSide s t.owner .read sa n).map fun x => x.map fun (pa, s) => (readBytes s.mem pa n, s)
  match source with
  | none => .waits
  | some none => .fails sa
  | some (some (bytes, s)) =>
    match t.dsp with
    | 0 => match globalSide s t.owner .write da n with
      | none => .waits
      | some none => .fails da
      | some (some (pa, s)) => .ok bytes da pa s
    | 1 => .ok bytes da da s
    | _ =>
      if leavesModule s t then
        if rankUp s t.peer then .ok bytes da da s else .fails da
      else match targetOf s t with
        | .none => .fails da
        | .waits => .waits
        | .at_ wid => if padHas (padOf s (.workgroup wid)) da n then .ok bytes da da s else .fails da

/-- How a group's elements end: bytes with destinations, the fault's address, or a wait. -/
inductive GroupRes where
  | ok (els : List (List Byte × Nat × Nat)) (s : State)
  | fails (addr : Nat)
  | waits

def checkGroup (t : Transfer) : List Nat → State → GroupRes
  | [], s => .ok [] s
  | ix :: r, s =>
    match checkElem s t ix with
    | .fails a => .fails a
    | .waits => .waits
    | .ok b d pa s =>
      match checkGroup t r s with
      | .ok els s => .ok ((b, d, pa) :: els) s
      | x => x

/-- Cut the bytes of a group, with their destinations, into words. -/
def groupWordsOf : Nat → List (Nat × Byte) → List (List (Nat × Byte))
  | 0, _ => []
  | _, [] => []
  | fuel + 1, l => l.take 4 :: groupWordsOf fuel (l.drop 4)

/-- Send one word to its receiver. -/
def sendWord (t : Transfer) (xid : Nat) (s : State) (word : Nat × List (Nat × Byte)) : State :=
  let (pos, bytes) := word
  let off := (bytes.head?.map (·.1)).getD 0
  let h : HeldWord := { xid := some xid, pos := pos, bytes := bytes }
  let sent := fun (port : Option Nat) => modXfer s xid fun t => { t with sent := t.sent ++ [⟨pos, off, port⟩] }
  if leavesModule s t then
    let port := fld (tget 0 s.routes t.peer) 3 0
    let w : PeerWord := { bind := (launchOf s t.lid).bind, member := t.member, tag := t.rtag, bytes := bytes }
    let s := sent (some port)
    { s with out := .peerWord port w :: s.out }
  else match targetOf s t with
    | .at_ wid => landWord (sent none) wid t.rtag h
    | _ => sent none

/-- A group lands. -/
def landGroup (s : State) (xid : Nat) (t : Transfer) (g : Nat) (els : List (List Byte × Nat × Nat)) : State :=
  let words := (els.foldl (fun n e => n + e.1.length) 0) / 4
  match t.dsp with
  | 0 =>
    let s := els.foldl (fun s e => sliceWrite s e.2.2 e.1) s
    let lines := els.map fun e => e.2.2 / 128
    lowerTag (modTag s t.owner t.ch fun g => { g with lines := (lines ++ g.lines).eraseDups }) t.owner t.ch words
  | 1 => lowerTag (els.foldl (fun s e => padWriteAt s t.owner e.2.1 e.1) s) t.owner t.ch words
  | _ =>
    let bytes := els.flatMap fun e => e.1.zipIdx.map fun (b, i) => (e.2.1 + i, b)
    ((groupWordsOf words bytes).zipIdx.map fun x => (2 * g + x.2, x.1)).foldl (sendWord t xid) s

/-- Read the next groups in loop order, as far as none faults or waits; an element that faults stops the transfer (R410).
Whether all have been read. -/
def readGroups (xid : Nat) : Nat → State → State × Bool
  | 0, s => (s, true)
  | n + 1, s =>
    match tfind s.transfers xid with
    | none => (s, false)
    | some t =>
      match t.todo with
      | [] => (s, false)
      | g :: rest =>
        let els := groupMembers t.esz (elemCount t.levels) g
        match checkGroup t els s with
        | .ok els s => readGroups xid n (modXfer s xid fun t => { t with todo := rest, ready := t.ready ++ [⟨g, els⟩] })
        | .fails a => (stopXfer (noteSource s t els a) xid g a, false)
        | .waits => (s, false)

/-- How a group that has been read fares at its destination: no lock and no saved receiver holds it back, and the receiver
and the way to it are still there. -/
inductive Landing where
  | now
  | waits
  | refused
  deriving DecidableEq

def landing (s : State) (t : Transfer) (g : ReadGroup) : Landing :=
  match t.dsp with
  | 0 => if g.els.any fun e => lockedFor s none e.2.2 e.1.length then .waits else .now
  | 1 => .now
  | _ =>
    if leavesModule s t then (if rankUp s t.peer then .now else .refused)
    else match targetOf s t with
      | .at_ _ => .now
      | .waits => .waits
      | .none => .refused

/-- A group that has been read lands. -/
def landReady (s : State) (xid : Nat) (t : Transfer) (g : ReadGroup) : State :=
  match landing s t g with
  | .waits => s
  | .refused =>
    if leavesModule s t then stopXfer s xid g.group ((g.els.head?.map (·.2.1)).getD 0)
    else stopXfer s xid 0 (((firstWord (unlanded t)).map (·.2)).getD 0)
  | .now =>
    let s := modXfer s xid fun t => { t with ready := t.ready.erase g }
    settleXfer (landGroup s xid t g.group g.els) xid

/-- TRANSFER_WORD_LAND (R191, R192, R410): one of the groups that have not landed lands, once it and every group before it
have been read. Reading in loop order, a transfer that stops at an element has landed nothing behind it. -/
def execTransferWordLand (xid pick : Nat) (s : State) : Out :=
  match tfind s.transfers xid with
  | none => .next s
  | some t =>
    if (t.todo = [] && t.ready = []) || s.cycle < t.start then .next s
    else
      let k := pick % (t.ready.length + t.todo.length)
      let (s, all) := readGroups xid (k + 1 - t.ready.length) s
      match tfind s.transfers xid with
      | none => .next s
      | some t =>
        match (if all then t.ready[k]? else none) with
        | some g => .next (landReady s xid t g)
        | none => .next s

/-- TRANSFER_ACK (R192): a receiver's acknowledgement lowers the sender's tag by one. -/
def execTransferAck (xid : Nat) (s : State) : Out :=
  match tfind s.transfers xid with
  | none => .next s
  | some t =>
    let s' :=
      if 0 < t.acks then some (modXfer s xid fun t => { t with acks := t.acks - 1 })
      else if t.sent.any (·.port.isSome) then
        some (modXfer s xid fun t => { t with sent := dropSent (·.port.isSome) t.sent })
      else none
    match s' with
    | some s => .next (settleXfer (lowerTag s t.owner t.ch 1) xid)
    | none => .next s

/-! ### Words from a peer (R329, R438) -/

/-- A peer's word lands or is refused; none while its workgroup is saved or not yet placed (R438). -/
def peerWord (s : State) (word : PeerWord) : Option State :=
  let h : HeldWord := { xid := none, bytes := word.bytes }
  match boundLaunch s word.bind.toNat with
  | none => some (refuseWordOf s h)
  | some lid =>
    if word.member ≥ workgroupCount (launchOf s lid) then some (refuseWordOf s h)
    else match receiverOf s lid word.member with
      | .none => some (refuseWordOf s h)
      | .waits => none
      | .at_ wid => some (if wordFits s wid h then landWord s wid (word.tag % 16) h else refuseWordOf s h)

/-- A peer's word has come, behind those held for the same workgroup: words of one peer keep their order (R327). -/
def takeWord (s : State) (word : PeerWord) : State :=
  let hold := { s with heldWords := s.heldWords ++ [word] }
  if s.heldWords.any fun h => h.bind = word.bind && h.member = word.member then hold
  else (peerWord s word).getD hold

/-- PEER_WORD_RECEIVE (R438). -/
def execPeerWordReceive (word : PeerWord) (s : State) : Out := .next (takeWord s word)

/-- The held words of peers are looked at again, in their order. -/
def landHeldWords (s : State) : State :=
  if s.heldWords = [] then s else s.heldWords.foldl takeWord { s with heldWords := [] }

/-! ### Issue (R189, R193 to R196, R198, R411, R413) -/

/-- The largest count of a tag. -/
def tagMax : Nat := 2 ^ 20 - 1

/-- Start a transfer that has passed its checks. -/
def startXfer (s : State) (o : PadOwner) (ch src dst ssp dsp esz peer rtag member : Nat) (ls : List Level) : State :=
  let t : Transfer :=
    { xid := s.nextId, owner := o, lid := ownerLaunch s o, ch := ch, src := src, dst := dst, ssp := ssp, dsp := dsp,
      esz := esz, peer := peer, rtag := rtag, member := member, levels := ls,
      todo := List.range (groupCount esz (elemCount ls)), start := s.cycle + 1 + Config.linkLatency s.tick }
  let s := modTag s o ch fun g => { g with count := g.count + elemCount ls * 2 ^ esz / 4 }
  ticked { s with transfers := tset s.transfers s.nextId t, nextId := s.nextId + 1 }

/-- How the checks of a descriptor end for an owner (R198). -/
inductive XferRes where
  | ok (s : State)
  | fails (c : Cause) (addr : Nat)
  | stall

/-- The checks of R198 on a descriptor, then the start. `reg` is what TADDR holds for a bad descriptor. -/
def tryXfer (s : State) (o : PadOwner) (ch reg : Nat) (d : List Dbl) : XferRes :=
  let p := padOf s o
  match readDesc p (gangSize (launchOf s (ownerLaunch s o))) d with
  | .bad => .fails .badDescriptor reg
  | .range a => .fails .scratchRange a
  | .data a => .fails .dataError a
  | .ok src dst ssp dsp esz peer rtag member ls =>
    if ssp = 1 && !sideInside p src esz ls true then .fails .scratchRange src
    else if dsp = 1 && !sideInside p dst esz ls false then .fails .scratchRange dst
    else if (tagOf p ch).count + elemCount ls * 2 ^ esz / 4 > tagMax then .fails .tagOverflow ch
    else match releaseGang s (ownerCore s o) with
      | none => .stall
      | some s => .ok (startXfer s o ch src dst ssp dsp esz peer rtag member ls)

/-- `xfer`: the transfer starts behind the path's earlier accesses, those of its matrix tokens included (R188,
R193). -/
def xferRun (f : FmtC) (c : Ctx) (s : State) : Res :=
  let n := f.a.toNat - 0x100
  match tryXfer s (.workgroup c.wid) f.ch.toNat n ((List.range 8).map fun i => sGet c.th (n + i)) with
  | .ok s => afterTokens c (.done s [])
  | .fails cause a => .wide cause a
  | .stall => .stall

/-- `expect` for an owner: `none` where the count would pass its limit. A count of 0 does nothing (R194). -/
def tryExpect (s : State) (o : PadOwner) (ch n : Nat) : Option State :=
  let t := tagOf (padOf s o) ch
  if t.count + n > tagMax then none
  else if n = 0 then some s
  else
    let s := modTag s o ch fun t => { t with count := t.count + n }
    match o with
    | .workgroup wid => some (releaseHeld (t.held.length + 1) s wid ch)
    | .tile .. => some s

/-- `expect`. -/
def expectRun (f : FmtC) (c : Ctx) (s : State) : Res :=
  match tryExpect s (.workgroup c.wid) f.ch.toNat (engineOp c s f.a) with
  | some s => .done s []
  | none => .wide .expectOverflow f.ch.toNat

/-- `waitc`. -/
def waitcRun (f : FmtC) (c : Ctx) (s : State) : Res :=
  let ch := f.ch.toNat
  let o := PadOwner.workgroup c.wid
  let t := tagOf c.wg.pad ch
  match t.fault with
  | some a => .wideAt (modTag s o ch fun t => { t with fault := none }) .transferFault a.toNat
  | none =>
    if t.count = 0 then .done (passWait (acquireTag s o ch) c) []
    else .own (waitAt s c fun p => { p with wait := .chan ch none })

/-- The status word of a tag (R196). -/
def tagStatus (t : Tag) : Nat :=
  t.count + (if t.fault.isSome then 2 ^ 20 else 0) + (if t.held ≠ [] then 2 ^ 21 else 0)

/-- `xstat`. -/
def xstatRun (f : FmtC) (c : Ctx) (s : State) : Res :=
  .done (eachLane c s f.a (isS f.a) false fun _ => tagStatus (tagOf c.wg.pad f.ch.toNat)) []

def execXfer (f : FmtC) (s : State) : Out := issue (.xfer f) s (xferRun f)
def execExpect (f : FmtC) (s : State) : Out := issue (.expect f) s (expectRun f)
def execWaitc (f : FmtC) (s : State) : Out := issue (.waitc f) s (waitcRun f)
def execXstat (f : FmtC) (s : State) : Out := issue (.xstat f) s (xstatRun f)

end Sys2Proof.Machine
end

