-- ==== Sys2Proof/Machine/Place.lean ====
section
/-! DEFINITION. The distributor: what an image asks for, context save frames, placement, pre-emption, retirement,
and the end of a launch: R20 to R26, R197, R247, R298, R299, R302 to R304, R372, R388, R397, R398. -/

namespace Sys2Proof.Machine

/-! ### What an image asks for (R21, R39, R303) -/

def imgVregs (la : Launch) : Nat := fld (hdr la 1) 8 0 + 1
def imgZregs (la : Launch) : Nat := fld (hdr la 1) 12 9
def imgNtg (la : Launch) : Nat := fld (hdr la 1) 17 13
def imgScratch (la : Launch) : Nat := roundUp (fld (hdr la 1) 43 25) 4096
def imgExcl (la : Launch) : Bool := (hdr la 0).getLsbD 51
/-- Lanes of a workgroup (R16). -/
def imgLanes (la : Launch) : Nat := 32 * imgNtg la
/-- Lane registers that a workgroup takes. -/
def imgRegs (la : Launch) : Nat := imgLanes la * imgVregs la
/-- Gangs of a launch (R18). -/
def gangCount (la : Launch) : Nat := workgroupCount la / gangSize la
/-- Where a frame's scratchpad part begins: behind header, system registers, TGs and lane registers (R303). -/
def frameScratch (la : Launch) : Nat :=
  256 + (1024 + 8 * imgLanes la) + 6144 * imgNtg la + 4 * imgVregs la * imgLanes la
/-- Where its tiles begin, z0 lowest (R303). -/
def frameTiles (la : Launch) : Nat := frameScratch la + imgScratch la
/-- Where its codebook slots and channel tags begin (R303). -/
def frameBooks (la : Launch) : Nat := frameTiles la + 4096 * imgZregs la
/-- Bytes of a workgroup's context save frame (R303). -/
def frameBytes (la : Launch) : Nat :=
  frameBooks la + (if imgExcl la then 512 else 0)

/-- The lowest start, a multiple of `unit`, of a free run of `need` bytes in `[lo, hi)`. -/
def firstFit (unit lo hi need : Nat) (used : List (Nat × Nat)) : Option Nat :=
  ((lo :: used.map fun u => roundUp (u.1 + u.2) unit).filter fun a =>
      lo ≤ a && a + need ≤ hi && used.all fun u => u.2 = 0 || a + need ≤ u.1 || u.1 + u.2 ≤ a).foldl
    (fun b a => some (match b with | none => a | some x => min x a)) none

/-- `n` frames of `need` bytes, each in the lowest free place. -/
def takeFrames (lo hi need : Nat) : Nat → List (Nat × Nat) → Option (List Nat)
  | 0, _ => some []
  | n + 1, used => match firstFit 64 lo hi need used with
    | none => none
    | some a => (takeFrames lo hi need n ((a, need) :: used)).map (a :: ·)

/-- Frames of given sizes, each in the lowest free place. -/
def takeSizes (lo hi : Nat) : List Nat → List (Nat × Nat) → Option (List (Nat × Nat))
  | [], _ => some []
  | n :: t, used => match firstFit 64 lo hi n used with
    | none => none
    | some a => (takeSizes lo hi t ((a, n) :: used)).map ((a, n) :: ·)

/-- The bounds of a partition's save pool. -/
def poolOf (r : Resources) : Nat × Nat := (r.save, r.save + r.saven * 65536)

/-- The placed workgroups of a launch, with their numbers. -/
def wgsOf (s : State) (lid : Nat) : List (Nat × Workgroup) := s.wgs.filter fun x => x.2.lid = lid

/-- The frames that a launch holds. -/
def framesOf (s : State) (lid : Nat) (la : Launch) : List (Nat × Nat) :=
  la.reserved ++ ((la.fabric.map (·.frames)).getD []) ++ ((la.savedFabric.map (·.frames)).getD []) ++
    (((wgsOf s lid).map (·.2)) ++ la.saved ++ la.parked).map fun w => (w.frame, frameBytes la)

/-- The frames of a gang placement under way (R397). -/
def placingFrames (s : State) (part : Nat) : List (Nat × Nat) :=
  match (partOf s part).placing with
  | none => []
  | some pl => pl.frames.map fun a => (a, frameBytes (launchOf s pl.lid))

/-- The frames held in a partition's pool. -/
def poolUsed (s : State) (part : Nat) : List (Nat × Nat) :=
  placingFrames s part ++ (s.launches.filter fun x => x.2.part = part).flatMap fun x => framesOf s x.1 x.2

/-! ### Cores (R21, R247, R248, R298) -/

/-- SPU units that cover an allocation. -/
def spuFor (bytes : Nat) : Nat := (bytes + 65535) / 65536
/-- The workgroups on a core. -/
def onCore (s : State) (core : Nat) : List Workgroup := (s.wgs.filter fun x => x.2.core = core).map (·.2)
/-- TG slots that a workgroup holds: a retired TG has released its own (R24). That a strand releases one as each block of 32
elements has exited, block 0 among them, is a DESIGN CHOICE (log 123). -/
def slotsHeld (w : Workgroup) : List Nat :=
  (w.slots.zipIdx.filter fun x => blockMask x.2 &&& ~~~w.exited ≠ 0).map (·.1)
/-- The free TG slots of a core, ascending. -/
def freeSlots (s : State) (core : Nat) : List Nat :=
  let held := (onCore s core).flatMap slotsHeld
  (List.range 16).filter fun n => !held.contains n
/-- A core is a tile of a fabric load (R32). -/
def isTile (s : State) (core : Nat) : Bool := s.launches.any fun x => x.2.fabric.any fun f => f.tiles.any (·.core = core)
/-- A core's region is stopped (R431). -/
def isStopped (s : State) (core : Nat) : Bool := (regionOf s (regionOfCore core)).stopKind ≠ 0
/-- The cores of a partition on which its distributor may place work, ascending. -/
def placeCores (s : State) (part : Nat) : List Nat :=
  let p := partOf s part
  p.res.cores.filter fun c => !isStopped s c && p.next.all fun r => r.cores.contains c
/-- Where a workgroup's scratchpad allocation goes on a core, and the core's SPU then. -/
def padPlace (s : State) (core bytes : Nat) : Option (Nat × Nat) :=
  match onCore s core with
  | [] => some (0, spuFor bytes)
  | ws => (firstFit 4096 0 ((coreOf s core).spu * 65536) bytes (ws.map fun w => (w.base, w.pad.size))).map
      fun a => (a, (coreOf s core).spu)

/-- A core takes a workgroup of a launch that needs so many TG slots (R21). -/
def coreFits (s : State) (la : Launch) (slots core : Nat) : Bool :=
  let ws := onCore s core
  let las := ws.map fun w => launchOf s w.lid
  !isTile s core && slots ≤ (freeSlots s core).length
    && (las.map imgRegs).sum + imgRegs la ≤ 65536 && (las.map imgZregs).sum + imgZregs la ≤ 8
    && !(imgExcl la && las.any imgExcl) && (padPlace s core (imgScratch la)).isSome

/-- Give each member of a gang the lowest core that fits it and that no earlier member took. -/
def pickCores (fits : Nat → Nat → Bool) : List Nat → List Nat → Option (List Nat)
  | [], _ => some []
  | m :: ms, cores =>
    match cores.find? (fits m) with
    | none => none
    | some c => (pickCores fits ms (cores.erase c)).map (c :: ·)

/-! ### The list (R298) -/

/-- PRI of a launch (R210). -/
def priOf (la : Launch) : Nat := fld (pkt la 0) 10 8

/-- The gang that a launch would place next, and whether it is a fresh one (R299). -/
def waitingGang (la : Launch) : Option (Nat × Bool) :=
  match la.back with
  | g :: _ => some (g, false)
  | [] => if la.form ≠ .s && la.nextGang < gangCount la then some (la.nextGang, true) else none

/-- A launch stands in the distributor's list. -/
def inList (la : Launch) : Bool := la.wantsFabric.isSome || (waitingGang la).isSome

/-- One launch stands ahead of another: higher PRI, then earlier dispatch. -/
def ahead (a b : Launch) : Bool := priOf b < priOf a || (priOf a = priOf b && a.order < b.order)

/-- Put a launch into an ordered list. -/
def insertLaunch (x : Nat × Launch) : List (Nat × Launch) → List (Nat × Launch)
  | [] => [x]
  | y :: t => if ahead x.2 y.2 then x :: y :: t else y :: insertLaunch x t

/-- The distributor's list of a partition, in order. -/
def distList (s : State) (part : Nat) : List (Nat × Launch) :=
  (s.launches.filter fun x => x.2.part = part && inList x.2).foldl (fun l x => insertLaunch x l) []

/-- The members of a gang that are to be placed: workgroup index and TG slots needed. -/
def waitingMembers (la : Launch) (gang : Nat) (fresh : Bool) : List (Nat × Nat) :=
  if fresh then (gangMembers la gang).map fun w => (w, imgNtg la)
  else (gangMembers la gang).filterMap fun w =>
    (la.saved.find? fun x => x.w = w).map fun x => (w, (slotsHeld { x with slots := List.range x.ntg }).length)

/-- Cores and frames for a gang, if it fits. A saved workgroup keeps the frame it holds. -/
def gangFits (s : State) (la : Launch) (gang : Nat) (fresh : Bool) : Option (List Nat × List Nat) :=
  let ms := waitingMembers la gang fresh
  match pickCores (fun n c => coreFits s la n c) (ms.map (·.2)) (placeCores s la.part) with
  | none => none
  | some cores =>
    let (lo, hi) := poolOf (partOf s la.part).res
    let frames := if fresh then takeFrames lo hi (frameBytes la) ms.length (poolUsed s la.part)
      else some (ms.map fun m => ((la.saved.find? fun x => x.w = m.1).map (·.frame)).getD 0)
    frames.map fun f => (cores, f)

/-! ### Rectangles (R300) -/

/-- The cores of a rectangle in the package mesh, row by row; none where it leaves the mesh. -/
def rectCores (origin width height : Nat) : Option (List Nat) :=
  if origin % 32 + width ≤ 32 && origin / 32 + height ≤ 32 then
    some ((List.range height).flatMap fun i => (List.range width).map fun j => origin + 32 * i + j)
  else none

/-- The rectangle of cores that a test admits whose origin is lowest in row, then in column. -/
def findRect (ok : Nat → Bool) (width height : Nat) : Option Nat :=
  (List.range 1024).find? fun o => ok o && match rectCores o width height with
    | some l => l.all ok
    | none => false

/-- A core is free for a tile: of the partition, holding no work and taken by no gang placement. -/
def coreFree (s : State) (part : Nat) (own : Nat) (c : Nat) : Bool :=
  (placeCores s part).contains c && onCore s c = [] && !((partOf s part).placing.any fun p => p.cores.contains c) &&
    !(s.launches.any fun x => x.1 ≠ own && x.2.fabric.any fun f => f.tiles.any (·.core = c))

/-- Width and height of each load of a launch's graph are read when it enters S-form (R392); the headers are
those of the image then. -/
def loadHeader (d0 : Dbl) : Nat × Nat := (fld d0 4 0 + 1, fld d0 9 5 + 1)

/-! ### The end of a launch (R197, R329, R372) -/

/-- The region of a load's origin. -/
def originRegion (f : Fabric) : Nat := regionOfCore f.origin

/-- Replace a field of RCSTAT of a region. -/
def setRcstat (s : State) (r hi lo x : Nat) : State :=
  modRegion s r fun g =>
    let old := g.rcstat.toNat
    { g with rcstat := BitVec.ofNat 64 (old - nfld old hi lo * 2 ^ lo + x % 2 ^ (hi + 1 - lo) * 2 ^ lo) }

/-- A load that leaves its tiles shows STATE 0; 5 and 6 stay (R423). -/
def idleRegion (s : State) (f : Fabric) : State :=
  if f.tiles ≠ [] && f.state ≠ .frozen then setRcstat s (originRegion f) 2 0 0 else s

/-- The words held for a workgroup that is gone are refused (R438). -/
def refuseHeld (s : State) (w : Workgroup) : State :=
  (w.pad.tags.flatMap fun t => t.2.held).foldl refuseWordOf s

/-- Lanes of a workgroup leave their transactions, and its locks and requests go (R286). -/
def dropTx (s : State) (wid : Nat) (w : Workgroup) : State :=
  w.tx.foldl (fun s x => if x.2.st = .out then s else leaveTx s wid x.1) s

/-- Drop the words of some transfers that receivers hold. -/
def dropHeldOf (xids : List Nat) (w : Workgroup) : Workgroup :=
  { w with pad := { w.pad with tags := w.pad.tags.map fun t =>
      (t.1, { t.2 with held := t.2.held.filter fun h => h.xid.all fun x => !xids.contains x }) } }

/-- Drop them at the workgroups of a launch that stand on no core: saved, or parked by a hop into S-form. -/
def dropHeldIn (xids : List Nat) (la : Launch) : Launch :=
  let go := fun (l : List Workgroup) => l.map (dropHeldOf xids)
  let load := fun (f : Fabric) => { f with parked := go f.parked }
  { la with saved := go la.saved, parked := go la.parked, fabric := la.fabric.map load, savedFabric := la.savedFabric.map load }

/-- A transfer of an ending launch stops: which of its words still land is open (R197). -/
def endXfer (s : State) (xid : Nat) : State :=
  match tfind s.transfers xid with
  | none => s
  | some t =>
    let land := fun (s : State) (g : ReadGroup) =>
      if landing s t g = .now && Config.endLands s.tick then landGroup (ticked s) xid t g.group g.els else ticked s
    let s := t.ready.foldl land s
    let s := t.todo.foldl (fun s g =>
      match checkGroup t (groupMembers t.esz (elemCount t.levels) g) s with
      | .ok els s' => land s' ⟨g, els⟩
      | _ => s) s
    { s with transfers := terase s.transfers xid }

/-- The strip's record of a started packet. -/
def modRunning (s : State) (part queue index : Nat) (f : StripPacket → Option StripPacket) : State :=
  let go := fun (r : StripPacket) => if r.queue = queue && r.index = index then f r else some r
  modPart s part fun p => { p with strip := { p.strip with running := p.strip.running.filterMap go } }

/-- The launch and everything of it is gone; its partition's binding too (R329). -/
def eraseLaunch (s : State) (lid : Nat) : State :=
  { s with launches := terase s.launches lid, wgs := s.wgs.filter fun x => x.2.lid ≠ lid }

/-- The PC of a fresh workgroup in either form is 0 (R45). -/
def freshThread (la : Launch) (cycle g slot : Nat) (strand : Bool) : Thread :=
  let m := if strand then fullMask (imgNtg la) else blockMask g
  { tgix := g, strand := strand, slot := slot, run := lowestLane m, last := cycle
    sregs := (List.range 8).foldl (fun t i => tput 0 t i (pkt la (8 + i))) []
    paths := [{ mask := m, pc := 0, vtext := strand }] }

/-- A workgroup as it is created (R22, R202). -/
def freshWorkgroup (la : Launch) (lid w cycle core base frame : Nat) (slots : List Nat) : Workgroup :=
  let strand := la.form == .v
  { lid := lid, w := w, core := core, placedAt := cycle, base := base, frame := frame, strand := strand, ntg := imgNtg la
    nvregs := imgVregs la, slots := slots, tvec := BitVec.ofNat 29 (fld (hdr la 8) 28 0)
    pad := { size := imgScratch la }
    threads := if strand then [freshThread la cycle 0 (slots.getD 0 0) true]
      else (List.range (imgNtg la)).map fun g => freshThread la cycle g (slots.getD g 0) false }

/-- A declared phase counts on from a cycle after pre-emption has saved it; one that a hop carries has counted all
along (R207). -/
def phaseFrom (cycle : Nat) (p : Phase) : Phase :=
  if p.held then { p with onset := p.onset + cycle, stop := p.stop + cycle, held := false } else p
/-- The remaining times, as pre-emption saves them (R207). -/
def phaseLeft (cycle : Nat) (p : Phase) : Phase :=
  if p.held then p else { p with onset := p.onset - cycle, stop := p.stop - cycle, held := true }
/-- A workgroup parked by a hop into S-form that is abandoned is saved as by pre-emption (R57, R59, R207, R312). -/
def unpark (cycle : Nat) (w : Workgroup) : Workgroup :=
  { w with phase := w.phase.map (phaseLeft cycle), pad := { w.pad with throttle := none } }

/-- Re-date the sleeps of some paths. -/
def sleepPaths (f : Nat → Nat) (ps : List Path) : List Path :=
  ps.map fun p => match p.wait with
    | .sleep u => { p with wait := .sleep (f u) }
    | _ => p

/-- The reads of the host window that a saved stream had under way are made again when it resumes. -/
def forgetAsked (t : Thread) : Thread := mapPaths (fun p => { p with asked := none }) t

/-- Re-date every sleep of a stream, those of suspended paths too: it is saved with the cycles it has left and
resumes with them (R135). -/
def sleepThread (f : Nat → Nat) (t : Thread) : Thread :=
  { t with
    paths := sleepPaths f t.paths
    susp := t.susp.map fun u => { u with paths := sleepPaths f u.paths }
    inner := t.inner.map fun u => { u with paths := sleepPaths f u.paths } }

/-- A saved workgroup takes a core again (R135, R304). -/
def restoredWorkgroup (w : Workgroup) (cycle core base : Nat) (slots : List Nat) : Workgroup :=
  { w with
    core := core, placedAt := cycle, base := base, slots := slots, saving := false
    phase := w.phase.map (phaseFrom cycle)
    threads := w.threads.map fun t =>
      { sleepThread (· + cycle) t with slot := slots.getD t.tgix 0, last := cycle, stalled := 0 } }

/-- Slots for the TGs that a workgroup still has: the core's lowest free ones, in ascending %tgix (R298). -/
def giveSlots (free : List Nat) (exited : Mask) : Nat → Nat → List Nat
  | _, 0 => []
  | g, n + 1 =>
    if blockMask g &&& ~~~exited = 0 then 16 :: giveSlots free exited (g + 1) n
    else free.headD 16 :: giveSlots free.tail exited (g + 1) n

/-! ### Context save frames (R303, R398) -/

/-- A byte of a workgroup's frame. The scratchpad's place and order are R303's, the tiles' elements stand in the order of
R179 (DEDUCED, log 36); the other parts have no layout, and their bytes are free values (log 36). -/
def frameByte (la : Launch) (w : Workgroup) (tick o : Nat) : Byte :=
  if frameScratch la ≤ o && o < frameTiles la then memByte w.pad.scratch (o - frameScratch la)
  else if frameTiles la ≤ o && o < frameBooks la then
    let i := o - frameTiles la
    (tget 0 w.pad.z (i / 4)).extractLsb' (8 * (i % 4)) 8
  else Config.frameByte tick o

/-- Write a block of the save pool; whole sectors get a fresh code (R407). -/
def writeBlock (s : State) (a n : Nat) (f : Nat → Byte) : State :=
  ticked { s with
    mem := fillBlock s.mem a n f
    badMem := s.badMem.filter fun sec => !(decide (a ≤ 32 * sec) && decide (32 * sec + 32 ≤ a + n)) }

/-- A sector of a block is locked: who writes or reads the block waits (R285). -/
def blockLocked (s : State) (a n : Nat) : Bool := s.locks.any fun x => a / 32 ≤ x.1 && x.1 ≤ (a + n - 1) / 32

/-- The lowest address at which a block of the save pool falls outside it or cannot be read (R398). -/
def blockFails (s : State) (part a n : Nat) : Option Nat :=
  let (lo, hi) := poolOf (partOf s part).res
  if a < lo || hi < a + n then some a
  else (s.badMem.find? fun sec => a / 32 ≤ sec && sec ≤ (a + n - 1) / 32).map fun sec => max a (32 * sec)

/-- The same of a list of frames with their sizes. -/
def framesLocked (s : State) (l : List (Nat × Nat)) : Bool := l.any fun x => blockLocked s x.1 x.2
def framesFail (s : State) (part : Nat) (l : List (Nat × Nat)) : Option Nat := l.findSome? fun x => blockFails s part x.1 x.2

/-- A workgroup's context goes into its frame (R303). -/
def writeFrame (s : State) (la : Launch) (w : Workgroup) : State :=
  writeBlock s w.frame (frameBytes la) (frameByte la w s.tick)

/-- A workgroup's registers go into its frame, as a hop writes them (R57, R58, R303). -/
def writeRegisters (s : State) (la : Launch) (w : Workgroup) : State :=
  writeBlock s w.frame (frameScratch la) (frameByte la w s.tick)

/-- The scratchpad and the tiles come back from a frame (R303, R304). -/
def readFrame (s : State) (la : Launch) (w : Workgroup) : Workgroup :=
  { w with pad := { w.pad with
      scratch := cutBlock s.mem (w.frame + frameScratch la) (w.frame + frameTiles la)
      z := wordsOf (cutBlock s.mem (w.frame + frameTiles la) (w.frame + frameBooks la)) } }

/-- Where in its frame the registers of a code stand: lane registers behind the TGs, the others in their TG's part. -/
def registerPart (la : Launch) (b : Nat × Nat) : Nat :=
  if b.1 < 0x100 then 256 + (1024 + 8 * imgLanes la) + 6144 * imgNtg la else 256 + (1024 + 8 * imgLanes la) + 6144 * b.2

/-- The lowest address of a frame whose write reads uncorrectable data of the context (R398, R408): of the sector or
tile element, or of the part that holds the register or slot (log 36). -/
def saveFails (la : Launch) (w : Workgroup) : Option Nat :=
  (w.badRegs.map (registerPart la) ++ (w.pad.badSectors.map fun n => frameScratch la + 32 * n)
    ++ (w.pad.badTiles.map fun n => frameTiles la + 4 * n) ++ w.pad.badSlots.map fun _ => frameBooks la).foldl
      (fun b o => some (match b with | none => w.frame + o | some x => min x (w.frame + o))) none

/-- Why a workgroup's context cannot be written: the address at which its frame falls outside the pool, or of bad data
(R398). A frame's own uncorrectable sectors are written anew (R407). -/
def contextFails (s : State) (la : Launch) (w : Workgroup) : Option Nat :=
  let (lo, hi) := poolOf (partOf s la.part).res
  if w.frame < lo || hi < w.frame + frameBytes la then some w.frame else saveFails la w

/-- One member of a gang stands on its core. -/
def placeMember (lid : Nat) (fresh : Bool) (s : State) (m : Nat × Nat × Nat) : State :=
  let (w, core, frame) := m
  let la := launchOf s lid
  let base := ((padPlace s core (imgScratch la)).map (·.1)).getD 0
  let known := (onCore s core).any (·.lid = lid)
  let s := if known then s else modCore s core fun c => { c with icache := [] }
  -- R294, R276: its lanes see every write that their launch, or their own earlier accesses, come after (log 91)
  let s := acquireGang s core
  let free := freeSlots s core
  if fresh then
    let wg := freshWorkgroup la lid w s.cycle core base frame (giveSlots free 0 0 (imgNtg la))
    { s with wgs := tset s.wgs s.nextId wg, nextId := s.nextId + 1 }
  else match la.saved.find? fun x => x.w = w with
    | none => s
    | some x =>
      let wg := restoredWorkgroup (readFrame s la x) s.cycle core base (giveSlots free x.exited 0 x.ntg)
      let s := { s with wgs := tset s.wgs s.nextId wg, nextId := s.nextId + 1 }
      modLaunch s lid fun la => { la with saved := la.saved.filter fun x => x.w ≠ w }

/-- The number of a launch's form in a record: S, or the form of its lowest workgroup (R371, R388). -/
def launchFormNo (s : State) (lid : Nat) : Nat :=
  let la := launchOf s lid
  if la.fabric.isSome || la.form = .s then 2
  else match (wgsOf s lid).map (·.2) ++ la.saved ++ la.parked with
    | [] => formNo la.form
    | w :: t => if (t.foldl (fun b x => if x.w < b.w then x else b) w).strand then 1 else 0

/-- The lowest workgroup of a launch that has not retired (R388). -/
def lowestW (s : State) (lid : Nat) : Nat :=
  let la := launchOf s lid
  let l := ((wgsOf s lid).map (·.2) ++ la.saved ++ la.parked).map (·.w)
  let rest := if la.form = .s then 0 else la.nextGang * gangSize la
  l.foldl min rest

/-- The lowest workgroup of a launch in S-form is that of those that entered it, or 0 (R388, R431). -/
def lowestWOf (s : State) (lid : Nat) : Nat :=
  let la := launchOf s lid
  match la.parked ++ ((la.fabric.map (·.parked)).getD []) ++ ((la.savedFabric.map (·.parked)).getD []) with
  | [] => lowestW s lid
  | w :: t => if la.fabric.isSome then t.foldl (fun n x => min n x.w) w.w else lowestW s lid

/-- An escalation record with a launch cause (R371). -/
def launchCause (s : State) (lid : Nat) (cause : Cause) (addr iter w : Nat) : State :=
  let la := launchOf s lid
  escalate s la.part
    { doubles := escDoubles la.lidNo cause.code cause.code 0 0 addr iter w (imageOf la) false (launchFormNo s lid)
      lid := lid, target := none, launchCause := true }

/-- Finish the placement under way of a partition: SAVE_FAULT where a saved frame cannot be read (R398). Gives
the launch that a frame has failed, with the address. -/
def finishPlacing (s : State) (part : Nat) : State × Option (Nat × Nat) :=
  let s0 := s
  match (partOf s part).placing with
  | none => (s, none)
  | some pl =>
    let la := launchOf s pl.lid
    let first := (partOf s part).firstFailed.any fun x => x.1 = pl.lid
    let s := modPart s part fun p => { p with
      placing := none, firstFailed := if first then none else p.firstFailed, blocked := p.blocked && !first }
    let bad := if pl.fresh then none else framesFail s0 part (placingFrames s0 part)
    match bad with
    | some a => (s, some (pl.lid, a))
    | none =>
      let ms := (waitingMembers la pl.gang pl.fresh).map (·.1)
      let s := (ms.zip (pl.cores.zip pl.frames)).foldl (placeMember pl.lid pl.fresh) s
      let s := modLaunch s pl.lid fun la =>
        { la with
          started := true
          placed := tset la.placed pl.gang s.cycle
          nextGang := if pl.fresh then pl.gang + 1 else la.nextGang
          back := if pl.fresh then la.back else la.back.erase pl.gang }
      (if la.started then s else
        trace s part (regionOfCore (pl.cores.headD 0))
          { kind := 4, form := formNo la.form, image := imageOf la, w := ms.headD 0 }, none)

/-- A launch ends unsaved (R372 CMD 3): its engines stop, its contexts, tiles and frames are gone, and its packet
completes without its signal. A gang placement under way completes first (R299, R389). -/
def endLaunch (s : State) (lid : Nat) : State :=
  match tfind s.launches lid with
  | none => s
  | some la =>
    let s := if (partOf s la.part).placing.any (·.lid = lid) then (finishPlacing s la.part).1 else s
    let xids := (s.transfers.filter fun t => t.2.lid = lid).map (·.1)
    let s := (la.fabric.map (idleRegion s)).getD s
    let s := xids.foldl endXfer s
    let s := { s with
      wgs := s.wgs.map fun x => (x.1, dropHeldOf xids x.2)
      launches := s.launches.map fun x => (x.1, dropHeldIn xids x.2) }
    let la := launchOf s lid
    let s := (wgsOf s lid).foldl (fun s x => dropTx (refuseHeld s x.2) x.1 x.2) s
    let s := (la.saved ++ la.parked).foldl refuseHeld s
    eraseLaunch (modRunning s la.part la.queue la.index fun _ => none) lid

/-- End a launch with a launch cause of its own record. -/
def endWithCause (s : State) (lid : Nat) (cause : Cause) (addr w : Nat) : State :=
  endLaunch (launchCause s lid cause addr 0 w) lid

/-- Structure and operand code of a failing register: the halves of an s register stand at 0x100 and 0x300, and the join
registers at 0x200. -/
def registerError (b : Nat × Nat) : Nat × Nat :=
  if 0x200 ≤ b.1 && b.1 < 0x300 then (5, (Config.joinCode (b.1 - 0x200)).toNat)
  else (registerStructure (b.1 % 0x200), b.1 % 0x200)

/-- The errors that a save or a restore met at an address of a frame: in the frame, or in the context that was to go there
(R398, R408). -/
def noteSave (s : State) (lid addr : Nat) : State :=
  let la := launchOf s lid
  let (lo, hi) := poolOf (partOf s la.part).res
  if addr < lo || hi ≤ addr then s
  else if badData s addr 1 then noteError s (stripCore s la.part) 0 addr
  else match ((wgsOf s lid).map (·.2) ++ la.saved ++ la.parked).find? fun w => w.frame ≤ addr && addr < w.frame + frameBytes la with
    | some w => (w.badRegs.map registerError ++ padErrors w.pad).foldl (fun s x => noteError s w.core x.1 x.2) s
    | none => (la.fabric.toList.flatMap fun f => f.tiles.zip f.frames).foldl (fun s x =>
        if x.2.1 ≤ addr && addr < x.2.1 + x.2.2 then (padErrors x.1.pad).foldl (fun s y => noteError s x.1.core y.1 y.2) s else s) s

/-- SAVE_FAULT: the launch ends unsaved (R398); a CMD 1 under way has then seen a launch end (R435). -/
def saveFault (s : State) (lid addr : Nat) : State :=
  let part := (launchOf s lid).part
  let s := endWithCause (noteSave s lid addr) lid .saveFault addr (lowestWOf s lid)
  modPart s part fun p => { p with lost := true }

/-- No state of the partition can ever hold a gang of the launch (R397). -/
def unplaceable (s : State) (la : Launch) : Bool :=
  let r := (partOf s la.part).res
  r.cores.length < gangSize la || 65536 < imgRegs la || r.saven * 65536 < gangSize la * frameBytes la

/-- The lowest unplaced gang of a launch; of one that is to start in S-form, as long as it has not started, gang 0 (R397:
log 119). -/
def unplacedGang (la : Launch) : Option Nat :=
  if la.form = .s then (if la.started then none else some 0) else (waitingGang la).map (·.1)

/-- A launch with unplaced gangs ends when it can never be placed. -/
def endIfUnplaceable (s : State) (lid : Nat) : State :=
  let la := launchOf s lid
  match unplacedGang la with
  | some gang => if unplaceable s la then endWithCause s lid .gangUnplaceable gang (gang * gangSize la) else s
  | none => s

/-! ### Placement (R298, R299) -/

/-- What the distributor would do with one launch of its list. -/
inductive Pick where
  | gang (lid gang : Nat) (fresh : Bool) (cores frames : List Nat)
  /-- a rectangle is free for the launch's next load -/
  | rect (lid origin : Nat)
  deriving DecidableEq, Repr

/-- The size of the rectangle that a launch waits for: kept in its fabric. -/
def wantedSize (la : Launch) : Nat × Nat := (la.fabric.map fun f => (f.width, f.height)).getD (1, 1)

/-- What fits of a launch. -/
def pickOf (s : State) (x : Nat × Launch) : Option Pick :=
  if x.2.wantsFabric.isSome then
    let (w, h) := wantedSize x.2
    let (lo, hi) := poolOf (partOf s x.2.part).res
    let need := (x.2.fabric.map (·.need)).getD []
    if need ≠ [] && (takeSizes lo hi need (poolUsed s x.2.part)).isNone then none
    else (findRect (coreFree s x.2.part x.1) w h).map (Pick.rect x.1)
  else match waitingGang x.2 with
    | none => none
    | some (g, fresh) => (gangFits s x.2 g fresh).map fun c => .gang x.1 g fresh c.1 c.2

/-- The first launch of the list that fits; only the first of all while the list is blocked. -/
def nextPick (s : State) (part : Nat) : Option Pick :=
  let l := distList s part
  if (partOf s part).blocked then l.head?.bind (pickOf s) else l.findSome? (pickOf s)

/-- Note how long the first launch has failed to be placed. -/
def noteFirst (s : State) (part : Nat) : State :=
  modPart s part fun p =>
    match (distList s part).head? with
    | none => { p with firstFailed := none, blocked := false }
    | some x =>
      if (pickOf s x).isSome then { p with firstFailed := none, blocked := false }
      else match p.firstFailed with
        | some (lid, _) => if lid = x.1 then p else { p with firstFailed := some (x.1, s.cycle), blocked := false }
        | none => { p with firstFailed := some (x.1, s.cycle), blocked := false }

/-- Set an empty core's SPU; a change drains its buffer and empties its L1 (R247). -/
def setSpu (bytes : Nat) (s : State) (core : Nat) : Option State :=
  if onCore s core ≠ [] || (coreOf s core).spu = spuFor bytes then some s
  else (drainAll s core).map fun s => modCore s core fun c => { c with l1 := [], spu := spuFor bytes }

/-- GANG_PLACEMENT (R298): the next gang that fits begins to be placed. -/
def execGangPlacement (part : Nat) (s : State) : Out :=
  if (partOf s part).placing.isSome then .next s
  else
    let s := noteFirst s part
    match nextPick s part with
    | some (.gang lid gang fresh cores frames) =>
      match cores.foldlM (setSpu (imgScratch (launchOf s lid))) s with
      | none => .next s
      | some s =>
        let due := s.cycle + 1 + Config.placeTime s.tick % 64
        .next (modPart (ticked s) part fun p =>
          { p with placing := some { lid := lid, gang := gang, fresh := fresh, cores := cores, frames := frames, due := due } })
    | _ => .next s

/-- GANG_PLACEMENT_COMPLETE (R22, R299, R304). -/
def execGangPlacementComplete (part : Nat) (s : State) : Out :=
  match (partOf s part).placing with
  | none => .next s
  | some pl =>
    if s.cycle < pl.due || (!pl.fresh && framesLocked s (placingFrames s part)) then .next s
    else match finishPlacing s part with
      | (s, none) => .next s
      | (s, some (lid, a)) => .next (saveFault s lid a)

/-- DISTRIBUTOR_LIST_BLOCK (R298): the first launch has failed for 65,536 cycles. -/
def execDistributorListBlock (part : Nat) (s : State) : Out :=
  match (partOf s part).firstFailed with
  | some (lid, since) =>
    if since + 65536 ≤ s.cycle && (distList s part).head?.any (·.1 = lid) then
      .next (modPart s part fun p => { p with blocked := true })
    else .next s
  | none => .next s

/-! ### Pre-emption (R26, R299, R302, R364, R398) -/

/-- A lane of the thread is irrevocable: the TG goes on until it has left (R288). -/
def holdsIrrev (w : Workgroup) (t : Thread) : Bool := w.tx.any fun x => x.2.st = .irrev && (liveLanes w t).getLsbD x.1

/-- A workgroup can be saved: its engines have finished, no commit and no irrevocable lane is left, no load is in
flight, no hop between T-form and V-form is under way, and it is not about to retire. -/
def canSave (s : State) (x : Nat × Workgroup) : Bool :=
  let (wid, w) := x
  (w.tx.all fun t => t.2.st ≠ .irrev && t.2.st ≠ .committing)
    && (w.pad.queue = [] || (failedHead w).isSome)
    && !(s.transfers.any fun t => t.2.owner = .workgroup wid)
    && (w.threads.all fun t => t.flights.all fun f => f.due.isNone)
    && (w.hop.all fun h => h.due.isNone) && !(w.threads.all (retired w))

/-- A revocable lane aborts with class 8 and goes to its target when it next issues; a queued lane withdraws its
request (R286, R287, R302). -/
def preemptLane (wid : Nat) (s : State) (x : Nat × LaneTx) : State :=
  match x.2.st with
  | .active =>
    let s := abortState s wid x.1 8 0
    modWg s wid fun w => setTx w x.1 { txOf w x.1 with late := true, target := x.2.target }
  | .queued => leaveTx s wid x.1
  | _ => s

/-- Save one workgroup: it leaves its core, and with it the core's product tables (R135, R185, R302, R303, R312). -/
def saveWg (s : State) (x : Nat × Workgroup) : Option State :=
  let s := x.2.tx.foldl (preemptLane x.1) s
  match wgOf s x.1 with
  | none => some s
  | some w => (drainAll s w.core).map fun s =>
    let w := { w with
      saving := false
      phase := w.phase.map (phaseLeft s.cycle)
      threads := w.threads.map fun t => forgetAsked (sleepThread (· - s.cycle) t)
      linkFails := []
      pad := { w.pad with busy := [], throttle := none, pairs := [] } }
    let s := writeFrame { s with wgs := terase s.wgs x.1 } (launchOf s w.lid) w
    modLaunch s w.lid fun la => { la with saved := la.saved ++ [w] }

/-- Put a gang among those sent back, ascending. -/
def insertGang (g : Nat) : List Nat → List Nat
  | [] => [g]
  | x :: t => if g < x then g :: x :: t else if g = x then x :: t else x :: insertGang g t

/-- The placed workgroups of a gang. -/
def gangWgs (s : State) (lid gang : Nat) : List (Nat × Workgroup) :=
  (wgsOf s lid).filter fun x => x.2.w / gangSize (launchOf s lid) = gang

/-- A hop into S-form is abandoned (R59): the parked workgroups stay saved in T-form at the point; a launch that
was to start in S-form goes back to waiting for its rectangle. -/
def abandonHop (s : State) (lid : Nat) (backoff : Bool) : State :=
  modLaunch s lid fun la =>
    let gangs := la.parked.map fun w => w.w / gangSize la
    if la.form = .s then
      { la with fabric := la.fabric.map fun f => { f with tiles := [], state := .loading }, wantsFabric := some s.cycle }
    else
      { la with
        saved := la.saved ++ la.parked.map (unpark s.cycle), parked := [], parkedAt := none, wantsFabric := none, fabric := none
        reserved := [], hop := none, plans := [], backoff := if backoff then 16 else la.backoff
        back := gangs.foldl (fun l g => insertGang g l) la.back }

/-- A hop into S-form of the launch is running: workgroups are parked, or its load streams. -/
def hoppingIn (la : Launch) : Bool := la.form ≠ .s && (la.parkedAt.isSome || la.wantsFabric.isSome || la.fabric.isSome)

/-- A gang's contexts are saved into their frames (R302, R398): `none` while it must still wait. -/
def saveGang (s : State) (lid gang : Nat) : Option State :=
  let ws := gangWgs s lid gang
  let la := launchOf s lid
  if !ws.all (fun x => canSave s x && !blockLocked s x.2.frame (frameBytes la)) then none
  else
    match ws.findSome? fun x => contextFails s la x.2 with
    | some a => some (saveFault s lid a)
    | none => (ws.foldlM saveWg s).map fun s =>
      let s := modLaunch s lid fun la => { la with back := insertGang gang la.back, placed := terase la.placed gang }
      if hoppingIn (launchOf s lid) then abandonHop s lid true else s

/-- The gangs of a partition that are being pre-empted. -/
def savingGangs (s : State) (part : Nat) : List (Nat × Nat) :=
  ((s.wgs.filter fun x => x.2.saving && (launchOf s x.2.lid).part = part).map fun x =>
    (x.2.lid, x.2.w / gangSize (launchOf s x.2.lid))).eraseDups

/-- Save what can be saved of the gangs that are being pre-empted. -/
def saveReady (s : State) (part : Nat) : State :=
  (savingGangs s part).foldl (fun s g => (saveGang s g.1 g.2).getD s) s

/-- Ask for the pre-emption of a gang. -/
def markGang (s : State) (lid gang : Nat) : State :=
  let g := gangSize (launchOf s lid)
  { s with wgs := s.wgs.map fun x => if x.2.lid = lid && x.2.w / g = gang then (x.1, { x.2 with saving := true }) else x }

/-- Who is pre-empted: a gang, or a launch in S-form as a whole. -/
inductive Victim where
  | gang (lid gang : Nat)
  | fabric (lid : Nat)
  deriving DecidableEq, Repr

/-- STATE of RCSTAT (R423). -/
def LoadState.code : LoadState → Nat
  | .loading => 1 | .running => 2 | .draining => 3 | .freezing => 4 | .frozen => 5

/-- A load's state changes. -/
def setLoadState (s : State) (lid : Nat) (st : LoadState) : State :=
  setRcstat (modFabric s lid fun f => { f with state := st }) (originRegion (fabricOf s lid)) 2 0 st.code

/-- A load goes on without the markers of a drain: its units are no longer stopped. -/
def unmark (f : Fabric) : Fabric :=
  let keep := fun (l : List Token) => l.filter (· ≠ .marker)
  { f with tiles := f.tiles.map fun t =>
      { t with
        ports := t.ports.map fun q => q.filter fun k => keep k.toks ≠ []
        units := t.units.map fun x =>
          { x with
            stopped := false
            marked := []
            ins := x.ins.map fun c => { c with toks := keep c.toks }
            outs := x.outs.map fun o => if keep o.toks = [] then { o with toks := [], dests := [] } else o } } }

/-- A load that drains for a save goes on. -/
def resumeDrain (s : State) (lid : Nat) : State :=
  setLoadState (modFabric s lid fun f => { unmark f with drain := none, quiet := 0 }) lid .running

/-- Withdraw the requests of a partition, but for those of a CMD 1 (R299, R321). -/
def withdraw (s : State) (part : Nat) : State :=
  if (partOf s part).next.isSome then s else
  let s : State := { s with wgs := s.wgs.map fun x =>
      if x.2.saving && (launchOf s x.2.lid).part = part then (x.1, { x.2 with saving := false }) else x }
  (s.launches.filter fun x => x.2.part = part && x.2.fabric.any fun f => f.drain = some none && f.state = .draining).foldl
    (fun s (x : Nat × Launch) => resumeDrain s x.1) s

/-- A load can be drained for a save: it is neither freezing nor frozen, and drains for nothing yet (R421). -/
def canDrain (f : Fabric) : Bool := f.tiles ≠ [] && f.drain.isNone && (f.state = .running || f.state = .loading)

/-- The victims of a launch with the cycles of their placement. -/
def victimsOf (s : State) (x : Nat × Launch) : List (Victim × Nat × Nat) :=
  (if x.2.fabric.any canDrain then [(.fabric x.1, priOf x.2, (x.2.fabric.map (·.placedAt)).getD 0)] else [])
    ++ (x.2.placed.filter fun g => gangWgs s x.1 g.1 ≠ []).map fun g => (.gang x.1 g.1, priOf x.2, g.2)

/-- The lowest PRI first, and within it the one placed most recently. -/
def firstVictim (l : List (Victim × Nat × Nat)) : Option Victim :=
  match l with
  | [] => none
  | v :: t => some (t.foldl (fun b x => if x.2.1 < b.2.1 || (x.2.1 = b.2.1 && b.2.2 ≤ x.2.2) then x else b) v).1

/-- A fabric of the partition drains for a save. -/
def fabricSaving (s : State) (part : Nat) : Bool :=
  s.launches.any fun x => x.2.part = part && x.2.fabric.any fun f => f.drain = some none

/-- The TYPE 3 record of a load: its four parts in region cycles (R343). -/
def traceLoad (s : State) (lid : Nat) : State :=
  let la := launchOf s lid
  match la.fabric with
  | none => s
  | some f =>
    let r := regionOfCore f.origin
    let now := (regionOf s r).cycles
    let e1 := f.t1.getD now
    let e2 := max e1 (f.t2.getD now)
    let e3 := max e2 (f.t3.getD now)
    trace s la.part r
      { kind := 3, form := 2, image := imageOf la, w := f.first / imgLanes la
        d6 := (e1 - f.t0) % 2 ^ 32 + (e2 - e1) % 2 ^ 32 * 2 ^ 32, d7 := (e3 - e2) % 2 ^ 32 + (now - e3) % 2 ^ 32 * 2 ^ 32 }

/-- The buffers of every tile of a load drain; none while an entry waits for a locked sector (R250, R285). -/
def drainTiles (s : State) (f : Fabric) : Option State := f.tiles.foldlM (fun s t => drainAll s t.core) s

/-- A byte of a tile's frame: 64 KiB of element, node, channel and staging state, the scratchpad, and the edge buffers
(R303). Only the scratchpad has a layout; the other bytes are free values (log 36). -/
def tileByte (la : Launch) (t : FTile) (tick o : Nat) : Byte :=
  if 65536 ≤ o && o < 65536 + imgScratch la then memByte t.pad.scratch (o - 65536) else Config.frameByte tick o

/-- The lowest address of a tile's frame whose write reads uncorrectable data (R398, R408; log 36). -/
def tileFails (t : FTile) (frame : Nat) : Option Nat :=
  ((t.pad.badSectors.map fun n => 65536 + 32 * n) ++ (t.pad.badTiles ++ t.pad.badSlots).map fun _ => 0).foldl
    (fun b o => some (match b with | none => frame + o | some x => min x (frame + o))) none

/-- The frames of a load's tiles: each tile with its frame's address and size. -/
def tileFrames (f : Fabric) : List (FTile × Nat × Nat) := f.tiles.zip f.frames

/-- Why a load's tiles cannot be written into their frames: the address (R398). -/
def tilesFail (s : State) (la : Launch) (f : Fabric) : Option Nat :=
  let (lo, hi) := poolOf (partOf s la.part).res
  (tileFrames f).findSome? fun x => if x.2.1 < lo || hi < x.2.1 + x.2.2 then some x.2.1 else tileFails x.1 x.2.1

/-- Every tile of a load goes into its frame (R303). -/
def writeTiles (s : State) (la : Launch) (f : Fabric) : State :=
  (tileFrames f).foldl (fun s x => writeBlock s x.2.1 x.2.2 (tileByte la x.1 s.tick)) s

/-- A tile's scratchpad comes back from its frame (R303, R304). -/
def readTile (s : State) (la : Launch) (t : FTile) (frame : Nat) : FTile :=
  { t with pad := { t.pad with scratch := cutBlock s.mem (frame + 65536) (frame + 65536 + imgScratch la) } }

/-- A launch in S-form leaves its tiles with the whole of their state in its frames, once their buffers have drained;
it waits for a rectangle again (R250, R300, R302, R303). A frame that cannot be written raises SAVE_FAULT (R398). -/
def saveFabric (s : State) (lid : Nat) : Option State :=
  let la := launchOf s lid
  let f := fabricOf s lid
  if framesLocked s f.frames then none else
  match tilesFail s la f with
  | some a => some (saveFault s lid a)
  | none => (drainTiles s f).map fun s =>
    let s := writeTiles s la f
    modLaunch (idleRegion (traceLoad s lid) f) lid fun la =>
      { la with
        savedFabric := some f
        fabric := some { width := f.width, height := f.height, load := f.load }
        wantsFabric := some s.cycle
        phase := la.phase.map (phaseLeft s.cycle) }

/-- Begin the pre-emption of a victim: a hop into S-form is abandoned instead (R59); a load that still streams is
saved at once, and one that runs drains by markers (R214). -/
def preempt (s : State) (v : Victim) : State :=
  match v with
  | .gang lid gang => saveReady (markGang s lid gang) (launchOf s lid).part
  | .fabric lid =>
    if (launchOf s lid).form ≠ .s then abandonHop (idleRegion s (fabricOf s lid)) lid true
    else if (fabricOf s lid).state = .loading then (saveFabric s lid).getD s
    else setLoadState (modFabric s lid fun f => { f with drain := some none, quiet := 0 }) lid .draining

/-- Pre-emptions that are under way for no waiting launch: those of a CMD 1 go on, others are withdrawn (R299, R321). -/
def withdrawOrSave (s : State) (part : Nat) : State :=
  if (partOf s part).next.isSome then saveReady s part else withdraw s part

/-- PREEMPTION_TRIGGER (R299, R302): gangs under pre-emption that have stopped are saved; then, while the launch
that stands first has failed for 4,096 cycles and still does not fit, the next victim is pre-empted. A request
that has become unnecessary is withdrawn. -/
def execPreemptionTrigger (part : Nat) (s : State) : Out :=
  match (distList s part).head?, (partOf s part).firstFailed with
  | some x, some (lid, since) =>
    if x.1 ≠ lid || s.cycle < since + 4096 || (pickOf s x).isSome then .next (withdrawOrSave s part)
    else
      let s := saveReady s part
      if savingGangs s part ≠ [] || fabricSaving s part then .next s
      else match firstVictim ((s.launches.filter fun y => y.2.part = part && priOf y.2 < priOf x.2).flatMap (victimsOf s)) with
        | some v => if (pickOf s x).isSome then .next s else .next (preempt s v)
        | none => .next s
  | _, _ => .next (withdrawOrSave s part)

/-! ### Retirement (R25, R52, R211) -/

/-- The estimates are written back, if their page is writable (R52). -/
def writeEstimates (s : State) (la : Launch) (core : Nat) : State :=
  (la.est.zipIdx).foldl (fun s (d, i) =>
    deviceStore s (spaceOf la core) (imageOf la + fld (hdr la 8) 63 32 + 8 * i) (toBytes 8 d.toNat)) s

/-- The launch's last workgroup, or its last load, is done, in a form: its packet completes. -/
def retireLaunch (s : State) (lid core w form : Nat) : State :=
  let la := launchOf s lid
  let s := writeEstimates s la core
  let s := trace s la.part (regionOfCore core) { kind := 5, form := form, image := imageOf la, w := w }
  eraseLaunch (modRunning s la.part la.queue la.index fun r => some { r with done := true }) lid

/-- A workgroup may retire: its TGs have retired and its engines have finished. -/
def mayRetire (s : State) (wid : Nat) (w : Workgroup) : Bool :=
  (w.threads.all (retired w)) && w.pad.queue = [] && !(s.transfers.any fun t => t.2.owner = .workgroup wid)

/-- WORKGROUP_RETIRE (R25): its stores are performed as a release at partition scope, then its resources are free;
the launch retires with its last workgroup. -/
def execWorkgroupRetire (wid : Nat) (s : State) : Out :=
  match wgOf s wid with
  | none => .next s
  | some w =>
    if !mayRetire s wid w then .next s
    else match drainAll s w.core with
      | none => .next s
      | some s =>
        let s := refuseHeld (dropTx s wid w) w
        let s := { s with wgs := terase s.wgs wid }
        let s := modLaunch s w.lid fun la => { la with retired := la.retired + 1 }
        let gang := w.w / gangSize (launchOf s w.lid)
        let s := if gangWgs s w.lid gang = [] then modLaunch s w.lid fun la => { la with placed := terase la.placed gang } else s
        let la := launchOf s w.lid
        if la.retired = workgroupCount la then .next (retireLaunch s w.lid w.core w.w (if w.strand then 1 else 0)) else .next s

end Sys2Proof.Machine
end

