-- ==== Sys2Proof/Machine/Strip.lean ====
section
/-! DEFINITION. Queues, packets, the Barista strip, child launches, escalation records and budgets: R139, R140,
R210, R211, R290 to R297, R329, R369 to R372, R388, R389, R391 to R396, R442. -/

namespace Sys2Proof.Machine

/-! ### Device reads and writes through a page table -/

/-- One aligned double. -/
def readDbl (s : State) (sp : Space) (va : Nat) : Got Dbl :=
  match probe s sp .read (lowInt va 64) with
  | .fails c => .fails c
  | .waits => .waits
  | .ok pa =>
    if !reaches s true pa then .fails .linkError
    else if lockedFor s none pa 8 then .waits
    else if badData s pa 8 then .fails .dataError
    else .ok (BitVec.ofNat 64 (readLE s.mem pa 8))

/-- `n` doubles from an aligned address on. -/
def readDbls (s : State) (sp : Space) : Nat → Nat → Got (List Dbl)
  | _, 0 => .ok []
  | va, n + 1 => match readDbl s sp va with
    | .fails c => .fails c
    | .waits => .waits
    | .ok d => match readDbls s sp (va + 8) n with
      | .ok l => .ok (d :: l)
      | r => r

/-- Bytes stored by a device agent inside one page: MSI-X words of the host (R326), dropped host writes and
unreachable ranks (R437, R438) included. -/
def devStoreBy (land : State → Nat → List Byte → State) (s : State) (part : Nat) (sp : Space) (va : Nat)
    (f : Nat → List Byte) (n : Nat) : Got State :=
  match probe s sp .write (lowInt va 64) with
  | .fails c => .fails c
  | .waits => .waits
  | .ok pa =>
    if !reaches s false pa then .fails .linkError
    else if lockedFor s none pa n then .waits
    else match (if inHost pa then Config.interruptWord part pa else none) with
      | some q => .ok (if s.linkUp then { s with out := .msix part q.toNat :: s.out } else s)
      | none => .ok (land s pa (f (readLE s.mem pa n)))

/-- A plain store of a device agent. -/
def devStore (s : State) (part : Nat) (sp : Space) (va : Nat) (f : Nat → List Byte) (n : Nat) : Got State :=
  devStoreBy sliceWrite s part sp va f n

/-! ### Queue descriptors (R290, R393, R394) -/

/-- A queue descriptor's fields. -/
structure QueueDesc where
  pa : Nat
  ring : Nat
  asid : Half
  logn : Nat
  en : Bool
  root : Nat
  wr : Nat
  rd : Nat
  reserved : Bool
  deriving DecidableEq, Repr

/-- The descriptor of queue `q`. -/
def queueDesc (s : State) (part q : Nat) : QueueDesc :=
  let pa := ((partOf s part).pd.getD 0 0).toNat + 64 * q
  let d := fun i => BitVec.ofNat 64 (readLE s.mem (pa + 8 * i) 8)
  { pa := pa, ring := (d 0).toNat, asid := (d 1).extractLsb' 48 16, logn := fld (d 1) 35 32, en := (d 1).getLsbD 0
    root := (d 2).toNat, wr := (d 3).toNat, rd := (d 4).toNat
    reserved := fld (d 1) 47 36 ≠ 0 || fld (d 1) 31 1 ≠ 0 || d 5 ≠ 0 || d 6 ≠ 0 || d 7 ≠ 0 }

/-- Reasons 7 and 8. -/
def queueBad (q : QueueDesc) : Option Nat :=
  if q.wr < q.rd || q.rd + 2 ^ q.logn < q.wr then some 7
  else if q.logn < 4 || q.ring % 4096 ≠ 0 || q.root % 16384 ≠ 0 || q.reserved then some 8
  else none

/-- The space of a queue's ring and packets. -/
def queueSpace (s : State) (part : Nat) (q : QueueDesc) : Space := ⟨part, q.asid, q.root, stripCore s part⟩
/-- Virtual address of slot `i`. -/
def slotAddr (q : QueueDesc) (i : Nat) : Nat := q.ring + 128 * (i % 2 ^ q.logn)

/-- An escalation record of a packet or queue that is refused (R392 to R395); reason 9 alone gives a cause. -/
def refuse (s : State) (part queue index reason cause image : Nat) : State :=
  escalate s part
    { doubles := escDoubles 0xFFFFFFFF Cause.packetMalformed.code Cause.packetMalformed.code 0 0 index
        (reason + 256 * cause) queue image false 0
      lid := 0, target := none, launchCause := true }

/-- Change a partition's strip. -/
def modStrip (s : State) (part : Nat) (f : Strip → Strip) : State := modPart s part fun p => { p with strip := f p.strip }
def stripOf (s : State) (part : Nat) : Strip := (partOf s part).strip

/-! ### Arbitration (R291, R296, R297, R396) -/

/-- What stands in a queue's next slot. -/
inductive NextSlot where
  | none
  /-- its D0 cannot be translated or read -/
  | unreadable (c : Cause)
  | packet (d0 : Dbl)
  deriving DecidableEq, Repr

/-- The next slot of a queue that is served. -/
def nextSlot (s : State) (part : Nat) (q : QueueDesc) : NextSlot :=
  if q.rd ≥ q.wr then .none
  else match readDbl s (queueSpace s part q) (slotAddr q q.rd) with
    | .waits => .none
    | .fails c => .unreadable c
    | .ok d => if fld d 7 0 = 0 then .none else .packet d

/-- The partitions that the strip of a partition's die serves (R296). -/
def dieParts (s : State) (part : Nat) : List Nat :=
  (s.parts.filter fun x => x.2.res.cores ≠ [] && dieOf (x.2.res.cores.headD 0) = dieOf (stripCore s part)).map (·.1)

/-- A stage of the strip holds no packet (R296). -/
def stageFree (s : State) (part n : Nat) : Bool := (dieParts s part).all fun q => (tfind (stripOf s q).stages n).isNone

/-- A packet enters a stage. -/
def toStage (s : State) (part n : Nat) (p : StripPacket) : State :=
  modStrip s part fun t => { t with stages := tset t.stages n p }

/-- A packet leaves a stage. -/
def clearStage (s : State) (part n : Nat) : State := modStrip s part fun t => { t with stages := terase t.stages n }

/-- Whether a packet waits for signals. -/
def isWait (p : StripPacket) : Bool := p.type = 2 || p.type = 5

/-- The WAIT and WAIT-ALL packets that stand in the wait table or on their way to it. -/
def waiting (t : Strip) : List StripPacket := t.parked ++ ((t.stages.filter fun x => x.1 ≤ 3 && isWait x.2).map (·.2))

/-- Stage 0 may take nothing from a queue: its last packet still has its slot, or waits (R296). -/
def queueHeld (t : Strip) (n : Nat) : Bool :=
  (tfind t.stages 1).any (·.queue = n) || (waiting t).any (·.queue = n)

/-- The wait table of the strip has no entry left (R396). -/
def tableFull (s : State) (part : Nat) : Bool :=
  64 ≤ ((dieParts s part).flatMap fun q => waiting (stripOf s q)).length

/-- The priority of a ready queue, if stage 0 may take its next slot. -/
def readyPri (s : State) (part n : Nat) : Option Nat :=
  let q := queueDesc s part n
  if !q.en || (queueBad q).isSome || queueHeld (stripOf s part) n then none
  else match nextSlot s part q with
    | .none => none
    | .unreadable _ => some 0
    | .packet d => if (fld d 7 0 = 2 || fld d 7 0 = 5) && tableFull s part then none else some (fld d 10 8)

/-- The queue that stage 0 picks: highest PRI, then the first after the one served last. -/
def pickQueue (s : State) (part : Nat) : Option Nat :=
  let last := (stripOf s part).last
  (((List.range 256).map fun i => (last + 1 + i) % 256).filterMap fun q => (readyPri s part q).map fun p => (q, p)).foldl
    (fun b x => match b with
      | none => some x
      | some y => if y.2 < x.2 then some x else some y) (none : Option (Nat × Nat)) |>.map (·.1)

/-- The priority of the queue that stage 0 picks for a partition. -/
def pickPri (s : State) (part : Nat) : Option Nat := (pickQueue s part).bind (readyPri s part)

/-- Of the partitions that share a strip, the one with the highest PRI is served, among equals the one served longest
ago (log 62). -/
def servedNext (s : State) (part : Nat) : Bool :=
  let mine := (pickPri s part).getD 0
  (dieParts s part).all fun q => q = part || match pickPri s q with
    | none => true
    | some x => x < mine || (x = mine &&
        ((stripOf s part).servedAt < (stripOf s q).servedAt || ((stripOf s part).servedAt = (stripOf s q).servedAt && part < q)))

/-- Serving stops at an enabled queue with bad indices or descriptor, with one record each time, and goes on once
they are valid (R394). -/
def judgeQueues (s : State) (part : Nat) : State :=
  (List.range 256).foldl (fun s n =>
    let q := queueDesc s part n
    let known := (stripOf s part).refused.contains n
    match (if q.en then queueBad q else none) with
    | some reason =>
      if known then s
      else refuse (modStrip s part fun t => { t with refused := n :: t.refused }) part n q.rd reason 0 0
    | none => if known then modStrip s part fun t => { t with refused := t.refused.filter (· ≠ n) } else s) s

/-- A write at a watched line gives the strip something to do: a queue to serve, or one to judge anew (R291, R394). -/
def watchDue (s : State) (part : Nat) : Bool :=
  (pickQueue s part).isSome || (List.range 256).any fun n =>
    let q := queueDesc s part n
    (q.en && (queueBad q).isSome) != (stripOf s part).refused.contains n

/-- RDIDX := i + 1 for a packet at index i, with release at partition scope; it waits while a lock holds the sector (R285,
R291). -/
def setRdidx (s : State) (p : StripPacket) : Option State :=
  if lockedFor s none (p.qpa + 32) 8 then none else some (sliceWrite s (p.qpa + 32) (toBytes 8 (p.index + 1)))

/-- STRIP_WATCH_WAKE (R291). -/
def execStripWatchWake (part : Nat) (s : State) : Out := .next (modStrip s part fun t => { t with awake := true })

/-- The packet that stage 0 hands on: the queue's descriptor is read now, and not again (R320). -/
def pickedPacket (n : Nat) (q : QueueDesc) (type : Nat) : StripPacket :=
  { queue := n, index := q.rd, type := type, qpa := q.pa, slot := slotAddr q q.rd, asid := q.asid, root := q.root }

/-- STRIP_ARBITRATION (R297): the packet picked goes on to stage 1, with TYPE 0 where its D0 cannot be read. -/
def execStripArbitration (part : Nat) (s : State) : Out :=
  if !(stripOf s part).awake || !stageFree s part 1 then .next s
  else
    let s := judgeQueues s part
    match pickQueue s part with
    | none => .next (modStrip s part fun t => { t with awake := false })
    | some n =>
      if !servedNext s part then .next s
      else
        let q := queueDesc s part n
        let pick := fun (type : Nat) =>
          Host.Outcome.next (toStage (modStrip s part fun t => { t with last := n, servedAt := s.cycle }) part 1 (pickedPacket n q type))
        match nextSlot s part q with
        | .none => .next s
        | .unreadable _ => pick 0
        | .packet d => pick (fld d 7 0)

/-! ### Stages 1 and 2 (R291, R392, R393) -/

/-- A double of a packet. -/
def pd (p : StripPacket) (n : Nat) : Dbl := p.doubles.getD n 0
/-- The space that a packet's addresses are translated in. -/
def packetSpace (s : State) (part : Nat) (p : StripPacket) : Space := ⟨part, p.asid, p.root, stripCore s part⟩
/-- NBUF of a packet. -/
def nbuf (p : StripPacket) : Nat := fld (pd p 0) 18 16
/-- Read `n` doubles one by one: none while one waits, else what can be read, 0 for the others, and the numbers of those
that cannot. -/
def readEach (s : State) (sp : Space) (va n : Nat) : Option (List Dbl × List Nat) :=
  let l := (List.range n).map fun i => readDbl s sp (va + 8 * i)
  if l.any fun x => match x with | .waits => true | _ => false then none else
  some (l.map fun x => match x with | .ok d => d | _ => 0,
    (List.range n).filter fun i => match l[i]? with | some (.fails _) => true | _ => false)

/-- The buffer-list entries of a packet (R295). -/
def bufList (s : State) (part : Nat) (p : StripPacket) : Option (List Dbl × List Nat) :=
  if nbuf p = 0 || 6 < nbuf p || p.unread.contains 7 then some ([], []) else
  readEach s (packetSpace s part p) (pd p 7).toNat (2 * nbuf p)

/-- The entries of a list, BASE and Q1. -/
def bufPairs : List Dbl → List (Dbl × Dbl)
  | a :: b :: t => (a, b) :: bufPairs t
  | _ => []

/-- Reserved bits of a packet that are set (R210, R292), among what can be read of it. -/
def packetReserved (p : StripPacket) : Bool :=
  let d := pd p
  fld (d 0) 63 19 ≠ 0 || fld (d 0) 15 11 ≠ 0 ||
    match fld (d 0) 7 0 with
    | 1 => fld (d 2) 63 60 ≠ 0 || fld (d 3) 63 24 ≠ 0 || (d 3).getLsbD 15
    | 2 => fld (d 3) 63 2 ≠ 0 || (([4] ++ List.range' 8 8).any fun i => d i ≠ 0)
    | 3 => fld (d 3) 63 1 ≠ 0 || (([4] ++ List.range' 8 8).any fun i => d i ≠ 0)
    | 4 => fld (d 3) 63 40 ≠ 0 || (([4] ++ List.range' 8 8).any fun i => d i ≠ 0)
    | _ => fld (d 3) 63 3 ≠ 0 || (([1, 2, 4] ++ if p.unread.contains 3 then [] else
        List.range' (8 + 2 * fld (d 3) 2 0) (8 - 2 * fld (d 3) 2 0)).any fun i => d i ≠ 0)

/-- Reason 2: reserved bits and fields out of range. -/
def reason2 (p : StripPacket) (bufs : List (Dbl × Dbl)) : Bool :=
  let d := pd p
  packetReserved p || 6 < nbuf p
    || (fld (d 0) 7 0 = 1 && (fld (d 3) 11 10 = 3 || fld (d 3) 13 12 = 3))
    || (fld (d 0) 7 0 = 5 && 4 < fld (d 3) 2 0)
    || bufs.any fun b => fld b.2 63 36 ≠ 0 || fld b.2 31 0 % 128 ≠ 0

/-- Reason 3: alignments. -/
def reason3 (p : StripPacket) (bufs : List (Dbl × Dbl)) : Bool :=
  let d := pd p
  (d 5).toNat % 8 ≠ 0 || (nbuf p ≠ 0 && (d 7).toNat % 16 ≠ 0) || (bufs.any fun b => b.1.toNat % 128 ≠ 0) ||
    match fld (d 0) 7 0 with
    | 1 => fld (d 1) 15 0 ≠ 0
    | 2 | 3 => (d 1).toNat % 8 ≠ 0
    | 4 => (d 1).toNat % 4 ≠ 0 || (d 2).toNat % 4 ≠ 0 || (!p.unread.contains 3 && fld (d 3) 39 0 = 0) || fld (d 3) 39 0 % 4 ≠ 0
    | _ => false

/-- What stage 2 finds, in ascending order of the reasons: a reason, or the buffer entries; none while a read waits. Reasons
2 and 3 are judged by what can be read; a packet whose D0 cannot be read has reason 4 (R297, R393). -/
def stage2 (s : State) (part : Nat) (p : StripPacket) : Option (Except Nat (List (Dbl × Dbl))) :=
  if p.unread.contains 0 then some (.error 4)
  else if p.type = 0 || 5 < p.type then some (.error 1)
  else (bufList s part p).map fun (l, unread) =>
    let bufs := bufPairs l
    if reason2 p bufs then .error 2 else if reason3 p bufs then .error 3
    else if p.unread ≠ [] || unread ≠ [] then .error 4 else .ok bufs

/-- The image address that a refused packet's record names. -/
def packetImage (p : StripPacket) : Nat := if p.type = 1 then (pd p 1).toNat else 0

/-- Refuse the packet in a stage. -/
def refusePacket (s : State) (part n : Nat) (p : StripPacket) (reason cause : Nat) : State :=
  refuse (clearStage s part n) part p.queue p.index reason cause (packetImage p)

/-- A packet of a queue in a stage beyond the n-th has not started: a SIGNAL or COPY in stage 6 has (R293). -/
def unstarted (t : Strip) (queue n : Nat) : Bool :=
  t.stages.any fun x => n < x.1 && x.2.queue = queue && !(x.1 = 6 && (x.2.type = 3 || x.2.type = 4))

/-- A packet that fails a check counts as started when it is refused: an earlier one of its queue starts first (R293,
R392). -/
def refuseInTurn (s : State) (part n : Nat) (p : StripPacket) (reason : Nat) : Option State :=
  if unstarted (stripOf s part) p.queue n || (stripOf s part).parked.any (·.queue = p.queue) then none
  else some (refusePacket s part n p reason 0)

/-- A packet goes on to the next stage, when that is free. -/
def passOn (s : State) (part n : Nat) (p : StripPacket) : Option State :=
  if stageFree s part (n + 1) then some (toStage (clearStage s part n) part (n + 1) p) else none

/-- Free a packet's slot: D0 := 0, where it could be read and can be written, then RDIDX (R291, R297). -/
def freeSlot (s : State) (part : Nat) (p : StripPacket) : Option State :=
  if p.unread.contains 0 then setRdidx s p else
  match devStore s part (packetSpace s part p) p.slot (fun _ => toBytes 8 0) 8 with
  | .ok s => setRdidx s p
  | .fails _ => setRdidx s p
  | .waits => none

/-- Stage 1 (R291, R297): the slot is read and freed. -/
def stageOne (s : State) (part : Nat) (p : StripPacket) : Option State :=
  if !stageFree s part 2 then none
  else match readEach s (packetSpace s part p) p.slot 16 with
    | none => none
    | some (ds, unread) =>
      let p := { p with doubles := ds, unread := unread, type := fld (ds.getD 0 0) 7 0 }
      (freeSlot s part p).map fun s => toStage (clearStage s part 1) part 2 p

/-- Stage 2 (R292, R293, R393): TYPE and fields are checked, and the buffer list is read. -/
def stageTwo (s : State) (part : Nat) (p : StripPacket) : Option State :=
  match stage2 s part p with
  | some (.error r) =>
    (refuseInTurn s part 2 p r).map fun s' => if r = 4 then noteReads s' (packetSpace s part p) 8
      (p.unread.map (p.slot + 8 * ·) ++ (List.range (2 * nbuf p)).map fun i => (pd p 7).toNat + 8 * i) else s'
  | some (.ok bufs) => passOn s part 2 { p with bufs := bufs }
  | none => none

/-- Stage 3 (R293, R296): a packet that waits for signals stands aside. -/
def stageThree (s : State) (part : Nat) (p : StripPacket) : Option State :=
  if isWait p then some (modStrip (clearStage s part 3) part fun t => { t with parked := t.parked ++ [p] })
  else passOn s part 3 p

/-! ### Before-actions and starts (R293, R295) -/

/-- The physical lines of the buffer entries that a bit of Q1 picks; none while a walk meets a locked sector. A line
that cannot be translated is passed over. -/
def bufLines (s : State) (sp : Space) (bit : Nat) (bufs : List (Dbl × Dbl)) : Option (List Nat) :=
  ((bufs.filter fun b => b.2.getLsbD bit).flatMap fun b =>
      (List.range (fld b.2 31 0 / 128)).map fun (i : Nat) => lowInt (b.1.toNat + 128 * i : Nat) 64).foldlM
    (fun l va => match probe s sp .read va with
      | .ok pa => some (l ++ [pa / 128])
      | .fails _ => some l
      | .waits => none) []

/-- Before-actions: IB drops the lines of a range from every L1 of the partition (R295); FB changes no value that
this machine's agents read (log 89). -/
def beforeActions (s : State) (part : Nat) (sp : Space) (bufs : List (Dbl × Dbl)) : Option State :=
  (bufLines s sp 32 bufs).map fun lines =>
    if lines = [] then s else
    (partOf s part).res.cores.foldl (fun s c =>
      modCore s c fun k => { k with l1 := k.l1.filter fun x => !lines.contains (x.1 / 4) }) s

/-- Stage 5. -/
def stageFive (s : State) (part : Nat) (p : StripPacket) : Option State :=
  if !stageFree s part 6 then none
  else (beforeActions s part (packetSpace s part p) p.bufs).bind fun s => passOn s part 5 p

/-- A packet in stage 6 has started; when its work is done stage 7 completes it. -/
def started (s : State) (part : Nat) (p : StripPacket) (done : Bool) : State :=
  modStrip s part fun t => { t with stages := terase t.stages 6, running := t.running ++ [{ p with done := done }] }

/-! ### WAIT and WAIT-ALL (R292, R293, R395) -/

/-- COND of a WAIT. -/
def signalHolds (cond sig value : Nat) : Bool :=
  match cond with
  | 0 => value ≤ sig
  | 1 => sig = value
  | 2 => sig ≠ value
  | _ => sig < value

/-- The signals that a parked packet tests: address, condition, value. -/
def signalsOf (p : StripPacket) : List (Nat × Nat × Nat) :=
  if p.type = 2 then [((pd p 1).toNat, fld (pd p 3) 1 0, (pd p 2).toNat)]
  else (List.range (fld (pd p 3) 2 0)).map fun m => ((pd p (8 + 2 * m)).toNat, 0, (pd p (9 + 2 * m)).toNat)

/-- An earlier packet of a parked packet's queue has not completed (WAIT-ALL). -/
def earlierRuns (t : Strip) (queue : Nat) : Bool :=
  t.running.any (·.queue = queue) || t.stages.any fun x => 3 < x.1 && x.2.queue = queue

/-- Whether a parked packet starts, behind every earlier packet of its queue, and the cause of a signal that cannot be read,
which ends the wait. -/
def parkedMet (s : State) (part : Nat) (p : StripPacket) : Option (Option Cause) :=
  if unstarted (stripOf s part) p.queue 3 || (p.type = 5 && earlierRuns (stripOf s part) p.queue) then none
  else
    let reads := (signalsOf p).map fun x => (readDbl s (packetSpace s part p) x.1, x.2)
    match reads.findSome? fun x => match x.1 with | .fails c => some c | _ => none with
    | some c => some (some c)
    | none => if reads.all fun x => match x.1 with
        | .ok d => signalHolds x.2.1 d.toNat x.2.2
        | _ => false then some none else none

/-- WAIT_CONDITION_MET (R293 to R295). -/
def execWaitConditionMet (part queue : Nat) (s : State) : Out :=
  match (stripOf s part).parked.find? (·.queue = queue) with
  | none => .next s
  | some p =>
    match parkedMet s part p, beforeActions s part (packetSpace s part p) p.bufs with
    | some fault, some s =>
      let s := modStrip s part fun t => { t with parked := t.parked.filter (· ≠ p), awake := true }
      match fault with
      | some c => .next (noteReads (refuse s part p.queue p.index 9 c.code 0) (packetSpace s part p) 8 ((signalsOf p).map (·.1)))
      | none => .next (modStrip s part fun t => { t with running := t.running ++ [{ p with done := true }] })
    | _, _ => .next s

/-! ### SIGNAL and COPY (R292, R293, R395) -/

/-- SIGNAL in stage 6: a relaxed store, or a far atomic. -/
def performSignal (s : State) (part : Nat) (p : StripPacket) : Option State :=
  let value := (pd p 2).toNat
  let new := fun old => if (pd p 3).getLsbD 0 then (old + value) % 2 ^ 64 else value
  let whole := match probe s (packetSpace s part p) .write (pd p 1).toNat with
    | .ok pa => badData s pa 8
    | _ => false
  let land := if (pd p 3).getLsbD 0 then fun s pa bytes => forwardAtomic (landBytes s pa bytes) pa 0 8 value 0 else sliceWrite
  if (pd p 3).getLsbD 0 && whole then
    some (noteReads (refusePacket s part 6 p 9 Cause.dataError.code) (packetSpace s part p) 8 [(pd p 1).toNat])
  else match devStoreBy land s part (packetSpace s part p) (pd p 1).toNat (fun old => toBytes 8 (new old)) 8 with
    | .waits => none
    | .fails c => some (refusePacket s part 6 p 9 c.code)
    | .ok s => some (started s part p true)

/-- One aligned word of a COPY moves. -/
def copyWord (s : State) (part : Nat) (p : StripPacket) (i : Nat) : Got State :=
  let src := lowInt ((pd p 1).toNat + 4 * i) 64
  match readDbl s (packetSpace s part p) (src / 8 * 8) with
  | .waits => .waits
  | .fails c => .fails c
  | .ok d =>
    let word := d.toNat / 2 ^ (8 * (src % 8)) % 2 ^ 32
    devStore s part (packetSpace s part p) ((pd p 2).toNat + 4 * i) (fun _ => toBytes 4 word) 4

/-- The words that a COPY still has to move. -/
def copyTodo (p : StripPacket) : List Nat := p.todo.getD (List.range (fld (pd p 3) 39 0 / 4))

/-- COPY in stage 6: one of the words that have not moved, whichever, moves; no order is given among them (R293). -/
def performCopy (s : State) (part : Nat) (p : StripPacket) : Option State :=
  let todo := copyTodo p
  let i := todo.getD (Config.landPick s.tick % todo.length) 0
  match copyWord s part p i with
  | .waits => none
  | .fails c =>
    some (noteReads (refusePacket (ticked s) part 6 p 9 c.code) (packetSpace s part p) 8 [((pd p 1).toNat + 4 * i) / 8 * 8, (pd p 2).toNat])
  | .ok s =>
    let p := { p with todo := some (todo.erase i) }
    some (if todo.erase i = [] then started (ticked s) part p true else toStage (ticked s) part 6 p)

/-! ### Completion (R211, R293) -/

/-- Stage 7: SIGVAL is stored to SIGADDR, 8 bytes with release at system scope, and a guest receives its interrupt for
the completion word (R326); FA and IA change no value that this
machine's agents read (log 89). -/
def completePacket (s : State) (part : Nat) (p : StripPacket) : Option State :=
  let gone := fun (s : State) =>
    modStrip (modRunning s part p.queue p.index fun _ => none) part fun t => { t with awake := true }
  if pd p 5 = 0 then some (gone s)
  else match devStore s part (packetSpace s part p) (pd p 5).toNat (fun _ => toBytes 8 (pd p 6).toNat) 8 with
    | .waits => none
    | .fails c => some (gone (refuse s part p.queue p.index 9 c.code (packetImage p)))
    | .ok s => some (gone { s with out := .completionInterrupt part :: s.out })

/-- PACKET_COMPLETE (R293). -/
def execPacketComplete (part queue index : Nat) (s : State) : Out :=
  match (stripOf s part).running.find? fun r => r.queue = queue && r.index = index && r.done with
  | none => .next s
  | some p => .next ((completePacket s part p).getD s)

/-! ### LAUNCH (R37, R39, R210, R296, R392) -/

/-- Read one after another, as long as nothing fails. -/
def Got.andThen {α β : Type} (g : Got α) (k : α → Got β) : Got β :=
  match g with
  | .ok x => k x
  | .fails c => .fails c
  | .waits => .waits

/-- Read the header, then the sections that it locates. -/
def readImage (s : State) (sp : Space) (image : Nat) : Got Image :=
  (readDbls s sp image 10).andThen fun h =>
    let section_ := fun (n : Nat) => readDbls s sp (image + fld (h.getD n 0) 31 0) (fld (h.getD n 0) 63 32 / 8)
    (section_ 5).andThen fun eqs => (section_ 6).andThen fun maps => (section_ 7).andThen fun nodes =>
      (readDbls s sp (image + fld (h.getD 8 0) 63 32) 3).andThen fun est => .ok ⟨h, eqs, maps, nodes, est⟩

/-- The addresses that stage 4 reads of an image. -/
def imageAddrs (s : State) (sp : Space) (image : Nat) : List Nat :=
  let list := fun (base n : Nat) => (List.range n).map fun i => base + 8 * i
  list image 10 ++ match readDbls s sp image 10 with
    | .ok h => ([5, 6, 7].flatMap fun n => list (image + fld (h.getD n 0) 31 0) (fld (h.getD n 0) 63 32 / 8))
        ++ list (image + fld (h.getD 8 0) 63 32) 3
    | _ => []

/-- Reason 5: the header breaks R39. -/
def headerBad (h : List Dbl) : Bool :=
  let d := fun n => h.getD n 0
  fld (d 0) 31 0 ≠ 0x31535948 || fld (d 0) 47 32 ≠ 1 || !(d 0).getLsbD 48 || fld (d 0) 63 52 ≠ 0
    || ((d 0).getLsbD 49 != (fld (d 3) 63 32 ≠ 0)) || ((d 0).getLsbD 50 != (fld (d 4) 63 32 ≠ 0))
    || fld (d 7) 63 32 < 8 * fld (d 9) 15 0 || (!(d 0).getLsbD 50 && fld (d 9) 15 0 ≠ 0) || fld (d 1) 63 44 ≠ 0 || fld (d 9) 63 16 ≠ 0
    || 458752 < fld (d 1) 43 25 || fld (d 1) 24 18 = 0 || 64 < fld (d 1) 24 18
    || fld (d 1) 17 13 = 0 || 16 < fld (d 1) 17 13 || 8 < fld (d 1) 12 9 || 255 < fld (d 1) 8 0

/-- Reason 6: the packet breaks R18 or R19. -/
def packetMismatch (la : Launch) : Bool :=
  workgroupCount la % gangSize la ≠ 0 || gangSize la ≠ fld (hdr la 1) 24 18 || fld (pkt la 3) 9 6 + 1 ≠ imgNtg la

/-- The headers of the loads of a graph, in order (R239). -/
def loadHeaders (s : State) (sp : Space) (base size : Nat) : Nat → Nat → Got (List (Nat × Dbl × Dbl))
  | 0, _ => .ok []
  | fuel + 1, off =>
    if size ≤ off then .ok []
    else (readDbls s sp (base + off) 2).andThen fun d =>
      let d0 := d.getD 0 0
      let next := fld d0 63 32 + fld d0 31 16 * 6272
      (loadHeaders s sp base (if next ≤ off then 0 else size) fuel next).andThen fun l => .ok ((off, d0, d.getD 1 0) :: l)

/-- The load headers of a launch's image. -/
def graphOf (s : State) (la : Launch) (core : Nat) : Got (List (Nat × Dbl × Dbl)) :=
  loadHeaders s (spaceOf la core) (imageOf la + fld (hdr la 4) 31 0) (fld (hdr la 4) 63 32) 65536 0

/-- The partition's cores hold a rectangle of the size of every load of a launch's graph (R300). -/
def rectsExist (s : State) (la : Launch) (g : List (Nat × Dbl × Dbl)) : Bool :=
  g.all fun x => (findRect (partOf s la.part).res.cores.contains (loadHeader x.2.1).1 (loadHeader x.2.1).2).isSome

/-- The starting form of a launch (R34, R211, R300), and the size of its first load's rectangle: one tile where the loads
cannot be read, which the region controller then refuses (R427). None while the read of a load header waits (R285). -/
def startForm (s : State) (la : Launch) : Option (Form × Nat × Nat) :=
  match fld (pkt la 3) 13 12 with
  | 1 => some (if (hdr la 0).getLsbD 49 then .v else .t, 1, 1)
  | 2 =>
    if !(hdr la 0).getLsbD 50 || 2 ^ 32 ≤ workgroupCount la * imgLanes la then some (.t, 1, 1)
    else match graphOf s la (stripCore s la.part) with
      | .ok (x :: g) => some (if rectsExist s la (x :: g) then (.s, loadHeader x.2.1) else (.t, 1, 1))
      | .waits => none
      | _ => some (.s, 1, 1)
  | _ => some (.t, 1, 1)

/-- The launch of a packet, before it is dispatched. -/
def launchOfPacket (part : Nat) (p : StripPacket) (im : Image) : Launch :=
  let thr := fld (pd p 3) 23 16
  { part := part, queue := p.queue, index := p.index, pkt := p.doubles, asid := p.asid, root := p.root
    hdr := im.hdr, eqs := im.eqs, maps := im.maps, nodes := im.nodes, est := im.est
    thr := BitVec.ofNat 8 (if thr = 0 then 12 else thr), policy := (pd p 3).extractLsb' 10 2 }

/-- Stage 6 hands a launch to the distributor; BARM binds it (R320, R329). A launch that can never be placed ends
at once (R397). -/
def dispatch (s : State) (part : Nat) (p : StripPacket) (la : Launch) (start : Form × Nat × Nat) : State :=
  let t := partOf s part
  let lid := s.nextId
  let (form, w, h) := start
  let barm := (t.pd.getD 4 0).getLsbD 48
  let la := { la with
    lidNo := t.nextLid, order := t.nextOrder, form := form, bind := (t.pd.getD 4 0).extractLsb' 32 16, bound := barm }
  let la := if form = .s then { la with fabric := some { width := w, height := h }, wantsFabric := some s.cycle } else la
  let s := { s with launches := tset s.launches lid la, nextId := lid + 1 }
  let s := modPart s part fun t =>
    { t with
      nextLid := t.nextLid + 1
      nextOrder := t.nextOrder + 1
      pd := if barm then t.pd.set 4 (t.pd.getD 4 0 &&& ~~~(1#64 <<< 48)) else t.pd }
  endIfUnplaceable (started s part p false) lid

/-- Stage 4 (R392, R393): a LAUNCH's image is read and checked. -/
def stageFour (s : State) (part : Nat) (p : StripPacket) : Option State :=
  if p.type ≠ 1 then passOn s part 4 p
  else match readImage s (packetSpace s part p) (pd p 1).toNat with
    | .waits => none
    | .fails _ => (refuseInTurn s part 4 p 4).map fun s' =>
        noteReads s' (packetSpace s part p) 8 (imageAddrs s (packetSpace s part p) (pd p 1).toNat)
    | .ok im =>
      if headerBad im.hdr then refuseInTurn s part 4 p 5
      else if packetMismatch (launchOfPacket part p im) then refuseInTurn s part 4 p 6
      else passOn s part 4 { p with image := some im }

/-- Stage 6 (R296): a LAUNCH is dispatched, a SIGNAL or COPY performed. -/
def stageSix (s : State) (part : Nat) (p : StripPacket) : Option State :=
  match p.type, p.image with
  | 1, some im => let la := launchOfPacket part p im; (startForm s la).map (dispatch s part p la)
  | 3, _ => performSignal s part p
  | 4, _ => performCopy s part p
  | _, _ => some (clearStage s part 6)

/-- What a stage does with its packet; none while it has to wait. -/
def stageStep (s : State) (part n : Nat) (p : StripPacket) : Option State :=
  match n with
  | 1 => stageOne s part p
  | 2 => stageTwo s part p
  | 3 => stageThree s part p
  | 4 => stageFour s part p
  | 5 => stageFive s part p
  | _ => stageSix s part p

/-- The packet of a TYPE that stands furthest on and can move moves; one of no TYPE of R292 moves as a LAUNCH does, as far as
stage 2, which refuses it. -/
def movePacket (s : State) (part type : Nat) : State :=
  (([6, 5, 4, 3, 2, 1] : List Nat).findSome? fun n =>
    match tfind (stripOf s part).stages n with
    | some p => if p.type = type || (type = 1 && (p.type = 0 || 5 < p.type)) then stageStep s part n p else none
    | none => none).getD s

/-- LAUNCH_PACKET (R210, R296, R392, R393). -/
def execLaunchPacket (part : Nat) (s : State) : Out := .next (movePacket s part 1)
/-- WAIT_PACKET (R292, R293). -/
def execWaitPacket (part : Nat) (s : State) : Out := .next (movePacket s part 2)
/-- SIGNAL_PACKET (R292, R293). -/
def execSignalPacket (part : Nat) (s : State) : Out := .next (movePacket s part 3)
/-- COPY_PACKET (R292, R293). -/
def execCopyPacket (part : Nat) (s : State) : Out := .next (movePacket s part 4)
/-- WAIT_ALL_PACKET (R292, R293). -/
def execWaitAllPacket (part : Nat) (s : State) : Out := .next (movePacket s part 5)

/-! ### Child launches (R139, R140) -/

/-- How a lane's packet read ends. -/
inductive ChildRead where
  | ok (ds : List Byte)
  | fails (stage : Nat) (c : Cause)
  | waits

/-- Read the 128 bytes of a child packet at partition scope. -/
def readChild (s : State) (c : Ctx) (ea : Nat) : ChildRead :=
  if !canonical ea then .fails 15 .noncanonical
  else if ea % 128 ≠ 0 then .fails 15 .misaligned
  else match translate s (spaceOf c.la c.wg.core) .read ea with
    | .waits => .waits
    | .fails x => .fails 15 x
    | .ok pa _ s =>
      if !reaches s true pa then .fails 16 .linkError
      else match sliceRead s none pa 128 with
        | .waits => .waits
        | .bad x => .fails 16 x
        | .ok .. => .ok (readBytes s.mem pa 128)

/-- Every page of a ring can be written, or not; it may have to wait. The pages are walked anew, where R260 lets an old leaf
be used too (DEDUCED, log 62). -/
def ringWritable (s : State) (part : Nat) (q : QueueDesc) : Got Unit :=
  let first := q.ring / 65536
  let last := (q.ring + 128 * 2 ^ q.logn - 1) / 65536
  let pages := (List.range' first (last + 1 - first)).map fun n => max q.ring (65536 * n)
  match pages.findSome? fun (a : Nat) => match probe s (queueSpace s part q) .write (lowInt a 64) with
    | .fails c => some c
    | .ok pa => if reaches s false pa then none else some .linkError
    | .waits => none with
  | some c => .fails c
  | none =>
    if pages.any fun (a : Nat) => match probe s (queueSpace s part q) .write (lowInt a 64) with
      | .ok pa => lockedFor s none pa 128
      | .fails _ => false
      | .waits => true then .waits else .ok ()

/-- Write one child packet into its slot: bytes 8 to 127, then D0. -/
def writeChild (part : Nat) (q : QueueDesc) (s : State) (x : Nat × List Byte) : State :=
  match probe s (queueSpace s part q) .write (lowInt (slotAddr q x.1) 64) with
  | .ok pa => sliceWrite (sliceWrite s (pa + 8) (x.2.drop 8)) pa (x.2.take 8)
  | _ => s

/-- A lock holds the index or a slot that child packets are written to (R285). -/
def slotsLocked (s : State) (part : Nat) (q : QueueDesc) (n : Nat) : Bool :=
  lockedFor s none (q.pa + 24) 8 || (List.range' q.wr n).any fun i =>
    match probe s (queueSpace s part q) .write (lowInt (slotAddr q i) 64) with
    | .ok pa => lockedFor s none pa 128
    | _ => false

/-- `launch`. -/
def launchRun (f : FmtS) (c : Ctx) (s : State) : Res :=
  match drainAll s c.wg.core with
  | none => .stall
  | some s =>
    let reads := (lanesOf c.pass).map fun l =>
      let ea := readOp s.cycle c f.a true l
      (l, ea, readChild s c ea)
    if reads.any fun x => match x.2.2 with | .waits => true | _ => false then .stall
    else
      let fails := reads.filterMap fun x => match x.2.2 with
        | .fails stage cause => some (Fail.mk x.1 stage cause x.2.1)
        | _ => none
      if fails ≠ [] then .held s fails
      else
        let packets := reads.filterMap fun x => match x.2.2 with | .ok b => some b | _ => none
        let all := fun (n : Nat) => Res.done (eachLane c s f.d false false fun _ => n) []
        let part := c.la.part
        let q := queueDesc s part (fld f.imm 7 0)
        if !q.en then all 2
        else match ringWritable s part q with
          | .waits => .stall
          | .fails _ => all 3
          | .ok _ =>
            let free := min (2 ^ q.logn) (q.rd + 2 ^ q.logn - q.wr)
            let n := min free packets.length
            if n ≠ 0 && slotsLocked s part q n then .stall else
            let s := if n = 0 then s else sliceWrite s (q.pa + 24) (toBytes 8 (q.wr + n))
            let s := ((packets.take n).zipIdx.map fun x => (q.wr + x.2, x.1)).foldl (writeChild part q) s
            let order := lanesOf c.pass
            .done (eachLane c s f.d false false fun l => if order.idxOf l < n then 0 else 1) []

def execLaunch (f : FmtS) (s : State) : Out := issue (.launch f) s (launchRun f)

/-! ### Budgets (R211, R388, R389) -/

/-- LAUNCH_BUDGET (R388). A retirement that falls in the same cycle has taken effect before (R389). -/
def execLaunchBudget (lid : Nat) (s : State) : Out :=
  match tfind s.launches lid with
  | none => .next s
  | some la =>
    if pkt la 4 = 0 || la.used < (pkt la 4).toNat then .next s
    else .next (endWithCause s lid .launchBudget (pkt la 4).toNat (lowestWOf s lid))

/-! ### Escalation records and commands (R369 to R372) -/

/-- The ring of a partition has room for a record; a LOGN outside 4 to 12 makes no ring (R370). -/
def ringRoom (p : Partition) : Bool :=
  let logn := fld (p.ed.getD 1 0) 35 32
  4 ≤ logn && logn ≤ 12 && fld (p.ed.getD 2 0) 31 0 ≠ (fld (p.ed.getD 1 0) 31 0 + 2 ^ logn) % 2 ^ 32

/-- ESCALATION_RECORD_WRITE (R370): the oldest record that waits is written, and the supervisor interrupt raised. -/
def execEscalationRecordWrite (part : Nat) (s : State) : Out :=
  let p := partOf s part
  match p.escPending with
  | [] => .next s
  | r :: rest =>
    if !ringRoom p then .next s
    else
      let n := fld (p.ed.getD 2 0) 31 0
      let pa := (p.ed.getD 0 0).toNat + 64 * (n % 2 ^ fld (p.ed.getD 1 0) 35 32)
      if lockedFor s none pa 64 then .next s else
      let s := sliceWrite s pa (r.doubles.flatMap fun d => toBytes 8 d.toNat)
      let s := modPart s part fun p =>
        { p with
          ed := p.ed.set 2 (BitVec.ofNat 64 ((n + 1) % 2 ^ 32))
          escPending := rest
          escWritten := tset p.escWritten n r
          supervisorIrq := true }
      let s := carafe s (dieOf (stripCore s part)) 3 (fld (r.doubles.getD 0 0) 7 0) 0 part
        [BitVec.ofNat 64 (fld (r.doubles.getD 0 0) 63 32), r.doubles.getD 5 0]
      .next { s with out := .supervisorInterrupt part :: s.out }

/-- The record that a command answers; its number is used up. -/
def answered (s : State) (part record : Nat) : Option EscRecord := tfind (partOf s part).escWritten record
def useRecord (s : State) (part record : Nat) : State := modPart s part fun p => { p with escWritten := terase p.escWritten record }

/-- A halted thread of workgroup `w` goes on; a saved one does so when it next resumes. -/
def resumeTarget (s : State) (lid w tix : Nat) (next : Bool) : State :=
  let go := fun (x : Workgroup) =>
    let held := (x.threads[tix]?).any fun t => match t.halt with | some (.escalated _) => true | _ => false
    if x.w = w && held then resumeWg x tix next else x
  let s := { s with wgs := s.wgs.map fun x => if x.2.lid = lid then (x.1, go x.2) else x }
  modLaunch s lid fun la => { la with saved := la.saved.map go, parked := la.parked.map go }

/-- CMD 1 and CMD 2 on a record. -/
def resumeRecord (s : State) (part record : Nat) (next : Bool) : State :=
  match answered s part record with
  | none => s
  | some r => match r.target with
    | none => s
    | some (w, tix) => resumeTarget (useRecord s part record) r.lid w tix next

/-- ESC_RESUME (R372 CMD 1). -/
def execEscResume (part record : Nat) (s : State) : Out := .next (resumeRecord s part record false)
/-- ESC_RESUME_NEXT (R372 CMD 2). -/
def execEscResumeNext (part record : Nat) (s : State) : Out := .next (resumeRecord s part record true)
/-- CMD 3 on a record; it does nothing for a packet that was refused before its launch existed. -/
def endRecord (s : State) (part record : Nat) : State :=
  match answered s part record with
  | none => s
  | some r =>
    if fld (r.doubles.getD 0 0) 63 32 = 0xFFFFFFFF && fld (r.doubles.getD 0 0) 7 0 = 0x15 then s
    else endLaunch (useRecord s part record) r.lid

/-- ESC_END_LAUNCH (R372 CMD 3). -/
def execEscEndLaunch (part record : Nat) (s : State) : Out := .next (endRecord s part record)

end Sys2Proof.Machine
end

