-- ==== Sys2Proof/Machine/Fabric.lean ====
section
/-! DEFINITION. Tokens, channels, staging registers, routers and units of a fabric load, what stops a load, and the
nodes: R213 to R215, R224 to R238, R313, R338, R365, R403 to R405, R417, R419, R458. -/

namespace Sys2Proof.Machine

/-! ### Accessors -/

def noUnit : FUnit := {}
def unitOf (s : State) (lid tile u : Nat) : FUnit := (tileOf (fabricOf s lid) tile).units.getD u noUnit
def modUnit (s : State) (lid tile u : Nat) (f : FUnit → FUnit) : State :=
  modTile s lid tile fun t => { t with units := t.units.modify u f }
def inOf (u : FUnit) (n : Nat) : Channel := u.ins.getD n {}
def outOf (u : FUnit) (n : Nat) : Staging := u.outs.getD n {}

def Token.record : Token → Nat
  | .data _ _ _ r => r
  | .marker => 0
def Token.endMark : Token → BitVec 4
  | .data _ _ m _ => m
  | .marker => 0

/-- The data token at the head of an input; a marker there reads as empty (R214). -/
def headOf (u : FUnit) (n : Nat) : Option (Word × BitVec 4 × BitVec 4 × Nat) :=
  match (inOf u n).toks with
  | .data d t m r :: _ => some (d, t, m, r)
  | _ => none

/-- Whether an input has a data token at its head. -/
def hasHead (u : FUnit) (n : Nat) : Bool := (headOf u n).isSome

/-- Whether a staging register is empty. -/
def outEmpty (u : FUnit) (n : Nat) : Bool := (outOf u n).toks = []

/-- Places of a channel (R227, R228). -/
def placesOf (c : Channel) : Nat := 4 + (if c.buffered then fld c.cfg 47 32 else 0)

/-- Something has moved in the load (R419). -/
def moved (s : State) (lid : Nat) : State := modFabric s lid fun f => { f with moved := true }

/-- Places of a channel that have been freed and cannot be taken yet: those of this cycle, and those whose credit a hot
region holds (R221, R313). -/
def notYetFree (cycle : Nat) (c : Channel) : Nat := (if c.freed.1 = cycle + 1 then c.freed.2 else 0) + c.held.length

/-- A place of a channel is freed: it can be taken from the next cycle on, or once its credit returns. -/
def freePlace (cycle : Nat) (back : Option Nat) (c : Channel) : Channel :=
  match back with
  | some r => { c with held := r :: c.held }
  | none => { c with freed := (cycle + 1, 1 + if c.freed.1 = cycle + 1 then c.freed.2 else 0) }

/-- Take the head of an input. Its edge buffer is freed with end mark 15 (R228). -/
def popIn (cycle : Nat) (back : Nat → Option Nat) (u : FUnit) (n : Nat) : FUnit :=
  { u with ins := u.ins.modify n fun c =>
      freePlace cycle (back n) { c with
        toks := c.toks.tail
        buffered := c.buffered && (match c.toks with | .data _ _ 15 _ :: _ => false | _ => true) } }

/-- A region in which a matrix node of some load is throttled is hot (R313). -/
def hotRegion (s : State) (r : Nat) : Bool :=
  s.launches.any fun x => x.2.fabric.any fun f => f.tiles.any fun t => t.pad.throttle.isSome && regionOfCore t.core = r

/-- The region cycle at which the credit of a place freed in a region's router comes back, while the region is hot and its
SLOTDLY is not 0. -/
def creditBack (s : State) (core : Nat) : Option Nat :=
  let g := regionOf s (regionOfCore core)
  if hotRegion s (regionOfCore core) && g.slotdly ≠ 0 then some (g.cycles + g.slotdly.toNat) else none

/-- When a freed place of an input comes back: a hot region's router holds the credits of the channels that it feeds. -/
def placeBack (s : State) (t : FTile) (u n : Nat) : Option Nat :=
  if t.routes.any fun r => r.getLsbD 0 && fld r 11 7 = u && fld r 6 5 = n then creditBack s t.core else none

/-- Where the packets of an output port go (R225). -/
def destsOf (t : FTile) (u n : Nat) : List Dest :=
  (t.units.zipIdx.flatMap fun (x, v) => (x.ins.zipIdx.filter fun c =>
      c.1.cfg.getLsbD 7 && fld c.1.cfg 6 2 = u && fld c.1.cfg 1 0 = n).map fun c => Dest.chan v c.2)
    ++ (if (outOf (t.units.getD u noUnit) n).cfg.getLsbD 7 then [.router] else [])

/-- Fill an output's staging register; a source's end mark 15 ends the steady part (R343). -/
def fillOut (s : State) (lid tile u n : Nat) (toks : List Token) : State :=
  let dests := destsOf (tileOf (fabricOf s lid) tile) u n
  let s := modUnit s lid tile u fun x => { x with outs := x.outs.modify n fun o =>
    { o with toks := o.toks ++ toks, dests := dests, filled := s.cycle } }
  moved s lid

/-! ### Sites, iteration indices, canonical work (R49 to R51, R245) -/

/-- The node-table entry of a slot of a unit of the current load; nodes stand at SLOT 31. -/
def siteEntry (la : Launch) (f : Fabric) (tile u slot : Nat) : Option Dbl :=
  if u < 16 && slot = 31 then none else
  let (elem, sl) := if u < 16 then (u, slot) else (u - 16, 31)
  ((la.nodes.drop f.nfirst).take f.ncount).find? fun e => fld e 9 0 = tile && fld e 13 10 = elem && fld e 18 14 = sl

/-- TITER of an event at a site, for a record (R50). -/
def iterIndex (la : Launch) (f : Fabric) (tile u slot record : Nat) : Word :=
  let n := (siteEntry la f tile u slot).map fun e => fld e 63 48
  let c := tget 0 ((tileOf f tile).units.getD u noUnit).fired (if u < 16 then slot else 31)
  match n with
  | none | some 0 | some 0xFFFF => BitVec.ofNat 32 record
  | some n =>
    match la.nodes[fld (hdr la 9) 15 0 + n - 1]? with
    | none => BitVec.ofNat 32 record
    | some e =>
      let q := c / max 1 (fld e 31 0)
      BitVec.ofNat 32 (if fld e 63 32 = 0 then q else q % fld e 63 32)

/-- The canonical PC of a site; 0 without one. -/
def siteCpc (la : Launch) (f : Fabric) (tile u slot : Nat) : Word :=
  BitVec.ofNat 32 (((siteEntry la f tile u slot).map fun e => fld e 47 19).getD 0)

/-- A firing is counted: for its slot or node, and as canonical work at a canonical site. -/
def countFiring (s : State) (lid tile u slot : Nat) : State :=
  let la := launchOf s lid
  let key := if u < 16 then slot else 31
  let canon := (siteEntry la (fabricOf s lid) tile u slot).any fun e => fld e 63 48 ≠ 0xFFFF
  let s := modUnit s lid tile u fun x => { x with fired := tset x.fired key (tget 0 x.fired key + 1) }
  if canon then modLaunch s lid fun la => { la with work := la.work + 1 } else s

/-! ### What stops a load -/

/-- Whether units may fire: a load that streams or stands frozen has nothing firing. -/
def fires (f : Fabric) : Bool := f.state = .running || f.state = .draining || f.state = .freezing

/-- The gates of the sources are open: nothing closes them, no stop and no marker drain (R57, R403, R417). -/
def gatesOpen (f : Fabric) : Bool := f.state = .running

/-- An input is fed: by a local port, by the tile's router, or by a feed of the map (R225, R57). -/
def connectedIn (f : Fabric) (tile u n : Nat) : Bool :=
  let t := tileOf f tile
  let c := inOf (t.units.getD u noUnit) n
  c.cfg.getLsbD 7
    || (t.routes.any fun r => r.getLsbD 0 && fld r 11 7 = u && fld r 6 5 = n)
    || (f.feeds.any fun x => x.1 = tile && x.2.1 = u && x.2.2.1 = n)

/-- The connected inputs of a unit. -/
def inputsOf (f : Fabric) (tile u : Nat) : List Nat := (List.range 4).filter (connectedIn f tile u)

/-- A valid slot of an element in use. -/
def slotValid (u : FUnit) (n : Nat) : Bool := u.q0.getLsbD 20 && (u.slots.getD n (0, 0)).2.getLsbD 31

/-- A unit takes part in the load. -/
def unitInUse (f : Fabric) (tile u : Nat) : Bool :=
  let x := (tileOf f tile).units.getD u noUnit
  if u < 16 then (List.range 32).any (slotValid x)
  else if 21 ≤ u && u ≤ 24 then fld x.q0 15 0 ≠ 0 && !x.q0.getLsbD 57
  else inputsOf f tile u ≠ []

/-- A source: a unit in use that no input feeds. -/
def isSource (f : Fabric) (tile u : Nat) : Bool := unitInUse f tile u && inputsOf f tile u = []

/-- The node table's site of a unit holds a breakpoint that is armed on a core of the load (R338). -/
def siteArmed (s : State) (lid tile u slot : Nat) : Bool :=
  let la := launchOf s lid
  let f := fabricOf s lid
  let bps := f.tiles.flatMap fun t => (coreOf s t.core).bp.filter fun b => b.getLsbD 0
  bps ≠ [] && match siteEntry la f tile u slot with
    | some e => bps.any fun b => fld b 42 14 = fld e 47 19
    | none => false

/-- Single stepping is armed on a core of the load. -/
def stepArmed (s : State) (lid : Nat) : Bool := (fabricOf s lid).tiles.any fun t => (coreOf s t.core).dbg.getLsbD 18

/-- The record index at which the load is brought to positions falls to a record's (R338, R403, R405). A marker drain is
given up for it, and its units go on. -/
def stopAtRecord (s : State) (lid record : Nat) : State :=
  let s := modFabric s lid fun f =>
    { (if f.drain.isSome then unmark f else f) with
      drain := none
      stopAt := some (match f.stopAt with | some r => min r record | none => record)
      quiet := if f.stopAt.isNone then 0 else f.quiet }
  if (fabricOf s lid).state = .running then setLoadState s lid .draining else s

/-- The records of the load begin at this one that has not exited. -/
def lowestRecord (f : Fabric) : Nat := f.first

/-- A latched entry. -/
def latchEntry (s : State) (lid tile u slot : Nat) (cause : Cause) (detail record : Nat) (addr : Nat) : NodeFault :=
  let la := launchOf s lid
  let f := fabricOf s lid
  { cause := cause, detail := detail, record := record, iter := iterIndex la f tile u slot record
    addr := BitVec.ofNat 64 addr, tile := tile, unit := u, cpc := siteCpc la f tile u slot, cycle := s.cycle }

/-- A cause that R365 delivers is latched; a load that freezes discards it (R421). -/
def latchCause (s : State) (lid tile u : Nat) (cause : Cause) (addr record : Nat) : State :=
  let e := latchEntry s lid tile u 31 cause 0 record addr
  let sp := spaceOf (launchOf s lid) (tileOf (fabricOf s lid) tile).core
  let s := keepLeaf s sp cause addr
  let s := if cause = .dataError then noteAt s sp (29 ≤ u || (unitOf s lid tile u).q0.getLsbD 41) addr else s
  let s := modUnit s lid tile u fun x => { x with faulted := true }
  let f := fabricOf s lid
  if f.state = .running || f.state = .draining then
    stopAtRecord (modFabric s lid fun f => { f with faults := f.faults ++ [e] }) lid record
  else s

/-- FABRIC_NODE_FAULT (R417, R421): the gates close and the load freezes; the lower unit + 32 × tile of one cycle is
reported. A hop or save that drains, and a cause awaiting delivery, are given up. -/
def nodeFault (s : State) (lid tile u slot detail record : Nat) : State :=
  let e := latchEntry s lid tile u slot .fabricNodeFault detail record 0
  let s := modUnit s lid tile u fun x => { x with faulted := true }
  let f := fabricOf s lid
  let keep := match f.fault with
    | none => e
    | some o => if o.cycle = e.cycle && e.unit + 32 * e.tile < o.unit + 32 * o.tile then e else o
  let s := modFabric s lid fun f =>
    { f with fault := some keep, nflt := min 255 (f.nflt + 1), faults := [], stopAt := none, drain := none
             quiet := if f.fault.isNone then 0 else f.quiet }
  let s := setRcstat s (originRegion f) 55 48 (min 255 (f.nflt + 1))
  if fires f && f.state ≠ .freezing then setLoadState s lid .freezing else s

/-! ### Staging registers and routers (R221, R225 to R227, R313) -/

/-- One feed of the map offers its next tokens, one for each free place, while the gates are open; a drain puts a
marker behind them (R57, R58, R214). -/
def feedOne (s : State) (lid : Nat) (g : Nat × Nat × Nat × List Token) : State × (Nat × Nat × Nat × List Token) :=
  let (tile, u, n, toks) := g
  let f := fabricOf s lid
  let x := unitOf s lid tile u
  let c := inOf x n
  let free := placesOf c - c.toks.length - notYetFree s.cycle c
  let put := fun (s : State) (l : List Token) =>
    moved (modUnit s lid tile u fun x => { x with ins := x.ins.modify n fun c => { c with toks := c.toks ++ l } }) lid
  if f.drain.isSome then
    (if x.stopped || free = 0 || c.toks.contains .marker then s else put s [.marker], g)
  else if gatesOpen f && toks ≠ [] && free ≠ 0 then (put s (toks.take free), (tile, u, n, toks.drop free))
  else (s, g)

/-- Every feed of a load. -/
def feedAll (s : State) (lid : Nat) : State :=
  let (s, gs) := (fabricOf s lid).feeds.foldl (fun (s, l) g => let (s, g) := feedOne s lid g; (s, l ++ [g])) (s, [])
  modFabric s lid fun f => { f with feeds := gs }

/-- A packet fits a channel in this cycle: whole, in places that were free when the cycle began, and one packet a cycle
(R221, R226). -/
def channelTakes (cycle : Nat) (c : Channel) (toks : List Token) : Bool :=
  c.took ≠ cycle + 1 && c.toks.length + notYetFree cycle c + toks.length ≤ placesOf c

/-- Put a packet into a channel. -/
def channelPut (cycle : Nat) (c : Channel) (toks : List Token) : Channel :=
  { c with toks := c.toks ++ toks, took := cycle + 1 }

/-- Put a packet into an input of a unit, if it fits. -/
def putIn (s : State) (lid tile u n : Nat) (toks : List Token) : Option State :=
  let c := inOf (unitOf s lid tile u) n
  if channelTakes s.cycle c toks then
    some (moved (modUnit s lid tile u fun x => { x with ins := x.ins.modify n fun c => channelPut s.cycle c toks }) lid)
  else none

/-- Key of a class at a router port. -/
def portKey (dir cls : Nat) : Nat := 64 * dir + cls

/-- A router port takes a packet: in one of the two flit buffers that it has for the packets of a partition, a load's
edges all being of one (R318), or, where the link crosses a region border, in the elastic buffer of 8 tokens of the
packet's own edge (R227); places whose credit is held count (R313). -/
def portRoom (t : FTile) (dir cls : Nat) (border : Bool) (n : Nat) : Bool :=
  let q := t.ports.getD dir []
  if border then
    ((q.filter fun p => p.cls = cls).flatMap (·.toks)).length + n + ((t.credits.filter fun c => c.1 = portKey dir cls).map (·.2.1)).sum ≤ 8
  else q.length + (t.credits.filter fun c => c.1 / 64 = dir).length < 2

/-- The directions of a route entry. -/
def routeDirs (t : FTile) (cls : Nat) : List Nat := (List.range 5).filter fun d => (t.routes.getD cls 0).getLsbD d

/-- A packet enters a router's port. -/
def portPut (s : State) (lid tile dir : Nat) (toks : List Token) (cls : Nat) : State :=
  let t := tileOf (fabricOf s lid) tile
  let p : Packet := { toks := toks, cls := cls, left := routeDirs t cls, came := s.cycle }
  moved (modTile s lid tile fun t => { t with ports := t.ports.modify dir fun q => q ++ [p] }) lid

/-- STAGING_SEND (R221, R225): a packet goes to every destination that can accept it; the register empties once
every destination has taken it. -/
def execStagingSend (lid tile unit out : Nat) (s : State) : Out :=
  let o := outOf (unitOf s lid tile unit) out
  if o.toks = [] || s.cycle ≤ o.filled then .next s
  else
    let cls := fld o.cfg 5 0
    let (s, left) := o.dests.foldl (fun (s, left) d =>
      match d with
      | .chan u n => match putIn s lid tile u n o.toks with
        | some s => (s, left)
        | none => (s, left ++ [d])
      | .router =>
        if portRoom (tileOf (fabricOf s lid) tile) 0 cls false o.toks.length then (portPut s lid tile 0 o.toks cls, left)
        else (s, left ++ [d])) (s, [])
    let s := modUnit s lid tile unit fun x => { x with outs := x.outs.modify out fun o =>
      { o with dests := left, toks := if left = [] then [] else o.toks } }
    .next (if left = [] then moved s lid else s)

/-- The tile in a direction: 1 north, 2 east, 3 south, 4 west, inside the load's region (R239). -/
def neighbour (f : Fabric) (tile dir : Nat) : Option Nat :=
  let row := tile / f.width
  let col := tile % f.width
  match dir with
  | 1 => if row = 0 then none else some (tile - f.width)
  | 2 => if col + 1 < f.width then some (tile + 1) else none
  | 3 => if row + 1 < f.height then some (tile + f.width) else none
  | 4 => if col = 0 then none else some (tile - 1)
  | _ => none

/-- The port at which a packet sent in a direction arrives. -/
def arrivalPort (dir : Nat) : Nat := match dir with | 1 => 3 | 3 => 1 | 2 => 4 | 4 => 2 | d => d

/-- Serve one direction of a packet. -/
def serveDir (s : State) (lid tile : Nat) (p : Packet) (d : Nat) : Option State :=
  let f := fabricOf s lid
  let t := tileOf f tile
  if d = 0 then
    let r := t.routes.getD p.cls 0
    putIn s lid tile (fld r 11 7) (fld r 6 5) p.toks
  else match neighbour f tile d with
    | none => none
    | some n =>
      let border := regionOfCore t.core ≠ regionOfCore (tileOf f n).core
      if portRoom (tileOf f n) (arrivalPort d) p.cls border p.toks.length then
        some (portPut s lid n (arrivalPort d) p.toks p.cls)
      else none

/-- Serve the first packet of a port that can go on; packets of one class keep their order. -/
def servePort (s : State) (lid tile dir : Nat) : List Packet → List Packet → State
  | _, [] => s
  | before, p :: rest =>
    let blocked := p.came = s.cycle || before.any fun q => q.cls = p.cls
    let (s', left) := if blocked then (s, p.left) else
      p.left.foldl (fun (s, left) d => match serveDir s lid tile p d with
        | some s => (s, left)
        | none => (s, left ++ [d])) (s, [])
    if left = p.left && (blocked || p.left ≠ []) then servePort s lid tile dir (before ++ [p]) rest
    else
      let queue := before ++ (if left = [] then [] else [{ p with left := left }]) ++ rest
      let back := if left = [] && dir ≠ 0 then creditBack s (tileOf (fabricOf s lid) tile).core else none
      moved (modTile s' lid tile fun t =>
        { t with
          ports := t.ports.set dir queue
          credits := t.credits ++ back.toList.map fun r => (portKey dir p.cls, p.toks.length, r) }) lid

/-- ROUTER_PACKET (R226). -/
def execRouterPacket (lid tile dir : Nat) (s : State) : Out :=
  .next (servePort s lid tile dir [] ((tileOf (fabricOf s lid) tile).ports.getD dir []))

/-- The places of a channel whose credits return become free: they can be taken from the next cycle on. -/
def returnPlaces (cycle now : Nat) (c : Channel) : Channel :=
  (c.held.filter (· ≤ now)).foldl (fun c _ => freePlace cycle none c) { c with held := c.held.filter (now < ·) }

/-- ROUTER_CREDIT_RETURN (R313): the credits whose delay is over return, of the router's ports and of the channels that
it feeds. -/
def execRouterCreditReturn (lid tile : Nat) (s : State) : Out :=
  let now := (regionOf s (regionOfCore (tileOf (fabricOf s lid) tile).core)).cycles
  .next (modTile s lid tile fun t =>
    { t with
      credits := t.credits.filter fun c => now < c.2.2
      units := t.units.map fun x => { x with ins := x.ins.map (returnPlaces s.cycle now) } })

/-! ### Working units -/

/-- A unit goes on with what it has taken: its load fires, and it has not stopped at a marker. One that has faulted takes
no more tokens, and finishes the work of those it has taken (R417). -/
def unitSends (s : State) (lid tile u : Nat) : Bool :=
  (tfind s.launches lid).any (fun la => la.fabric.any fires) && !(unitOf s lid tile u).stopped

/-- A unit can act: its load fires and it neither faulted nor stopped. -/
def unitActs (s : State) (lid tile u : Nat) : Bool :=
  let x := unitOf s lid tile u
  (tfind s.launches lid).any (fun la => la.fabric.any fires) && !x.faulted && !x.stopped

/-- A record performs no memory access, owner update, matrix control or transfer once the load is being brought to
positions below it (R403). -/
def heldBack (f : Fabric) (record : Nat) : Bool := f.stopAt.any fun r => r ≤ record

/-- The record at which a firing for `record` at a site stops the load, because stepping is armed or a breakpoint is
armed there (R338). A load that is already brought to positions below that record moves on (R403). -/
def siteStop (s : State) (lid tile u slot record : Nat) : Option Nat :=
  let f := fabricOf s lid
  if stepArmed s lid && !heldBack f (lowestRecord f) then some (lowestRecord f)
  else if siteArmed s lid tile u slot && !heldBack f record then some record
  else none

/-- The same of a node. -/
def nodeStop (s : State) (lid tile u record : Nat) : Option Nat := siteStop s lid tile u 31 record

/-- A SINK takes its first token (R343), and finishes the work of one (R238). -/
def sinkBit (u : Nat) : Nat := if u = 29 then 0 else if u = 30 then 45 else if u = 31 then 16 else 48
def isSink (u : Nat) (x : FUnit) : Bool := (25 ≤ u && u ≤ 31) && x.q0.getLsbD (sinkBit u)
/-- A SINK's token: the fill ends with the first one. -/
def sinkTakes (s : State) (lid tile u : Nat) : State :=
  let f := fabricOf s lid
  if isSink u (unitOf s lid tile u) && f.t2.isNone then
    modFabric s lid fun f => { f with t2 := some (regionOf s (originRegion f)).cycles }
  else s
/-- The work of a token with this end mark is finished. -/
def sinkDone (s : State) (lid tile u : Nat) (m : BitVec 4) : State :=
  if m = 15 && isSink u (unitOf s lid tile u) then modUnit s lid tile u fun x => { x with finished := true } else s

/-- A source has emitted end mark 15 (R343). -/
def sourceMark (s : State) (lid tile u : Nat) (m : BitVec 4) : State :=
  let f := fabricOf s lid
  if m = 15 && f.t3.isNone && isSource f tile u then
    modFabric s lid fun f => { f with t3 := some (regionOf s (originRegion f)).cycles }
  else s

/-- Take the head of an input of a unit. -/
def takeHead (s : State) (lid tile u n : Nat) : State :=
  let back := placeBack s (tileOf (fabricOf s lid) tile) u
  moved (modUnit s lid tile u fun x => popIn s.cycle back x n) lid

/-! ### Steer and merge (R229, R230) -/

/-- STEER_FIRE (R229). -/
def execSteerFire (lid tile unit : Nat) (s : State) : Out :=
  let x := unitOf s lid tile unit
  match headOf x 0, headOf x 1 with
  | some (d, t, m, r), some (p, _, _, _) =>
    let arm := p.getLsbD 0
    let out := if arm then 1 else 0
    if !unitActs s lid tile unit || 64 ≤ x.fifo.length || !outEmpty x out then .next s
    else match nodeStop s lid tile unit r with
      | some r => .next (stopAtRecord s lid r)
      | none =>
        let s := takeHead (takeHead s lid tile unit 0) lid tile unit 1
        let s := modUnit s lid tile unit fun x => { x with fifo := x.fifo ++ [(x.counter, arm, m)], counter := x.counter + 1 }
        .next (fillOut (countFiring s lid tile unit 31) lid tile unit out [.data d t 0 r])
  | _, _ => .next s

/-- The head entry of a merge's index FIFO. -/
def mergeHead (s : State) (lid tile u : Nat) : Option (Bool × BitVec 4) :=
  (unitOf s lid tile (u - 2)).fifo.head?.map fun x => x.2

/-- The token of an arm that arrived first and has not left: in the window, else at the head of the channel. -/
def armToken (x : FUnit) (arm : Bool) : Option (Token × Bool) :=
  match x.window.find? fun w => w.1 = arm with
  | some w => some (w.2, true)
  | none => match headOf x (if arm then 1 else 0) with
    | some (d, t, m, r) => some (.data d t m r, false)
    | none => none

/-- Remove an arm's oldest token from the window. -/
def dropArm (arm : Bool) : List (Bool × Token) → List (Bool × Token)
  | [] => []
  | w :: t => if w.1 = arm then t else w :: dropArm arm t

/-- A merge emits in this cycle. -/
def mergeReady (s : State) (lid tile u : Nat) : Bool :=
  let x := unitOf s lid tile u
  unitActs s lid tile u && outEmpty x 0 && (mergeHead s lid tile u).any fun h => (armToken x h.1).isSome

/-- A merge takes the token at the head of an arm; one on in0 is a firing (R50). -/
def mergeTake (s : State) (lid tile u : Nat) (arm : Bool) : State :=
  if arm then takeHead s lid tile u 1 else countFiring (takeHead s lid tile u 0) lid tile u 31

/-- MERGE_EMIT (R230). -/
def execMergeEmit (lid tile unit : Nat) (s : State) : Out :=
  let x := unitOf s lid tile unit
  if !mergeReady s lid tile unit then .next s
  else match mergeHead s lid tile unit with
    | none => .next s
    | some (arm, m) => match armToken x arm with
      | some (.data d t _ r, inWindow) =>
        match (if inWindow then none else nodeStop s lid tile unit r) with
        | some r => .next (stopAtRecord s lid r)
        | none =>
          let s := if inWindow then modUnit s lid tile unit fun x => { x with window := dropArm arm x.window }
            else mergeTake s lid tile unit arm
          let s := modUnit s lid tile (unit - 2) fun x => { x with fifo := x.fifo.tail }
          .next (fillOut s lid tile unit 0 [.data d t m r])
      | _ => .next s

/-- WIN (R243). -/
def windowOf (x : FUnit) : Nat := if fld x.q0 6 0 = 0 then 16 else fld x.q0 6 0

/-- The arms from which a merge would take a token into its window: not the one that it emits directly. -/
def windowArms (s : State) (lid tile u : Nat) : List Bool :=
  let x := unitOf s lid tile u
  [false, true].filter fun arm => hasHead x (if arm then 1 else 0) &&
    !(mergeReady s lid tile u && (mergeHead s lid tile u).any fun h => h.1 = arm && (armToken x arm).any fun t => !t.2)

/-- MERGE_WINDOW_TAKE (R230): an arriving token of each arm enters the window while it has room. -/
def execMergeWindowTake (lid tile unit : Nat) (s : State) : Out :=
  if !unitActs s lid tile unit then .next s
  else .next <| (windowArms s lid tile unit).foldl (fun s arm =>
    let x := unitOf s lid tile unit
    let n := if arm then 1 else 0
    if x.window.length < windowOf x then
      match headOf x n with
      | some (d, t, m, r) =>
        match nodeStop s lid tile unit r with
        | some r => stopAtRecord s lid r
        | none =>
          let s := mergeTake s lid tile unit arm
          modUnit s lid tile unit fun x => { x with window := x.window ++ [(arm, .data d t m r)] }
      | none => s
    else s) s

/-! ### Repeat (R231) -/

/-- REPEAT_STORE (R231): a block of over 1,024 tokens faults with DETAIL 2. -/
def execRepeatStore (lid tile : Nat) (s : State) : Out :=
  let x := unitOf s lid tile 20
  match headOf x 0 with
  | none => .next s
  | some (d, t, m, r) =>
    if !unitActs s lid tile 20 || x.whole then .next s
    else match nodeStop s lid tile 20 r with
      | some r => .next (stopAtRecord s lid r)
      | none =>
        if 1024 ≤ x.block.length then .next (nodeFault s lid tile 20 31 2 r)
        else .next <| modUnit (countFiring (takeHead s lid tile 20 0) lid tile 20 31) lid tile 20 fun x =>
          { x with block := x.block ++ [.data d t m r], whole := m ≠ 0 }

/-- A token of a block as an emission sends it: of the count token's record (R458). -/
def emitted (record : Nat) : Token → Token
  | .data d t m _ => .data d t m record
  | .marker => .marker

/-- REPEAT_EMIT (R231): the next token of the block, or the next count token. -/
def execRepeatEmit (lid tile : Nat) (s : State) : Out :=
  let x := unitOf s lid tile 20
  if !unitActs s lid tile 20 || !x.whole then .next s
  else match x.emit with
    | t :: rest =>
      if !outEmpty x 0 then .next s
      else
        let again := rest = [] && 0 < x.counter
        let spent := rest = [] && x.counter = 0
        let s := modUnit s lid tile 20 fun x =>
          { x with
            emit := if again then x.block else rest
            counter := if again then x.counter - 1 else x.counter
            block := if spent then [] else x.block
            whole := !spent }
        .next (fillOut s lid tile 20 0 [emitted x.last t])
    | [] => match headOf x 1 with
      | none => .next s
      | some (n, _, _, r) =>
        .next <| modUnit (takeHead s lid tile 20 1) lid tile 20 fun x =>
          if n = 0 then { x with block := [], whole := false }
          else { x with emit := x.block, counter := n.toNat - 1, last := r }

/-! ### Address generators (R232, R458) -/

/-- A counter level of a generator: COUNT, START, STRIDE, CIRC. -/
def agLevel (q : Dbl) : Nat × Nat × Int × Bool := (fld q 15 0, fld q 31 16, sextNat (fld q 55 32) 24, q.getLsbD 56)

/-- The levels of a generator, with those of the chain above it. -/
def agLevels (t : FTile) : Nat → Nat → List (Nat × Nat × Int × Bool)
  | 0, _ => []
  | fuel + 1, u =>
    let x := t.units.getD u noUnit
    let above := t.units.getD (u + 1) noUnit
    [agLevel x.q0, agLevel x.q1] ++ (if u < 24 && above.q0.getLsbD 57 then agLevels t fuel (u + 1) else [])

/-- Offset of the `n`-th token of a pass less its base, and the dimensions it completes. -/
def agOffset : List (Nat × Nat × Int × Bool) → Nat → Int
  | [], _ => 0
  | (count, start, stride, circ) :: t, n =>
    let c := if circ then (start + n % count) % count else n % count
    (c : Int) * stride + agOffset t (n / count)
/-- How many dimensions, from the lowest on, a token completes. -/
def agDone : List (Nat × Nat × Int × Bool) → Nat → Nat
  | [], _ => 0
  | (count, _, _, _) :: t, n => if n % count + 1 = count then 1 + agDone t (n / count) else 0
/-- Tokens of a pass. -/
def agTotal (l : List (Nat × Nat × Int × Bool)) : Nat := l.foldl (fun n x => n * x.1) 1

/-- A generator's pass that is under way or can start: base, record of offset 0, whether each offset has a record of
its own, the gate's end mark, and whether a gate token starts it now. -/
def agPass (s : State) (lid tile u : Nat) : Option (Word × Nat × Option (BitVec 4) × Bool) :=
  let x := unitOf s lid tile u
  let f := fabricOf s lid
  match x.pass with
  | some (b, r, m) => if x.q0.getLsbD 58 || gatesOpen f then some (b, r, m, false) else none
  | none =>
    if x.q0.getLsbD 58 then (headOf x 0).map fun (d, _, m, r) => (d, r, some m, true)
    else if gatesOpen f && !x.passed then some (0, f.first, none, true) else none

/-- ADDRESS_GENERATOR_OFFSET (R232). -/
def execAddressGeneratorOffset (lid tile unit : Nat) (s : State) : Out :=
  let x := unitOf s lid tile unit
  if !unitActs s lid tile unit || !unitInUse (fabricOf s lid) tile unit || !outEmpty x 0 then .next s
  else match agPass s lid tile unit with
    | none => .next s
    | some (base, r0, gate, fresh) =>
      let gated := x.q0.getLsbD 58
      let n := if fresh then 0 else x.counter
      let record := if gated then r0 else r0 + n
      match (if fresh || !gated then nodeStop s lid tile unit record else none) with
      | some r => .next (stopAtRecord s lid r)
      | none =>
        let ls := agLevels (tileOf (fabricOf s lid) tile) 4 unit
        let last := n + 1 = agTotal ls
        let m : BitVec 4 := if last then gate.getD 15 else BitVec.ofNat 4 (agDone ls n)
        let s := if fresh && gated then countFiring (takeHead s lid tile unit 0) lid tile unit 31 else s
        let s := modUnit s lid tile unit fun x =>
          { x with
            pass := if last then none else some (base, r0, gate)
            counter := if last then 0 else n + 1
            passed := x.passed || !gated }
        .next (sourceMark (fillOut s lid tile unit 0
          [.data (BitVec.ofNat 32 (lowInt (base.toNat + agOffset ls n) 32)) 0 m record]) lid tile unit m)

/-! ### Memory nodes (R233, R335, R338, R401) -/

/-- The address of a memory node's access (R233). -/
def nodeAddr (la : Launch) (x : FUnit) (off : Word) : Nat :=
  let base : Nat := if fld x.q0 35 32 = 15 then 0 else (pkt la (8 + fld x.q0 35 32)).toNat
  if x.q0.getLsbD 41 then lowInt (fld x.q0 31 0 + off.toNat : Nat) 32
  else lowInt (base + sextNat (fld x.q0 31 0) 32 + sextNat off.toNat 32) 64

/-- TY, ORD and SCOPE of a memory node. -/
def nodeTy (x : FUnit) : BitVec 4 := x.q0.extractLsb' 37 4
def nodeOrd (x : FUnit) : Nat := fld x.q0 43 42
def nodeScope (x : FUnit) : BitVec 3 := x.q0.extractLsb' 44 3

/-- How an access of a memory node ends. -/
inductive NodeRes where
  | ok (value : Option Word) (s : State)
  | fails (c : Cause)
  | waits
  /-- a read of the host window sets out (R437) -/
  | asks

/-- The access to the tile's scratchpad. -/
def nodePad (s : State) (lid tile : Nat) (x : FUnit) (ea : Nat) (data : Word) : NodeRes :=
  let n := accessBytes (nodeTy x)
  let o := PadOwner.tile lid tile
  let p := padOf s o
  if ea % n ≠ 0 then .fails .misaligned
  else if !padHas p ea n then .fails .scratchRange
  else if x.q0.getLsbD 36 then .ok none (padWriteAt s o ea (toBytes n data.toNat))
  else if padBad p ea n then .fails .dataError
  else .ok (some (BitVec.ofNat 32 (loadValue (nodeTy x) (readLE p.scratch ea n)))) s

/-- A write that a tile of the load sent to the host window was dropped, and no system release has reported it (R437). -/
def loadDropped (s : State) (lid : Nat) : Bool := (fabricOf s lid).tiles.any fun t => (coreOf s t.core).dropped

/-- The access to the global space: that of `ld` or `st` (R160 to R162, R401). A record's accesses are made on many
tiles, and any token may order one behind another (R270, R275): every one of them is performed at its slice, whatever
its scope, so that no tile's buffer or L1 comes between (log 92). A release has then nothing to wait for, and an acquire
nothing to drop. -/
def nodeGlobal (s : State) (lid tile : Nat) (x : FUnit) (ea : Nat) (data : Word) : NodeRes :=
  let n := accessBytes (nodeTy x)
  let store := x.q0.getLsbD 36
  let core := (tileOf (fabricOf s lid) tile).core
  if !canonical ea then .fails .noncanonical
  else if ea % n ≠ 0 then .fails .misaligned
  else match translate s (spaceOf (launchOf s lid) core) (if store then .write else .read) ea with
    | .fails c => .fails c
    | .waits => .waits
    | .ok pa attr s =>
      if !reaches s (!store) pa then .fails .linkError
      else if store then
        if nodeOrd x = 2 && nodeScope x = 5 && loadDropped s lid then .fails .linkError
        else match slicedStore s core none pa (toBytes n data.toNat) with
          | none => .waits
          | some s => .ok none (noteDropped s core pa)
      else if inHost pa && x.asked.isNone then .asks
      else if inHost pa && x.asked.any (s.cycle < ·.1) then .waits
      else if inHost pa && x.asked.any (·.2) then .fails .linkError
      else match coreLoad s core none true attr pa n with
        | .waits => .waits
        | .bad c => .fails c
        | .ok v s => .ok (some (BitVec.ofNat 32 (loadValue (nodeTy x) v))) s

/-- A watchpoint armed on a core of the load matches an access (R335, R338). -/
def nodeWatched (s : State) (lid : Nat) (x : FUnit) (ea : Nat) : Bool :=
  let store := x.q0.getLsbD 36
  (fabricOf s lid).tiles.any fun t => (coreOf s t.core).wp.any fun w =>
    w ≠ 0 && (wpMatch w (x.q0.getLsbD 41, !store, store, ea, accessBytes (nodeTy x))).isSome

/-- The cycle at which an access that a memory node makes now is performed: two cycles on at the earliest, so that a node
completes one access in three cycles at most (R455 needs it: log 117). -/
def nodeReturn (s : State) : Nat := returnCycle s + 1

/-- A memory node can take its tokens. -/
def memReady (s : State) (lid tile u : Nat) : Bool :=
  let x := unitOf s lid tile u
  unitActs s lid tile u && x.access.isNone && x.owed = [] && hasHead x 0
    && (!x.q0.getLsbD 36 || hasHead x 1) && (!x.q0.getLsbD 47 || hasHead x 2)

/-- MEMORY_NODE_ACCESS (R233). -/
def execMemoryNodeAccess (lid tile unit : Nat) (s : State) : Out :=
  let x := unitOf s lid tile unit
  match headOf x 0 with
  | none => .next s
  | some (off, tag, mark, r) =>
    if !memReady s lid tile unit || heldBack (fabricOf s lid) r then .next s
    else
      let ea := nodeAddr (launchOf s lid) x off
      let stop := if nodeWatched s lid x ea then some r else nodeStop s lid tile unit r
      match stop with
      | some r => .next (stopAtRecord s lid r)
      | none =>
        let data := ((headOf x 1).map (·.1)).getD 0
        match (if x.q0.getLsbD 41 then nodePad s lid tile x ea data else nodeGlobal s lid tile x ea data) with
        | .waits => .next s
        | .asks => .next (modUnit (ticked s) lid tile unit fun x => { x with asked := some (nodeReturn s, false) })
        | .fails c => .next (latchCause s lid tile unit c ea r)
        | .ok v s =>
          let s := takeHead s lid tile unit 0
          let s := if x.q0.getLsbD 36 then takeHead s lid tile unit 1 else s
          let s := if x.q0.getLsbD 47 then takeHead s lid tile unit 2 else s
          let s := sinkTakes (countFiring s lid tile unit 31) lid tile unit
          let due := nodeReturn s
          let s := modUnit s lid tile unit fun x =>
            { x with asked := none, access := some { value := v, tag := tag, mark := mark, record := r, due := due } }
          let s := if x.q0.getLsbD 36 && !x.q0.getLsbD 41 then
            modFabric s lid fun f => { f with stored := if f.stored.contains r then f.stored else r :: f.stored } else s
          .next (ticked s)

/-- A memory node's access has been performed: its completion token is owed. -/
def accessPerformed (s : State) (lid tile u : Nat) (a : NodeAccess) : State :=
  if a.performed then s
  else moved (modUnit s lid tile u fun x =>
    { x with access := some { a with performed := true }, owed := x.owed ++ [.data 0 0 a.mark a.record] }) lid

/-- A performed access is over once its value has left for out0. -/
def accessOver (s : State) (lid tile u : Nat) (a : NodeAccess) : State :=
  if a.value.isSome && !outEmpty (unitOf s lid tile u) 0 then s
  else
    let s := match a.value with
      | some v => fillOut s lid tile u 0 [.data v a.tag a.mark a.record]
      | none => s
    sinkDone (modUnit s lid tile u fun x => { x with access := none }) lid tile u a.mark

/-- MEMORY_NODE_COMPLETION (R233): once the access has been performed its completion token goes out, and its value as soon
as out0 is empty. -/
def execMemoryNodeCompletion (lid tile unit : Nat) (s : State) : Out :=
  let x := unitOf s lid tile unit
  let live := (tfind s.launches lid).any (fun la => la.fabric.any fires)
  let s := match x.access with
    | some a => if !live || s.cycle < a.due then s else accessOver (accessPerformed s lid tile unit a) lid tile unit a
    | none => s
  let x := unitOf s lid tile unit
  match x.owed with
  | t :: rest => if live && outEmpty x 1 then
      .next (fillOut (modUnit s lid tile unit fun x => { x with owed := rest }) lid tile unit 1 [t]) else .next s
  | [] => .next s

/-! ### The matrix node (R235, R408, R409) -/

/-- The word of format X that a control token stands for, with the operands as immediates' places unused. -/
def mxFmt (w : Word) : FmtX where
  g := 0
  a := 0x180
  b := 0x180
  c := 0x180
  z := w.extractLsb' 4 3
  acc := w.extractLsb' 7 1
  ta := w.extractLsb' 11 4
  tb := w.extractLsb' 15 4
  sh := w.extractLsb' 8 3 |>.zeroExtend 4
  cba := w.extractLsb' 19 3
  cbb := w.extractLsb' 22 3
  sc := w.extractLsb' 25 1
  rz := 0

/-- Operand inputs of an opcode. -/
def mxInputs (f : FmtX) : Nat → List Nat
  | 0 => if f.sc = 1 then [1, 2, 3] else [1, 2]
  | 1 | 2 => [1, 2]
  | 4 => [1]
  | 5 => [3]
  | _ => []

/-- A field that R181 reserves for the opcode is not zero. -/
def mxReserved (f : FmtX) (op : Nat) : Bool :=
  let rest := f.tb ≠ 0 || f.sh ≠ 0 || f.cbb ≠ 0 || f.sc ≠ 0 || f.acc ≠ 0
  match op with
  | 0 => (f.ta ≠ 0xC && f.cba ≠ 0) || (f.tb ≠ 0xC && f.cbb ≠ 0)
  | 1 | 2 => rest || f.cba ≠ 0
  | 3 | 5 => rest || f.cba ≠ 0 || f.ta ≠ 0
  | _ => rest || f.ta ≠ 0 || f.z ≠ 0

/-- The instruction that an opcode names, for the stages of R375. -/
def mxInstr (f : FmtX) : Nat → Instr
  | 0 => .mma f | 1 => .zld f | 2 => .zst f | 3 => .zclr f | 4 => .cbld f | _ => .zrd { f with a := 0 }

/-- What the stages of R375 see. -/
def mxEnv (la : Launch) : Env where
  nvregs := 256
  zregs := fld (hdr la 1) 12 9
  excl := (hdr la 0).getLsbD 51
  trap := false
  vform := false
  eqs := []
  mapCount := 0

/-- The matrix token of a control token with its operands, or the cause that R198 gives. -/
def mxToken (la : Launch) (p : Pad) (w : Word) (a b c : Nat) (rowRecord : Nat) : Except (Cause × Nat) MOp :=
  let f := mxFmt w
  let op := fld w 3 0
  let misaligned := fun (l : List (Nat × Bool)) => (l.find? fun x => !x.2).map fun x => (Cause.misaligned, x.1)
  let range := fun l => (rangeFails p l).map fun a => (Cause.scratchRange, a)
  let first := fun (l : List (Option (Cause × Nat))) (k : MOp) =>
    match l.findSome? id with | some e => Except.error e | none => Except.ok k
  if mxReserved f op then .error (.reservedField, w.toNat)
  else match judge (mxEnv la) (mxInstr f op) with
    | some e => .error (e, w.toNat)
    | none =>
      match op with
      | 0 => first [misaligned [(a, a % 64 = 0), (b, b % 64 = 0), (c, f.sc = 0 || c % 64 = 0)], range (mmaRanges f a b c),
          (emptySlot p f).map fun n => (.codebookEmpty, n)] (mmaOp f a b c)
      | 1 | 2 =>
        let e := tileBytes f.ta
        let st := tileStride f.ta b
        first [misaligned [(a, a % e = 0 && (b = 0 || (b % e = 0 && 32 * e ≤ b)))], range [(a, 31 * st + 32 * e)]]
          (if op = 1 then .zld f.z.toNat f.ta a st else .zst f.z.toNat f.ta a st)
      | 3 => .ok (.zclr f.z.toNat)
      | 4 => first [misaligned [(a, a % 32 = 0)], range [(a, 32)]] (.cbld f.cba.toNat a)
      | _ => if 31 < c then .error (.badOperand, w.toNat)
        else .ok (.zrd f.z.toNat ((List.range 32).map fun i => (i, i, 0, c)) rowRecord)

/-- The matrix node takes its next control token. -/
def mxTake (s : State) (lid tile : Nat) : State :=
  let x := unitOf s lid tile 29
  let p := padOf s (.tile lid tile)
  let la := launchOf s lid
  match headOf x 0 with
  | none => s
  | some (w, _, m, r) =>
    if heldBack (fabricOf s lid) r then s
    else match nodeStop s lid tile 29 r with
      | some r => stopAtRecord s lid r
      | none =>
        if 5 < fld w 3 0 || fld w 31 26 ≠ 0 then nodeFault s lid tile 29 31 5 r
        else
          let ins := mxInputs (mxFmt w) (fld w 3 0)
          if !ins.all (hasHead x) then s
          else
            let val := fun n => ((headOf x n).map (·.1.toNat)).getD 0
            let row := ((headOf x 3).map (·.2.2.2)).getD r
            match mxToken la p w (val 1) (val 2) (val 3) row with
            | .error (c, a) => latchCause s lid tile 29 c a r
            | .ok op =>
              let s := (0 :: ins).foldl (fun s n => takeHead s lid tile 29 n) s
              let s := sinkTakes (countFiring s lid tile 29 31) lid tile 29
              let s := modUnit s lid tile 29 fun x => { x with taken := x.taken ++ [.data w 0 m r] }
              modPad s (.tile lid tile) fun p =>
                tookToken s.cycle { p with queue := p.queue ++ [{ op := op, left := op.groups, tix := none }] }

/-- A control token's instruction is done: its completion token is owed, with the record of the token that caused it
(R458) and the control token's end mark (the spec states none: log 23). -/
def mxComplete (s : State) (lid tile : Nat) (m : BitVec 4) (record : Nat) (rest : List Token) : State :=
  let s := modUnit s lid tile 29 fun x => { x with taken := rest, owed := x.owed ++ [.data 0 0 m record] }
  moved (sinkDone s lid tile 29 m) lid

/-- The token at the head of the node's queue is performed, or fails (R409); a `zrd`'s columns go out first. The
tokens still queued are no firings for the iteration index of one that fails (R50). -/
def mxPerform (s : State) (lid tile : Nat) : State :=
  let o := PadOwner.tile lid tile
  let p := padOf s o
  let x := unitOf s lid tile 29
  match headDue s.cycle p, x.taken with
  | some t, .data _ _ m r :: rest =>
    match tokenBad p t with
    | some a =>
      let s := modUnit s lid tile 29 fun x => { x with fired := tset x.fired 31 (tget 0 x.fired 31 - p.queue.length) }
      latchCause (modPad s o fun p => { p with queue := { t with failed := some a } :: p.queue.tail }) lid tile 29 .dataError a.toNat r
    | none =>
      let res := performToken s.tick p t
      let s := if t.old = [] then s else ticked s
      let s := modLaunch s lid fun la => { la with sflags := la.sflags ||| res.flags }
      let s := modPad s o fun _ => { res.pad with queue := p.queue.tail }
      let s := tokenWrites s o res.writes
      let row := t.op.flight.getD r
      let cols := res.regs.map fun y => Token.data y.2.2 0 (if y.1 = 31 then 1 else 0) row
      if cols = [] then mxComplete s lid tile m r rest
      else moved (modUnit s lid tile 29 fun x => { x with columns := cols, taken := .data 0 0 m row :: rest }) lid
  | _, _ => s

/-- The columns of a `zrd` go out: the next one enters out0, or, once column 31 has left it, the instruction is done. -/
def mxColumns (s : State) (lid tile : Nat) (x : FUnit) : State :=
  if !outEmpty x 0 then s else
  match x.columns, x.taken with
  | t :: rest, _ => fillOut (modUnit s lid tile 29 fun x => { x with columns := rest }) lid tile 29 0 [t]
  | [], .data _ _ m r :: rest => mxComplete s lid tile m r rest
  | [], _ => s

/-- A `zrd` has been performed and its columns have not all left out0: its control token is still held, and its token of
the queue is gone. -/
def mxEmitting (p : Pad) (x : FUnit) : Bool := x.columns ≠ [] || p.queue.length < x.taken.length

/-- MATRIX_NODE_CONTROL (R235): outputs go out, the head token is performed when due, the next control token is
taken. -/
def execMatrixNodeControl (lid tile : Nat) (s : State) : Out :=
  if !unitSends s lid tile 29 then .next s
  else
    let x := unitOf s lid tile 29
    let s := if mxEmitting (padOf s (.tile lid tile)) x then mxColumns s lid tile x else mxPerform s lid tile
    let x := unitOf s lid tile 29
    let s := match x.owed with
      | t :: rest => if outEmpty x 1 then fillOut (modUnit s lid tile 29 fun x => { x with owed := rest }) lid tile 29 1 [t] else s
      | [] => s
    let p := padOf s (.tile lid tile)
    if (unitOf s lid tile 29).faulted || !mayTake s.cycle p || 8 ≤ p.queue.length then .next s else .next (mxTake s lid tile)

/-! ### The owner node (R236) -/

/-- The word that an update leaves. -/
def ownerNew (tick : Nat) (aop : Nat) (ty : BitVec 4) (b old : Nat) : Nat :=
  if (aopTypes aop).contains ty.toNat then atomNew aop ty b 0 old else (Config.ownerOpen tick).toNat

/-- OWNER_UPDATE (R236). -/
def execOwnerUpdate (lid tile : Nat) (s : State) : Out :=
  let x := unitOf s lid tile 30
  let o := PadOwner.tile lid tile
  match (inOf x 0).toks with
  | .data off aop m1 r :: .data b _ m2 _ :: _ =>
    let ret := x.q0.getLsbD 44
    if !unitActs s lid tile 30 || (ret && !outEmpty x 0) || heldBack (fabricOf s lid) r then .next s
    else match nodeStop s lid tile 30 r with
      | some r => .next (stopAtRecord s lid r)
      | none =>
        let a := lowInt (fld x.q0 19 0 + off.toNat : Nat) 32
        let p := padOf s o
        if aop = 7 || 13 ≤ aop.toNat then .next (nodeFault s lid tile 30 31 3 r)
        else if a % 4 ≠ 0 then .next (latchCause s lid tile 30 .misaligned a r)
        else if fld x.q0 39 20 < off.toNat + 4 || !padHas p a 4 then .next (latchCause s lid tile 30 .scratchRange a r)
        else if padBad p a 4 then .next (latchCause s lid tile 30 .dataError a r)
        else
          let old := readLE p.scratch a 4
          let ty : BitVec 4 := x.q0.extractLsb' 40 4
          let s' := takeHead (takeHead s lid tile 30 0) lid tile 30 0
          let s' := padWriteAt s' o a (toBytes 4 (ownerNew s.tick aop.toNat ty b.toNat old))
          let s' := sinkTakes (countFiring (ticked s') lid tile 30 31) lid tile 30
          let s' := modFabric s' lid fun f => { f with stored := if f.stored.contains r then f.stored else r :: f.stored }
          let s' := if ret then fillOut s' lid tile 30 0 [.data (BitVec.ofNat 32 old) 0 0 r] else s'
          .next (sinkDone (sinkDone s' lid tile 30 m1) lid tile 30 m2)
  | _ => .next s

/-! ### The transfer port (R237) -/

/-- The tag that a descriptor of a transfer port posts to: D2.TAG. -/
def portTag (d : List Dbl) : Nat := fld (d.getD 2 0) 12 9

/-- Pair words into doubles. -/
def pairDbls : List Word → List Dbl
  | a :: b :: t => (b.zeroExtend 64 <<< 32 ||| a.zeroExtend 64) :: pairDbls t
  | _ => []

/-- The descriptor of 16 tokens starts its transfer. -/
def portStart (s : State) (lid tile : Nat) (x : FUnit) (r : Nat) : State :=
  let words := x.taken.map fun t => match t with | .data d _ _ _ => d | .marker => 0
  let ds := pairDbls words
  if !(mxEnv (launchOf s lid)).excl then latchCause s lid tile 31 .tagNotHeld 0 r
  else match tryXfer s (.tile lid tile) (portTag ds) 0 ds with
    | .stall => s
    | .fails c a => latchCause s lid tile 31 c a r
    | .ok s =>
      let m15 := x.taken.any fun t => t.endMark = 15
      let s := modTag s (.tile lid tile) (portTag ds) fun t => { t with record := r }
      let s := modUnit (countFiring s lid tile 31 31) lid tile 31 fun x => { x with taken := [] }
      moved (if m15 then sinkDone s lid tile 31 15 else s) lid

/-- TRANSFER_PORT_DESCRIPTOR (R237): the next word of a descriptor, and the transfer after the 16th; and a token for
a watched tag that has returned to 0. -/
def execTransferPortDescriptor (lid tile : Nat) (s : State) : Out :=
  let x := unitOf s lid tile 31
  if !unitSends s lid tile 31 then .next s
  else
    let s := match x.owed with
      | t :: rest => if outEmpty x 0 then fillOut (modUnit s lid tile 31 fun x => { x with owed := rest }) lid tile 31 0 [t] else s
      | [] => s
    let x := unitOf s lid tile 31
    if x.faulted then .next s
    else if 16 ≤ x.taken.length then .next (portStart s lid tile x ((x.taken.getLast?.map Token.record).getD 0))
    else match headOf x 0 with
      | none => .next s
      | some (d, t, m, r) =>
        if heldBack (fabricOf s lid) r then .next s
        else match nodeStop s lid tile 31 r with
          | some r => .next (stopAtRecord s lid r)
          | none =>
            if x.taken.length = 15 && m ≠ 1 then .next (nodeFault s lid tile 31 31 4 r)
            else
              let s := sinkTakes (takeHead s lid tile 31 0) lid tile 31
              let s := modUnit s lid tile 31 fun x => { x with taken := x.taken ++ [.data d t m r] }
              let x := unitOf s lid tile 31
              .next (if x.taken.length = 16 then portStart s lid tile x r else s)

/-- TRANSFER_PORT_EXPECT (R237). -/
def execTransferPortExpect (lid tile : Nat) (s : State) : Out :=
  let x := unitOf s lid tile 31
  match headOf x 1 with
  | none => .next s
  | some (d, t, m, r) =>
    if !unitActs s lid tile 31 || heldBack (fabricOf s lid) r then .next s
    else match nodeStop s lid tile 31 r with
      | some r => .next (stopAtRecord s lid r)
      | none =>
        if !(mxEnv (launchOf s lid)).excl then .next (latchCause s lid tile 31 .tagNotHeld 0 r)
        else match tryExpect s (.tile lid tile) t.toNat d.toNat with
          | none => .next (latchCause s lid tile 31 .expectOverflow t.toNat r)
          | some s =>
            let s := modTag s (.tile lid tile) t.toNat fun t => { t with record := if d = 0 then t.record else r }
            let s := sinkTakes (countFiring (takeHead s lid tile 31 1) lid tile 31 31) lid tile 31
            .next (sinkDone s lid tile 31 m)

/-! ### The tokens of records that stop (R403) -/

/-- The tokens of a record are discarded: the load is brought to positions at or below it, and it has made no store,
atomic or owner update in the load. -/
def discards (f : Fabric) (record : Nat) : Bool := heldBack f record && !f.stored.contains record

/-- The tokens that stay. -/
def keptTokens (f : Fabric) (l : List Token) : List Token := l.filter fun t => t = .marker || !discards f t.record

/-- A unit without the tokens of the records that stop. What a matrix node has taken is performed, and a repeat node gives
up a block or an emission of such a record. -/
def discardUnit (f : Fabric) (u : Nat) (x : FUnit) : FUnit :=
  let gone := (x.emit ≠ [] && discards f x.last) || (x.block ≠ [] && x.block.all fun t => discards f t.record)
  let passed := x.q0.getLsbD 58 && x.pass.any fun p => discards f p.2.1
  { x with
    ins := x.ins.map fun c => { c with toks := keptTokens f c.toks }
    asked := if x.ins.any fun c => keptTokens f c.toks ≠ c.toks then none else x.asked
    outs := x.outs.map fun o => let l := keptTokens f o.toks; { o with toks := l, dests := if l = [] then [] else o.dests }
    fifo := x.fifo.filter fun e => !discards f e.1
    window := x.window.filter fun w => !discards f w.2.record
    block := if gone then [] else x.block
    emit := if gone then [] else x.emit
    whole := x.whole && !gone
    pass := if 21 ≤ u && passed then none else x.pass
    counter := if (u = 20 && gone) || (21 ≤ u && passed) then 0 else x.counter
    taken := if u = 31 then keptTokens f x.taken else x.taken
    columns := keptTokens f x.columns
    owed := keptTokens f x.owed }

/-- A tile without them. -/
def discardTile (f : Fabric) (t : FTile) : FTile :=
  { t with
    units := t.units.zipIdx.map fun (x, u) => discardUnit f u x
    ports := t.ports.map fun q => (q.map fun p => { p with toks := keptTokens f p.toks }).filter fun p => p.toks ≠ [] }

/-- Tokens that stand where some unit will take them: record, and the memory node before which they stand. An
ordering token has no further work for its record. -/
def workTokens (f : Fabric) : List (Nat × Option (Nat × Nat)) :=
  f.tiles.zipIdx.flatMap fun (t, i) =>
    (t.units.zipIdx.flatMap fun (x, u) =>
      let mem := 25 ≤ u && u ≤ 28
      let uses := fun (n : Nat) => if u < 16 then
          (List.range 32).any fun k => slotValid x k &&
            (let w := (x.slots.getD k (0, 0)).1
             (w.getLsbD 30 && fld w 9 6 = n) || (w.getLsbD 31 && fld w 13 10 = n))
        else !(mem && n = 2)
      let chans := x.ins.zipIdx.flatMap fun (c, n) =>
        if uses n then (c.toks.filter (· ≠ .marker)).map fun k => (k.record, if mem && n = 0 then some (i, u) else none) else []
      let rest := (x.outs.flatMap fun o => if o.dests = [] then [] else o.toks) ++ (x.window.map (·.2)) ++ x.block ++ x.emit
        ++ x.taken ++ x.columns
      chans ++ (rest.filter (· ≠ .marker)).map fun k => (k.record, none))
    ++ (t.ports.flatMap fun q => q.flatMap fun p => (p.toks.filter (· ≠ .marker)).map fun k => (k.record, none))

/-- Records that have work left in the load. -/
def workRecords (f : Fabric) : List Nat :=
  (workTokens f).map (·.1) ++ f.tiles.flatMap fun t => t.units.zipIdx.flatMap fun (x, u) =>
    x.owed.map (·.record) ++ (if 21 ≤ u && x.q0.getLsbD 58 then (x.pass.map fun p => [p.2.1]).getD [] else [])

/-- The tokens of the records that go back to the launch point of a load which is brought to positions are discarded, as far
as they may stand before others' (R403; DEDUCED, log 128). -/
def discardStopped (s : State) (lid : Nat) : State :=
  let f := fabricOf s lid
  if f.stopAt.isNone then s
  else
    let tiles := f.tiles.map (discardTile f)
    if tiles = f.tiles then s
    else moved (modFabric s lid fun f => { f with
      tiles := tiles, returned := (f.returned ++ (workRecords f).filter (discards f)).eraseDups }) lid

/-! ### What is in flight (R419, R426) -/

/-- An access is under way at its memory or slice; one whose value has come, and only waits to be sent on, is not. -/
def accessFlies (cycle : Nat) (x : FUnit) : Bool := x.access.any fun a => cycle ≤ a.due && !a.performed

/-- The access of a memory node waits at a locked sector, or for the host link (R285, R437). -/
def accessWaits (s : State) (lid tile u : Nat) : Bool :=
  let x := unitOf s lid tile u
  match headOf x 0 with
  | some (off, _, _, r) =>
    memReady s lid tile u && !heldBack (fabricOf s lid) r
      && (let ea := nodeAddr (launchOf s lid) x off
          match (if x.q0.getLsbD 41 then .ok none s else nodeGlobal s lid tile x ea (((headOf x 1).map (·.1)).getD 0)) with
          | .waits | .asks => true
          | _ => false)
  | none => false

/-- A tile's matrix queue goes on: its first token has not failed, and no column of a `zrd` stands before a full out0. -/
def matrixFlies (t : FTile) : Bool :=
  let x := t.units.getD 29 noUnit
  t.pad.queue ≠ [] && (t.pad.queue.head?.bind (·.failed)).isNone && !(mxEmitting t.pad x && !outEmpty x 0)

/-! ### Markers (R214) -/

/-- A unit has no work of its own left that would send a data token. -/
def unitIdle (f : Fabric) (tile u : Nat) : Bool :=
  let x := (tileOf f tile).units.getD u noUnit
  x.access.isNone && x.owed = [] && x.columns = [] && x.emit = [] && x.window = [] && (u ≠ 29 || x.taken = [])
    && (x.pass.isNone || inputsOf f tile u = []) && (List.range 4).all (outEmpty x)

/-- An input has a marker at its head. -/
def markerHead (x : FUnit) (n : Nat) : Bool := match (inOf x n).toks with | .marker :: _ => true | _ => false

/-- A unit stops at its markers in this cycle. -/
def markerReady (s : State) (lid tile u : Nat) : Bool :=
  let f := fabricOf s lid
  let x := (tileOf f tile).units.getD u noUnit
  f.drain.isSome && unitActs s lid tile u && unitInUse f tile u && unitIdle f tile u
    && (inputsOf f tile u).all (markerHead x)

/-- An element fires no more during a drain: each of its connected inputs has a marker at its head, or it is a source
(R58, R214). -/
def firingOver (f : Fabric) (tile u : Nat) : Bool :=
  f.drain.isSome && (inputsOf f tile u).all (markerHead ((tileOf f tile).units.getD u noUnit))

/-- The connected outputs of a unit. -/
def outputsOf (t : FTile) (u : Nat) : List Nat := (List.range 4).filter fun n => destsOf t u n ≠ []

/-- UNIT_MARKER_PASS (R214): the unit's markers go, it stops, and each connected output sends one. -/
def execUnitMarkerPass (lid tile unit : Nat) (s : State) : Out :=
  if !markerReady s lid tile unit then .next s
  else
    let f := fabricOf s lid
    let s := (inputsOf f tile unit).foldl (fun s n => takeHead s lid tile unit n) s
    let s := modUnit s lid tile unit fun x => { x with stopped := true }
    .next (moved ((outputsOf (tileOf f tile) unit).foldl (fun s n => fillOut s lid tile unit n [.marker]) s) lid)

end Sys2Proof.Machine
end

