-- ==== Sys2Proof/Machine/Spatial.lean ====
section
/-! DEFINITION. The operations of an element's slots: R217 to R223, R246, R458. -/

namespace Sys2Proof.Machine

/-! ### Triggers and the choice of a slot (R218, R220) -/

/-- A slot's trigger holds (R218). -/
def triggerHolds (u : FUnit) (n : Nat) : Bool :=
  let t := (u.slots.getD n (0, 0)).2
  slotValid u n
    && (u.preds &&& t.extractLsb' 0 8) = t.extractLsb' 0 8 && (u.preds &&& t.extractLsb' 8 8) = 0
    && ((List.range 4).all fun i => !t.getLsbD (16 + i) || hasHead u i)
    && ((List.range 4).all fun i => !t.getLsbD (20 + i) || outEmpty u i)
    && (!t.getLsbD 30 || (headOf u (fld t 25 24)).any fun h => h.2.1 = t.extractLsb' 26 4)

/-- The slots whose triggers hold, but for those that stopped at a marker (R58). -/
def holding (u : FUnit) : List Nat :=
  if u.q0.getLsbD 20 then (List.range 32).filter fun n => triggerHolds u n && !u.marked.contains n else []

/-- The slot that an element fires in a cycle: the longest starved one, else the lowest-numbered (R220). -/
def pickSlot (u : FUnit) : Option Nat :=
  let h := holding u
  match h.filter fun n => 32 ≤ tget 0 u.held n with
  | [] => h.head?
  | x :: t => some (t.foldl (fun b n => if tget 0 u.held b < tget 0 u.held n then n else b) x)

/-- Count the cycle for the slots whose triggers hold and do not fire: a count starts again with a firing, or where the
trigger fails (R220). -/
def countHeld (fires : Bool) (u : FUnit) : FUnit :=
  let pick := if fires then pickSlot u else none
  { u with held := (holding u).filterMap fun n => if pick = some n then none else some (n, tget 0 u.held n + 1) }

/-! ### Firing (R221) -/

/-- A source's value: data, tag, end mark, and the record of a channel's token (R213, R217). -/
def slotSrc (u : FUnit) (c : BitVec 4) : Word × BitVec 4 × BitVec 4 × Option Nat :=
  let n := c.toNat
  if n < 4 then match headOf u n with
    | some (d, t, m, r) => (d, t, m, some r)
    | none => (0, 0, 0, none)
  else if n < 10 then (u.regs.getD (n - 4) 0, 0, 0, none)
  else (u.lits.getD (n - 10) 0, 0, 0, none)

/-- No value. -/
def noSrc : Word × BitVec 4 × BitVec 4 × Option Nat := (0, 0, 0, none)

/-- What a slot operation reads and how it computes: operand count, whether it is `mark`, and its result with its
flags from the element's configuration and the data of A and B. -/
structure SlotOp where
  arity : Nat
  isMark : Bool := false
  /-- `nop`: it sends no token (R103) -/
  quiet : Bool := false
  run : Dbl → Nat → Nat → Nat × FFlags

/-- The tag of the DA token (R217). -/
def slotTag (f : FmtSlot) (a b : BitVec 4) (res : Word) : BitVec 4 :=
  match f.ta.toNat with
  | 0 => a
  | 1 => b
  | 2 => res.extractLsb' 0 4
  | n => BitVec.ofNat 4 (n - 8)

/-- What a firing sends and writes, each value read at the start of the cycle. -/
structure SlotEffect where
  res : Word
  /-- port and tokens -/
  sends : List (Nat × Token)
  /-- register and value -/
  writes : List (Nat × Word)
  flags : FFlags
  record : Nat
  deriving DecidableEq, Repr

/-- The effect of a slot word of an element (R221, R222, R458). A `nop` sends no token from DB either; a register that
its DB names takes b (R103 against R222: log 93). TA 1 with no B gives tag 0 (DESIGN CHOICE, log 127). -/
def slotEffect (u : FUnit) (f : FmtSlot) (op : SlotOp) : SlotEffect :=
  let a := if op.arity = 0 then noSrc else slotSrc u f.sa
  let b := if op.arity < 2 && f.db = 15 then noSrc else slotSrc u f.sb
  let (x, fl) := op.run u.q0 a.1.toNat b.1.toNat
  let res := BitVec.ofNat 32 x
  let record := match a.2.2.2, b.2.2.2 with
    | some r, _ => r
    | none, some r => r
    | none, none => u.last
  let da := if op.arity = 0 then 15 else f.da.toNat
  let db := f.db.toNat
  let m := if op.isMark then b.1.extractLsb' 0 4 else a.2.2.1
  let ta := Token.data res (slotTag f a.2.1 b.2.1 res) m record
  let tb := Token.data b.1 b.2.1 b.2.2.1 (b.2.2.2.getD u.last)
  { res := res, flags := fl, record := record
    sends := if op.quiet then [] else (if da < 4 then [(da, ta)] else []) ++ (if db < 4 then [(db, tb)] else [])
    writes := (if 4 ≤ da && da < 10 then [(da - 4, res)] else []) ++ (if 4 ≤ db && db < 10 then [(db - 4, b.1)] else []) }

/-- The channels that DQ names. -/
def slotDequeues (f : FmtSlot) : List Nat :=
  let l := (if f.dq.getLsbD 0 then [f.sa.toNat] else []) ++ (if f.dq.getLsbD 1 then [f.sb.toNat] else [])
  (l.filter (· < 4)).eraseDups

/-- The element after a firing, but for what it sends. -/
def slotUpdate (cycle : Nat) (back : Nat → Option Nat) (f : FmtSlot) (e : SlotEffect) (u : FUnit) : FUnit :=
  let u := e.writes.foldl (fun u w => { u with regs := u.regs.set w.1 w.2 }) u
  let u := if f.pw = 1 then
    let bit : BitVec 8 := BitVec.ofNat 8 (2 ^ f.pd.toNat)
    { u with preds := if e.res.getLsbD 0 then u.preds ||| bit else u.preds &&& ~~~bit } else u
  (slotDequeues f).foldl (fun u n => { popIn cycle back u n with last := ((headOf u n).map (·.2.2.2)).getD u.last }) u

/-- One firing (R221): the breakpoint of R338 and the fault of a wrong `mark` (R246, R417) come before it. -/
def fireSlot (f : FmtSlot) (op : SlotOp) (s : State) : Out :=
  match s.cur with
  | .slot lid tile el slot =>
    if (tfind s.launches lid).all (fun la => la.fabric.isNone) then .fault .noFiringElement
    else
      let u := unitOf s lid tile el
      let e := slotEffect u f op
      let b := slotSrc u f.sb
      match siteStop s lid tile el slot e.record with
      | some r => .next (stopAtRecord s lid r)
      | none =>
      if op.isMark && 9 ≤ b.1.toNat % 16 && b.1.toNat % 16 ≤ 14 then .next (nodeFault s lid tile el slot 1 e.record)
      else
        let s := countFiring s lid tile el slot
        let s := modUnit s lid tile el (slotUpdate s.cycle (placeBack s (tileOf (fabricOf s lid) tile) el) f e)
        let s := modLaunch s lid fun la => { la with sflags := la.sflags ||| e.flags }
        let s := if e.sends = [] && slotDequeues f = [] then s else moved s lid
        .next ((List.range 4).foldl (fun s n =>
          match (e.sends.filter fun x => x.1 = n).map (·.2) with
          | [] => s
          | toks => toks.foldl (fun s t => sourceMark s lid tile el t.endMark) (fillOut s lid tile el n toks)) s)
  | _ => .fault .noFiringElement

/-! ### Operations (R222) -/

/-- ITY, FTY, SAT and RM of ECFG (R216). -/
def ecIty (q : Dbl) : BitVec 4 := q.extractLsb' 0 4
def ecFty (q : Dbl) : BitVec 4 := q.extractLsb' 4 4
def ecSat (q : Dbl) : Bool := q.getLsbD 11
def ecRm (q : Dbl) : RMode := modeOf (fld q 10 8)

/-- i32 when ITY is i32, n32 otherwise: the type of `mulhi`, `div` and `rem`. -/
def ecWide (q : Dbl) : BitVec 4 := if ecIty q = 1 then 1 else 2

/-- An integer operation at a type, of the T-form pattern (R124). -/
def slotInt (arity : Nat) (ty : Dbl → BitVec 4) (sat : Dbl → Bool) (op : Nat → List Int → Int) : SlotOp :=
  { arity := arity, run := fun q a b => (aluValue (ty q) (sat q) op [a, b], 0) }
/-- An operation on 32 bits. -/
def slotBits (arity : Nat) (op : Nat → Nat → Nat) : SlotOp := { arity := arity, run := fun _ a b => (op a b, 0) }
/-- A compare: 1 or 0. -/
def slotCmp (signed : Bool) (op : Int → Int → Bool) : SlotOp :=
  slotBits 2 fun a b => if op (intOf signed 32 a) (intOf signed 32 b) then 1 else 0
/-- A rounded operation on the elements of a float type, in mode RM (R143, R222). -/
def slotFp (arity : Nat) (ty : Dbl → BitVec 4) (op : RMode → List XVal → XVal × FFlags) : SlotOp :=
  { arity := arity, run := fun q a b =>
      match fmtOf (ty q) with
      | none => (0, 0)
      | some f => joinFlagged f.bits ((List.range (elemShape (ty q)).2).map fun j =>
          let (x, fl) := op (ecRm q) ([a, b].map fun y => decodeFloat f (elem y f.bits j))
          let (v, fr) := roundFloat f { mode := ecRm q } x
          (v, fl ||| fr)) }
/-- An operation on the codes of a float type's elements (R145). -/
def slotCode (arity : Nat) (op : FFmt → Nat → Nat → Nat) : SlotOp :=
  { arity := arity, run := fun q a b =>
      match fmtOf (ecFty q) with
      | none => (0, 0)
      | some f => (joinElems f.bits ((List.range (elemShape (ecFty q)).2).map fun j => op f (elem a f.bits j) (elem b f.bits j)), 0) }
/-- A compare on f32 (R146). -/
def slotFcmp (cc : Nat) : SlotOp :=
  { arity := 2, run := fun _ a b =>
      let (t, fl) := fcmpHolds cc (decodeFloat fmtF32 a) (decodeFloat fmtF32 b)
      (if t then 1 else 0, fl) }
/-- f32 whatever FTY holds. -/
def slotF32 (_ : Dbl) : BitVec 4 := 3
def noSat (_ : Dbl) : Bool := false

def execSNop (f : FmtSlot) (s : State) : Out := fireSlot f { slotBits 0 (fun _ _ => 0) with quiet := true } s
def execSMov (f : FmtSlot) (s : State) : Out := fireSlot f (slotBits 1 fun a _ => a) s
def execSAdd (f : FmtSlot) (s : State) : Out := fireSlot f (slotInt 2 ecIty ecSat fun _ l => arg l 0 + arg l 1) s
def execSSub (f : FmtSlot) (s : State) : Out := fireSlot f (slotInt 2 ecIty ecSat fun _ l => arg l 0 - arg l 1) s
def execSMul (f : FmtSlot) (s : State) : Out := fireSlot f (slotInt 2 ecIty ecSat intMul) s
def execSMulhi (f : FmtSlot) (s : State) : Out := fireSlot f (slotInt 2 ecWide noSat intMulhi) s
def execSMin (f : FmtSlot) (s : State) : Out := fireSlot f (slotInt 2 ecIty noSat fun _ l => min (arg l 0) (arg l 1)) s
def execSMax (f : FmtSlot) (s : State) : Out := fireSlot f (slotInt 2 ecIty noSat fun _ l => max (arg l 0) (arg l 1)) s
def execSAbs (f : FmtSlot) (s : State) : Out := fireSlot f (slotInt 1 ecIty ecSat fun _ l => (arg l 0).natAbs) s
def execSNeg (f : FmtSlot) (s : State) : Out := fireSlot f (slotInt 1 ecIty ecSat fun _ l => -arg l 0) s
def execSAnd (f : FmtSlot) (s : State) : Out := fireSlot f (slotBits 2 fun a b => a &&& b) s
def execSOr (f : FmtSlot) (s : State) : Out := fireSlot f (slotBits 2 fun a b => a ||| b) s
def execSXor (f : FmtSlot) (s : State) : Out := fireSlot f (slotBits 2 fun a b => a ^^^ b) s
def execSAndn (f : FmtSlot) (s : State) : Out := fireSlot f (slotBits 2 fun a b => a &&& (2 ^ 32 - 1 - b)) s
def execSNot (f : FmtSlot) (s : State) : Out := fireSlot f (slotBits 1 fun a _ => 2 ^ 32 - 1 - a) s
def execSShl (f : FmtSlot) (s : State) : Out := fireSlot f (slotInt 2 ecIty noSat intShl) s
def execSShr (f : FmtSlot) (s : State) : Out := fireSlot f (slotInt 2 ecIty noSat intShr) s
def execSSar (f : FmtSlot) (s : State) : Out := fireSlot f (slotInt 2 ecIty noSat intSar) s
def execSPopc (f : FmtSlot) (s : State) : Out := fireSlot f (slotBits 1 fun a _ => popCount a 32) s
def execSClz (f : FmtSlot) (s : State) : Out := fireSlot f (slotBits 1 fun a _ => 32 - bitLen a) s
def execSCmpeq (f : FmtSlot) (s : State) : Out := fireSlot f (slotCmp true fun a b => a = b) s
def execSCmpne (f : FmtSlot) (s : State) : Out := fireSlot f (slotCmp true fun a b => a ≠ b) s
def execSCmplt (f : FmtSlot) (s : State) : Out := fireSlot f (slotCmp true fun a b => a < b) s
def execSCmple (f : FmtSlot) (s : State) : Out := fireSlot f (slotCmp true fun a b => a ≤ b) s
def execSCmpltu (f : FmtSlot) (s : State) : Out := fireSlot f (slotCmp false fun a b => a < b) s
def execSCmpleu (f : FmtSlot) (s : State) : Out := fireSlot f (slotCmp false fun a b => a ≤ b) s
def execSDiv (f : FmtSlot) (s : State) : Out := fireSlot f (slotInt 2 ecWide noSat intDiv) s
def execSRem (f : FmtSlot) (s : State) : Out := fireSlot f (slotInt 2 ecWide noSat intRem) s
def execSFadd (f : FmtSlot) (s : State) : Out := fireSlot f (slotFp 2 ecFty fun m l => xAdd m (xarg l 0) (xarg l 1)) s
def execSFsub (f : FmtSlot) (s : State) : Out :=
  fireSlot f (slotFp 2 ecFty fun m l => xAdd m (xarg l 0) (xNeg (xarg l 1))) s
def execSFmul (f : FmtSlot) (s : State) : Out := fireSlot f (slotFp 2 ecFty fun _ l => xMul (xarg l 0) (xarg l 1)) s
def execSFmin (f : FmtSlot) (s : State) : Out := fireSlot f (slotCode 2 codeMin) s
def execSFmax (f : FmtSlot) (s : State) : Out := fireSlot f (slotCode 2 codeMax) s
def execSFabs (f : FmtSlot) (s : State) : Out := fireSlot f (slotCode 1 fun fm a _ => codeAbs fm a) s
def execSFneg (f : FmtSlot) (s : State) : Out := fireSlot f (slotCode 1 fun fm a _ => codeNeg fm a) s
def execSFcmpeq (f : FmtSlot) (s : State) : Out := fireSlot f (slotFcmp 0) s
def execSFcmplt (f : FmtSlot) (s : State) : Out := fireSlot f (slotFcmp 2) s
def execSFcmple (f : FmtSlot) (s : State) : Out := fireSlot f (slotFcmp 3) s
def execSFrcp (f : FmtSlot) (s : State) : Out := fireSlot f (slotFp 1 slotF32 fun _ l => xDiv xOne (xarg l 0)) s
def execSFrsq (f : FmtSlot) (s : State) : Out := fireSlot f (slotFp 1 slotF32 fun _ l => xRsqrt (xarg l 0)) s
def execSFsqrt (f : FmtSlot) (s : State) : Out := fireSlot f (slotFp 1 slotF32 fun _ l => xSqrt (xarg l 0)) s
def execSFexp2 (f : FmtSlot) (s : State) : Out := fireSlot f (slotFp 1 slotF32 fun _ l => xExp2 (xarg l 0)) s
def execSFlog2 (f : FmtSlot) (s : State) : Out := fireSlot f (slotFp 1 slotF32 fun _ l => xLog2 (xarg l 0)) s
def execSFtanh (f : FmtSlot) (s : State) : Out := fireSlot f (slotFp 1 slotF32 fun _ l => xTanh (xarg l 0)) s

/-- f32 to i32 in mode RM (R114), and back (R113). -/
def slotCvtfi : SlotOp :=
  { arity := 1, run := fun q a _ => roundInteger true 32 { mode := ecRm q } (decodeFloat fmtF32 a) }
def slotCvtif : SlotOp :=
  { arity := 1, run := fun q a _ => roundFloat fmtF32 { mode := ecRm q } (xOfInt (intOf true 32 a)) }

def execSCvtfi (f : FmtSlot) (s : State) : Out := fireSlot f slotCvtfi s
def execSCvtif (f : FmtSlot) (s : State) : Out := fireSlot f slotCvtif s
def execSFdiv (f : FmtSlot) (s : State) : Out := fireSlot f (slotFp 2 slotF32 fun _ l => xDiv (xarg l 0) (xarg l 1)) s
def execSMark (f : FmtSlot) (s : State) : Out :=
  fireSlot f { arity := 2, isMark := true, run := fun _ a _ => (a, 0) } s

end Sys2Proof.Machine
end

