-- ==== Sys2Proof/Machine/Loads.lean ====
section
/-! DEFINITION. Fabric loads: their checks and configuration, hops into and out of S-form, completion, the freeze,
stalls, and the extraction of records: R33, R34, R45 to R48, R57 to R59, R219, R228, R238 to R243, R300, R343, R365,
R366, R384, R385, R399, R403 to R405, R417 to R429, R452. -/

namespace Sys2Proof.Machine

/-! ### Tile records (R240) -/

/-- A tile of a record's 784 doubles, before anything has run. -/
def tileOfRecord (core : Nat) (first : Nat) (d : List Dbl) (pad : Pad) : FTile :=
  let g := fun n => d.getD n 0
  let chans := fun (u : Nat) => (List.range 4).map fun n =>
    let c := g (0x260 + 4 * u + n)
    ({ cfg := c, buffered := fld c 47 32 ≠ 0 } : Channel)
  let outs := fun (u : Nat) => (List.range 4).map fun n =>
    ({ cfg := BitVec.ofNat 32 (fld (g (0x2E0 + u / 2)) (32 * (u % 2) + 8 * n + 7) (32 * (u % 2) + 8 * n)) } : Staging)
  let element := fun (e : Nat) =>
    let cfg := g (36 * e + 35)
    ({ q0 := cfg, ins := chans e, outs := outs e, regs := List.replicate 6 0
       slots := (List.range 32).map fun i => ((g (36 * e + i)).extractLsb' 0 32, (g (36 * e + i)).extractLsb' 32 32)
       lits := (List.range 6).map fun i => (g (36 * e + 32 + i / 2)).extractLsb' (32 * (i % 2)) 32
       preds := if cfg.getLsbD 20 then cfg.extractLsb' 12 8 else 0 } : FUnit)
  let node := fun (u : Nat) =>
    ({ q0 := g (0x240 + 2 * (u - 16)), q1 := g (0x240 + 2 * (u - 16) + 1), ins := chans u, outs := outs u
       counter := if u = 16 || u = 17 then first else 0 } : FUnit)
  { core := core, units := ((List.range 16).map element) ++ (List.range 16).map fun i => node (16 + i)
    routes := (List.range 64).map fun c => (g (0x2F0 + c / 2)).extractLsb' (32 * (c % 2)) 32
    ports := List.replicate 5 [], pad := pad }

/-! ### The checks of a load (R219, R384, R427) -/

/-- Operand count of a spatial operation; none for a reserved one (R103). -/
def opArity (op : Nat) : Option Nat :=
  if op = 0 then some 0
  else if (0x1C ≤ op && op ≤ 0x1F) || 0x34 ≤ op then none
  else if [0x01, 0x08, 0x09, 0x0E, 0x12, 0x13, 0x25, 0x26, 0x2A, 0x2B, 0x2C, 0x2D, 0x2E, 0x2F, 0x30, 0x31].contains op then some 1
  else some 2

/-- A slot word with its trigger breaks R219. -/
def slotBad (arity : Nat) (w t : Word) : Bool :=
  let sa := fld w 9 6
  let sb := fld w 13 10
  let da := if arity = 0 then 15 else fld w 17 14
  let db := fld w 21 18
  let dqa := w.getLsbD 30
  let dqb := w.getLsbD 31
  let reads := (if 0 < arity || dqa then [sa] else []) ++ (if arity = 2 || db ≠ 15 || dqb then [sb] else [])
  let res := fun d => 10 ≤ d && d ≤ 14
  res (fld w 17 14) || res db || (3 ≤ fld w 25 22 && fld w 25 22 ≤ 7)
    || (fld w 17 14 = db && 4 ≤ db && db ≤ 9)
    || (dqa && 4 ≤ sa) || (dqb && 4 ≤ sb)
    || (reads.any fun c => c < 4 && !t.getLsbD (16 + c))
    || ([da, db].any fun o => o < 4 && !t.getLsbD (20 + o))

/-- ECFG holds a reserved value (R216, R384). -/
def ecfgBad (q : Dbl) : Bool :=
  fld q 63 21 ≠ 0 ||
    (q.getLsbD 20 && (fld q 10 8 = 5 || fld q 10 8 = 7 || !([3, 4, 5].contains (fld q 7 4)) ||
      !([0, 1, 2, 6, 7, 8, 9].contains (fld q 3 0))))

/-- A counter level of a generator breaks R243. -/
def levelCfgBad (q : Dbl) (top : Nat) : Bool :=
  q.toNat / 2 ^ top ≠ 0 || fld q 15 0 = 0 || fld q 15 0 ≤ fld q 31 16 || (fld q 31 16 ≠ 0 && !q.getLsbD 56)

/-- A node configuration breaks R243. -/
def nodeBad (u : Nat) (q0 q1 : Dbl) : Bool :=
  let high := fun (n : Nat) => q0.toNat / 2 ^ n ≠ 0 || q1 ≠ 0
  if u = 16 || u = 17 then high 32
  else if u = 18 || u = 19 then high 7 || (fld q0 6 0 ≠ 0 && (fld q0 6 0 < 4 || 64 < fld q0 6 0))
  else if u = 20 then high 0
  else if u ≤ 24 then !(q0 = 0 && q1 = 0) && (levelCfgBad q0 59 || levelCfgBad q1 57 || (u = 21 && q0.getLsbD 57))
  else if u ≤ 28 then
    high 49 || 9 < fld q0 40 37 || !(fld q0 35 32 ≤ 7 || fld q0 35 32 = 15)
      || !scopeOk (if q0.getLsbD 41 then 1 else 0) (q0.extractLsb' 44 3) (q0.extractLsb' 42 2)
          (if q0.getLsbD 36 then [0, 2] else [0, 1])
  else if u = 29 then high 1
  else if u = 30 then high 46 || 3 < fld q0 43 40 || fld q0 39 20 % 4 ≠ 0 || fld q0 19 0 % 4 ≠ 0
  else high 17

/-- A channel configuration breaks R241. -/
def channelBad (c : Dbl) : Bool := fld c 31 28 ≠ 0 || fld c 11 8 ≠ 0 || fld c 47 32 % 8 ≠ 0

/-- The reasons that a tile gives for a refusal (R427). -/
def tileReasons (scratch : Nat) (t : FTile) : List Nat :=
  (t.units.zipIdx.flatMap fun (x, u) =>
    (if u < 16 && x.q0.getLsbD 20 then
      x.slots.flatMap fun (w, tr) => if !tr.getLsbD 31 then [] else match opArity (fld w 5 0) with
        | none => [1]
        | some n => if slotBad n w tr then [2] else []
     else [])
    ++ (if u < 16 && ecfgBad x.q0 then [3] else [])
    ++ (if (16 ≤ u && nodeBad u x.q0 x.q1) || (x.ins.any fun c => channelBad c.cfg) || (x.outs.any fun o => o.cfg.getLsbD 6)
        then [4] else [])
    ++ (if x.ins.any fun c => fld c.cfg 47 32 ≠ 0 &&
          (8 * fld c.cfg 27 12 < scratch || 458752 < 8 * fld c.cfg 27 12 + 8 * fld c.cfg 47 32) then [5] else []))
  ++ (if t.routes.any fun r => fld r 31 12 ≠ 0 then [4] else [])

/-- A map entry with a KIND or OPND that R385 names. -/
def mapEntryBad (m : Dbl) : Bool := !mapOpndOk m || 5 < mapKind m

/-- The equivalence-table entries, in order, and the index of the first fault cut. -/
def pointsOf (la : Launch) : List PointEntry := (eqEntries la.eqs).map pointOf
def firstCut (la : Launch) : Nat := (pointsOf la).findIdx fun e => e.kind = 2
/-- The memory nodes of a load that stand for a fault cut: tile and unit, in order (R245). -/
def cutNodes (f : Fabric) : List (Nat × Nat) :=
  (List.range f.tiles.length).flatMap fun t => ([25, 26, 27, 28].filter (unitInUse f t)).map fun u => (t, u)

/-- Read a load's tile records. -/
def readTiles (s : State) (sp : Space) (base : Nat) : Nat → Got (List (List Dbl))
  | 0 => .ok []
  | n + 1 => (readDbls s sp base 784).andThen fun d => (readTiles s sp (base + 6272) n).andThen fun l => .ok (d :: l)

/-- Read a load. -/
def planOf (s : State) (la : Launch) (core : Nat) (x : Nat × Dbl × Dbl) : Got LoadPlan :=
  let (w, h) := loadHeader x.2.1
  (readTiles s (spaceOf la core) (imageOf la + fld (hdr la 4) 31 0 + fld x.2.1 63 32) (min (fld x.2.1 31 16) 1024)).andThen fun l =>
    .ok { width := w, height := h, nfirst := fld x.2.2 47 32, ncount := fld x.2.2 15 0, records := l }

/-- The load of a plan, on the cores from an origin on. -/
def buildLoad (plan : LoadPlan) (load origin first cutBase : Nat) (pads : List Pad) : Fabric :=
  { load := load, nfirst := plan.nfirst, ncount := plan.ncount, cutBase := cutBase, origin := origin
    width := plan.width, height := plan.height, first := first
    tiles := plan.records.zipIdx.map fun (d, i) =>
      tileOfRecord (origin + 32 * (i / plan.width) + i % plan.width) first d (pads.getD i {}) }

/-- A header breaks R239. -/
def headerFails (la : Launch) (x : Nat × Dbl × Dbl) : Bool :=
  let (w, h) := loadHeader x.2.1
  fld x.2.1 31 16 ≠ w * h || fld x.2.1 15 10 ≠ 0 || fld x.2.2 63 48 ≠ 0 || fld x.2.2 31 16 ≠ 0 || fld x.2.1 63 32 % 8 ≠ 0
    || fld (hdr la 9) 15 0 < fld x.2.2 47 32 + fld x.2.2 15 0

/-- The reasons that a load gives, with its number of fault cuts. -/
def loadReasons (la : Launch) (cutBase : Nat) (f : Fabric) : List Nat :=
  let cuts := ((pointsOf la).drop cutBase).take (cutNodes f).length
  (f.tiles.flatMap (tileReasons (imgScratch la)))
    ++ (if f.tiles.any fun t => t.units.zipIdx.any fun (x, u) => isSink u x then [] else [4])
    ++ (if cuts.any fun e => (mapOf la e).any mapEntryBad then [6] else [])

/-- Check every load of a graph, from index `n` on: the first one that is refused with the lowest of its reasons, or the
plans (R427). -/
def checkGraph (s : State) (la : Launch) (core : Nat) :
    Nat → Nat → List (Nat × Dbl × Dbl) → Got (Except (Nat × Nat) (List LoadPlan))
  | _, _, [] => .ok (.ok [])
  | n, cutBase, x :: t =>
    if headerFails la x then .ok (.error (n, 4)) else
    match planOf s la core x with
    | .waits => .waits
    | .fails _ => .ok (.error (n, 7))
    | .ok p =>
      let f := buildLoad p 0 0 0 0 []
      match loadReasons la cutBase f with
      | r :: rs => .ok (.error (n, rs.foldl min r))
      | [] => (checkGraph s la core (n + 1) (cutBase + (cutNodes f).length) t).andThen fun r =>
          .ok (match r with | .error e => .error e | .ok l => .ok (p :: l))

/-! ### Frames and cores of a load (R303, R399) -/

/-- Bytes of a tile's frame. -/
def tileFrame (la : Launch) (t : FTile) : Nat :=
  65536 + imgScratch la + (t.units.flatMap fun x => x.ins.map fun c => 8 * fld c.cfg 47 32).sum

/-- The frames that a load needs besides its tiles': for a launch that starts in S-form those of every workgroup. -/
def leavingFrames (la : Launch) (f : Fabric) : List Nat :=
  (if f.entry = .entry && f.load = 0 then List.replicate (workgroupCount la) (frameBytes la) else [])

/-- Bytes of a tile's scratchpad with its edge buffers. -/
def tileTop (la : Launch) (t : FTile) : Nat :=
  (t.units.flatMap fun x => x.ins.map fun c =>
    if fld c.cfg 47 32 = 0 then 0 else 8 * fld c.cfg 27 12 + 8 * fld c.cfg 47 32).foldl max (imgScratch la)

/-! ### Entering S-form (R57, R104, R300, R399, R427) -/

/-- A hop into S-form, or a start there, is given up: the record of R399. `reason` is that of the record. -/
def traceAbandon (s : State) (lid reason region point : Nat) : State :=
  let la := launchOf s lid
  trace s la.part region
    { kind := 2, form := 0, detail := 0x80 + 4 * reason + 2, point := point, image := imageOf la }

/-- The id of the point that a hop into S-form stands at. -/
def hopPoint (la : Launch) : Nat := (la.hop.bind (·.point)).getD 0

/-- A hop into S-form is abandoned for a reason of R399; a launch that would start there starts in T-form (R104). -/
def refuseEntry (s : State) (lid reason region : Nat) : State :=
  let la := launchOf s lid
  let s := traceAbandon s lid reason region (hopPoint la)
  if la.form = .s then
    endIfUnplaceable (modLaunch s lid fun la =>
      { la with form := .t, fabric := none, wantsFabric := none, reserved := [], plans := [] }) lid
  else abandonHop s lid true

/-- A load of the graph is refused with a REASON of R427; LOAD is its index. -/
def refuseLoad (s : State) (lid origin load reason : Nat) : State :=
  let r := regionOfCore origin
  let s := modRegion s r fun g =>
    { g with
      rcstat := BitVec.ofNat 64 (reason * 2 ^ 56 + load % 65536 * 2 ^ 32 + 6)
      rcunits := []
      rcflt := [0, 0, 0]
      rcpart := (launchOf s lid).part }
  refuseEntry s lid 0 r

/-- The region controller of a load's origin begins it: its read-out is cleared (R423). -/
def beginRegion (s : State) (part : Nat) (f : Fabric) : State :=
  modRegion s (originRegion f) fun g =>
    { g with rcstat := BitVec.ofNat 64 (f.load % 65536 * 2 ^ 32 + 1), rcunits := [], rcflt := [0, 0, 0], rcpart := part }

/-- A load streams to its tiles: their SPU is set, and the acknowledgements are on their way. -/
def streamLoad (s : State) (lid : Nat) (f : Fabric) : Option State :=
  let la := launchOf s lid
  (f.tiles.foldlM (fun s t => setSpu (tileTop la t) s t.core) s).map fun s =>
    let s := beginRegion s la.part f
    let now := (regionOf s (originRegion f)).cycles
    let f := { f with
      state := .loading, t0 := now, t1 := none, t2 := none, t3 := none, quiet := if f.resumed then f.quiet else 0, moved := false
      streamed := s.cycle, placedAt := s.cycle, need := [], ackDue := s.cycle + 1 + Config.ackTime s.tick }
    ticked (modLaunch s lid fun la => { la with fabric := some f, wantsFabric := none })

/-- The first record of a launch that stands at an entry (R34). -/
def firstRecord (la : Launch) (from_ : EntryPoint) (parked : List Workgroup) : Nat :=
  if from_ = .entry then 0 else
  (parked.map fun w => w.w * imgLanes la + lowestLane (fullMask w.ntg &&& ~~~w.exited)).foldl min (2 ^ 32 - 1)

/-- A saved load goes on in another rectangle (R300, R302). -/
def restoreFabric (s : State) (la : Launch) (f : Fabric) (origin : Nat) : Fabric :=
  { f with
    origin := origin, drain := none, resumed := true
    tiles := f.tiles.zipIdx.map fun (t, i) =>
      let t := readTile s la t ((f.frames[i]?.map (·.1)).getD 0)
      { t with
        core := origin + 32 * (i / f.width) + i % f.width
        credits := []
        pad := { t.pad with size := imgScratch la, busy := [], throttle := none }
        units := t.units.map fun x =>
          { x with stopped := false, ins := x.ins.map fun c => { c with toks := c.toks.filter (· ≠ .marker), held := [] } } } }

/-- The pads of a load's tiles: kept from the load before in the same region, else zero-filled (R300, R452). -/
def freshPads (la : Launch) (n : Nat) : List Pad := List.replicate n { size := imgScratch la }

/-- The loads of the graph when a launch enters S-form, read and judged: the plans, or the load that is refused with its
reason (R392, R427). -/
def entryPlans (s : State) (la : Launch) : Got (Except (Nat × Nat) (List LoadPlan)) :=
  let core := stripCore s la.part
  match graphOf s la core with
  | .waits => .waits
  | .fails _ => .ok (.error (0, 7))
  | .ok graph => checkGraph s la core 0 (firstCut la) graph

/-- A load of a launch streams to a rectangle once its frames are free. A launch that starts there also takes the frames
for leaving S-form: where the pool can never hold them its entry is abandoned (R399); every other frame that is taken
is waited for (R303, R397). -/
def streamPlan (s : State) (lid origin : Nat) (p : LoadPlan) : State :=
  let la := launchOf s lid
  let old := la.fabric.getD {}
  let enters := old.load = 0
  let first := if enters then firstRecord la old.entry la.parked else old.first
  let f := { buildLoad p old.load origin first (if enters then firstCut la else old.cutBase)
      (freshPads la p.records.length) with entry := old.entry, parked := if enters then la.parked else old.parked }
  let (lo, hi) := poolOf (partOf s la.part).res
  let tiles := f.tiles.map (tileFrame la)
  let need := tiles ++ leavingFrames la f
  match takeSizes lo hi need (poolUsed s la.part) with
  | some fr =>
    (streamLoad (modLaunch s lid fun la => { la with reserved := la.reserved ++ fr.drop tiles.length }) lid
      { f with frames := fr.take tiles.length }).getD s
  | none =>
    if enters && leavingFrames la f ≠ [] && (takeSizes lo hi need []).isNone then refuseEntry s lid 2 (regionOfCore origin)
    else modFabric s lid fun f => { f with need := need }

/-- The region that a launch has taken is not of the size that its load now turns out to have: the rectangle of that size
is waited for, if there can be one (R300). -/
def resizeEntry (s : State) (lid origin : Nat) (p : LoadPlan) : State :=
  if (findRect (partOf s (launchOf s lid).part).res.cores.contains p.width p.height).isSome then
    modFabric s lid fun f => { f with width := p.width, height := p.height }
  else refuseEntry s lid 1 (regionOfCore origin)

/-- FABRIC_LOAD_STREAM (R300): a free rectangle is taken; every load of the graph is read and checked first when the
graph enters S-form, and later loads are those read then (R392, R427). -/
def execFabricLoadStream (lid : Nat) (s : State) : Out :=
  let la := launchOf s lid
  match (if (partOf s la.part).placing.isSome then none else nextPick s la.part) with
  | some (.rect l origin) =>
    if l ≠ lid then .next s
    else match la.savedFabric with
      | some f =>
        if framesLocked s f.frames then .next s
        else match framesFail s la.part f.frames with
        | some a => .next (saveFault s lid a)
        | none => .next (((streamLoad s lid (restoreFabric s la f origin)).map fun s =>
            modLaunch s lid fun la => { la with savedFabric := none }).getD s)
      | none =>
        let load := (la.fabric.map (·.load)).getD 0
        match la.plans[load]? with
        | some p => .next (streamPlan s lid origin p)
        | none =>
          match (if load = 0 then entryPlans s la else .waits) with
          | .waits => .next s
          | .fails _ => .next (refuseLoad s lid origin 0 7)
          | .ok (.error (n, r)) => .next (refuseLoad s lid origin n r)
          | .ok (.ok []) => .next (refuseLoad s lid origin 0 4)
          | .ok (.ok (p :: rest)) =>
            if wantedSize la ≠ (p.width, p.height) then .next (resizeEntry s lid origin p)
            else .next (streamPlan (modLaunch s lid fun la => { la with plans := p :: rest }) lid origin p)
  | _ => .next s

/-! ### The map on entry (R47, R48, R57) -/

/-- The entries of kinds 1 to 3 that come before an entry with the same OPND: an odd count makes it the second of an
s register's pair. -/
def entryHigh (before : List Dbl) (m : Dbl) : Bool :=
  (0x100 ≤ fld m 8 0 && fld m 8 0 < 0x120) &&
    (before.filter fun x => fld x 8 0 = fld m 8 0 && 1 ≤ mapKind x && mapKind x ≤ 3).length % 2 = 1

/-- The location entries of a map, each with whether it is the high half of an s register. -/
def locations (ms : List Dbl) : List (Dbl × Bool) :=
  ms.zipIdx.filterMap fun (m, i) => if mapKind m = 0 then none else some (m, entryHigh (ms.take i) m)

/-- A map for a hop into S-form has a defect (R47, R385). -/
def launchMapBad (ms : List Dbl) : Bool :=
  ms.any mapEntryBad ||
    ms.any fun m => mapKind m = 0 && !(ms.any fun x => mapKind x ≠ 0 && fld x 8 0 = fld m 8 0)

/-- The 32 bits of a register that a record carries. -/
def regValue (w : Workgroup) (opnd l : Nat) (high : Bool) : Word :=
  if opnd < 0x100 then vGet w l opnd
  else if opnd < 0x120 then
    -- every record carries its workgroup's value: that of the lowest-numbered TG that has not retired (R48, R400)
    let x := ((firstLive w).map fun t => sGet t.2 (opnd - 0x100)).getD 0
    if high then x.extractLsb' 32 32 else x.extractLsb' 0 32
  else if (kGet w (opnd - 0x140)).getLsbD l then 1 else 0

/-- The state that a workgroup has once it has entered S-form: the registers that no location of the map places are
dead and read 0, and the %cychi latch is cleared (R41, R42, R57, R69). Every TG has the s registers that its records
carry, those of the lowest-numbered TG that has not retired (R400). -/
def canonicalWg (ls : List (Dbl × Bool)) (w : Workgroup) : Workgroup :=
  let first := firstLive w
  let sregs := (first.map fun t => t.2.sregs).getD []
  let live := fun (o : Nat) => ls.any fun m => fld m.1 8 0 = o && mapKind m.1 ≠ 5
  { w with
    v := w.v.filter fun x => live (x.1 % 256)
    k := w.k.filter fun x => live (0x140 + x.1)
    threads := w.threads.map fun t => { t with sregs := sregs.filter (fun x => live (0x100 + x.1)), latch := 0 }
    badRegs := w.badRegs.filter fun b =>
      let o := if 0x300 ≤ b.1 then b.1 - 0x200 else b.1
      live o && !(0x100 ≤ o && o < 0x140 && !first.any fun t => t.1 = b.2) }

/-- The records of parked workgroups, ascending: workgroup, lane, record index. -/
def parkedRecords (la : Launch) (ws : List Workgroup) : List (Workgroup × Nat × Nat) :=
  let sorted := (List.range (workgroupCount la)).filterMap fun i => ws.find? fun w => w.w = i
  sorted.flatMap fun w => (lanesOf (fullMask w.ntg &&& ~~~w.exited)).map fun l => (w, l, w.w * imgLanes la + l)

/-- The address of a kind-3 location (R48). -/
def spillAddr (m : Dbl) (record : Nat) : Nat := fld m 49 30 + fld m 63 50 * record

/-- Apply one entry on entry into S-form. A token that a kind-2 entry feeds has tag 0 and end mark 0: the spec states
neither (DESIGN CHOICE, log 23). -/
def applyEntry (recs : List (Workgroup × Nat × Nat)) (f : Fabric) (e : Dbl × Bool) : Fabric :=
  let (m, high) := e
  let tile := fld m 21 12
  let el := fld m 25 22
  let n := fld m 29 26
  let opnd := fld m 8 0
  match mapKind m with
  | 1 => match recs with
    | [] => f
    | (w, l, _) :: _ => { f with tiles := f.tiles.modify tile fun t =>
        { t with units := t.units.modify el fun x => { x with regs := x.regs.set n (regValue w opnd l high) } } }
  | 2 => { f with feeds := f.feeds ++ [(tile, el, n, recs.map fun r => .data (regValue r.1 opnd r.2.1 high) 0 0 r.2.2)] }
  | 3 => { f with tiles := f.tiles.modify tile fun t =>
      { t with pad := recs.foldl (fun p r => padWrite p (spillAddr m r.2.2) (toBytes 4 (regValue r.1 opnd r.2.1 high).toNat)) t.pad } }
  | _ => f

/-- A point of a launch by its entry. -/
def entryMap (la : Launch) (e : EntryPoint) : List Dbl :=
  match e with
  | .entry => []
  | .point id => ((pointNamed la id).map (mapOf la)).getD []

/-- The declared phase that a launch takes on from parked workgroups: that of the lowest-numbered one that has one (the
spec does not say which: DESIGN CHOICE, log 69). -/
def parkedPhase (ws : List Workgroup) : Option Phase :=
  ((ws.filter (·.phase.isSome)).foldl (fun (b : Option Workgroup) w => if b.any fun x => x.w < w.w then b else some w) none).bind
    (·.phase)

/-- The throttle that passes to the launch: of the parked workgroups' throttles the one that lasts longest (R312). -/
def parkedThrottle (ws : List Workgroup) : Option Throttle :=
  (ws.filterMap (·.pad.throttle)).foldl (fun b h => if b.any fun x => h.ends ≤ x.ends then b else some h) none

/-- The launch's throttle acts on the matrix nodes of its load (R312, R313). -/
def takeThrottle (f : Fabric) : Fabric :=
  let h := parkedThrottle f.parked
  { f with tiles := f.tiles.zipIdx.map fun (t, i) =>
      if unitInUse f i 29 then { t with pad := { t.pad with throttle := h } } else t }

/-- The map of the point is applied (R57): locations, throttle, and the state in which a record returns there. -/
def enterPoint (la : Launch) (ms : List Dbl) (f : Fabric) : Fabric :=
  let ls := locations ms
  let f := takeThrottle (ls.foldl (applyEntry (parkedRecords la f.parked)) f)
  { f with parked := f.parked.map fun w => canonicalWg ls { w with pad := { w.pad with throttle := none } } }

/-- Every region of a load prepares for the launch's declared phase (R308). -/
def prepareLoad (s : State) (f : Fabric) (p : Option Phase) : State :=
  match p with
  | none => s
  | some p => ((f.tiles.map fun t => regionOfCore t.core).eraseDups).foldl (fun s r => prepareRegion s r (p.onset - s.cycle)) s

/-- GATES_OPEN (R57, R300, R399): every tile has acknowledged; the map is applied and the gates open. -/
def execGatesOpen (lid : Nat) (s : State) : Out :=
  match (tfind s.launches lid).bind (·.fabric) with
  | none => .next s
  | some f =>
    let la := launchOf s lid
    if f.state ≠ .loading || f.tiles = [] || s.cycle < f.ackDue || f.streamed + 4096 ≤ s.cycle then .next s
    else
      let now := (regionOf s (originRegion f)).cycles
      let hop := la.form ≠ .s
      let ms := entryMap la f.entry
      -- the parked workgroups' state is read from their frames (R57, R398)
      let frames := if hop then f.parked.map fun w => (w.frame, frameBytes la) else []
      if framesLocked s frames then .next s
      else match framesFail s la.part frames with
      | some a => .next (saveFault s lid a)
      | none =>
      if hop && launchMapBad ms then .next (refuseEntry (idleRegion s f) lid 3 (originRegion f))
      else
        let f := if hop then enterPoint la ms f else f
        let f := { f with t1 := some now, quiet := if f.resumed then f.quiet else 0, moved := false }
        let s := modLaunch s lid fun la =>
          { la with
            fabric := some f, form := .s, hop := if hop then none else la.hop, hopAt := if hop then s.cycle else la.hopAt
            spatialAt := if la.form ≠ .s || !la.started || f.resumed then s.cycle else la.spatialAt, parked := [], parkedAt := none, started := true
            reserved := la.reserved ++ (if hop then f.parked.map fun w => (w.frame, frameBytes la) else [])
            phase := if hop then parkedPhase f.parked else la.phase.map (phaseFrom s.cycle) }
        let s := prepareLoad s f (launchOf s lid).phase
        let s := modFabric s lid fun f => { f with resumed := false }
        let s := setLoadState s lid .running
        let s := if la.started then s else
          trace s la.part (originRegion f) { kind := 4, form := 2, image := imageOf la, w := f.first / imgLanes la }
        .next <| if hop then trace s la.part (originRegion f)
          { kind := 2, form := 0, detail := 2, point := hopPoint la, image := imageOf la
            cpc := ((pointNamed la (hopPoint la)).map fun e => e.cpc.toNat).getD 0, w := f.first / imgLanes la } else s

/-! ### The freeze and stalls (R417 to R421, R423, R427 to R429) -/

/-- RCUNIT and RCBUF of a unit as it stands (R423). -/
def unitReadout (s : State) (lid tile u : Nat) : Dbl × Dbl :=
  let x := unitOf s lid tile u
  let fill :=
    if u < 16 then 0
    else if u = 16 || u = 17 then x.fifo.length
    else if u = 18 || u = 19 then x.window.length
    else if u = 20 then x.block.length
    else if u = 29 then (padOf s (.tile lid tile)).queue.length
    else if u = 31 then (s.transfers.filter fun t => t.2.owner = .tile lid tile).length
    else if accessFlies s.cycle x then 1 else 0
  let inByte := fun n =>
    let c := inOf x n
    min 4 c.toks.length + (if markerHead x n then 8 else 0) + (if placesOf c ≤ c.toks.length then 16 else 0)
  let ins := (List.range 4).foldl (fun a n => a + inByte n * 2 ^ (8 * n)) 0
  let outs := (List.range 4).foldl (fun a n => a + (outOf x n).toks.length * 2 ^ (2 * n)) 0
  let bufs := (List.range 4).foldl (fun a n => a + ((inOf x n).toks.length - 4) * 2 ^ (16 * n)) 0
  (BitVec.ofNat 64 (fill * 2 ^ 48 + (if u < 16 then x.preds.toNat else 0) * 2 ^ 40 + outs * 2 ^ 32 + ins), BitVec.ofNat 64 bufs)

/-- RCFLT0 to RCFLT2 of a latched fault. -/
def faultRegs : Option NodeFault → List Dbl
  | none => [0, 0, 0]
  | some e => [BitVec.ofNat 64 (e.record % 2 ^ 32 * 2 ^ 32 + e.detail * 256 + e.cause.code), e.addr, e.iter.zeroExtend 64]

/-- The read-out of a load. -/
def readOut (s : State) (lid : Nat) (cause : Nat) (e : Option NodeFault) : State :=
  let f := fabricOf s lid
  let r := originRegion f
  let units := (List.range f.tiles.length).flatMap fun t => (List.range 32).map fun u => (32 * t + u, unitReadout s lid t u)
  let s := setRcstat s r 31 24 cause
  let s := setRcstat s r 23 14 ((e.map (·.tile)).getD 0)
  let s := setRcstat s r 13 9 ((e.map (·.unit)).getD 0)
  modRegion s r fun g => { g with rcunits := units, rcflt := faultRegs e }

/-- A load freezes with a launch cause: nothing fires any more, the read-out is taken, the launch escalates (R418,
R420, R442). -/
def freezeLoad (s : State) (lid : Nat) (cause : Cause) (addr iter : Nat) (e : Option NodeFault) : State :=
  let f := fabricOf s lid
  let r := originRegion f
  let s := readOut s lid cause.code e
  let s := modFabric s lid fun f => { f with drain := none, stopAt := none, faults := [] }
  let s := setLoadState s lid .frozen
  let s := carafe s (dieOf f.origin) 4 cause.code r (launchOf s lid).part [(regionOf s r).rcstat, 0]
  launchCause s lid cause addr iter (f.first / imgLanes (launchOf s lid))

/-- A word of a transfer of the load has not landed yet: one still to be sent, or sent and on its way (R197, R403). -/
def transferFlies (s : State) (lid : Nat) : Bool :=
  s.transfers.any fun t => (match t.2.owner with
    | .tile l _ => l = lid && (t.2.todo ≠ [] || t.2.ready ≠ [] || t.2.sent ≠ [] || t.2.acks ≠ 0)
    | .workgroup _ => false)

/-- Work of the load is not over: an access or its completion, a matrix token, a word of a transfer (R238, R403). -/
def inFlightWork (s : State) (lid : Nat) : Bool :=
  let f := fabricOf s lid
  (f.tiles.any fun t => (t.units.any fun x => x.access.isSome) || matrixFlies t) || transferFlies s lid

/-- FREEZE_RUNDOWN_END (R417). -/
def execFreezeRundownEnd (lid : Nat) (s : State) : Out :=
  match (tfind s.launches lid).bind (·.fabric) with
  | none => .next s
  | some f =>
    if f.state ≠ .freezing || f.quiet < 64 then .next s
    else match f.fault with
      | none => .next s
      | some e => .next (freezeLoad s lid .fabricNodeFault (e.unit + 32 * e.tile) e.iter.toNat (some e))

/-- TILE_ACK_TIMEOUT (R427, R428): the entry is refused with REASON 8, or a later load stalls the launch. -/
def execTileAckTimeout (lid : Nat) (s : State) : Out :=
  match (tfind s.launches lid).bind (·.fabric) with
  | none => .next s
  | some f =>
    if f.state ≠ .loading || f.tiles = [] || s.cycle < f.streamed + 4096 || f.ackDue < f.streamed + 4096 then .next s
    else if f.load = 0 && !f.resumed then .next (refuseLoad s lid f.origin 0 8)
    else .next (freezeLoad (setRcstat s (originRegion f) 63 56 8) lid .fabricStalled (originRegion f) 0 none)

/-! ### The state of records (R34, R42, R48, R365, R366, R403 to R405) -/

/-- Where a record stands. -/
inductive Standing where
  /-- the launch point or entry point at which the load began -/
  | start
  /-- a fault cut, or a launch point that the load has reached -/
  | at_ (e : PointEntry)
  | exited
  deriving DecidableEq, Repr

/-- The launch point marked in the current load, if there is one (R46, R49). -/
def markedPoint (la : Launch) (f : Fabric) : Option PointEntry :=
  (pointsOf la).find? fun e => e.kind = 1 && 0 < e.smarkn && f.nfirst ≤ e.smark && e.smark < f.nfirst + f.ncount

/-- Ungated generators that emit: unit by tile. -/
def openGenerators (f : Fabric) : List (Nat × Nat) :=
  (List.range f.tiles.length).flatMap fun t => ([21, 22, 23, 24].filter fun u =>
    unitInUse f t u && !((tileOf f t).units.getD u noUnit).q0.getLsbD 58).map fun u => (t, u)

/-- The record from which on the load's sources emit nothing, where that can be told: the records from there on are
left out (R34). -/
def leftOutFrom (f : Fabric) : Option Nat :=
  if f.feeds ≠ [] then none else
  match openGenerators f with
  | [] => none
  | l => some (f.first + (l.map fun x => agTotal (agLevels (tileOf f x.1) 4 x.2)).foldl max 0)

/-- A generator has not emitted the offset of a record. -/
def notEmitted (f : Fabric) (r : Nat) : Bool :=
  (openGenerators f).any fun x =>
    let u := (tileOf f x.1).units.getD x.2 noUnit
    (u.pass.isSome && f.first + u.counter ≤ r) || (!u.passed && f.first ≤ r)

/-- A record has been emitted, and no token of it is left: it has done its work in the load. Where no generator and no
feed emits the load's records this cannot be told. -/
def workDone (f : Fabric) (work : List (Nat × Option (Nat × Nat))) (q : Nat) : Bool :=
  (f.feeds ≠ [] || openGenerators f ≠ []) && !(work.any fun x => x.1 = q) && !(f.feeds.any fun g => g.2.2.2.any fun k => k.record = q)
    && !notEmitted f q

/-- The sources have emitted every record (R34, R57). -/
def sourcesDone (f : Fabric) : Bool :=
  (f.feeds.all fun g => g.2.2.2 = []) && (openGenerators f).all fun x =>
    let u := (tileOf f x.1).units.getD x.2 noUnit
    u.passed && u.pass.isNone

/-- Where a record stands when a hop at a launch point has drained the load (R58): one that no source has emitted yet at
the point at which the load began, one whose work in the graph is done has exited, every other at the point. -/
def outStanding (f : Fabric) (last : Bool) (work : List (Nat × Option (Nat × Nat))) (e : PointEntry) (q : Nat) : Standing :=
  if (leftOutFrom f).any fun n => n ≤ q then .exited
  else if notEmitted f q || (f.feeds.any fun g => g.2.2.2.any fun k => k.record = q) then .start
  else if last && workDone f work q then .exited
  else .at_ e

/-- Where a record that has done its work in the load stands. -/
def standsFinished (la : Launch) (f : Fabric) (last : Bool) : Option Standing :=
  if last then some .exited else (markedPoint la f).map .at_

/-- Where a record stands when the load is brought to positions at `r`; none while it stands at no position. -/
def standing (la : Launch) (f : Fabric) (last : Bool) (work : List (Nat × Option (Nat × Nat))) (r q : Nat) : Option Standing :=
  let mine := work.filter fun x => x.1 = q
  let fed := f.feeds.any fun g => g.2.2.2.any fun k => k.record = q
  if (leftOutFrom f).any fun n => n ≤ q then some .exited
  else if q < r then (if mine ≠ [] || fed || notEmitted f q then none else standsFinished la f last)
  else if !f.stored.contains q then some (if last && workDone f work q && !f.returned.contains q then .exited else .start)
  else match mine.findSome? (·.2) with
    | some node => ((pointsOf la)[f.cutBase + (cutNodes f).idxOf node]?).map .at_
    | none => if mine ≠ [] then none else standsFinished la f last

/-- The value of a location for a record (R48). -/
def locValue (f : Fabric) (m : Dbl) (record : Nat) : Word :=
  let t := tileOf f (fld m 21 12)
  let x := t.units.getD (fld m 25 22) noUnit
  match mapKind m with
  | 1 => x.regs.getD (fld m 29 26) 0
  | 2 => match (inOf x (fld m 29 26)).toks.find? fun k => k ≠ .marker && k.record = record with
    | some (.data d _ _ _) => d
    | _ => 0
  | 3 => BitVec.ofNat 32 (readLE t.pad.scratch (spillAddr m record) 4)
  | 4 => BitVec.ofNat 32 (lowInt (sextNat (fld m 63 30) 34) 32)
  | _ => 0

/-- An s register's value from its locations. -/
def sLocValue (f : Fabric) (ls : List (Dbl × Bool)) (opnd record : Nat) : Dbl :=
  match ls.filter fun x => fld x.1 8 0 = opnd with
  | [] => 0
  | l => l.foldl (fun v x =>
      if mapKind x.1 = 4 then BitVec.ofNat 64 (lowInt (sextNat (fld x.1 63 30) 34) 64)
      else
        let w := (locValue f x.1 record).zeroExtend 64
        if x.2 then (v &&& 0xFFFFFFFF#64) ||| (w <<< 32) else (v &&& ~~~(0xFFFFFFFF#64)) ||| w) 0

/-- Give a lane the registers of a map's locations; every other register of it reads 0 (R42). -/
def fillLane (f : Fabric) (ls : List (Dbl × Bool)) (record l : Nat) (w : Workgroup) : Workgroup :=
  let clear := (List.range w.nvregs).foldl (fun w r => vPut w l r 0) w
  let clear := ([1, 2, 3, 4, 5, 6, 7] : List Nat).foldl (fun w n => kPut w n l false) clear
  ls.foldl (fun w x =>
    let o := fld x.1 8 0
    let v := locValue f x.1 record
    if o < 0x100 then vPut w l o v else if o < 0x120 then w else kPut w (o - 0x140) l (v.getLsbD 0)) clear

/-- The s registers of a thread from the lowest of its lanes that stands at a location map. -/
def fillThread (f : Fabric) (ls : List (Dbl × Bool)) (record : Nat) (t : Thread) : Thread :=
  let ops := ((ls.map fun x => fld x.1 8 0).filter fun o => 0x100 ≤ o && o < 0x120).eraseDups
  { t with sregs := ops.foldl (fun r o => tput 0 r (o - 0x100) (sLocValue f ls o record)) t.sregs }

/-- The canonical PC of a standing. -/
def standPc (startPc : Word) : Standing → Option Word
  | .start => some startPc
  | .at_ e => some e.cpc
  | .exited => none

/-- The paths of a TG: one for each distinct position, in the order of their lowest lanes. Lanes that stand at one PC run
together (R41). -/
def pathsOf (startPc : Word) (cut : Option CutMark) (l : List (Nat × Standing)) : List Path :=
  (l.filterMap fun x => standPc startPc x.2).eraseDups.map fun pc =>
    let lanes := maskOf ((l.filter fun x => standPc startPc x.2 = some pc).map (·.1))
    { mask := lanes, pc := pc
      cut := match cut with | some c => if lanes.getLsbD c.lane then [c] else [] | none => [] }

/-- A workgroup of the records' states (R366, R403, R405): `base` is its state where the load began, `pos` gives each
lane's standing, `cut` the mark of the faulting record's lane, and `hold` the lane of the record that stopped the load,
whose path runs. -/
def extractWg (la : Launch) (f : Fabric) (base : Workgroup) (startPc : Word) (pos : Nat → Standing)
    (cut : Option CutMark) (hold : Option Nat) : Workgroup :=
  let live := lanesOf (fullMask base.ntg &&& ~~~base.exited)
  let rec_ := fun l => base.w * imgLanes la + l
  let standings := live.map fun l => (l, pos l)
  let w := standings.foldl (fun w (l, st) => match st with
    | .at_ e => fillLane f (locations (mapOf la e)) (rec_ l) l w
    | _ => w) base
  let threads := base.threads.map fun t =>
    let mine := standings.filter fun x => x.1 / 32 = t.tgix
    let t := { t with sregs := if (mine.filter fun x => x.2 = .start) = [] then [] else t.sregs }
    let t := match mine.find? fun x => match x.2 with | .at_ _ => true | _ => false with
      | some (l, .at_ e) => fillThread f (locations (mapOf la e)) (rec_ l) t
      | _ => t
    let paths := pathsOf startPc cut mine
    let held := hold.bind fun l => paths.find? fun p => p.mask.getLsbD l
    let run := ((held.or paths.head?).map fun p => lowestLane p.mask).getD 0
    { t with paths := paths, run := run, gave := false, turn := 0 }
  { w with
    threads := threads
    exited := w.exited ||| maskOf ((standings.filter fun x => x.2 = .exited).map (·.1))
    fpflags := w.fpflags ||| la.sflags }

/-- The workgroups' states where the load began: parked, or the first state of R22. -/
def startWgs (la : Launch) (lid cycle : Nat) (f : Fabric) : List Workgroup :=
  match f.entry with
  | .point _ => f.parked
  | .entry => (List.range (workgroupCount la)).map fun w => freshWorkgroup { la with form := .t } lid w cycle 0 0 0 []

/-- The canonical PC where the load began. -/
def startPcOf (la : Launch) (f : Fabric) : Word :=
  match f.entry with
  | .entry => 0
  | .point id => ((pointNamed la id).map (·.cpc)).getD 0

/-- The frames that an extraction writes: those of the parked workgroups, or those held for a launch that began in
S-form (R58, R303, R399). -/
def exitFrames (la : Launch) (f : Fabric) : List (Nat × Nat) :=
  (if f.entry = .entry then la.reserved.map (·.1) else f.parked.map (·.frame)).map fun a => (a, frameBytes la)

/-- A sector of a frame that an extraction writes is locked (R285). -/
def exitLocked (s : State) (la : Launch) (f : Fabric) : Bool :=
  framesLocked s (exitFrames la f)

/-- A frame that an extraction writes falls outside the pool (R398). -/
def exitFails (s : State) (la : Launch) (f : Fabric) : Option Nat :=
  let (lo, hi) := poolOf (partOf s la.part).res
  ((exitFrames la f).find? fun x => x.1 < lo || hi < x.1 + x.2).map (·.1)

/-- Extracted workgroups go into their context save areas (R58): those of a load that began at the entry point whole,
the others' registers. -/
def writeContexts (s : State) (la : Launch) (f : Fabric) (ws : List Workgroup) : State :=
  ws.foldl (fun s w => if f.entry = .entry then writeFrame s la w else writeRegisters s la w) s

/-- Extracted workgroups wait for placement in T-form or V-form; those whose lanes have all exited have retired. The
launch's declared phase goes on in every one of them (the spec does not say in which: DESIGN CHOICE, log 69). -/
def leaveS (s : State) (lid : Nat) (form : Form) (ws : List Workgroup) : State :=
  let la := launchOf s lid
  let f := fabricOf s lid
  let frames := la.reserved.map (·.1)
  let ws := ws.zipIdx.map fun (w, i) => { w with
    frame := if f.entry = .entry then frames.getD i 0 else w.frame
    phase := la.phase }
  let s := writeContexts s la f ws
  let gone := fun (w : Workgroup) => fullMask w.ntg &&& ~~~w.exited = 0
  let stay := ws.filter fun w => !gone w
  let s := setRcstat s (originRegion f) 2 0 0
  let s := modLaunch s lid fun la =>
    { la with
      form := form, fabric := none, hop := none, hopAt := s.cycle, wantsFabric := none, reserved := [], phase := none, plans := []
      parked := [], parkedAt := none, nextGang := gangCount la
      saved := stay, retired := la.retired + (ws.filter gone).length
      back := stay.foldl (fun l w => insertGang (w.w / gangSize la) l) [] }
  let la := launchOf s lid
  if stay = [] && la.retired = workgroupCount la then retireLaunch s lid f.origin 0 2 else s

/-- A load is the last one of its graph. -/
def isLastLoad (la : Launch) (f : Fabric) : Bool := la.plans.length ≤ f.load + 1

/-- The cause that is delivered: of the lowest record, then the lower canonical PC (R405), unless the load is brought to
positions from a lower record on. -/
def deliveredFault (f : Fabric) (r : Nat) : Option NodeFault :=
  match f.faults with
  | [] => none
  | e :: t =>
    let best := t.foldl (fun b x => if x.record < b.record || (x.record = b.record && x.cpc.toNat < b.cpc.toNat) then x else b) e
    if r < best.record then none else some best

/-- The records of the workgroups that have not exited. -/
def liveRecords (la : Launch) (ws : List Workgroup) : List Nat :=
  ws.flatMap fun w => (lanesOf (fullMask w.ntg &&& ~~~w.exited)).map fun l => w.w * imgLanes la + l

/-- The record from which on the load is brought to positions: of the records `live`, those that have exited do not
count (R338, R403). -/
def stopRecord (pos : Nat → Option Standing) (live : List Nat) (r : Nat) : Nat :=
  match live.filter fun q => pos q ≠ some .exited with
  | [] => r
  | q :: l => max r (l.foldl min q)

/-- FAULT_EXTRACTION (R338, R365, R403): when nothing has moved for a while and every record stands at a position, each
record's state is extracted and the launch goes on in T-form. Where one does not yet, what the tokens of the records that
go back hold up moves on without them. -/
def execFaultExtraction (lid : Nat) (s : State) : Out :=
  match (tfind s.launches lid).bind (·.fabric) with
  | none => .next s
  | some f =>
    let la := launchOf s lid
    match f.stopAt with
    | none => .next s
    | some r =>
      if f.state ≠ .draining || f.drain.isSome || f.quiet < 64 || inFlightWork s lid then .next s
      else
        let ws := startWgs la lid s.cycle f
        let work := workTokens f
        let last := isLastLoad la f
        let pos := standing la f last work r
        let live := liveRecords la ws
        if !live.all (fun q => (pos q).isSome) then .next (discardStopped s lid)
        else if exitLocked s la f then .next s
        else match exitFails s la f, drainTiles s f with
        | _, none => .next s
        | some a, _ => .next (saveFault s lid a)
        | none, some s =>
          let at_ := stopRecord pos live r
          let e := deliveredFault f at_
          let s := traceLoad s lid
          let s := match e with
            | some e =>
              let s := setRcstat s (originRegion f) 31 24 e.cause.code
              let s := setRcstat s (originRegion f) 23 14 e.tile
              let s := setRcstat s (originRegion f) 13 9 e.unit
              modRegion s (originRegion f) fun g => { g with rcflt := faultRegs (some e) }
            | none => s
          let n := imgLanes la
          let ws' := ws.map fun w =>
            let cut := match e with
              | some e => if e.record / n = w.w then some ({ lane := e.record % n, pc := e.cpc, cause := e.cause, iter := e.iter, addr := e.addr } : CutMark)
                else none
              | none => none
            let hold := if at_ / n = w.w then some (at_ % n) else none
            extractWg la f w (startPcOf la f) (fun l => (pos (w.w * n + l)).getD .start) cut hold
          .next (leaveS s lid .t ws')

/-! ### Completion (R33, R238, R343) -/

/-- The engines of the load have work that goes on: a matrix token that no full output holds up, or a word of a transfer
(R25, R197). -/
def engineWork (s : State) (lid : Nat) : Bool :=
  ((fabricOf s lid).tiles.any fun t =>
    let x := t.units.getD 29 noUnit
    (t.pad.queue ≠ [] || mxEmitting t.pad x) && !(mxEmitting t.pad x && !outEmpty x 0)) || transferFlies s lid

/-- Every SINK has finished, and the engines too (R25, R197, R238). -/
def loadDone (s : State) (lid : Nat) : Bool :=
  let f := fabricOf s lid
  (f.state = .running || f.state = .draining) && f.stopAt.isNone && !engineWork s lid
    && f.tiles.any (fun t => t.units.zipIdx.any fun (x, u) => isSink u x)
    && f.tiles.all fun t => t.units.zipIdx.all fun (x, u) => !isSink u x || x.finished

/-- An access, a matrix token or a transfer word of a load is in flight (R419); what a full output or a failed token holds
up is not, so that its stall is reported (R426). -/
def workFlies (s : State) (lid : Nat) : Bool :=
  let f := fabricOf s lid
  (f.tiles.zipIdx.any fun (t, i) => t.units.any (accessFlies s.cycle) || matrixFlies t || [25, 26, 27, 28].any (accessWaits s lid i))
    || transferFlies s lid

/-- FABRIC_STALLED (R420, R421): judged once all of the cycle has been done. A cycle without movement that makes the count
4,096 stalls a load that is not complete and has not begun to freeze. -/
def execFabricStalled (lid : Nat) (s : State) : Out :=
  match (tfind s.launches lid).bind (·.fabric) with
  | none => .next s
  | some f =>
    if (f.state = .running || f.state = .draining) && 4095 ≤ f.quiet && !f.moved && !workFlies s lid && !loadDone s lid then
      .next (freezeLoad s lid .fabricStalled (originRegion f) 0 none)
    else .next s

/-- The records' state at the launch point that ends a load is where the next load begins (R403, R404). -/
def nextEntry (s : State) (lid : Nat) : EntryPoint × List Workgroup :=
  let la := launchOf s lid
  let f := fabricOf s lid
  match markedPoint la f with
  | none => (f.entry, f.parked)
  | some e =>
    let frames := la.reserved.map (·.1)
    let ws := (startWgs la lid s.cycle f).zipIdx.map fun (w, i) =>
      { w with frame := if f.entry = .entry then frames.getD i 0 else w.frame }
    (.point e.id, ws.map fun w => extractWg { la with sflags := 0 } f w e.cpc
      (fun l => if (leftOutFrom f).any fun n => n ≤ w.w * imgLanes la + l then .exited else .at_ e) none none)

/-- FABRIC_LOAD_COMPLETE (R238): the next load of the graph begins, in the same region when it is of the same size (it
keeps the region while it waits for its frames, R300);
the launch retires with the last one. -/
def execFabricLoadComplete (lid : Nat) (s : State) : Out :=
  let s0 := s
  let f := fabricOf s lid
  let la := launchOf s lid
  if !(tfind s.launches lid).any (fun la => la.fabric.isSome) || !loadDone s lid then .next s
  else
    match f.tiles.foldlM (fun s t => drainAll s t.core) s with
    | none => .next s
    | some s =>
      let s := setRcstat (traceLoad s lid) (originRegion f) 2 0 0
      match la.plans[f.load + 1]? with
      | none => .next (retireLaunch s lid f.origin (f.first / imgLanes la) 2)
      | some p =>
        let (from_, parked) := nextEntry s lid
        let marked := (markedPoint la f).isSome
        if marked && exitLocked s0 la f then .next s0 else
        match (if marked then exitFails s la f else none) with
        | some a => .next (saveFault s lid a)
        | none =>
          let s := if marked then writeContexts s la f parked else s
          let cutBase := f.cutBase + (cutNodes f).length
          let s := modFabric s lid fun f => { f with frames := [] }
          if p.width ≠ f.width || p.height ≠ f.height then
            .next (modLaunch s lid fun la =>
              { la with
                wantsFabric := some s.cycle
                fabric := some { load := f.load + 1, cutBase := cutBase, width := p.width, height := p.height, entry := from_
                                 parked := parked, first := f.first } })
          else
            let pads := f.tiles.map fun t => { t.pad with queue := [] }
            let g := { buildLoad p (f.load + 1) f.origin f.first cutBase pads with entry := from_, parked := parked }
            let (lo, hi) := poolOf (partOf s la.part).res
            match takeSizes lo hi (g.tiles.map (tileFrame la)) (poolUsed s la.part) with
            | none => .next s0
            | some fr => .next ((streamLoad s lid { g with frames := fr }).getD s)

/-! ### Hops into S-form (R57, R59, R399) -/

/-- Every workgroup of the launch has arrived at the launch point or exited. -/
def allArrived (s : State) (lid : Nat) (la : Launch) : Bool :=
  la.parked ≠ [] && la.nextGang = gangCount la && la.back = [] && la.saved = [] && wgsOf s lid = []
    && !((partOf s la.part).placing.any fun p => p.lid = lid)

/-- The last workgroup has arrived: the first load waits for a rectangle. -/
def beginEntry (s : State) (lid : Nat) : State :=
  let la := launchOf s lid
  if !allArrived s lid la || la.fabric.isSome || la.form = .s then s
  else match graphOf s la (stripCore s la.part) with
    | .ok (x :: _) =>
      let (w, h) := loadHeader x.2.1
      modLaunch s lid fun la =>
        { la with wantsFabric := some s.cycle, fabric := some { width := w, height := h, entry := .point (hopPoint la) } }
    | .waits => s
    | _ => refuseLoad s lid (stripCore s la.part) 0 7

/-- A workgroup's state at a launch point, in T-form (R57, R59); its phase counts on, and its throttle waits to pass
to the launch (R207, R312). -/
def parkedWg (w : Workgroup) (cpc : Word) : Workgroup :=
  let w := if w.strand then toThreads w cpc else
    { w with threads := w.threads.map fun t =>
        { t with paths := t.paths.map fun p => { p with pc := cpc, wait := .none, limit := none } } }
  { w with saving := false, hop := none, pad := { w.pad with busy := [], pairs := [] } }

/-- HOP_INTO_S_ARRIVE (R57): a gathered workgroup writes its state to its frame and frees its core. -/
def execHopIntoSArrive (wid : Nat) (s : State) : Out :=
  match wgOf s wid with
  | none => .next s
  | some w =>
    let la := launchOf s w.lid
    match pointWait w, pendingHop s w with
    | some (pc, _), some h =>
      if h.form ≠ .s || !gathered w pc || !canSave s (wid, w) then .next s
      else match pointAt s w pc w.strand with
        | .ok none | .fails _ | .waits => .next s
        | .ok (some e) =>
          let p := parkedWg w e.cpc
          if !pointHolds w h e || blockLocked s w.frame (frameBytes la) then .next s
          else match contextFails s la (canonicalWg (locations (mapOf la e)) p), drainAll s w.core with
            | _, none => .next s
            | some a, _ => .next (saveFault s w.lid a)
            | none, some s =>
              let s := writeFrame { s with wgs := terase s.wgs wid } la p
              let gang := w.w / gangSize la
              let s := modLaunch s w.lid fun la =>
                { la with
                  parked := la.parked ++ [p]
                  parkedAt := some (la.parkedAt.getD s.cycle)
                  hop := some { h with point := some e.id }
                  hopAt := s.cycle
                  placed := if gangWgs s w.lid gang = [] then terase la.placed gang else la.placed }
              .next (beginEntry s w.lid)
    | _, _ => .next s

/-- A thread waits at a `gbar` or a `waitc`, and has issued nothing for 4,096 cycles. -/
def longWait (cycle : Nat) (t : Thread) : Bool :=
  t.last + 4096 ≤ cycle && t.paths.any fun p => match p.wait with | .gbar .. | .chan .. => true | _ => false

/-- HOP_INTO_S_ABANDON (R57, R59). -/
def execHopIntoSAbandon (lid : Nat) (s : State) : Out :=
  let la := launchOf s lid
  match la.parkedAt with
  | none => .next s
  | some since =>
    if la.form = .s || la.fabric.isSome || allArrived s lid la then .next s
    else if since + 65536 ≤ s.cycle || (wgsOf s lid).any fun x => x.2.threads.any (longWait s.cycle) then
      .next (abandonHop s lid true)
    else .next s

/-- HOP_RECTANGLE_TIMEOUT (R399). -/
def execHopRectangleTimeout (lid : Nat) (s : State) : Out :=
  let la := launchOf s lid
  match la.wantsFabric with
  | some since =>
    if la.form ≠ .s && la.fabric.all (fun f => f.tiles = [] && f.need = []) && since + 4096 ≤ s.cycle then
      .next (refuseEntry s lid 1 (regionOfCore (stripCore s la.part)))
    else .next s
  | none => .next s

/-! ### Hops out of S-form (R55, R58) -/

/-- The point at which a pending hop out of S-form is carried out. In a load that began elsewhere the hop begins once
the sources have emitted their records, so that every record can stand at the point (log 27). -/
def outPoint (la : Launch) (f : Fabric) : Option (Form × PointEntry) :=
  match la.hop, markedPoint la f with
  | some h, some e =>
    if h.form ≠ .s && h.point.isNone && !burstRuns la.phase && (h.form ≠ .v || e.vpc.isSome)
        && (f.entry = .point e.id || sourcesDone f) then some (h.form, e) else none
  | _, _ => none

/-- Each slot that the point of a hop names by its SMARK entries stops at the first marker that its element meets, once
the completion tokens of the memory nodes have come (R46, R58). -/
def stopMarked (s : State) (lid : Nat) : State :=
  let la := launchOf s lid
  let f := fabricOf s lid
  match f.drain, pointNamed la (hopPoint la) with
  | some (some _), some e =>
    if f.tiles.any fun t => t.units.any fun x => x.access.isSome then s else
    ((la.nodes.drop e.smark).take e.smarkn).foldl (fun s n =>
      let (t, u, k) := (fld n 9 0, fld n 13 10, fld n 18 14)
      if k ≠ 31 && (inputsOf f t u).any (markerHead (unitOf s lid t u)) && !(unitOf s lid t u).marked.contains k then
        modUnit s lid t u fun x => { x with marked := k :: x.marked }
      else s) s
  | _, _ => s

/-- HOP_OUT_OF_S (R58): markers are injected at every source. -/
def execHopOutOfS (lid : Nat) (s : State) : Out :=
  match (tfind s.launches lid).bind (·.fabric) with
  | none => .next s
  | some f =>
    if f.state ≠ .running || f.drain.isSome then .next s
    else match outPoint (launchOf s lid) f with
      | none => .next s
      | some (form, e) =>
        let s := modLaunch s lid fun la => { la with hop := some { form := form, point := some e.id }, hopAt := s.cycle }
        .next (setLoadState (modFabric s lid fun f => { f with drain := some (some form), quiet := 0 }) lid .draining)

/-- Every unit of the load has stopped at its markers. -/
def drained (s : State) (lid : Nat) : Bool :=
  let f := fabricOf s lid
  f.drain.isSome && f.state = .draining && !inFlightWork s lid
    && (List.range f.tiles.length).all fun t => (List.range 32).all fun u => !unitInUse f t u || (unitOf s lid t u).stopped

/-- HOP_OUT_DRAIN_COMPLETE (R58, R302): the records are extracted at the point; a load that drained for a save is
saved. -/
def execHopOutDrainComplete (lid : Nat) (s : State) : Out :=
  if !(tfind s.launches lid).any (fun la => la.fabric.isSome) || !drained s lid then .next s
  else
    let la := launchOf s lid
    let f := fabricOf s lid
    match f.drain with
    | some none => .next ((saveFabric s lid).getD s)
    | some (some form) =>
      if exitLocked s la f then .next s else
      match pointNamed la (hopPoint la), drainTiles s f, exitFails s la f with
      | none, _, _ | _, none, _ => .next s
      | some _, some _, some a => .next (saveFault s lid a)
      | some e, some s, none =>
        let last := isLastLoad la f
        let work := workTokens f
        let ws := (startWgs la lid s.cycle f).map fun w =>
          let w := extractWg la f w (startPcOf la f) (fun l => outStanding f last work e (w.w * imgLanes la + l)) none none
          match form, e.vpc with
          | .v, some vpc => if fullMask w.ntg &&& ~~~w.exited = 0 then w else toStrand w vpc
          | _, _ => w
        let s := traceLoad s lid
        let s := trace s la.part (originRegion f)
          { kind := 2, form := 2, detail := formNo form, point := e.id, image := imageOf la, cpc := e.cpc.toNat
            w := f.first / imgLanes la }
        .next (leaveS s lid form ws)
    | none => .next s

end Sys2Proof.Machine
end

