-- ==== Sys2Proof/Machine/Power.lean ====
section
/-! DEFINITION. Region controllers, the power monitor, energy accounts and the Percolator's intervals: R51 to R54,
R305 to R308, R314 to R316, R324, R325, R430 to R434. -/

namespace Sys2Proof.Machine

/-! ### STEP and BOOST (R306 to R308, R430) -/

/-- The sustained step in force: SSTEP with the raise of the power response, up to STEP 12. -/
def sustainedStep (g : Region) : Nat := if 12 ≤ g.sstep.toNat then g.sstep.toNat else min 12 (g.sstep.toNat + g.raise)

/-- The lowest STEP that everything allows (R306); a stopped region runs at STEP 15 (R431). A raise of the power response
forces the raised sustained step, whatever BOOST holds, as a band does (R430, log 120). -/
def chooseStep (g : Region) : Nat :=
  if g.stopKind ≠ 0 then 15
  else
    let base := if 0 < g.boost.toNat && g.raise = 0 then min g.minstep.toNat g.sstep.toNat else sustainedStep g
    let hot := if g.band = 6 then sustainedStep g + 2 else if g.band = 7 then 8 else 0
    min 15 (max base hot)

/-- REGION_STEP_SELECT (R306). -/
def execRegionStepSelect (region : Nat) (s : State) : Out :=
  .next (modRegion s region fun g => { g with step := BitVec.ofNat 4 (chooseStep g) })

/-- Add to BOOST, which saturates (R307). -/
def addBoost (g : Region) (amount : Nat) : Region := { g with boost := BitVec.ofNat 32 (min (2 ^ 32 - 1) (g.boost.toNat + amount)) }

/-- BADD (R307). -/
def execBadd (region : Nat) (amount : Word) (s : State) : Out := .next (modRegion s region fun g => addBoost g amount.toNat)

/-- A region cycle at a STEP below the sustained one takes 1 from BOOST (R306). -/
def spendBoost (g : Region) : Region :=
  if stepOf g < sustainedStep g && 0 < g.boost.toNat then { g with boost := g.boost - 1 } else g

/-- REGULATOR_VOLTAGE_READY (R308). -/
def execRegulatorVoltageReady (region : Nat) (s : State) : Out :=
  .next (modRegion s region fun g => if g.settling.any fun c => c ≤ s.cycle then { g with settling := none } else g)

/-- TEMPERATURE_BAND_CHANGE (R306). -/
def execTemperatureBandChange (region : Nat) (band : BitVec 3) (s : State) : Out :=
  .next (modRegion s region fun g => { g with band := band })

/-! ### The power monitor (R430, R442) -/

/-- The die of a region. -/
def dieOfRegion (r : Nat) : Nat := dieOf (firstCoreOf r)

/-- Enter the STEP that a response imposes in each region (R442). -/
def stepEntries (s : State) (step : Region → Nat) : State :=
  (List.range 64).foldl (fun s r =>
    carafe s (dieOfRegion r) 6 (step (regionOf s r)) r 0 [Config.sensor s.tick, 0]) s |> ticked

/-- Change every region. -/
def modRegions (s : State) (f : Region → Region) : State := (List.range 64).foldl (fun s r => modRegion s r f) s

/-- The sustained step of a region is raised by 1, up to STEP 12, or lowered by 1 (R430). -/
def raiseStep (above : Bool) (g : Region) : Region :=
  { g with raise := if above then (if sustainedStep g < 12 then g.raise + 1 else g.raise) else min g.raise (12 - g.sstep.toNat) - 1 }

/-- POWER_OVERLOAD_RESPONSE (R430). -/
def execPowerOverloadResponse (above : Bool) (s : State) : Out :=
  .next (stepEntries (modRegions s (raiseStep above)) sustainedStep)

/-- OVERCURRENT_RESPONSE (R430). -/
def execOvercurrentResponse (s : State) : Out :=
  .next (stepEntries (modRegions s fun g => { g with forced := true }) stepOf)

/-- OVERCURRENT_RELEASE (R430). -/
def execOvercurrentRelease (s : State) : Out := .next (modRegions s fun g => { g with forced := false })

/-- INPUT_UNDERVOLTAGE (R430): each Carafe is copied to flash, then the module is off. -/
def execInputUndervoltage (s : State) : Out :=
  .next { s with flash := s.carafes, powered := false, out := .poweredOff :: s.out }

/-! ### Region stop and restart (R431 to R433) -/

/-- The launches with a workgroup, a tile or a placement under way on a region, ascending. -/
def launchesOn (s : State) (region : Nat) : List Nat :=
  (s.launches.filter fun x =>
    s.wgs.any (fun w => w.2.lid = x.1 && regionOfCore w.2.core = region)
      || (x.2.fabric.any fun f => f.tiles.any fun t => regionOfCore t.core = region)
      || s.parts.any fun p => p.2.placing.any fun pl => pl.lid = x.1 && pl.cores.any fun c => regionOfCore c = region).map (·.1)

/-- The lowest workgroup of a launch on a region (R431). -/
def lowestOn (s : State) (region lid : Nat) : Nat :=
  match (s.wgs.filter fun w => w.2.lid = lid && regionOfCore w.2.core = region).map (·.2.w) with
  | [] => lowestWOf s lid
  | w :: t => t.foldl min w

/-- A launch on a stopped region ends; a placement under way completes first (R432). -/
def stopLaunch (region : Nat) (s : State) (lid : Nat) : State :=
  let part := (launchOf s lid).part
  let s := if (partOf s part).placing.any (·.lid = lid) then (finishPlacing s part).1 else s
  let s := if (partOf s part).next.isSome then modPart s part fun p => { p with lost := true } else s
  endWithCause s lid .emergencyStop region (lowestOn s region lid)

/-- Enter the state of a region (R442). -/
def regionEntry (s : State) (region : Nat) : State :=
  carafe s (dieOfRegion region) 5 (regionOf s region).stopKind.toNat region 0 [0, 0]

/-- REGION_STOP (R431). -/
def execRegionStop (region : Nat) (kind : BitVec 2) (s : State) : Out :=
  if kind = 0 then .next s
  else
    let s := (launchesOn s region).foldl (stopLaunch region) s
    let s := { s with issue := s.issue.filter fun
      | .thread wid _ => (wgOf s wid).any fun w => regionOfCore w.core ≠ region
      | .slot lid tile _ _ => regionOfCore (tileOf (fabricOf s lid) tile).core ≠ region
      | .detector _ => true }
    .next <| regionEntry (modRegion s region fun g =>
      { g with
        stops := if g.stopKind = 0 && g.stops ≠ 255 then g.stops + 1 else g.stops
        stopKind := g.stopKind ||| kind, step := 15 }) region

/-- A write of RESTAT.CLR restarts a stopped region where no condition of R431 holds. -/
def restartRegion (s : State) (region : Nat) (holds : Bool) : State :=
  if holds || (regionOf s region).stopKind = 0 then s
  else regionEntry (modRegion s region fun g => { g with stopKind := 0 }) region

/-- REGION_RESTART (R433). -/
def execRegionRestart (region : Nat) (holds : Bool) (s : State) : Out := .next (restartRegion s region holds)

/-! ### The stacked DRAM (R324, R434) -/

/-- THERM of a partition rises by 1, and its supervisor receives an interrupt. -/
def notifyTherm (s : State) (part : Nat) (die : Nat) : State :=
  let s := modPart s part fun p =>
    let d := p.pd.getD 6 0
    { p with
      thermalIrq := true
      pd := p.pd.set 6 ((d &&& ~~~(0xFF0000#64)) ||| (((d.extractLsb' 16 8) + 1).zeroExtend 64 <<< 16)) }
  let s := carafe s die 7 (fld ((partOf s part).pd.getD 6 0) 23 16) 0 part [Config.sensor s.tick, 0]
  ticked { s with out := .thermalInterrupt part :: s.out }

/-- Notify the partitions that a thermal event concerns; one that concerns none is entered in the Carafe all the same
(R442). -/
def notifyAll (s : State) (parts : List Nat) (die : Nat) : State :=
  if parts = [] then ticked (carafe s die 7 0 0 0 [Config.sensor s.tick, 0]) else parts.foldl (fun s p => notifyTherm s p die) s

/-- The partitions with a core on a die. -/
def partsOnDie (s : State) (die : Nat) : List Nat :=
  (List.range 16).filter fun p => (partOf s p).res.cores.any fun c => dieOf c = die

/-- THERMAL_RESCALE (R324): the partitions with a share of the die's bandwidth are notified. -/
def execThermalRescale (die : Nat) (capped : Bool) (s : State) : Out :=
  if s.capped.contains die = capped then .next s
  else
    let s := { s with capped := if capped then die :: s.capped else s.capped.erase die }
    let hit := (List.range 16).filter fun p => (partOf s p).res.bwsh ≠ 0 || (partsOnDie s die).contains p
    .next (notifyAll s hit die)

/-- STACKED_DRAM_BYPASS (R434). No value changes (R253). -/
def execStackedDramBypass (die : Nat) (hot : Bool) (s : State) : Out :=
  if s.bypassed.contains die = hot then .next s
  else
    let s := { s with bypassed := if hot then die :: s.bypassed else s.bypassed.erase die }
    .next (notifyAll s (partsOnDie s die) die)

/-! ### Energy (R314 to R316) -/

/-- Slot-cycles of a region in an interval (R314). -/
def slotCyclesAll : Nat := 16777216
/-- Slot-cycles of one core. -/
def slotCyclesCore : Nat := 1048576

/-- A share of an interval's energy (R314). -/
def energyShare (energy n : Nat) : Nat := energy * n / slotCyclesAll

/-- The partition that owns a core (R317). -/
def ownerOf (s : State) (core : Nat) : Option Nat := (List.range 16).find? fun p => (partOf s p).res.cores.contains core

/-- Charge a launch: EACC is the sum in µJ (R315). -/
def chargeLaunch (energy : Nat) (s : State) (x : Nat × Nat) : State :=
  modLaunch s x.1 fun la =>
    let n := la.energy + energyShare energy x.2
    { la with energy := n, eacc := BitVec.ofNat 64 (n / 1000) }

/-- Charge idle accounts: each owned core's unoccupied slot-cycles; what the floors leave goes to the owner of the
lowest owned core. -/
def chargeIdle (s : State) (region energy used : Nat) (busy : Tbl Nat) : State :=
  let parts := (coresOfRegion region).filterMap fun c => (ownerOf s c).map fun p =>
    (p, energyShare energy (slotCyclesCore - tget 0 busy c))
  let free := (((coresOfRegion region).filter fun c => (ownerOf s c).isNone).map fun c =>
    energyShare energy (slotCyclesCore - tget 0 busy c)).sum
  let rest := energy - used - free - (parts.map (·.2)).sum
  let s := parts.foldl (fun s x => modPart s x.1 fun p => { p with idle := p.idle + x.2 }) s
  match parts with
  | [] => s
  | x :: _ => modPart s x.1 fun p => { p with idle := p.idle + rest }

/-! ### The Percolator (R51 to R54) -/

/-- The form in which a launch runs on a region: that of its lowest workgroup there, or S. -/
def runningForm (s : State) (lid region : Nat) : Option Form :=
  if (launchOf s lid).form = .s then some .s else
  match ((wgsOf s lid).filter fun x => regionOfCore x.2.core = region).map (·.2) with
  | [] => none
  | w :: t => some (if (t.foldl (fun b x => if x.w < b.w then x else b) w).strand then .v else .t)

/-- The form in which a launch has run on a region, if it has run in one form there throughout the interval that began at
`start`, and no hop began in it (R52). -/
def formOn (s : State) (lid region start : Nat) : Option Form :=
  let la := launchOf s lid
  if start < la.hopAt then none
  else if la.form = .s then (if la.spatialAt ≤ start && (regionOf s region).ran.contains lid then some .s else none)
  else
    let ws := (wgsOf s lid).filter fun x => regionOfCore x.2.core = region
    if !(regionOf s region).ran.contains lid || ws = [] then none
    else if ws.all fun x => x.2.strand then some .v
    else if ws.all fun x => !x.2.strand then some .t
    else none

/-- Canonical work per µJ: `work` units over `nJ` (R51). -/
def workPerUj (tick work nJ : Nat) : Nat := if nJ = 0 then Config.workOpen tick else 1000 * work / nJ

/-- WORK and SAMPLES of an estimates double after a refinement (R52). -/
def refine (tick : Nat) (d : Dbl) (measured : Nat) : Dbl :=
  let w := (7 * fld d 31 0 + measured) / 8
  let w := if w < 2 ^ 32 then w else Config.workOpen tick % 2 ^ 32
  let n := if fld d 47 32 = 0xFFFF then 0xFFFF else fld d 47 32 + 1
  BitVec.ofNat 64 (fld d 63 48 * 2 ^ 48 + n * 2 ^ 32 + w)

/-- WORK of a form. -/
def workOf (la : Launch) (form : Form) : Nat := fld (la.est.getD (formNo form) 0) 31 0

/-- The form that the Percolator proposes instead of the running one (R54). -/
def proposal (la : Launch) (running : Form) (measured : Nat) : Option Form :=
  let ok := ([Form.t, .v, .s].filter fun f => f ≠ running && hasVersion la f && policyAllows la.policy.toNat running f
    && measured * (100 + la.thr.toNat) < workOf la f * 100)
  match ok with
  | [] => none
  | f :: t => some (t.foldl (fun b x => if workOf la b < workOf la x then x else b) f)

/-- The region whose measuring intervals a launch's back-off counts: of those that it stands on the lowest, or its load's
origin (R399: log 118). -/
def lowestRegion (s : State) (lid : Nat) : Option Nat :=
  match (launchOf s lid).fabric with
  | some f => some (originRegion f)
  | none => ((wgsOf s lid).map fun x => regionOfCore x.2.core).min?

/-- PERCOLATOR_INTERVAL_END (R52, R54): the estimate of the running form is refined, and a hop proposed. -/
def execPercolatorIntervalEnd (lid region measured : Nat) (s : State) : Out :=
  match tfind s.launches lid with
  | none => .next s
  | some _ =>
    let s := if lowestRegion s lid = some region then modLaunch s lid fun la => { la with backoff := la.backoff - 1 } else s
    let s := match formOn s lid region (regionOf s region).intervalBefore with
      | none => s
      | some form =>
        let i := formNo form
        ticked (modLaunch s lid fun la => { la with est := la.est.set i (refine s.tick (la.est.getD i 0) measured) })
    match (runningForm s lid region).bind fun form => proposal (launchOf s lid) form measured with
    | some f => .next (propose s lid region (s.cycle + 1) f)
    | none => .next s

/-- What the intervals of a region give of its launches: launch and canonical work per µJ. A launch in S-form is
measured over all regions of its load, at the intervals of its origin. -/
def measurements (s : State) (region energy : Nat) (g : Region) : List (Nat × Nat) :=
  g.slotCycles.filterMap fun (lid, n) =>
    match tfind s.launches lid with
    | none => none
    | some la =>
      match la.fabric with
      | some f => if originRegion f = region then some (lid, workPerUj s.tick la.work (la.energy - la.energyAt)) else none
      | none => some (lid, workPerUj s.tick (tget 0 g.workOf lid) (energyShare energy n))

/-- An interval of a launch ends: what it lost to stalls is recorded (R51). -/
def closeStall (key : Nat) (la : Launch) : Launch :=
  { la with stallOf := tset la.stallOf key (tget (0, 0) la.stall key), stall := terase la.stall key }

/-- ENERGY_INTERVAL_END (R314, R315): the energy is split, and the Percolator's interval ends with it. -/
def execEnergyIntervalEnd (region energy : Nat) (s : State) : Out :=
  let g := regionOf s region
  let s := g.slotCycles.foldl (chargeLaunch energy) s
  let used := (g.slotCycles.map fun x => energyShare energy x.2).sum
  let s := chargeIdle s region energy used g.coreCycles
  let found := measurements s region energy g
  let s := found.foldl (fun s x => modLaunch s x.1 fun la =>
    let la := closeStall (if la.fabric.isSome then 64 else region) la
    if la.fabric.isSome then { la with work := 0, energyAt := la.energy } else la) s
  let s := modRegion s region fun g =>
    { g with
      intervalBefore := g.intervalStart, intervalStart := s.cycle, slotCycles := [], coreCycles := [], workOf := []
      present := [], ran := (g.present.filter fun x => 65536 ≤ x.2).map (·.1) }
  .next (ticked { s with agenda := (found.map fun x => .percolatorIntervalEnd x.1 region x.2) ++ s.agenda })

/-- SHARED_COUNTER_WINDOW (R325): a window closes; the value of the one before it becomes readable. What the idle account
took in the window is known to the partition, with what the closing cycle charged. -/
def execSharedCounterWindow (part counter used capacity : Nat) (s : State) : Out :=
  .next (modPart s part fun p =>
    let used := if counter = 3 then p.idle - p.idleAt else used
    { p with
      windows := tset p.windows counter (64 * used / capacity, (tget (0, 0) p.windows counter).1)
      idleAt := if counter = 3 then p.idle else p.idleAt })

end Sys2Proof.Machine
end

