-- ==== Sys2Proof/Machine/Partition.lean ====
section
/-! DEFINITION. The management window, the partition commands, and registers that the debug port writes: R11, R203,
R307, R317 to R323, R326 to R328, R337, R339, R340, R370, R397, R422, R423, R433, R435, R436. -/

namespace Sys2Proof.Machine

/-! ### PD6 (R319, R320) -/

/-- Replace a field of a double. -/
def putField (d : Dbl) (hi lo x : Nat) : Dbl :=
  BitVec.ofNat 64 (d.toNat - fld d hi lo * 2 ^ lo + x % 2 ^ (hi + 1 - lo) * 2 ^ lo)
/-- BUSY of a partition. -/
def busyOf (s : State) (part : Nat) : Bool := ((partOf s part).pd.getD 6 0).getLsbD 8
/-- Set STATUS and BUSY. -/
def setStatus (s : State) (part status : Nat) (busy : Bool) : State :=
  modPart s part fun p =>
    { p with pd := p.pd.set 6 (putField (putField (p.pd.getD 6 0) 15 12 status) 8 8 (if busy then 1 else 0)) }
/-- A command ends; it is entered in the Carafe (R442). -/
def endCommand (s : State) (part cmd status : Nat) : State :=
  carafe (setStatus s part status false) (dieOf (stripCore s part)) 8 (cmd * 16 + status) 0 part [0, 0]

/-! ### CMD 1 (R321, R397, R435, R436) -/

/-- The numbers of the set bits of a bitmap in memory. -/
def bitmapAt (s : State) (pa bytes : Nat) : List Nat :=
  let x := readLE s.mem pa bytes
  (List.range (8 * bytes)).filter fun n => x.testBit n

/-- The resources that a descriptor and its maps name. -/
def askedFor (s : State) (part : Nat) : Resources :=
  let d := fun n => (partOf s part).pd.getD n 0
  { cores := bitmapAt s (d 7).toNat 128, slices := bitmapAt s ((d 7).toNat + 128) 32
    ways := BitVec.ofNat 16 (fld (d 3) 47 32), pairs := BitVec.ofNat 32 (fld (d 4) 31 0)
    home := readBytes s.mem (d 1).toNat 256, save := (d 2).toNat, saven := fld (d 3) 31 0, bwsh := fld (d 3) 53 48 }

/-- Two sets of resources have something in common that belongs to one partition alone. -/
def overlaps (r o : Resources) : Bool :=
  r.cores.any o.cores.contains || r.slices.any o.slices.contains || r.ways &&& o.ways ≠ 0 || r.pairs &&& o.pairs ≠ 0

/-- STATUS 2: something named belongs to another partition, or to what a running CMD 1 brings it (R317). -/
def conflicts (s : State) (part : Nat) (r : Resources) : Bool :=
  (List.range 16).any fun q => q ≠ part && (overlaps r (partOf s q).res || (partOf s q).next.any (overlaps r))

/-- The sizes of the frames of a partition's workgroups: each holds its own from its placement to its retirement (R397). -/
def workgroupFrames (s : State) (part : Nat) : List Nat :=
  (s.launches.filter fun x => x.2.part = part).flatMap fun x =>
    (wgsOf s x.1 ++ (x.2.saved ++ x.2.parked).map fun w => (0, w)).map fun _ => frameBytes x.2

/-- STATUS 3: the descriptor or its maps are invalid. A share of bandwidth that another partition's CMD 1 brings it counts
while that command runs. -/
def invalidRes (s : State) (part : Nat) (r : Resources) : Bool :=
  let d := fun n => ((partOf s part).pd.getD n 0)
  let others := ((List.range 16).filter (· ≠ part)).map fun q =>
    max (partOf s q).res.bwsh (((partOf s q).next.map (·.bwsh)).getD 0)
  (r.home.any fun h => !r.slices.contains h.toNat)
    || (d 0).toNat % 16384 ≠ 0 || (d 1).toNat % 256 ≠ 0 || (d 2).toNat % 65536 ≠ 0 || (d 7).toNat % 256 ≠ 0
    || fld (d 3) 63 54 ≠ 0 || fld (d 4) 63 49 ≠ 0 || fld (d 5) 47 1 ≠ 0
    || fld (d 6) 63 24 ≠ 0 || fld (d 6) 11 9 ≠ 0 || fld (d 6) 7 4 ≠ 0
    || 64 < others.sum + r.bwsh
    || r.saven * 65536 < (workgroupFrames s part).sum

/-- Work that stands on a leaving core is sent away: gangs are to be saved, loads to be drained; a frozen load's
launch ends (R302, R321, R421). -/
def clearLeaving (s : State) (part : Nat) (r : Resources) : State :=
  let leaves := fun (c : Nat) => !r.cores.contains c
  let gangs := ((s.wgs.filter fun x => (launchOf s x.2.lid).part = part && leaves x.2.core).map fun x =>
    (x.2.lid, x.2.w / gangSize (launchOf s x.2.lid))).eraseDups
  let s := saveReady (gangs.foldl (fun s g => markGang s g.1 g.2) s) part
  let loads := (s.launches.filter fun x => x.2.part = part && x.2.fabric.any fun f => f.tiles.any fun t => leaves t.core).map (·.1)
  loads.foldl (fun s lid =>
    let f := fabricOf s lid
    if f.state = .frozen then endLaunch s lid else if canDrain f then preempt s (.fabric lid) else s) s

/-- The locked sectors of a partition whose home moves, as step 2 begins: each is moved once this lock is freed, and what is
locked later already stands at its new home (R321). -/
def lockedMoving (s : State) (part : Nat) (r : Resources) : List (Nat × Nat × Nat) :=
  let moves := fun (sec : Nat) =>
    let h := lineHash (sec / 4)
    r.home.getD h 0 ≠ (partOf s part).res.home.getD h 0
  s.locks.filter fun l => (wgOf s l.2.1).any (fun w => (launchOf s w.lid).part = part) && moves l.1

/-- Step 1 is over: nothing of the partition stands on a core that leaves (R321). -/
def leavingClear (s : State) (part : Nat) (r : Resources) : Bool :=
  let leaves := fun (c : Nat) => !r.cores.contains c
  (partOf s part).placing.isNone
    && !(s.wgs.any fun x => (launchOf s x.2.lid).part = part && leaves x.2.core)
    && !(s.launches.any fun x => x.2.part = part && x.2.fabric.any fun f => f.tiles.any fun t => leaves t.core)

/-- The sizes of the loads of a graph: those of the plans once the launch has entered S-form, else those of the load
headers (R392). -/
def loadSizes (s : State) (la : Launch) : Got (List (Nat × Nat)) :=
  if la.plans ≠ [] then .ok (la.plans.map fun p => (p.width, p.height))
  else (graphOf s la (stripCore s la.part)).andThen fun g => .ok (g.map fun x => loadHeader x.2.1)

/-- The tests of R397 for the partition's launches; none while the read of a load header waits (R285). -/
def judgeLaunch (s : State) (lid : Nat) : Option State :=
  match tfind s.launches lid with
  | none => some s
  | some la =>
    match la.fabric with
    | none => some (endIfUnplaceable s lid)
    | some f =>
      if la.form ≠ .s then some (endIfUnplaceable s lid)
      else
        let next := if la.wantsFabric.isSome then f.load else f.load + 1
        match loadSizes s la with
        | .waits => none
        | .fails _ => some (endIfUnplaceable s lid)
        | .ok l => match l[next]? with
          | some (w, h) => some (if (findRect (partOf s la.part).res.cores.contains w h).isSome then endIfUnplaceable s lid
            else endWithCause s lid .gangUnplaceable next (lowestWOf s lid))
          | none => some s

/-- The new resources are in use, once the buffers of the cores that left have drained; the launches are then judged. -/
def finishApply (s : State) (part : Nat) (r : Resources) : Option State :=
  let left := (partOf s part).res.cores.filter fun c => !r.cores.contains c
  (left.foldlM (fun s c => drainAll s c) s).bind fun s =>
  let s := left.foldl (fun s c => modCore s c fun k => { k with l1 := [], icache := [] }) s
  let status := if (partOf s part).lost then 4 else 0
  let s := modPart s part fun p => { p with res := r, next := none, lost := false, moving := none }
  let s := endCommand s part 1 status
  ((s.launches.filter fun x => x.2.part = part).map (·.1)).foldlM judgeLaunch s

/-- A CMD 1 goes on: what leaves is sent away; then the homes move, each locked sector once it is freed; then the resources
change (R321). -/
def goOnApply (s : State) (part : Nat) (r : Resources) : State :=
  let s := clearLeaving s part r
  if !leavingClear s part r then s else
  let still := ((partOf s part).moving.getD (lockedMoving s part r)).filter s.locks.contains
  let s := modPart s part fun p => { p with moving := some still }
  if still = [] then (finishApply s part r).getD s else s

/-- PARTITION_APPLY_RESOURCES (R321): the command is checked and begun, or one that is running goes on. -/
def execPartitionApplyResources (part : Nat) (s : State) : Out :=
  match (partOf s part).next with
  | some r => .next (goOnApply s part r)
  | none =>
    let r := askedFor s part
    if conflicts s part r then .next (endCommand s part 1 2)
    else if invalidRes s part r then .next (endCommand s part 1 3)
    else
      .next (goOnApply (setStatus (modPart s part fun p => { p with next := some r, lost := false, moving := none }) part 0 true)
        part r)

/-! ### CMD 2 and CMD 3 (R322, R323) -/

/-- The read-outs of the partition's loads are cleared (R423). -/
def clearReadouts (s : State) (part : Nat) : State :=
  modRegions s fun g => if g.rcpart = part && g.rcstat ≠ 0 then
    { g with rcstat := 0, rcunits := [], rcflt := [0, 0, 0] } else g

/-- The regions whose owned cores are all a partition's: their registers take their Reset values with it (R202); those of
a region that another partition shares stay (R323: "and no other", log 96). -/
def ownRegions (s : State) (part : Nat) : List Nat :=
  (List.range 64).filter fun r =>
    let owners := (coresOfRegion r).filterMap (ownerOf s)
    owners ≠ [] && owners.all (· = part)

/-- The region registers of R203 and RCSEL at their Reset values. -/
def resetRegion (g : Region) : Region := { g with step := 0, band := 0, boost := 0, rcsel := 0, settling := none, movedAt := 0 }

/-- The packets whose last retirement has come complete and signal before a reset of the cycle acts (R26, R323). -/
def completeDone (s : State) (part : Nat) : State :=
  ((stripOf s part).running.filter (·.done)).foldl (fun s p => (completePacket s part p).getD s) s

/-- The trace records of a partition that wait are written before its trace descriptor is reset; one that still cannot be
is lost. -/
def flushTraces (s : State) (part : Nat) : State :=
  modRegions (retryTraces s) fun g =>
    if g.traceWait.all fun w => w.part ≠ part then g else { g with traceWait := g.traceWait.filter fun w => w.part ≠ part }

/-- Reset one partition: its contexts end unsaved without signals and free their locks; packets that are done complete, and
one whose completion still waits is kept; buffers drain, caches and registers are cleared; resources, descriptor and
escalation descriptor stay. -/
def resetPartition (s : State) (part : Nat) : State :=
  let s := modPart s part fun p => { p with placing := none }
  let s := ((s.launches.filter fun x => x.2.part = part).map (·.1)).foldl endLaunch s
  let s := flushTraces (completeDone s part) part
  let cores := (partOf s part).res.cores
  let s := cores.foldl drainFree s
  let s := cores.foldl (fun s c => { s with cores := terase s.cores c }) s
  let s := { s with tlb := s.tlb.filter fun t => t.part ≠ part }
  let s := (ownRegions s part).foldl (fun s r => modRegion s r resetRegion) (clearReadouts s part)
  modPart s part fun p =>
    { pd := p.pd, ed := p.ed, res := p.res, strip := { awake := true, running := p.strip.running.filter (·.done) } }

/-- PARTITION_RESET (R323): a resize that is running completes first. -/
def execPartitionReset (part : Nat) (s : State) : Out :=
  if (partOf s part).next.isSome then .next { s with inputs := (s.cycle + 1, .partitionReset part) :: s.inputs }
  else .next (endCommand (resetPartition s part) part 2 0)

/-- TRANSLATION_INVALIDATION (R322). -/
def execTranslationInvalidation (part : Nat) (s : State) : Out :=
  let d := (partOf s part).pd.getD 5 0
  .next <| endCommand { s with tlb := s.tlb.filter fun t => !(t.part = part && (d.getLsbD 0 || t.asid = d.extractLsb' 48 16)) } part 3 0

/-! ### Register writes (R11) -/

/-- Base of the management window. -/
def windowBase : Nat := 0x1000000000000
/-- The register that a management-window address names (R318, R328, R340, R370, R422, R433). -/
inductive WindowReg where
  | modcfg
  | pd (part n : Nat)
  | rpctl (region : Nat)
  | restat (region : Nat)
  | td (part n : Nat)
  | ed (part n : Nat)
  | rc (region n : Nat)
  | route (rank : Nat)
  deriving DecidableEq, Repr

def windowReg (addr : Nat) : Option WindowReg :=
  let a := addr - windowBase
  if addr < windowBase then none
  else if 0x10000 ≤ a && a < 0x11000 then some (.route (a - 0x10000))
  else if a % 8 ≠ 0 then none
  else if a = 0x800 then some .modcfg
  else if 0x1000 ≤ a && a < 0x1400 then some (.pd ((a - 0x1000) / 64) (a % 64 / 8))
  else if 0x2000 ≤ a && a < 0x2200 then some (.rpctl ((a - 0x2000) / 8))
  else if 0x2200 ≤ a && a < 0x2400 then some (.restat ((a - 0x2200) / 8))
  else if 0x3000 ≤ a && a < 0x3200 then some (.td ((a - 0x3000) / 32) (a % 32 / 8))
  else if 0x4000 ≤ a && a < 0x4200 then some (.ed ((a - 0x4000) / 32) (a % 32 / 8))
  else if 0x8000 ≤ a && a < 0x9000 then some (.rc ((a - 0x8000) / 64) (a % 64 / 8))
  else none

/-- The event that follows next. -/
def postNow (s : State) (i : Instr) : State := { s with agenda := i :: s.agenda }

/-- A write of PD6: CMD, which is refused while a command runs and entered in the Carafe as every end of one is (R320, R442).
The reserved bits written with it are kept, for CMD 1 judges them (R435). -/
def writeCmd (s : State) (part : Nat) (v : Dbl) : State :=
  if busyOf s part then carafe (setStatus s part 1 true) (dieOf (stripCore s part)) 8 (fld v 3 0 * 16 + 1) 0 part [0, 0]
  else
    let s := modPart s part fun p =>
      { p with pd := p.pd.set 6 ((p.pd.getD 6 0 &&& 0xFFF100#64) ||| (v &&& ~~~(0xFFF10F#64))) }
    match fld v 3 0 with
    | 1 => postNow s (.partitionApplyResources part)
    | 2 => postNow s (.partitionReset part)
    | 3 => postNow s (.translationInvalidation part)
    | _ => s

/-- A write of ED3: CMD on record REC (R370, R372). -/
def writeEscCmd (s : State) (part : Nat) (v : Dbl) : State :=
  match fld v 3 0 with
  | 1 => resumeRecord s part (fld v 63 32) false
  | 2 => resumeRecord s part (fld v 63 32) true
  | 3 => endRecord s part (fld v 63 32)
  | _ => s

/-- A write of RPCTL (R307). -/
def writeRpctl (s : State) (region : Nat) (v : Dbl) : State :=
  let s := modRegion s region fun g =>
    { g with
      slotdly := v.extractLsb' 16 8
      minstep := BitVec.ofNat 4 (min (fld v 11 8) (fld v 3 0))
      sstep := v.extractLsb' 0 4 }
  if fld v 55 24 = 0 then s else postNow s (.badd region (v.extractLsb' 24 32))

/-- A write of a register of the management window. The reserved bits of the partition descriptor are kept, for CMD 1
judges them (R435). -/
def writeWindow (s : State) (r : WindowReg) (v : Dbl) : State :=
  match r with
  | .modcfg => { s with rank := v.extractLsb' 0 12 }
  | .pd p 6 => writeCmd s p v
  | .pd p n => modPart s p fun x => { x with pd := x.pd.set n v }
  | .rpctl r => writeRpctl s r v
  | .restat r => if v.getLsbD 2 then ticked (restartRegion s r (Config.stopHolds s.tick)) else s
  | .td p 3 => modPart s p id
  | .td p 1 => modPart s p fun x => { x with td := x.td.set 1 (v &&& ~~~(0xFF0000000000#64)) }
  | .td p n => modPart s p fun x => { x with td := x.td.set n v }
  | .ed p 0 => modPart s p fun x => { x with ed := x.ed.set 0 v }
  | .ed p 1 => modPart s p fun x => { x with ed := x.ed.set 1 (v &&& 0xFFFFFFFFF#64) }
  | .ed p 3 => writeEscCmd s p v
  | .ed _ _ => s
  | .rc r 1 => modRegion s r fun g => { g with rcsel := v &&& 0x7FFF#64 }
  | .rc _ _ => s
  | .route k => { s with routes := tput 0 s.routes k (v.extractLsb' 0 8 &&& 0x8F#8) }

/-- What a register of the management window reads as: RZ and WO fields read zero. -/
def readWindow (s : State) (r : WindowReg) : Dbl :=
  match r with
  | .modcfg => s.rank.zeroExtend 64
  | .pd p n =>
    let d := (partOf s p).pd.getD n 0
    match n with
    | 3 => d &&& 0x3FFFFFFFFFFFFF#64
    | 4 => d &&& 0x1FFFFFFFFFFFF#64
    | 5 => d &&& 0xFFFF000000000001#64
    | 6 => d &&& 0xFFF100#64
    | _ => d
  | .rpctl r =>
    let g := regionOf s r
    BitVec.ofNat 64 (g.slotdly.toNat * 2 ^ 16 + g.minstep.toNat * 2 ^ 8 + g.sstep.toNat)
  | .restat r => BitVec.ofNat 64 ((regionOf s r).stops.toNat * 2 ^ 8 + (regionOf s r).stopKind.toNat)
  | .td p n => (partOf s p).td.getD n 0
  | .ed p n => (partOf s p).ed.getD n 0
  | .rc r n =>
    let g := regionOf s r
    let u := tget (0, 0) g.rcunits (g.rcsel.toNat % 32768)
    match n with
    | 0 => g.rcstat
    | 1 => g.rcsel
    | 2 => u.1
    | 3 => u.2
    | n => g.rcflt.getD (n - 4) 0
  | .route k => (tget 0 s.routes k).zeroExtend 64

/-- REGISTER_WRITE (R11): a write to the management window, or by the debug port to a register of a core (R203,
R334, R335, R337, R339). -/
def execRegisterWrite (target : RegTarget) (value : Dbl) (s : State) : Out :=
  match target with
  | .window a => .next (match windowReg a with | some r => writeWindow s r value | none => s)
  | .breakpoint c n => .next (modCore s c fun k => { k with bp := k.bp.set n value })
  | .watchpoint c n => .next (modCore s c fun k => { k with wp := k.wp.set n value })
  | .debugControl c => .next (modCore s c fun k => { k with dbg := value &&& 0xFFFFC000#64 })
  | .mailbox c n => .next (modCore s c fun k => { k with mbox := k.mbox.set n value })

end Sys2Proof.Machine
end

