-- ==== Sys2Proof/Machine/Platform.lean ====
section
/-! DEFINITION. Resets and boot, the host link, peers, the debug port, attestation and soft errors: R10, R272, R326,
R331, R332, R337, R345, R390, R406 to R408, R437 to R442. -/

namespace Sys2Proof.Machine

/-! ### Module reset (R10, R344, R345) -/

/-- An entry in every die's Carafe. -/
def entryEverywhere (s : State) (kind detail : Nat) : State :=
  (List.range 5).foldl (fun s d => carafe s d kind detail 0 0 [0, 0]) s

/-- The module after reset: every field at its reset value. The Carafes, the flash, the fuses, what memory holds and
what the outside world will do are kept. -/
def resetModule (s : State) : State :=
  { State.reset with
    tick := s.tick, inputs := s.inputs.map fun x => (x.1 - s.cycle, x.2), out := s.out, mem := s.mem, badMem := s.badMem
    carafes := s.carafes, flash := s.flash, nextId := s.nextId
    boot := { State.reset.boot with minVersion := s.boot.minVersion, secretGood := s.boot.secretGood } }

/-- MODULE_RESET. -/
def execModuleReset (s : State) : Out :=
  .next (if s.powered then entryEverywhere (resetModule s) 0xC 2 else s)

/-! ### Boot (R331, R439, R440) -/

/-- Extend a measurement register with an image's digest: SHA-384(MRn ‖ D). -/
def extendMr (b : Boot) (n : Nat) (image : List Byte) : Boot :=
  { b with mr := b.mr.set n (Config.sha384 (toBytes 48 (b.mr.getD n 0).toNat ++ toBytes 48 (Config.sha384 image).toNat)) }

/-- CODE of an image that is not accepted: 0 when it is. -/
def imageCode (b : Boot) (i : BootImage) : Nat :=
  if !i.readable then 3 else if !Config.verifies i.data then 1 else if i.version < b.minVersion then 2 else 0

/-- A boot step begins, or has failed: BOOTSTAT and the Carafe (R439, R442). -/
def bootStep (s : State) (step code : Nat) : State :=
  carafe { s with boot := { s.boot with step := BitVec.ofNat 4 step, code := BitVec.ofNat 8 code } } 4 0xB (step * 16 + code) 0 0 [0, 0]

/-- The boot has failed: STATE 2. The next cycle finds the boot ROM in recovery (R440). -/
def bootFails (s : State) (step code : Nat) : State :=
  let s := bootStep s step code
  { s with boot := { s.boot with state := 2, recovery := true }, linkEnabled := false, linkUp := false }

/-- The images that the first stage reads into the staging SRAM, one behind the other, as far as they find room (R331, log
29). -/
def fitStaging : Nat → List BootImage → List BootImage
  | _, [] => []
  | room, i :: t => { i with data := i.data.take room } :: fitStaging (room - i.data.length) t

/-- The staging SRAM with images in it. -/
def stagedSram (images : List BootImage) : Memory := writeBytes [] 0 (images.flatMap (·.data))

/-- Step 3 of R331: the firmware copies the images from the staging SRAM to memory. -/
def copyImages (s : State) (images : List BootImage) : State :=
  images.zipIdx.foldl (fun s (x : BootImage × Nat) => memWrite s (Config.imageBase x.2 % 2 ^ 39) x.1.data) s

/-- Steps 2 to 5 of R331: the firmware is the first image, kernel and hypervisor the others. Each is verified as it stands
in the staging SRAM. -/
def bootRest (s : State) (images : List BootImage) (trained strips : Bool) : State :=
  let s := bootStep s 2 0
  let images := fitStaging (2 ^ 24) images
  let s := { s with boot := { s.boot with iavis := .firstStage, rootPorts := 0xF, sram := stagedSram images } }
  match (images.map (imageCode s.boot)).find? (· ≠ 0) with
  | some c => bootFails s 2 c
  | none =>
    let s := match images with
      | i :: _ => { s with boot := extendMr s.boot 1 i.data }
      | [] => s
    let s := bootStep { s with boot := { s.boot with iavis := .firmware } } 3 0
    if !trained then bootFails s 3 4
    else
      let s := bootStep (copyImages s images) 4 0
      if !strips then bootFails s 4 5
      else
        let s := bootStep { s with boot := { s.boot with strips := true } } 5 0
        let b := images.tail.foldl (fun b i => extendMr b 2 i.data) s.boot
        { s with boot := { b with state := 1, step := 6, iavis := .kernel }, linkEnabled := true, linkUp := true }

/-- Step 1 with a first-stage image that has been accepted. -/
def bootFirst (s : State) (i : BootImage) : State := { s with boot := extendMr s.boot 0 i.data }

/-- POWER_ON_BOOT (R331): the images are the two copies of the first stage, the firmware, and the kernel with the
hypervisor. The Carafes are cleared (R344). -/
def execPowerOnBoot (images : List BootImage) (trained strips : Bool) (s : State) : Out :=
  let s := { resetModule s with powered := true, carafes := [], mem := [], badMem := [] }
  let s := bootStep s 1 0
  match images.take 2 with
  | [] => .next (bootFails s 1 1)
  | a :: more =>
    match (a :: more).find? fun i => imageCode s.boot i = 0 with
    | some i => .next (bootRest (bootFirst s i) (images.drop 2) trained strips)
    | none => .next (bootFails s 1 (imageCode s.boot (more.headD a)))

/-- The image that the host has staged. -/
def stagedImage (b : Boot) (i : StagedImage) : BootImage := ⟨readBytes b.sram 0 (min i.bytes (2 ^ 24)), i.version, true⟩

/-- The ROM of a module in recovery verifies the staged image as step 1, and boots from it (R440). -/
def recoverFrom (s : State) (staged : StagedImage) : State :=
  if !s.boot.recovery || !s.linkEnabled then s
  else
    let image := stagedImage s.boot staged
    let s := bootStep { s with boot := { s.boot with state := 0 } } 1 0
    match imageCode s.boot image with
    | 0 =>
      let rest := (Config.nvmeImages s.tick).map fun x => (⟨x.1, x.2.1, x.2.2⟩ : BootImage)
      let (trained, strips) := Config.bootChecks s.tick
      ticked (bootRest (bootFirst { s with boot := { s.boot with recovery := false } } image) rest trained strips)
    | c => bootFails s 1 c

/-- RECOVERY_BOOT (R440). -/
def execRecoveryBoot (image : StagedImage) (s : State) : Out := .next (recoverFrom s image)

/-! ### Accesses from outside (R272, R285, R390, R407, R408) -/

/-- The address of the first uncorrectable sector that bytes meet. -/
def badSector (s : State) (pa n : Nat) : Nat :=
  ((s.badMem.filter fun sec => pa / 32 ≤ sec && sec ≤ (pa + n - 1) / 32).min?.map fun sec => max pa (32 * sec)).getD pa

/-- Perform an access at the home slices: `none` while a sector of it is locked. -/
def performArrival (s : State) (a : Arrival) : Option State :=
  match a with
  | .hostRead pa n =>
    if 2 ^ 40 < pa + n || n = 0 then some { s with out := .completerAbort :: s.out }
    else if lockedFor s none pa n then none
    else if badData s pa n then some { noteError s 0 0 (badSector s pa n) with out := .completerAbort :: s.out }
    else some { s with out := .hostData (readBytes s.mem pa n) :: s.out }
  | .hostWrite pa l =>
    if 2 ^ 40 < pa + l.length || l = [] then some s
    else if lockedFor s none pa l.length then none
    else some (sliceWrite s pa l)
  | .peer pa (.read n) =>
    if 2 ^ 40 < pa + n || n = 0 then some { s with out := .peerError :: s.out }
    else if lockedFor s none pa n then none
    else if badData s pa n then some { noteError s 0 0 (badSector s pa n) with out := .peerError :: s.out }
    else some { s with out := .peerData (readBytes s.mem pa n) :: s.out }
  | .peer pa (.write l) =>
    if 2 ^ 40 < pa + l.length || l = [] then some s
    else if lockedFor s none pa l.length then none
    else some (sliceWrite s pa l)

/-- Accesses are performed in the order in which they came. -/
def arrive (s : State) (a : Arrival) : State :=
  if s.arrivals ≠ [] then { s with arrivals := s.arrivals ++ [a] }
  else (performArrival s a).getD { s with arrivals := [a] }

/-- Those that wait are tried again, in order. -/
def serveArrivals : List Arrival → State → State
  | [], s => { s with arrivals := [] }
  | a :: t, s => match performArrival s a with
    | some s => serveArrivals t s
    | none => { s with arrivals := a :: t }

/-- An event of the host link in the I/O die's Carafe (R442). -/
def linkEntry (s : State) (detail function : Nat) : State :=
  carafe s 4 9 detail 0 0 [BitVec.ofNat 64 function, 0]

/-- The host reaches the partitions' functions and module memory: the link is up, and not in recovery, where it has physical
function 0 alone (R440). -/
def hostLink (s : State) : Bool := s.linkUp && !s.boot.recovery

/-- BOOTSTAT (R439). -/
def bootstat (b : Boot) : Nat := b.code.toNat * 256 + b.step.toNat * 16 + b.state.toNat

/-- The physical address that a host access of `n` bytes through a virtual function or to module memory reaches: a queue
table holds 256 descriptors of 64 bytes (R290, R326). -/
def hostAddr (s : State) (place : HostPlace) (n : Nat) : Option Nat :=
  match place with
  | .memory a => some a
  | .queueTable part o => if part < 16 && o + n ≤ 16384 then some (((partOf s part).pd.getD 0 0).toNat + o) else none
  | _ => none

/-- Something answers the host. -/
def answerHost (s : State) (x : Output) : State := { s with out := x :: s.out }

/-- HOST_READ (R272): module memory at its home slice; physical function 0 gives module status only, and in recovery the
staging SRAM (R326, R439, R440); configuration requests are to be retried until the link is enabled (R331). -/
def execHostRead (place : HostPlace) (bytes : Nat) (s : State) : Out :=
  match place with
  | .configuration o =>
    .next (if !s.linkEnabled then answerHost s .configurationRetry
      else if !s.linkUp then s
      else answerHost (ticked s) (.hostData ((List.range bytes).map fun i => Config.configByte s.tick (o + i))))
  | .status o =>
    .next (if !s.linkUp then s else answerHost (ticked s) (.hostData ((List.range bytes).map fun i =>
      if o + i < 8 then BitVec.ofNat 8 (bootstat s.boot / 2 ^ (8 * (o + i))) else Config.statusByte s.tick (o + i))))
  | .staging o =>
    .next (if !s.linkUp then s
      else answerHost s (if s.boot.recovery && o + bytes ≤ 2 ^ 24 then .hostData (readBytes s.boot.sram o bytes) else .completerAbort))
  | _ =>
    .next (if !hostLink s then s
      else match hostAddr s place bytes with
        | some a => arrive s (.hostRead a bytes)
        | none => answerHost s .completerAbort)

/-- HOST_WRITE: a poisoned one is discarded (R437). A 1 at offset 0x8 of physical function 0's BAR0 starts the boot from the
staged image in recovery (R440). -/
def execHostWrite (place : HostPlace) (data : List Byte) (poisoned : Bool) (s : State) : Out :=
  match place with
  | .configuration _ => .next (if !s.linkEnabled then answerHost s .configurationRetry else s)
  | .status o =>
    .next (if !s.linkUp then s
      else if poisoned then linkEntry s 3 0
      else if o = 8 && readLE (writeBytes [] 0 data) 0 data.length = 1 then
        let (n, v) := Config.stagedImage s.tick
        recoverFrom (ticked s) ⟨n, v⟩
      else s)
  | .staging o =>
    .next (if !s.linkUp then s
      else if poisoned then linkEntry s 3 0
      else if s.boot.recovery && o + data.length ≤ 2 ^ 24 then
        { s with boot := { s.boot with sram := writeBytes s.boot.sram o data } }
      else s)
  | _ =>
    .next (if !hostLink s then s
      else if poisoned then linkEntry s 3 (match place with | .queueTable part _ => part + 1 | _ => 0)
      else match hostAddr s place data.length with
        | some a => arrive s (.hostWrite a data)
        | none => s)

/-- PEER_MEMORY_ACCESS. -/
def execPeerMemoryAccess (addr : Nat) (access : PeerAccess) (s : State) : Out := .next (arrive s (.peer addr access))

/-! ### Failures of the host link (R437) -/

/-- The lanes of a thread whose reads of the host window are under way. -/
def askedLanes (t : Thread) : List Nat := t.paths.flatMap fun p => (p.asked.map fun x => lanesOf x.2).getD []

/-- HOST_READ_TIMEOUT: a lane's outstanding read of the host window is not answered; the lane takes LINK_ERROR when its path
tries the instruction again. -/
def execHostReadTimeout (wid tix lane : Nat) (s : State) : Out :=
  .next (modWg s wid fun w =>
    if (w.threads[tix]?).any fun t => (askedLanes t).contains lane then { w with linkFails := w.linkFails ++ [lane] } else w)

/-- The outstanding reads of the host window fail: those of lanes and those of memory nodes (R437). -/
def loseReads (s : State) : State :=
  let unit := fun (x : FUnit) => { x with asked := x.asked.map fun a => (a.1, true) }
  let load := fun (f : Fabric) => { f with tiles := f.tiles.map fun t => { t with units := t.units.map unit } }
  { s with
    wgs := s.wgs.map fun x => (x.1, { x.2 with linkFails := x.2.linkFails ++ x.2.threads.flatMap askedLanes })
    launches := s.launches.map fun x => (x.1, { x.2 with fabric := x.2.fabric.map load }) }

/-- LINK_DOWN. -/
def execLinkDown (s : State) : Out := .next (linkEntry { loseReads s with linkUp := false } 1 0)
/-- LINK_UP. -/
def execLinkUp (s : State) : Out := .next (if s.linkEnabled then linkEntry { s with linkUp := true } 2 0 else s)
/-- FLR_VF: acts as CMD 2 of the partition. A link that is down, or has physical function 0 alone, delivers none (R440). -/
def execFlrVf (part : Nat) (s : State) : Out :=
  if !hostLink s then .next s else
  let s := linkEntry s 4 (part + 1)
  if (partOf s part).next.isSome then .next { s with inputs := (s.cycle + 1, .partitionReset part) :: s.inputs }
  else .next (endCommand (resetPartition s part) part 2 0)
/-- FLR_PF0: only the module status registers (R439). -/
def execFlrPf0 (s : State) : Out :=
  .next (linkEntry { s with boot := { s.boot with state := 0, step := 0, code := 0 } } 4 0)

/-! ### Peer ports (R438) -/

/-- The lowest rank that the route table sends to a port. -/
def rankOfPort (s : State) (port : Nat) : Nat :=
  ((s.routes.find? fun x => x.2.getLsbD 7 && fld x.2 3 0 = port).map (·.1)).getD 0
/-- An entry for a port. -/
def portEntry (s : State) (port : Nat) : State := carafe s 4 0xA port 0 0 [BitVec.ofNat 64 (rankOfPort s port), 0]
/-- Change a port. -/
def modPort (s : State) (port : Nat) (f : Port → Port) : State :=
  { s with ports := tset s.ports port (f (tget {} s.ports port)) }

/-- The words of a transfer that left by a port and that their peer has not acknowledged stop the transfer, when the port
is down (R328, R410, R412). -/
def loseSent (port : Nat) (s : State) (x : Nat × Transfer) : State :=
  stopAway s x.1 (x.2.sent.filter (·.port = some port))

/-- A port goes down: its ranks are unreachable. -/
def portDown (s : State) (port : Nat) : State :=
  if !(tget {} s.ports port).up then s
  else
    let s := modPort s port fun p => { p with up := false, fails := [] }
    portEntry (s.transfers.foldl (loseSent port) s) port

/-- PEER_PORT_DOWN. -/
def execPeerPortDown (port : Nat) (s : State) : Out := .next (portDown s port)
/-- PEER_PORT_UP: the hypervisor has retrained the port. -/
def execPeerPortUp (port : Nat) (s : State) : Out :=
  .next (if (tget {} s.ports port).up then s else portEntry (modPort s port fun p => { p with up := true, fails := [] }) port)

/-- Cycles of 1 ms at 2.5 GHz. -/
def msCycles : Nat := 2500000
/-- FLIT_CRC_FAILURE: the flit is replayed, which changes only timing; the third failed retraining within 1 ms takes
the port down. -/
def execFlitCrcFailure (port : Nat) (retrainingFails : Bool) (s : State) : Out :=
  if !retrainingFails then .next s
  else
    let fails := s.cycle :: ((tget {} s.ports port).fails.filter fun c => s.cycle < c + msCycles)
    let s := modPort s port fun p => { p with fails := fails }
    .next (if 3 ≤ fails.length then portDown s port else s)

/-! ### The debug port (R337, R345) -/

/-- The thread that the debug port has halted in a slot of a core. -/
def haltedAt (s : State) (core slot : Nat) : Option (Nat × Nat) :=
  s.wgs.findSome? fun x =>
    if x.2.core ≠ core then none
    else (x.2.threads.zipIdx.find? fun t => t.1.slot = slot && t.1.halt = some .debug).map fun t => (x.1, t.2)

/-- DEBUG_RESUME: as `rett`. -/
def execDebugResume (core slot : Nat) (s : State) : Out :=
  .next (match haltedAt s core slot with | some (wid, tix) => resumeHalted s wid tix false | none => s)
/-- DEBUG_RESUME_NEXT: as `rett.next`. -/
def execDebugResumeNext (core slot : Nat) (s : State) : Out :=
  .next (match haltedAt s core slot with | some (wid, tix) => resumeHalted s wid tix true | none => s)

/-- FREEZE (R345): every clock stops. -/
def execFreeze (s : State) : Out := .next { entryEverywhere s 0xC 1 with frozen := true }

/-! ### Attestation (R332, R441) -/

/-- Bytes 0x000 to 0x19F of a report. -/
def reportBody (s : State) (part : Nat) (nonce : BitVec 384) : List Byte :=
  let pd := (List.range 8).flatMap fun n => toBytes 8 (readWindow s (.pd part n)).toNat
  let maps := readBytes s.mem ((partOf s part).pd.getD 7 0).toNat 160
  toBytes 8 1 ++ toBytes 48 nonce.toNat ++ s.boot.mr.flatMap (fun m => toBytes 48 m.toNat)
    ++ toBytes 48 (Config.sha384 (pd ++ maps)).toNat ++ toBytes 8 (Config.reportIds s.rank.toNat part).toNat
    ++ List.replicate 160 0

/-- ATTESTATION_REQUEST: no report without a key. -/
def execAttestationRequest (part : Nat) (nonce : BitVec 384) (s : State) : Out :=
  if !s.boot.secretGood then .next { s with out := .noReport :: s.out }
  else
    let body := reportBody s part nonce
    .next { s with out := .report (body ++ toBytes 96 (Config.sign body).toNat) (Config.sign body) :: s.out }

/-! ### Soft errors (R406 to R408) -/

/-- A structure's number, the core it lies in and the address or register code of what is struck. -/
def struck (s : State) (t : ErrorTarget) : Nat × Nat × Nat :=
  let core := fun wid => ((wgOf s wid).map (·.core)).getD 0
  let tileCore := fun lid tile => (tileOf (fabricOf s lid) tile).core
  match t with
  | .memory a => (0, 0, a)
  | .scratchpad wid a => (1, core wid, a)
  | .laneReg wid _ r => (2, core wid, r)
  | .uniformReg wid _ r => (3, core wid, 0x100 + r / 2)
  | .predicate wid _ r => (4, core wid, 0x140 + r)
  | .joinReg wid _ r => (5, core wid, (Config.joinCode r).toNat)
  | .tile wid z _ => (6, core wid, 0x200 + z)
  | .codebook wid n => (7, core wid, (Config.slotCode n).toNat)
  | .tileScratchpad lid tile a => (1, tileCore lid tile, a)
  | .tileElement lid tile z _ => (6, tileCore lid tile, 0x200 + z)
  | .tileCodebook lid tile n => (7, tileCore lid tile, (Config.slotCode n).toNat)
  | .l1 c a => (8, c, a)
  | .coalescing c a => (9, c, a)
  | .transaction wid _ a => (10, core wid, a)

/-- What stays in place with a failing code. -/
def spoil (s : State) (t : ErrorTarget) : State :=
  let sector := fun (o : PadOwner) (a : Nat) => modPad s o fun p => { p with badSectors := noteBad p.badSectors (a / 32) }
  let element := fun (o : PadOwner) (z e : Nat) => modPad s o fun p => { p with badTiles := noteBad p.badTiles (1024 * z + e) }
  let slot := fun (o : PadOwner) (n : Nat) => modPad s o fun p => { p with badSlots := noteBad p.badSlots n }
  match t with
  | .memory a => { s with badMem := noteBad s.badMem (a / 32) }
  | .scratchpad wid a => sector (.workgroup wid) a
  | .laneReg wid l r => modWg s wid fun w => { w with badRegs := (r, l) :: w.badRegs }
  | .uniformReg wid tix r => modWg s wid fun w =>
      { w with badRegs := ((if r % 2 = 0 then 0x100 else 0x300) + r / 2, tix) :: w.badRegs }
  | .predicate wid tg r => modWg s wid fun w => { w with badRegs := (0x140 + r, tg) :: w.badRegs }
  | .joinReg wid tix r => modWg s wid fun w => { w with badRegs := (0x200 + r, tix) :: w.badRegs }
  | .tile wid z e => element (.workgroup wid) z e
  | .codebook wid n => slot (.workgroup wid) n
  | .tileScratchpad lid tile a => sector (.tile lid tile) a
  | .tileElement lid tile z e => element (.tile lid tile) z e
  | .tileCodebook lid tile n => slot (.tile lid tile) n
  | .l1 c a => if (tfind (coreOf s c).l1 (a / 32)).isNone then s else
      modCore s c fun k => { k with badL1 := noteBad k.badL1 (a / 32) }
  | .coalescing c a =>
    let strike := fun (e : CbEntry) =>
      if e.bytes.any fun x => x.1 / 32 = a / 32 then { e with bad := noteBad e.bad (a / 32) } else e
    modCore s c fun k => { k with cb := k.cb.map strike }
  | .transaction wid lane a => modWg s wid fun w =>
      let t := txOf w lane
      if (tfind t.reads (a / 32)).isNone && (tfind t.writes (a / 32)).isNone then w
      else setTx w lane { t with bad := noteBad t.bad (a / 4) }

/-- SOFT_ERROR (R406): an uncorrectable error strikes and stays until it is overwritten (R407); each read that meets it
enters it in the Carafe. One that the code corrects is entered at the read that finds it, which this event then is: it
changes nothing else (log 122). -/
def execSoftError (target : ErrorTarget) (uncorrectable : Bool) (s : State) : Out :=
  if uncorrectable then .next (spoil s target)
  else
    let (n, core, code) := struck s target
    .next (carafe s (if n = 0 then 4 else dieOf core) 1 (Config.structureCode n).toNat 0 0 [BitVec.ofNat 64 code, 0])

end Sys2Proof.Machine
end

