-- ==== Sys2Proof/Machine/Cycle.lean ====
section
/-! DEFINITION. The module's cycle: clocks, what each cycle advances, the events that fall due in it, and the issue
slots: R22, R27, R28, R135, R180, R211, R220, R250, R282, R299, R301, R305 to R314, R388, R389, R419, R431, R444. -/

namespace Sys2Proof.Machine

/-! ### Turns and the age of entries (R27, R28, R250, R444) -/

/-- The progress promise of a launch is on (R28). -/
def promiseOn (la : Launch) : Bool := (pkt la 3).getLsbD 14

/-- The turn of a thread's running path has lasted for FAIRT cycles. -/
def turnOver (w : Workgroup) (t : Thread) : Bool := !t.gave && w.fairt.toNat < t.turn

/-- FAIRNESS_TIMER_EXPIRE (R27, R444): the next ready path takes the turn; without one the timer restarts. -/
def execFairnessTimerExpire (wid tix : Nat) (s : State) : Out :=
  match wgOf s wid with
  | none => .next s
  | some w =>
    match w.threads[tix]? with
    | none => .next s
    | some t =>
      if !promiseOn (launchOf s w.lid) || !turnOver w t then .next s
      else .next (modTh s wid tix fun t =>
        match (pickPath t).bind fun i => t.paths[i]? with
        | some p => if 1 < (readyPaths t).length then giveWay t p else { t with turn := 1 }
        | none => { t with turn := 1 })

/-- COALESCING_ENTRY_AGE_DRAIN (R250). -/
def execCoalescingEntryAgeDrain (core line : Nat) (s : State) : Out :=
  .next ((drainWhere s core fun e => e.line = line && e.born + 4096 ≤ s.cycle).getD s)

/-! ### Clocks (R203 FSTEP, R305, R306) -/

/-- Sixteenths of a region cycle that pass in a module cycle. -/
def clockRate (g : Region) : Nat := 16 - stepOf g
/-- A region's clock ticks in the coming cycle. -/
def clockTicks (g : Region) : Bool := 16 ≤ g.frac + clockRate g
/-- A region after one module cycle. -/
def tickRegion (g : Region) : Region :=
  let n := g.frac + clockRate g
  if 16 ≤ n then spendBoost { g with cycles := g.cycles + 1, frac := n - 16 } else { g with frac := n }

/-- The regions whose clock ticks in the coming cycle. -/
def tickingRegions (s : State) : List Nat := (List.range 64).filter fun r => clockTicks (regionOf s r)

/-- The next cycle begins. -/
def nextCycle (s : State) : State := modRegions { s with cycle := s.cycle + 1 } tickRegion

/-! ### Slot-cycles (R314) -/

/-- Launch, core and slots that are occupied. -/
def occupied (s : State) : List (Nat × Nat × Nat) :=
  (s.wgs.map fun x => (x.2.lid, x.2.core, (slotsHeld x.2).length))
    ++ s.launches.flatMap fun x => match x.2.fabric with
      | some f => f.tiles.map fun t => (x.1, t.core, 16)
      | none => []

/-- Count the slot-cycles of a cycle in the regions whose clock ticks. -/
def countSlots (s : State) (live : List Nat) : State :=
  let xs := occupied s
  let s := ((xs.map fun x => (x.1, regionOfCore x.2.1)).eraseDups).foldl (fun s (lid, r) =>
    if live.contains r then modRegion s r fun g => { g with present := tset g.present lid (tget 0 g.present lid + 1) } else s) s
  xs.foldl (fun s (lid, core, n) =>
    let r := regionOfCore core
    if live.contains r then modRegion s r fun g =>
      { g with
        slotCycles := tset g.slotCycles lid (tget 0 g.slotCycles lid + n)
        coreCycles := tset g.coreCycles core (tget 0 g.coreCycles core + n) } else s) s

/-! ### The matrix units (R180, R185, R309 to R311) -/

/-- The owners of matrix queues on a core: workgroups, and the tile of a load that is not frozen. -/
def ownersOn (s : State) (core : Nat) : List PadOwner :=
  ((s.wgs.filter fun x => x.2.core = core).map fun x => PadOwner.workgroup x.1)
    ++ s.launches.flatMap fun x => match x.2.fabric with
      | some f => if fires f then (f.tiles.zipIdx.filter fun t => t.1.core = core).map fun t => PadOwner.tile x.1 t.2 else []
      | none => []

/-- A phase's burst is running in a cycle: from its onset on, for its length (R205, R206). -/
def burstNow (cycle : Nat) (p : Option Phase) : Bool := p.any fun p => !p.held && p.onset ≤ cycle && cycle < p.stop

/-- A burst is running in a region (R309). -/
def burstIn (s : State) (region : Nat) : Bool :=
  (s.wgs.any fun x => regionOfCore x.2.core = region && burstNow s.cycle x.2.phase)
    || s.launches.any fun x => burstNow s.cycle x.2.phase && x.2.fabric.any fun f => f.tiles.any fun t => regionOfCore t.core = region

/-- The queue that was least recently busy. -/
def leastRecent (s : State) : List PadOwner → Option PadOwner
  | [] => none
  | o :: t => some (t.foldl (fun b x =>
      if (padOf s x).busy.head?.getD 0 < (padOf s b).busy.head?.getD 0 then x else b) o)

/-- Forget busy cycles that have left the window of 256 (R310). -/
def pruneBusy (cycle : Nat) (p : Pad) : Pad := { p with busy := p.busy.filter fun b => cycle ≤ b + 256 }

/-- One cycle of a core's matrix unit: tokens prepare, tile moves take their turn, and at most one K group enters. -/
def stepMatrix (s : State) (core : Nat) : State :=
  let os := (ownersOn s core).filter fun o => (padOf s o).queue ≠ [] || (padOf s o).busy ≠ []
  if os = [] then s
  else
    let s := os.foldl (fun s o => modPad s o fun p => enterMove s.cycle (prepare s.cycle (pruneBusy s.cycle p))) s
    match leastRecent s (os.filter fun o => mayEnter s.cycle (phaseOfOwner s o) (padOf s o)) with
    | none => s
    | some o =>
      let r := regionOfCore core
      let starts := (coreOf s core).mxLast.all fun b => b + 256 < s.cycle
      if starts && burstIn s r && (regionOf s r).lastStart.any (fun c => s.cycle < c + 32) then s
      else
        let slow := (inForce s.cycle (phaseOfOwner s o) (padOf s o)).isSome || inExcess s.cycle (phaseOfOwner s o) (padOf s o)
        let s := modCore (modPad s o (enterGroup s.cycle)) core fun k => { k with mxLast := some s.cycle }
        let s := if starts then modRegion s r fun g => { g with lastStart := some s.cycle } else s
        if slow then modLaunch s (ownerLaunch s o) fun la => { la with undecl := la.undecl + 3 } else s

/-- The cores that hold a matrix queue with something in it. -/
def matrixCores (s : State) : List Nat :=
  ((s.wgs.map fun x => x.2.core) ++ s.launches.flatMap fun x => match x.2.fabric with
    | some f => f.tiles.map (·.core)
    | none => []).foldl (fun l c => insertGang c l) []

/-! ### Turns, budgets and loads (R27, R211, R388, R419) -/

/-- Count a cycle of the turn of a thread's running path. -/
def countTurn (t : Thread) : Thread :=
  if t.gave || t.halt.isSome || !(t.paths.any fun p => pathReady p && p.mask.getLsbD t.run) then t
  else { t with turn := t.turn + 1 }

/-- Count it for every thread of the regions whose clock ticks. -/
def countTurns (s : State) (live : List Nat) : State :=
  { s with wgs := s.wgs.map fun x =>
      if live.contains (regionOfCore x.2.core) && !x.2.strand then (x.1, { x.2 with threads := x.2.threads.map countTurn }) else x }

/-- Something of a launch stands on a core (R211). -/
def standsPlaced (s : State) (lid : Nat) (la : Launch) : Bool :=
  s.wgs.any (fun x => x.2.lid = lid) || la.fabric.any fun f => f.tiles ≠ []

/-- Count the cycle against the budgets; a load's running begins it as a first issue does. The cycle of the first issue is
the first that counts (R211, R388, R446): it is counted with the next one. -/
def countBudgets (s : State) : State :=
  { s with launches := s.launches.map fun x =>
      let la := x.2
      let la := { la with used :=
        if la.begun && standsPlaced s x.1 la then (if la.used = 0 then 2 else la.used + 1) else la.used }
      (x.1, { la with begun := la.begun || la.fabric.any fires }) }

/-- The quiescence detector of a load (R419). -/
def countQuiet (s : State) (live : List Nat) (lid : Nat) : State :=
  let f := fabricOf s lid
  if !live.contains (originRegion f) || !fires f || f.tiles = [] then s
  else if f.moved then modFabric s lid fun f => { f with quiet := 0, moved := false }
  else if workFlies s lid then s
  else modFabric s lid fun f => { f with quiet := f.quiet + 1 }

/-! ### Waits (R169, R171, R174, R381, R411, R44, R57) -/

/-- The home slices answer the waits at global barriers whose phase has moved. -/
def answerAll (s : State) : State :=
  { s with wgs := s.wgs.map fun x =>
      (x.1, { x.2 with threads := x.2.threads.map fun t => { t with paths := t.paths.map (answerGbar s) } }) }

/-- A hop between T-form and V-form begins once every TG stands at its point. -/
def pollPoint (s : State) (wid : Nat) : State :=
  match wgOf s wid with
  | none => s
  | some w =>
    match pointWait w, w.hop with
    | some (pc, _), some h =>
      if h.form = .s || h.due.isSome then s
      else match pointAt s w pc w.strand with
        | .ok (some e) => gatherPoint s wid e
        | _ => s
    | _, _ => s

/-- The budget of a launch has run out (R388). -/
def spent (la : Launch) : Bool := pkt la 4 ≠ 0 && (pkt la 4).toNat ≤ la.used

/-- What waits is looked at again. In the cycle in which a launch's budget runs out no trap is taken in it (R388). -/
def pollWaits (s : State) : State :=
  let ids := s.wgs.map (·.1)
  let s := ids.foldl (fun s wid => settleTags (settleRounds (settleTxend (settleBars s wid) wid) wid) wid) s
  let s := (s.wgs.filter fun x => !spent (launchOf s x.2.lid)).foldl (fun s x =>
    (List.range (((wgOf s x.1).map (·.threads.length)).getD 0)).foldl (fun s tix => deliverMarks s x.1 tix) s) s
  let s := if s.wgs = [] then s else ticked (answerAll s)
  let s := ids.foldl pollPoint s
  let s := (s.launches.map (·.1)).foldl beginEntry s
  if s.arrivals = [] then s else serveArrivals s.arrivals s

/-! ### Events of workgroups -/

/-- An event, if it is due. -/
def when (b : Bool) (i : Instr) : List Instr := if b then [i] else []

/-- Paths of a thread, suspended ones too. -/
def allPaths (t : Thread) : List Path := t.paths ++ ((t.susp.map (·.paths)).getD [])

/-- The lowest lane of each path at `txend` of a thread whose commit is under way (R282). -/
def committers (w : Workgroup) (t : Thread) : List Nat :=
  (allPaths t).filterMap fun p => if p.wait = .txend then (lanesOf p.mask).find? (committing w) else none

/-- A lane of half 0 of a core still commits that reached its `txend` in a cycle (R283). -/
def halfZeroCommits (s : State) (core cycle : Nat) : Bool :=
  s.wgs.any fun x => x.2.core = core && x.2.threads.any fun t =>
    t.slot % 2 = 0 && (committers x.2 t).any fun l => (txOf x.2 l).since = cycle

/-- The commits of a workgroup that take a step. -/
def commits (s : State) (wid : Nat) (w : Workgroup) : List Instr :=
  w.threads.flatMap fun t => ((committers w t).filter fun l =>
    t.slot % 2 = 0 || !halfZeroCommits s w.core (txOf w l).since).map fun l => .txCommit wid l

/-- A commit that has held locks for 256 cycles and lacks one. -/
def lockTimeouts (s : State) (wid : Nat) (w : Workgroup) : List Instr :=
  w.tx.flatMap fun x => when (x.2.st = .committing && x.2.firstLock.any fun f => f + 256 ≤ s.cycle) (.commitLockTimeout wid x.1)

/-- Waits of a thread's paths that end in this cycle. -/
def pathEvents (cycle wid tix : Nat) (p : Path) : List Instr :=
  match p.wait with
  | .sleep u => when (u ≤ cycle) (.sleepExpire wid tix (lowestLane p.mask))
  | .gbar _ _ _ (some d) false => when (d ≤ cycle) (.gbarPhaseComplete wid tix (lowestLane p.mask))
  | _ => []

/-- Events of a thread. -/
def threadEvents (s : State) (wid : Nat) (w : Workgroup) (x : Thread × Nat) : List Instr :=
  let (t, tix) := x
  (t.flights.flatMap fun f => when (f.due.any fun d => d ≤ s.cycle) (.loadValueReturn wid tix f.fid))
    ++ t.paths.flatMap (pathEvents s.cycle wid tix)
    ++ when (!t.strand && promiseOn (launchOf s w.lid) && turnOver w t) (.fairnessTimerExpire wid tix)

/-- A burst that begins or ends; the cycles of a saved phase do not count (R207). -/
def phaseEvents (cycle : Nat) (o : PhaseOwner) (p : Option Phase) : List Instr :=
  match p with
  | none => []
  | some p => if p.held then [] else when (p.onset ≤ cycle && !p.running) (.phaseOnset o) ++ when (p.stop ≤ cycle) (.phaseBurstEnd o)

/-- A throttle that begins or ends. -/
def throttleEvents (cycle : Nat) (o : PhaseOwner) (phase : Option Phase) (ps : List Pad) : List Instr :=
  when (ps.any fun p => p.throttle.any fun h => h.ends ≤ cycle) (.throttleEnd o)
    ++ when (ps.any fun p => p.throttle.isNone && inExcess cycle phase p) (.throttleStart o)

/-- A hop that is due, or a wait at a point that is over (R44, R56, R57). -/
def hopEvents (s : State) (wid : Nat) (w : Workgroup) : List Instr :=
  match w.hop.map HopReq.form, w.hop.bind HopReq.due with
  | some .v, some d => when (d ≤ s.cycle) (.hopTToVComplete wid)
  | some .t, some d => when (d ≤ s.cycle) (.hopVToTComplete wid)
  | _, _ => match pointWait w with
    | none => []
    | some (pc, _) =>
      when ((pendingHop s w).any (fun h => h.form = .s) && gathered w pc) (.hopIntoSArrive wid)
        ++ when (pointLimit s w) (.eqpWaitLimit wid)

/-- Events of a workgroup. -/
def workgroupEvents (s : State) (x : Nat × Workgroup) : List Instr :=
  let (wid, w) := x
  when ((headDue s.cycle w.pad).isSome) (.matrixTokenComplete wid)
    ++ throttleEvents s.cycle (.workgroup wid) w.phase [w.pad]
    ++ phaseEvents s.cycle (.workgroup wid) w.phase
    ++ (w.threads.zipIdx.flatMap (threadEvents s wid w))
    ++ commits s wid w ++ lockTimeouts s wid w
    ++ (w.tx.flatMap fun t => when (watchdogDue s w t.1) (.txWatchdog wid t.1))
    ++ hopEvents s wid w

/-! ### Events of transfers, cores and regions -/

/-- Events of a transfer: a word lands, an acknowledgement of this module comes, or its fault is reported. -/
def transferEvents (s : State) (x : Nat × Transfer) : List Instr :=
  let (xid, t) := x
  when ((t.todo ≠ [] || t.ready ≠ []) && t.start ≤ s.cycle) (.transferWordLand xid (Config.landPick (s.tick + xid)))
    ++ when (0 < t.acks) (.transferAck xid)
    ++ when (stopDue t) (.transferStop xid)

/-- Entries of a coalescing buffer that are 4,096 cycles old. -/
def coreEvents (s : State) (x : Nat × Core) : List Instr :=
  x.2.cb.flatMap fun e => when (e.born + 4096 ≤ s.cycle) (.coalescingEntryAgeDrain x.1 e.line)

/-- Events of a region, whose clock has just ticked or not. -/
def regionEvents (s : State) (live : List Nat) (r : Nat) : List Instr :=
  let g := regionOf s r
  when (g.settling.any fun c => c ≤ s.cycle) (.regulatorVoltageReady r)
    ++ when (live.contains r && g.cycles % 65536 = 0) (.energyIntervalEnd r (Config.energy (s.tick + r)))
    ++ when (live.contains r && g.cycles % 4096 = 0) (.regionStepSelect r)

/-! ### Events of a load -/

/-- Events of a unit of a tile. -/
def unitEvents (s : State) (lid tile u : Nat) : List Instr :=
  let x := unitOf s lid tile u
  if !unitSends s lid tile u then []
  else if x.faulted then
    when (u = 29 && (x.columns ≠ [] || x.taken ≠ [] || x.owed ≠ [])) (.matrixNodeControl lid tile)
      ++ when (u = 31 && x.owed ≠ []) (.transferPortDescriptor lid tile)
  else when (markerReady s lid tile u) (.unitMarkerPass lid tile u) ++
    if u < 16 then []
    else if u < 18 then when (hasHead x 0 && hasHead x 1) (.steerFire lid tile u)
    else if u < 20 then when (mergeReady s lid tile u) (.mergeEmit lid tile u)
      ++ when (windowArms s lid tile u ≠ []) (.mergeWindowTake lid tile u)
    else if u = 20 then when (x.whole && (x.emit ≠ [] || hasHead x 1)) (.repeatEmit lid tile)
      ++ when (!x.whole && hasHead x 0) (.repeatStore lid tile)
    else if u < 25 then when ((agPass s lid tile u).isSome && outEmpty x 0) (.addressGeneratorOffset lid tile u)
    else if u < 29 then when (x.owed ≠ [] || x.access.any fun a => a.due ≤ s.cycle) (.memoryNodeCompletion lid tile u)
      ++ when (memReady s lid tile u) (.memoryNodeAccess lid tile u)
    else if u = 29 then when (x.columns ≠ [] || x.taken ≠ [] || x.owed ≠ [] || hasHead x 0) (.matrixNodeControl lid tile)
    else if u = 30 then when (2 ≤ (inOf x 0).toks.length) (.ownerUpdate lid tile)
    else when (x.owed ≠ [] || 16 ≤ x.taken.length || hasHead x 0) (.transferPortDescriptor lid tile)
      ++ when (hasHead x 1) (.transferPortExpect lid tile)

/-- Packets of a tile that move: staging registers first, then the router's ports in their order (R226). -/
def packetEvents (s : State) (lid tile : Nat) (t : FTile) : List Instr :=
  (t.units.zipIdx.flatMap fun (x, u) => (x.outs.zipIdx.flatMap fun (o, n) =>
      when (o.toks ≠ [] && o.filled < s.cycle) (.stagingSend lid tile u n)))
    ++ ((List.range 5).flatMap fun d => when (t.ports.getD d [] ≠ []) (.routerPacket lid tile d))
    ++ (let now := (regionOf s (regionOfCore t.core)).cycles
        when ((t.credits.any fun c => c.2.2 ≤ now) || t.units.any fun x => x.ins.any fun c => c.held.any fun r => r ≤ now)
          (.routerCreditReturn lid tile))

/-- Events of a load as a whole. -/
def loadEvents (s : State) (live : List Nat) (lid : Nat) (la : Launch) (f : Fabric) : List Instr :=
  let tiles := (f.tiles.zipIdx.filter fun t => live.contains (regionOfCore t.1.core))
  when (la.wantsFabric.isSome && (partOf s la.part).placing.isNone &&
      (match nextPick s la.part with | some (.rect l _) => l = lid | _ => false)) (.fabricLoadStream lid)
    ++ when (f.state = .loading && f.tiles ≠ [] && f.ackDue ≤ s.cycle) (.gatesOpen lid)
    ++ when (f.state = .loading && f.tiles ≠ [] && f.streamed + 4096 ≤ s.cycle) (.tileAckTimeout lid)
    ++ (if !fires f then [] else
        (tiles.flatMap fun t => (List.range 32).flatMap (unitEvents s lid t.2))
          ++ (tiles.flatMap fun t => packetEvents s lid t.2 t.1))
    ++ throttleEvents s.cycle (.launch lid) la.phase (f.tiles.map (·.pad))
    ++ when (f.state = .freezing && 64 ≤ f.quiet) (.freezeRundownEnd lid)
    ++ when (f.stopAt.isSome && 64 ≤ f.quiet) (.faultExtraction lid)
    ++ when (f.state = .running && f.drain.isNone && (outPoint la f).isSome) (.hopOutOfS lid)
    ++ when (drained s lid) (.hopOutDrainComplete lid)

/-- Events of a launch. -/
def launchEvents (s : State) (live : List Nat) (x : Nat × Launch) : List Instr :=
  let (lid, la) := x
  phaseEvents s.cycle (.launch lid) la.phase
    ++ when (la.parkedAt.any fun c => c + 65536 ≤ s.cycle || (wgsOf s lid).any fun w => w.2.threads.any (longWait s.cycle))
        (.hopIntoSAbandon lid)
    ++ when (la.form ≠ .s && la.fabric.all (fun f => f.need = []) && la.wantsFabric.any fun c => c + 4096 ≤ s.cycle)
        (.hopRectangleTimeout lid)
    ++ match la.fabric with
      | some f => loadEvents s live lid la f
      | none => []

/-! ### Events of a partition -/

/-- The event of a packet in the strip's stages, by its TYPE (R292). -/
def stageEvent (part : Nat) (p : StripPacket) : Instr :=
  match p.type with
  | 2 => .waitPacket part
  | 3 => .signalPacket part
  | 4 => .copyPacket part
  | 5 => .waitAllPacket part
  | _ => .launchPacket part

/-- Events of a strip: stage 7 first, then the others from the last to stage 0, and the wait table. -/
def stripEvents (s : State) (part : Nat) : List Instr :=
  let t := stripOf s part
  ((t.running.filter (·.done)).take 1).map (fun r => .packetComplete part r.queue r.index)
    ++ t.stages.reverse.map (fun x => stageEvent part x.2)
    ++ (if (partOf s part).res.cores = [] then []
        else if t.awake then [.stripArbitration part]
        else when (watchDue s part) (.stripWatchWake part))
    ++ t.parked.flatMap fun p => when ((parkedMet s part p).isSome) (.waitConditionMet part p.queue)

/-- Events of a partition. -/
def partitionEvents (s : State) (x : Nat × Partition) : List Instr :=
  let (part, p) := x
  let late := fun (n : Nat) => p.firstFailed.any fun f => f.2 + n ≤ s.cycle
  when (p.placing.any fun pl => pl.due ≤ s.cycle) (.gangPlacementComplete part)
    ++ when (p.placing.isNone && (p.firstFailed.isSome || distList s part ≠ [])) (.gangPlacement part)
    ++ when (late 65536 && !p.blocked) (.distributorListBlock part)
    ++ when (late 4096 || savingGangs s part ≠ [] || fabricSaving s part) (.preemptionTrigger part)
    ++ when p.next.isSome (.partitionApplyResources part)
    ++ stripEvents s part
    ++ when (p.escPending ≠ [] && ringRoom p) (.escalationRecordWrite part)

/-- The shared counters of a partition: slice, stacked-DRAM and link traffic, and idle energy (R325). A window of 2^20
cycles closes; what the traffic and the capacities are the spec does not say. -/
def counterEvents (s : State) : List Instr :=
  if s.cycle % 2 ^ 20 ≠ 0 then [] else
  (s.parts.filter fun x => x.2.res.cores ≠ []).flatMap fun x => (List.range 4).map fun n =>
    let used := if n = 3 then 0 else Config.counterUsed (4 * (s.tick + x.1) + n)
    .sharedCounterWindow x.1 n used (Config.counterCapacity n)

/-- What comes from outside in the cycle: region stops first, for a save or pre-emption of the cycle comes after them
(R432). -/
def outsideEvents (s : State) : List Instr :=
  let l := (s.inputs.filter fun x => x.1 ≤ s.cycle).map (·.2)
  let stop := fun (i : Instr) => match i with | .regionStop .. => true | _ => false
  l.filter stop ++ l.filter fun i => !stop i

/-- Every event that falls due in the cycle, in order: retirements, of a launch in S-form with its last load, and then
budgets, before what comes from outside (R26, R389, R432), then the rest. -/
def dueEvents (s : State) (live : List Nat) : List Instr :=
  (s.wgs.flatMap fun x => when (mayRetire s x.1 x.2) (.workgroupRetire x.1))
    ++ (s.launches.flatMap fun x => when (x.2.fabric.isSome && loadDone s x.1) (.fabricLoadComplete x.1))
    ++ (s.launches.flatMap fun x => when (spent x.2) (.launchBudget x.1))
    ++ outsideEvents s
    ++ (List.range 64).flatMap (regionEvents s live)
    ++ s.wgs.flatMap (workgroupEvents s)
    ++ s.transfers.flatMap (transferEvents s)
    ++ s.cores.flatMap (coreEvents s)
    ++ s.launches.flatMap (launchEvents s live)
    ++ s.parts.flatMap (partitionEvents s)
    ++ counterEvents s

/-! ### Issue slots (R27, R28, R135, R301, R302, R431) -/

/-- A thread that may issue in the cycle. -/
structure Claim where
  wid : Nat
  tix : Nat
  pri : Nat
  order : Nat
  w : Nat
  tgix : Nat
  strand : Bool
  vl : Nat
  gaveSlot : Bool
  starved : Bool
  deriving DecidableEq, Repr

/-- The path that holds the turn must give it to another one in the coming cycle. -/
def overtaken (s : State) (w : Workgroup) (t : Thread) : Bool :=
  turnOver w t && promiseOn (launchOf s w.lid) && 1 < (readyPaths t).length

/-- A thread's instruction may be issued. -/
def threadReady (s : State) (w : Workgroup) (t : Thread) : Bool :=
  t.halt.isNone && (t.stalled ≤ s.cycle || overtaken s w t) && (pickPath t).isSome && (!w.saving || holdsIrrev w t)

/-- The last instruction of a thread still occupies its issue slot; one that has not issued since its workgroup was placed
occupies none. -/
def occupies (cycle : Nat) (w : Workgroup) (t : Thread) : Bool := t.last ≠ w.placedAt && cycle < t.last + (32 * w.ntg + 63) / 64

/-- The claim of a thread. The override's FAIRT cycles count the module's cycles, as the issue slots do, where R27's
turns count the region's (the spec names no clock for R28: DESIGN CHOICE, log 57). -/
def claimOf (s : State) (wid tix : Nat) (w : Workgroup) (t : Thread) : Claim :=
  let la := launchOf s w.lid
  { wid := wid, tix := tix, pri := priOf la, order := la.order, w := w.w, tgix := t.tgix, strand := t.strand
    vl := 32 * w.ntg, gaveSlot := t.gaveSlot, starved := promiseOn la && t.last + w.fairt.toNat ≤ s.cycle }

/-- One claim comes before another: higher PRI, earlier dispatch, lower w, lower %tgix. -/
def claimBefore (a b : Claim) : Bool :=
  b.pri < a.pri || (a.pri = b.pri && (a.order < b.order || (a.order = b.order && (a.w < b.w || (a.w = b.w && a.tgix < b.tgix)))))

/-- The first claim of a list. -/
def firstClaim : List Claim → Option Claim
  | [] => none
  | c :: t => some (t.foldl (fun b x => if claimBefore x b then x else b) c)

/-- The claims on a half of a core. -/
def claimsOn (s : State) (core half : Nat) : List Claim :=
  (s.wgs.filter fun x => x.2.core = core).flatMap fun (wid, w) =>
    w.threads.zipIdx.filterMap fun (t, tix) =>
      if t.slot % 2 = half && threadReady s w t then some (claimOf s wid tix w t) else none

/-- A strand whose instruction still occupies the halves of a core: ceil(VL / 64) cycles from its issue (R29, R301). -/
def strandOn (s : State) (core half : Nat) : Option Claim :=
  (s.wgs.filter fun x => x.2.core = core).findSome? fun (wid, w) =>
    w.threads.zipIdx.findSome? fun (t, tix) =>
      if t.strand && t.slot % 2 = half && occupies s.cycle w t then some (claimOf s wid tix w t) else none

/-- The claim that a half serves: a strand that gave up its slot comes after any other. -/
def pickClaim (l : List Claim) : Option Claim :=
  match firstClaim (l.filter (!·.gaveSlot)) with
  | some c => some c
  | none => firstClaim l

/-- The strand that occupies a half of a core in a cycle: one whose instruction goes on, or the one that the half
chooses in this cycle. -/
def strandAt (s : State) (core half : Nat) : Option Claim :=
  match strandOn s core half with
  | some c => some c
  | none => (pickClaim (claimsOn s core half)).filter (·.strand)

/-- The claim that a half of a core serves, if any: a strand of VL 64 or more homed on the other half takes this half's
slot in each of its issue cycles, the first one too, unless a claim here stands higher (R301). -/
def serveHalf (s : State) (core half : Nat) : Option Claim :=
  if (strandOn s core half).isSome then none
  else match pickClaim (claimsOn s core half), strandAt s core (1 - half) with
    | some c, some o => if 64 ≤ o.vl && !claimBefore c o then none else some c
    | r, _ => r

/-- A strand passed over after `yield` has given up the slot once. -/
def passOver (s : State) (core half : Nat) (chosen : Claim) : State :=
  (claimsOn s core half).foldl (fun s c =>
    if c.gaveSlot && (claimBefore c chosen || (c.wid = chosen.wid && c.tix = chosen.tix)) then
      modTh s c.wid c.tix fun t => { t with gaveSlot := false } else s) s

/-- The half of a core that an item issues on. -/
def halfOf (s : State) : IssueItem → Option (Nat × Nat)
  | .thread wid tix => (wgOf s wid).bind fun w => (w.threads[tix]?).map fun t => (w.core, t.slot % 2)
  | .slot .. | .detector _ => none

/-- Put an item into a cycle's issue at its half's place: the halves issue in ascending order, half 0 of a core first
(R169, R180, R204). -/
def placeItem (s : State) (place : Nat × Nat) (x : IssueItem) : List IssueItem → List IssueItem
  | [] => [x]
  | i :: t =>
    let later := match halfOf s i with
      | some p => decide (place.1 < p.1) || (place.1 = p.1 && place.2 < p.2)
      | none => match i with | .slot .. | .detector _ => true | .thread .. => false
    if halfOf s i = some place then x :: t.filter fun j => halfOf s j ≠ some place
    else if later then x :: i :: t.filter fun j => halfOf s j ≠ some place
    else i :: placeItem s place x t

/-- Of the starved claims of a half the one that has waited longest, and of those the first in the order of R301 (the spec
does not say which of several is first: DESIGN CHOICE, log 94). -/
def starvedOn (s : State) (core half : Nat) : Option Claim :=
  match (claimsOn s core half).filter (·.starved) with
  | [] => none
  | c :: t =>
    let last := fun (c : Claim) => (((wgOf s c.wid).bind (·.threads[c.tix]?)).map (·.last)).getD 0
    some (t.foldl (fun b x => if last x < last b || (last x = last b && claimBefore x b) then x else b) c)

/-- The other half of a core once an override has taken a slot: a strand of VL 64 or more takes it too, unless a claim there
stands higher or has an override of its own; any other claim leaves it to that half's own choice, which the strand
that has lost its slot no longer keeps back (R28, R301). -/
def settleOther (s : State) (core half : Nat) (c : Claim) : State :=
  let place := (core, half)
  let own := pickClaim (claimsOn s core half)
  if c.strand && 64 ≤ c.vl then
    if (starvedOn s core half).isSome || own.any (claimBefore · c) then s
    else { s with issue := s.issue.filter fun j => halfOf s j ≠ some place }
  else if (s.issue.any fun j => halfOf s j = some place) || (strandOn s core half).isSome then s
  else match own with
    | some o => { s with issue := placeItem s place (.thread o.wid o.tix) s.issue }
    | none => s

/-- FAIRNESS_OVERRIDE (R28): a ready TG that has not issued for FAIRT cycles takes its half's issue slot. -/
def execFairnessOverride (wid tix : Nat) (s : State) : Out :=
  match wgOf s wid with
  | none => .next s
  | some w =>
    match w.threads[tix]? with
    | none => .next s
    | some t =>
      let c := claimOf s wid tix w t
      if !threadReady s w t || !c.starved then .next s
      else
        .next (settleOther { s with issue := placeItem s (w.core, t.slot % 2) (.thread wid tix) s.issue } w.core
          (1 - t.slot % 2) c)

/-- The cores with workgroups that issue in a cycle. -/
def issueCores (s : State) (live : List Nat) : List Nat :=
  (s.wgs.foldl (fun l x => insertGang x.2.core l) []).filter fun c => live.contains (regionOfCore c) && !isStopped s c

/-- An element of a load fires where a trigger holds: a source only while the gates are open (R403, R417). -/
def elementFires (f : Fabric) (tile e : Nat) : Bool :=
  let u := (tileOf f tile).units.getD e noUnit
  !(u.faulted || u.stopped || firingOver f tile e) && (inputsOf f tile e ≠ [] || gatesOpen f)

/-- The slots that elements of a load fire in a cycle. -/
def firings (s : State) (live : List Nat) (x : Nat × Launch) : List IssueItem :=
  match x.2.fabric with
  | none => []
  | some f =>
    if !fires f then [] else
    (f.tiles.zipIdx.filter fun t => live.contains (regionOfCore t.1.core) && !isStopped s t.1.core).flatMap fun (t, i) =>
      (List.range 16).filterMap fun e =>
        if elementFires f i e then (pickSlot (t.units.getD e noUnit)).map fun n => .slot x.1 i e n else none

/-- Count the cycle for triggers that hold (R220). -/
def countTriggers (s : State) (live : List Nat) : State :=
  let tile := fun (f : Fabric) (t : FTile) (i : Nat) =>
    if live.contains (regionOfCore t.core) then
      { t with units := t.units.zipIdx.map fun (u, e) => countHeld (!isStopped s t.core && elementFires f i e) u } else t
  let load := fun (f : Fabric) => if fires f then { f with tiles := f.tiles.zipIdx.map fun (t, i) => tile f t i } else f
  { s with launches := s.launches.map fun x => (x.1, { x.2 with fabric := x.2.fabric.map load }) }

/-! ### What stalls cost (R51) -/

/-- Count issue slots or firings of a launch, and those lost, under a key. -/
def addStall (lid key lost all : Nat) (s : State) : State :=
  if all = 0 then s else
  modLaunch s lid fun la =>
    let o := tget (0, 0) la.stall key
    { la with stall := tset la.stall key (o.1 + lost, o.2 + all) }

/-- The TGs and strands that stand on issue slots of ticking regions: launch, core, half, and whether it can issue or its
instruction still does. -/
def onSlots (s : State) (live : List Nat) : List (Nat × Nat × Nat × Bool) :=
  (s.wgs.filter fun x => live.contains (regionOfCore x.2.core)).flatMap fun x =>
    (x.2.threads.filter fun t => !retired x.2 t).map fun t =>
      (x.2.lid, x.2.core, t.slot % 2, threadReady s x.2 t || occupies s.cycle x.2 t)

/-- Count the cycle's issue slots and firings of every launch: a half's slot is lost where a launch stands on the half and
none of its TGs there can issue, a firing where an element in use fires no slot (the spec defines neither: DESIGN CHOICE,
log 95). -/
def countStalls (s : State) (live : List Nat) : State :=
  let xs := onSlots s live
  let s := ((xs.map fun x => (x.1, x.2.1, x.2.2.1)).eraseDups).foldl (fun s (lid, core, half) =>
    let free := xs.any fun x => x.1 = lid && x.2.1 = core && x.2.2.1 = half && x.2.2.2
    addStall lid (regionOfCore core) (if free then 0 else 1) 1 s) s
  s.launches.foldl (fun s x => match x.2.fabric with
    | none => s
    | some f =>
      if !fires f then s else
      (f.tiles.zipIdx.filter fun t => live.contains (regionOfCore t.1.core)).foldl (fun s (t, i) =>
        let used := (List.range 16).filter fun e => unitInUse f i e
        let lost := used.filter fun e => (pickSlot (t.units.getD e noUnit)).isNone
        addStall x.1 64 lost.length used.length s) s) s

/-- The detectors whose count this cycle may bring to 4,096 (R420). -/
def detectors (s : State) (live : List Nat) : List IssueItem :=
  (s.launches.filter fun x => x.2.fabric.any fun f => fires f && live.contains (originRegion f) && 4095 ≤ f.quiet).map
    fun x => .detector x.1

/-- Choose what issues: for each half one thread, with the overrides as events ahead, then the elements' slots. -/
def chooseIssue (s : State) (live : List Nat) : State :=
  let halves := (issueCores s live).flatMap fun c => [(c, 0), (c, 1)]
  let (s, items, starved) := halves.foldl (fun (s, items, starved) (c, h) =>
    let starved := match starvedOn s c h with
      | some x => if (strandOn s c h).isSome then starved else starved ++ [Instr.fairnessOverride x.wid x.tix]
      | none => starved
    match serveHalf s c h with
    | some x => (passOver s c h x, items ++ [IssueItem.thread x.wid x.tix], starved)
    | none => (s, items, starved)) (s, ([] : List IssueItem), ([] : List Instr))
  let slots := s.launches.flatMap (firings s live)
  { countStalls (countTriggers s live) live with issue := items ++ slots ++ detectors s live, agenda := s.agenda ++ starved }

/-- The boot ROM of a module whose boot has failed enables the host link with physical function 0 alone, and recovers
(R440). -/
def recover (s : State) : State :=
  if s.boot.recovery && !s.linkEnabled then
    { s with boot := { s.boot with state := 3 }, linkEnabled := true, linkUp := true }
  else s

/-- ISSUE_CYCLE (R301): the next cycle begins. Clocks, matrix units, timers and detectors advance; what falls due is
put on the agenda; and each half of each core, and each element, chooses what it issues. -/
def execIssueCycle (s : State) : Out :=
  if s.frozen || !s.powered then .next s
  else
    let live := tickingRegions s
    let s := landHeldWords (landWrites (retryTraces (walkAgain (outsideWrites (recover (nextCycle s))))))
    let s := countBudgets (countTurns (countSlots s live) live)
    let s := ((matrixCores s).filter fun c => live.contains (regionOfCore c)).foldl stepMatrix s
    let lids := s.launches.map (·.1)
    let s := lids.foldl (fun s lid => stopMarked (feedAll (countQuiet s live lid) lid) lid) s
    let s := pollWaits s
    let due := dueEvents s live
    let s := { s with agenda := due, inputs := s.inputs.filter fun x => s.cycle < x.1 }
    .next (ticked (chooseIssue s live))

end Sys2Proof.Machine
end

