-- ==== Sys2Proof/Machine/Dispatch.lean ====
section
/-! DEFINITION. One arm for each constructor of `Instr`. -/

namespace Sys2Proof.Machine

def exec (i : Instr) (s : State) : Host.Outcome State Fault Refusal :=
  match i with
  | .nop f => Sys2Proof.Machine.execNop f s
  | .add f => Sys2Proof.Machine.execAdd f s
  | .sub f => Sys2Proof.Machine.execSub f s
  | .mul f => Sys2Proof.Machine.execMul f s
  | .mulhi f => Sys2Proof.Machine.execMulhi f s
  | .mad f => Sys2Proof.Machine.execMad f s
  | .div f => Sys2Proof.Machine.execDiv f s
  | .rem f => Sys2Proof.Machine.execRem f s
  | .min f => Sys2Proof.Machine.execMin f s
  | .max f => Sys2Proof.Machine.execMax f s
  | .abs f => Sys2Proof.Machine.execAbs f s
  | .neg f => Sys2Proof.Machine.execNeg f s
  | .and f => Sys2Proof.Machine.execAnd f s
  | .or f => Sys2Proof.Machine.execOr f s
  | .xor f => Sys2Proof.Machine.execXor f s
  | .andn f => Sys2Proof.Machine.execAndn f s
  | .not f => Sys2Proof.Machine.execNot f s
  | .shl f => Sys2Proof.Machine.execShl f s
  | .shr f => Sys2Proof.Machine.execShr f s
  | .sar f => Sys2Proof.Machine.execSar f s
  | .rol f => Sys2Proof.Machine.execRol f s
  | .bfe f => Sys2Proof.Machine.execBfe f s
  | .bfi f => Sys2Proof.Machine.execBfi f s
  | .popc f => Sys2Proof.Machine.execPopc f s
  | .clz f => Sys2Proof.Machine.execClz f s
  | .ctz f => Sys2Proof.Machine.execCtz f s
  | .brev f => Sys2Proof.Machine.execBrev f s
  | .sel f => Sys2Proof.Machine.execSel f s
  | .mov f => Sys2Proof.Machine.execMov f s
  | .cmp f => Sys2Proof.Machine.execCmp f s
  | .movi f => Sys2Proof.Machine.execMovi f s
  | .moviLabel f => Sys2Proof.Machine.execMoviLabel f s
  | .movhi f => Sys2Proof.Machine.execMovhi f s
  | .addi f => Sys2Proof.Machine.execAddi f s
  | .andi f => Sys2Proof.Machine.execAndi f s
  | .ori f => Sys2Proof.Machine.execOri f s
  | .xori f => Sys2Proof.Machine.execXori f s
  | .cmpiSigned f => Sys2Proof.Machine.execCmpiSigned f s
  | .cmpiUnsigned f => Sys2Proof.Machine.execCmpiUnsigned f s
  | .cmpiEquality f => Sys2Proof.Machine.execCmpiEquality f s
  | .lea f => Sys2Proof.Machine.execLea f s
  | .pand f => Sys2Proof.Machine.execPand f s
  | .por f => Sys2Proof.Machine.execPor f s
  | .pxor f => Sys2Proof.Machine.execPxor f s
  | .pnot f => Sys2Proof.Machine.execPnot f s
  | .shfl f => Sys2Proof.Machine.execShfl f s
  | .vote f => Sys2Proof.Machine.execVote f s
  | .redux f => Sys2Proof.Machine.execRedux f s
  | .bcast f => Sys2Proof.Machine.execBcast f s
  | .popk f => Sys2Proof.Machine.execPopk f s
  | .fadd f => Sys2Proof.Machine.execFadd f s
  | .fsub f => Sys2Proof.Machine.execFsub f s
  | .fmul f => Sys2Proof.Machine.execFmul f s
  | .fma f => Sys2Proof.Machine.execFma f s
  | .fdiv f => Sys2Proof.Machine.execFdiv f s
  | .fmin f => Sys2Proof.Machine.execFmin f s
  | .fmax f => Sys2Proof.Machine.execFmax f s
  | .fabs f => Sys2Proof.Machine.execFabs f s
  | .fneg f => Sys2Proof.Machine.execFneg f s
  | .fcmp f => Sys2Proof.Machine.execFcmp f s
  | .frcp f => Sys2Proof.Machine.execFrcp f s
  | .frsq f => Sys2Proof.Machine.execFrsq f s
  | .fsqrt f => Sys2Proof.Machine.execFsqrt f s
  | .fexp2 f => Sys2Proof.Machine.execFexp2 f s
  | .flog2 f => Sys2Proof.Machine.execFlog2 f s
  | .fsinpi f => Sys2Proof.Machine.execFsinpi f s
  | .fcospi f => Sys2Proof.Machine.execFcospi f s
  | .ftanh f => Sys2Proof.Machine.execFtanh f s
  | .cvt f => Sys2Proof.Machine.execCvt f s
  | .pack f => Sys2Proof.Machine.execPack f s
  | .unpack f => Sys2Proof.Machine.execUnpack f s
  | .dot2 f => Sys2Proof.Machine.execDot2 f s
  | .dot4 f => Sys2Proof.Machine.execDot4 f s
  | .ld f => Sys2Proof.Machine.execLd f s
  | .loadValueReturn wid tix fid => Sys2Proof.Machine.execLoadValueReturn wid tix fid s
  | .st f => Sys2Proof.Machine.execSt f s
  | .atom f => Sys2Proof.Machine.execAtom f s
  | .red f => Sys2Proof.Machine.execRed f s
  | .prefetch f => Sys2Proof.Machine.execPrefetch f s
  | .cctlFlush f => Sys2Proof.Machine.execCctlFlush f s
  | .cctlInv f => Sys2Proof.Machine.execCctlInv f s
  | .fence f => Sys2Proof.Machine.execFence f s
  | .barInit f => Sys2Proof.Machine.execBarInit f s
  | .barArrive f => Sys2Proof.Machine.execBarArrive f s
  | .barWait f => Sys2Proof.Machine.execBarWait f s
  | .barSync f => Sys2Proof.Machine.execBarSync f s
  | .gbar f => Sys2Proof.Machine.execGbar f s
  | .gbarPhaseComplete wid tix lane => Sys2Proof.Machine.execGbarPhaseComplete wid tix lane s
  | .txbegin f => Sys2Proof.Machine.execTxbegin f s
  | .txend f => Sys2Proof.Machine.execTxend f s
  | .txCommit wid lane => Sys2Proof.Machine.execTxCommit wid lane s
  | .commitLockTimeout wid lane => Sys2Proof.Machine.execCommitLockTimeout wid lane s
  | .txabort f => Sys2Proof.Machine.execTxabort f s
  | .txtest f => Sys2Proof.Machine.execTxtest f s
  | .txWatchdog wid lane => Sys2Proof.Machine.execTxWatchdog wid lane s
  | .bra f => Sys2Proof.Machine.execBra f s
  | .split f => Sys2Proof.Machine.execSplit f s
  | .join f => Sys2Proof.Machine.execJoin f s
  | .call f => Sys2Proof.Machine.execCall f s
  | .ret f => Sys2Proof.Machine.execRet f s
  | .yield f => Sys2Proof.Machine.execYield f s
  | .sleep f => Sys2Proof.Machine.execSleep f s
  | .sleepExpire wid tix lane => Sys2Proof.Machine.execSleepExpire wid tix lane s
  | .exit f => Sys2Proof.Machine.execExit f s
  | .workgroupRetire wid => Sys2Proof.Machine.execWorkgroupRetire wid s
  | .mma f => Sys2Proof.Machine.execMma f s
  | .zld f => Sys2Proof.Machine.execZld f s
  | .zst f => Sys2Proof.Machine.execZst f s
  | .zrd f => Sys2Proof.Machine.execZrd f s
  | .zwr f => Sys2Proof.Machine.execZwr f s
  | .zclr f => Sys2Proof.Machine.execZclr f s
  | .cbld f => Sys2Proof.Machine.execCbld f s
  | .matrixTokenComplete wid => Sys2Proof.Machine.execMatrixTokenComplete wid s
  | .xfer f => Sys2Proof.Machine.execXfer f s
  | .transferWordLand xid pick => Sys2Proof.Machine.execTransferWordLand xid pick s
  | .transferAck xid => Sys2Proof.Machine.execTransferAck xid s
  | .transferStop xid => Sys2Proof.Machine.execTransferStop xid s
  | .expect f => Sys2Proof.Machine.execExpect f s
  | .waitc f => Sys2Proof.Machine.execWaitc f s
  | .xstat f => Sys2Proof.Machine.execXstat f s
  | .phase f => Sys2Proof.Machine.execPhase f s
  | .phaseClr f => Sys2Proof.Machine.execPhaseClr f s
  | .phaseOnset owner => Sys2Proof.Machine.execPhaseOnset owner s
  | .phaseBurstEnd owner => Sys2Proof.Machine.execPhaseBurstEnd owner s
  | .regulatorVoltageReady region => Sys2Proof.Machine.execRegulatorVoltageReady region s
  | .getsr f => Sys2Proof.Machine.execGetsr f s
  | .setsr f => Sys2Proof.Machine.execSetsr f s
  | .trap f => Sys2Proof.Machine.execTrap f s
  | .brk f => Sys2Proof.Machine.execBrk f s
  | .rett f => Sys2Proof.Machine.execRett f s
  | .rettNext f => Sys2Proof.Machine.execRettNext f s
  | .eqp f => Sys2Proof.Machine.execEqp f s
  | .eqpWaitLimit wid => Sys2Proof.Machine.execEqpWaitLimit wid s
  | .hop f => Sys2Proof.Machine.execHop f s
  | .launch f => Sys2Proof.Machine.execLaunch f s
  | .sNop f => Sys2Proof.Machine.execSNop f s
  | .sMov f => Sys2Proof.Machine.execSMov f s
  | .sAdd f => Sys2Proof.Machine.execSAdd f s
  | .sSub f => Sys2Proof.Machine.execSSub f s
  | .sMul f => Sys2Proof.Machine.execSMul f s
  | .sMulhi f => Sys2Proof.Machine.execSMulhi f s
  | .sMin f => Sys2Proof.Machine.execSMin f s
  | .sMax f => Sys2Proof.Machine.execSMax f s
  | .sAbs f => Sys2Proof.Machine.execSAbs f s
  | .sNeg f => Sys2Proof.Machine.execSNeg f s
  | .sAnd f => Sys2Proof.Machine.execSAnd f s
  | .sOr f => Sys2Proof.Machine.execSOr f s
  | .sXor f => Sys2Proof.Machine.execSXor f s
  | .sAndn f => Sys2Proof.Machine.execSAndn f s
  | .sNot f => Sys2Proof.Machine.execSNot f s
  | .sShl f => Sys2Proof.Machine.execSShl f s
  | .sShr f => Sys2Proof.Machine.execSShr f s
  | .sSar f => Sys2Proof.Machine.execSSar f s
  | .sPopc f => Sys2Proof.Machine.execSPopc f s
  | .sClz f => Sys2Proof.Machine.execSClz f s
  | .sCmpeq f => Sys2Proof.Machine.execSCmpeq f s
  | .sCmpne f => Sys2Proof.Machine.execSCmpne f s
  | .sCmplt f => Sys2Proof.Machine.execSCmplt f s
  | .sCmple f => Sys2Proof.Machine.execSCmple f s
  | .sCmpltu f => Sys2Proof.Machine.execSCmpltu f s
  | .sCmpleu f => Sys2Proof.Machine.execSCmpleu f s
  | .sDiv f => Sys2Proof.Machine.execSDiv f s
  | .sRem f => Sys2Proof.Machine.execSRem f s
  | .sFadd f => Sys2Proof.Machine.execSFadd f s
  | .sFsub f => Sys2Proof.Machine.execSFsub f s
  | .sFmul f => Sys2Proof.Machine.execSFmul f s
  | .sFmin f => Sys2Proof.Machine.execSFmin f s
  | .sFmax f => Sys2Proof.Machine.execSFmax f s
  | .sFabs f => Sys2Proof.Machine.execSFabs f s
  | .sFneg f => Sys2Proof.Machine.execSFneg f s
  | .sFcmpeq f => Sys2Proof.Machine.execSFcmpeq f s
  | .sFcmplt f => Sys2Proof.Machine.execSFcmplt f s
  | .sFcmple f => Sys2Proof.Machine.execSFcmple f s
  | .sFrcp f => Sys2Proof.Machine.execSFrcp f s
  | .sFrsq f => Sys2Proof.Machine.execSFrsq f s
  | .sFsqrt f => Sys2Proof.Machine.execSFsqrt f s
  | .sFexp2 f => Sys2Proof.Machine.execSFexp2 f s
  | .sFlog2 f => Sys2Proof.Machine.execSFlog2 f s
  | .sFtanh f => Sys2Proof.Machine.execSFtanh f s
  | .sCvtfi f => Sys2Proof.Machine.execSCvtfi f s
  | .sCvtif f => Sys2Proof.Machine.execSCvtif f s
  | .sFdiv f => Sys2Proof.Machine.execSFdiv f s
  | .sMark f => Sys2Proof.Machine.execSMark f s
  | .stagingSend lid tile unit out => Sys2Proof.Machine.execStagingSend lid tile unit out s
  | .routerPacket lid tile dir => Sys2Proof.Machine.execRouterPacket lid tile dir s
  | .routerCreditReturn lid tile => Sys2Proof.Machine.execRouterCreditReturn lid tile s
  | .unitMarkerPass lid tile unit => Sys2Proof.Machine.execUnitMarkerPass lid tile unit s
  | .steerFire lid tile unit => Sys2Proof.Machine.execSteerFire lid tile unit s
  | .mergeWindowTake lid tile unit => Sys2Proof.Machine.execMergeWindowTake lid tile unit s
  | .mergeEmit lid tile unit => Sys2Proof.Machine.execMergeEmit lid tile unit s
  | .repeatStore lid tile => Sys2Proof.Machine.execRepeatStore lid tile s
  | .repeatEmit lid tile => Sys2Proof.Machine.execRepeatEmit lid tile s
  | .addressGeneratorOffset lid tile unit => Sys2Proof.Machine.execAddressGeneratorOffset lid tile unit s
  | .memoryNodeAccess lid tile unit => Sys2Proof.Machine.execMemoryNodeAccess lid tile unit s
  | .memoryNodeCompletion lid tile unit => Sys2Proof.Machine.execMemoryNodeCompletion lid tile unit s
  | .matrixNodeControl lid tile => Sys2Proof.Machine.execMatrixNodeControl lid tile s
  | .ownerUpdate lid tile => Sys2Proof.Machine.execOwnerUpdate lid tile s
  | .transferPortDescriptor lid tile => Sys2Proof.Machine.execTransferPortDescriptor lid tile s
  | .transferPortExpect lid tile => Sys2Proof.Machine.execTransferPortExpect lid tile s
  | .fabricLoadComplete lid => Sys2Proof.Machine.execFabricLoadComplete lid s
  | .freezeRundownEnd lid => Sys2Proof.Machine.execFreezeRundownEnd lid s
  | .fabricStalled lid => Sys2Proof.Machine.execFabricStalled lid s
  | .faultExtraction lid => Sys2Proof.Machine.execFaultExtraction lid s
  | .fairnessTimerExpire wid tix => Sys2Proof.Machine.execFairnessTimerExpire wid tix s
  | .fairnessOverride wid tix => Sys2Proof.Machine.execFairnessOverride wid tix s
  | .issueCycle => Sys2Proof.Machine.execIssueCycle s
  | .coalescingEntryAgeDrain core line => Sys2Proof.Machine.execCoalescingEntryAgeDrain core line s
  | .percolatorIntervalEnd lid region measured => Sys2Proof.Machine.execPercolatorIntervalEnd lid region measured s
  | .hopTToVComplete wid => Sys2Proof.Machine.execHopTToVComplete wid s
  | .hopVToTComplete wid => Sys2Proof.Machine.execHopVToTComplete wid s
  | .hopIntoSArrive wid => Sys2Proof.Machine.execHopIntoSArrive wid s
  | .hopIntoSAbandon lid => Sys2Proof.Machine.execHopIntoSAbandon lid s
  | .hopRectangleTimeout lid => Sys2Proof.Machine.execHopRectangleTimeout lid s
  | .fabricLoadStream lid => Sys2Proof.Machine.execFabricLoadStream lid s
  | .gatesOpen lid => Sys2Proof.Machine.execGatesOpen lid s
  | .tileAckTimeout lid => Sys2Proof.Machine.execTileAckTimeout lid s
  | .hopOutOfS lid => Sys2Proof.Machine.execHopOutOfS lid s
  | .hopOutDrainComplete lid => Sys2Proof.Machine.execHopOutDrainComplete lid s
  | .preemptionTrigger part => Sys2Proof.Machine.execPreemptionTrigger part s
  | .distributorListBlock part => Sys2Proof.Machine.execDistributorListBlock part s
  | .gangPlacement part => Sys2Proof.Machine.execGangPlacement part s
  | .gangPlacementComplete part => Sys2Proof.Machine.execGangPlacementComplete part s
  | .launchBudget lid => Sys2Proof.Machine.execLaunchBudget lid s
  | .stripWatchWake part => Sys2Proof.Machine.execStripWatchWake part s
  | .stripArbitration part => Sys2Proof.Machine.execStripArbitration part s
  | .launchPacket part => Sys2Proof.Machine.execLaunchPacket part s
  | .waitPacket part => Sys2Proof.Machine.execWaitPacket part s
  | .signalPacket part => Sys2Proof.Machine.execSignalPacket part s
  | .copyPacket part => Sys2Proof.Machine.execCopyPacket part s
  | .waitAllPacket part => Sys2Proof.Machine.execWaitAllPacket part s
  | .waitConditionMet part queue => Sys2Proof.Machine.execWaitConditionMet part queue s
  | .packetComplete part queue index => Sys2Proof.Machine.execPacketComplete part queue index s
  | .escalationRecordWrite part => Sys2Proof.Machine.execEscalationRecordWrite part s
  | .escResume part record => Sys2Proof.Machine.execEscResume part record s
  | .escResumeNext part record => Sys2Proof.Machine.execEscResumeNext part record s
  | .escEndLaunch part record => Sys2Proof.Machine.execEscEndLaunch part record s
  | .partitionApplyResources part => Sys2Proof.Machine.execPartitionApplyResources part s
  | .partitionReset part => Sys2Proof.Machine.execPartitionReset part s
  | .translationInvalidation part => Sys2Proof.Machine.execTranslationInvalidation part s
  | .registerWrite target value => Sys2Proof.Machine.execRegisterWrite target value s
  | .badd region amount => Sys2Proof.Machine.execBadd region amount s
  | .regionStepSelect region => Sys2Proof.Machine.execRegionStepSelect region s
  | .throttleStart owner => Sys2Proof.Machine.execThrottleStart owner s
  | .throttleEnd owner => Sys2Proof.Machine.execThrottleEnd owner s
  | .energyIntervalEnd region energy => Sys2Proof.Machine.execEnergyIntervalEnd region energy s
  | .sharedCounterWindow part counter used capacity => Sys2Proof.Machine.execSharedCounterWindow part counter used capacity s
  | .powerOverloadResponse above => Sys2Proof.Machine.execPowerOverloadResponse above s
  | .overcurrentResponse => Sys2Proof.Machine.execOvercurrentResponse s
  | .regionStop region kind => Sys2Proof.Machine.execRegionStop region kind s
  | .regionRestart region holds => Sys2Proof.Machine.execRegionRestart region holds s
  | .inputUndervoltage => Sys2Proof.Machine.execInputUndervoltage s
  | .thermalRescale die capped => Sys2Proof.Machine.execThermalRescale die capped s
  | .stackedDramBypass die hot => Sys2Proof.Machine.execStackedDramBypass die hot s
  | .hostRead place bytes => Sys2Proof.Machine.execHostRead place bytes s
  | .hostWrite place data poisoned => Sys2Proof.Machine.execHostWrite place data poisoned s
  | .hostReadTimeout wid tix lane => Sys2Proof.Machine.execHostReadTimeout wid tix lane s
  | .linkDown => Sys2Proof.Machine.execLinkDown s
  | .linkUp => Sys2Proof.Machine.execLinkUp s
  | .flrVf part => Sys2Proof.Machine.execFlrVf part s
  | .flrPf0 => Sys2Proof.Machine.execFlrPf0 s
  | .peerWordReceive word => Sys2Proof.Machine.execPeerWordReceive word s
  | .peerPortDown port => Sys2Proof.Machine.execPeerPortDown port s
  | .debugResume core slot => Sys2Proof.Machine.execDebugResume core slot s
  | .debugResumeNext core slot => Sys2Proof.Machine.execDebugResumeNext core slot s
  | .freeze => Sys2Proof.Machine.execFreeze s
  | .attestationRequest part nonce => Sys2Proof.Machine.execAttestationRequest part nonce s
  | .moduleReset => Sys2Proof.Machine.execModuleReset s
  | .powerOnBoot images trained strips => Sys2Proof.Machine.execPowerOnBoot images trained strips s
  | .recoveryBoot image => Sys2Proof.Machine.execRecoveryBoot image s
  | .softError target uncorrectable => Sys2Proof.Machine.execSoftError target uncorrectable s
  | .temperatureBandChange region band => Sys2Proof.Machine.execTemperatureBandChange region band s
  | .overcurrentRelease => Sys2Proof.Machine.execOvercurrentRelease s
  | .peerPortUp port => Sys2Proof.Machine.execPeerPortUp port s
  | .flitCrcFailure port retrainingFails => Sys2Proof.Machine.execFlitCrcFailure port retrainingFails s
  | .peerMemoryAccess addr access => Sys2Proof.Machine.execPeerMemoryAccess addr access s

end Sys2Proof.Machine
end

