-- ==== Sys2Proof/Machine/Sequence.lean ====
section
/-! DEFINITION. What a step executes: an event that is due, an instruction that a path or an element issues, or the
next cycle; and a state in which a given word is issued next. -/

namespace Sys2Proof.Machine

/-- What a step does: execute an instruction in a state, or only change the state. -/
inductive Act where
  | run (i : Instr) (s : State)
  | ended (s : State)

/-- The input that a module whose clocks stand, or that is off, still takes: reset, or power-on (R331, R345). -/
def wakes (s : State) (i : Instr) : Bool :=
  match i with
  | .moduleReset => s.powered
  | .powerOnBoot .. => !s.powered
  | _ => false

/-- A path of a thread issues: its word is fetched and decoded (R375 stages 1 to 4). -/
def issueThread (s : State) (wid tix : Nat) : Act :=
  match fetch s wid tix with
  | .ended s => .ended s
  | .word w s =>
    match decodeTV w with
    | .ok i => .run i { s with cur := .thread wid tix w }
    | .error e => .ended (refuseWord s wid tix w e)

/-- The word of a slot of an element. -/
def slotWord (s : State) (lid tile elem slot : Nat) : Word := ((unitOf s lid tile elem).slots.getD slot (0, 0)).1

/-- A slot of an element fires, if the load still fires. -/
def issueSlot (s : State) (lid tile elem slot : Nat) : Act :=
  if !unitActs s lid tile elem then .ended s
  else match decodeSlot (slotWord s lid tile elem slot) with
    | .ok i => .run i { s with cur := .slot lid tile elem slot }
    | .error _ => .ended s

/-- What the next step does. -/
def nextAct (s : State) : Act :=
  if s.frozen || !s.powered then
    match s.inputs.dropWhile fun x => !wakes s x.2 with
    | (_, i) :: rest => .run i { s with inputs := rest, cur := .none }
    | [] => .ended s
  else match s.agenda with
    | i :: rest => .run i { s with agenda := rest, cur := .none }
    | [] => match s.issue with
      | [] => .run .issueCycle { s with cur := .none }
      | .thread wid tix :: rest => issueThread { s with issue := rest } wid tix
      | .detector lid :: rest => .run (.fabricStalled lid) { s with issue := rest, cur := .none }
      | .slot lid tile elem slot :: rest => issueSlot { s with issue := rest } lid tile elem slot

/-! ### A word that issues next -/

/-- The header of an image of two words, with every optional resource (R39). -/
def probeHeader : List Dbl :=
  [BitVec.ofNat 64 (2 ^ 51 + 2 ^ 48), BitVec.ofNat 64 (0x10000 * 2 ^ 25 + 1 * 2 ^ 18 + 1 * 2 ^ 13 + 8 * 2 ^ 9 + 255),
   BitVec.ofNat 64 (16 * 2 ^ 32 + 0x10000), 0, 0, 0, 0, 0, 0x1FFFFFFF, 0]

/-- A launch of one workgroup of that image at virtual address 0, in partition 0, with its root table at 0x4000. -/
def probeLaunch : Launch :=
  { part := 0, queue := 0, index := 0, root := 0x4000, hdr := probeHeader
    pkt := [1, 0, 0, 0, 0, 0, 0, 0, 0, 0, 0, 0, 0, 0, 0, 0], nextGang := 1, started := true }

/-- Memory that maps the low 256 GiB to themselves and holds a word at 0x10000. -/
def probeMemory (m : Memory) (w : Nat) : Memory :=
  writeLE (writeLE (writeLE m 0x4000 8 0x8001) 0x8000 8 (2 ^ 52 + 15)) 0x10000 8 w

/-- A path of a new workgroup issues the word next. -/
def withThreadWord (s : State) (w : Nat) : State :=
  let lid := s.nextId
  let wid := lid + 1
  let p := partOf s 0
  { s with
    agenda := [], issue := [.thread wid 0], frozen := false, powered := true, nextId := wid + 1
    mem := probeMemory s.mem w, badMem := s.badMem.filter fun sec => sec ≠ 0x4000 / 32 && sec ≠ 0x8000 / 32 && sec ≠ 0x10000 / 32
    locks := s.locks.filter fun x => x.1 ≠ 0x4000 / 32 && x.1 ≠ 0x8000 / 32 && x.1 ≠ 0x10000 / 32
    tlb := s.tlb.filter fun t => t.part ≠ 0 || t.asid ≠ 0
    cores := tset s.cores 0 { coreOf s 0 with icache := [] }
    parts := tset s.parts 0 { p with res := { p.res with pairs := p.res.pairs ||| 1 } }
    launches := tset s.launches lid probeLaunch
    wgs := tset s.wgs wid (freshWorkgroup probeLaunch lid 0 s.cycle 0 0 0 [0]) }

/-- An element with the word in its slot 0, a token at each input and every output empty. -/
def probeElement (w : Nat) : FUnit :=
  { q0 := 0x100031, ins := List.replicate 4 { toks := [.data 0 0 0 0] }, outs := List.replicate 4 {}
    slots := [(BitVec.ofNat 32 w, 0x80000000)], lits := List.replicate 6 0, regs := List.replicate 6 0 }

/-- A new element fires the slot word next. -/
def withSlotWord (s : State) (w : Nat) : State :=
  let lid := s.nextId
  let f : Fabric := { state := .running, width := 1, height := 1, tiles := [{ core := 0, units := [probeElement w] }] }
  { s with
    agenda := [], issue := [.slot lid 0 0 0], frozen := false, powered := true, nextId := lid + 1
    launches := tset s.launches lid { probeLaunch with form := .s, fabric := some f } }

end Sys2Proof.Machine
end

