-- ==== Sys2Proof/Machine/Step.lean ====
section
/-! DEFINITION. One step of the module: the event that is due, the instruction that is to issue, or the
next cycle. -/

namespace Sys2Proof.Machine

/-- One step. -/
def step (s : State) : Host.Outcome State Fault Refusal :=
  match nextAct s with
  | .run i s => exec i s
  | .ended s => .next s

/-- The state with one instruction where `step` takes the next one: a slot word of 32 bits, or a word of T-form. -/
def State.withFetchWord (s : State) (nbits w : Nat) : State :=
  if nbits ≤ 32 then withSlotWord s w else withThreadWord s w

end Sys2Proof.Machine
end

