-- ==== Sys2Proof/Safety.lean ====
section
/-! DEFINITION. What counts as a safe run: the outcomes of a step, the conditions under which an instruction
issues normally, and what its results look like from outside. The statements are in these terms. -/

namespace Sys2Proof.Machine

/-- The outcome is a next state. -/
def GoesOn (o : Out) : Prop := ∃ t, o = .next t

/-- The module's memory is in canonical form. -/
def MemoryOk (s : State) : Prop := s.mem.wf = true

/-! ### The normal issue of an instruction -/

/-- A path issues the instruction, and R375 finds nothing against it: no cause of stages 5 to 11, no breakpoint,
watchpoint or step (stage 12), no refusal or abort by a transaction (stage 13), no source register that fails
(stage 15); and no value in flight is bound for its registers (R444). -/
structure Issues (s : State) (i : Instr) (c : Ctx) : Prop where
  ctx : ctxOf s i = some c
  legal : judge (envOf c) i = none
  noDebug : debugStop s c i = none
  noStep : stepping s c.wg c.th = false
  ready : inFlight c (awaited s c i) = false
  outside : txStage c i = ([], [])
  sound : badLaneRegs c (demandsOf (envOf c) i) = []
  soundUniform : badUniformReg c (demandsOf (envOf c) i) i = none

/-- The registers after a result has been written in every passing lane, or once to an s register from the lowest
of them (R66, R71): a lane register or a pair, an s register whole, a predicate its bit 0; every other register as
before. -/
def Wrote (c : Ctx) (d : Opnd) (wide signed : Bool) (val : Nat → Nat) (w : Workgroup) (th : Thread) : Prop :=
  (∀ l r, r < 256 → vGet w l r =
    if isV d = true ∧ c.pass.getLsbD l = true ∧ r = d.toNat then BitVec.ofNat 32 (val l)
    else if isV d = true ∧ wide = true ∧ c.pass.getLsbD l = true ∧ r = d.toNat + 1 then BitVec.ofNat 32 (val l / 2 ^ 32)
    else vGet c.wg l r) ∧
  (∀ n, sGet th n =
    if isS d = true ∧ d.toNat = 0x100 + n then
      (let x := val (lowestLane c.pass)
       if wide then BitVec.ofNat 64 x else if signed then BitVec.ofInt 64 (sextNat x 32) else BitVec.ofNat 64 (x % 2 ^ 32))
    else sGet c.th n) ∧
  (∀ n l, (kGet w n).getLsbD l =
    if isK d = true ∧ d.toNat = 0x140 + n ∧ n ≠ 0 ∧ c.pass.getLsbD l = true then decide (val l % 2 = 1)
    else (kGet c.wg n).getLsbD l)

/-- The path goes on with the next instruction, with the lanes it had. -/
def GoesToNext (c : Ctx) (th : Thread) : Prop :=
  ∃ p ∈ th.paths, p.mask = c.path.mask ∧ p.pc = c.path.pc + 1 ∧ p.vtext = c.path.vtext ∧ p.stack = c.path.stack ∧
    p.wait = .none

/-- What an instruction that writes registers alone leaves: of the state, all but its workgroup, the launch's mark
that an issue has begun it and its region's count of canonical work; of the workgroup, all but registers, the
issuing thread, FPFLAGS and the count of instructions of irrevocable lanes; of that thread, all but s registers,
paths, turn and latch. -/
def RegistersOnly (s t : State) (c : Ctx) (w : Workgroup) (th : Thread) : Prop :=
  t = { s with wgs := t.wgs, launches := t.launches, regions := t.regions } ∧
  (∀ v, v ≠ c.wid → wgOf t v = wgOf s v) ∧
  (∀ lid, ∃ b, tfind t.launches lid = (tfind s.launches lid).map fun la => { la with begun := b }) ∧
  (∀ r, ∃ x, regionOf t r = { regionOf s r with workOf := x }) ∧
  w = { c.wg with v := w.v, k := w.k, threads := w.threads, tx := w.tx, badRegs := w.badRegs, fpflags := w.fpflags } ∧
  (∀ l, ∃ n, txOf w l = { txOf c.wg l with instrs := n }) ∧
  (∀ j, j ≠ c.tix → w.threads[j]? = c.wg.threads[j]?) ∧
  th = { c.th with sregs := th.sregs, jregs := th.jregs, paths := th.paths, run := th.run, gave := th.gave,
                   turn := th.turn, last := s.cycle, latch := th.latch } ∧
  ((∀ p ∈ c.th.paths, ∀ n, p.wait ≠ .join n) → th.jregs = c.th.jregs)

/-- The instruction completes: its result is written, FPFLAGS takes its flags (R120), the path goes on, and nothing
else changes. -/
def LaneResult (s : State) (c : Ctx) (d : Opnd) (wide signed : Bool) (val : Nat → Nat) (flags : FFlags) (o : Out) : Prop :=
  ∃ t w th, o = .next t ∧ wgOf t c.wid = some w ∧ w.threads[c.tix]? = some th ∧ Wrote c d wide signed val w th ∧
    w.fpflags = c.wg.fpflags ||| flags ∧ GoesToNext c th ∧ RegistersOnly s t c w th

/-- The issuing thread once its instruction has been issued (R27, R28). -/
def runThread (s : State) (c : Ctx) : Thread := { takeTurn c.th c.path with last := s.cycle }
/-- Its workgroup. -/
def runWg (s : State) (c : Ctx) : Workgroup := { c.wg with threads := c.wg.threads.set c.tix (runThread s c) }
/-- The unit that a meaning gets. -/
def runCtx (s : State) (c : Ctx) : Ctx := { c with wg := runWg s c, th := runThread s c }

/-- The state that a meaning gets. -/
def runState (s : State) (c : Ctx) (i : Instr) : State :=
  let s2 := modWg (issued (begin s c) c) c.wid fun w => countIrrev w c.th.susp.isSome c.pass
  if latches c (demandsOf (envOf c) i) i then
    modTh s2 c.wid c.tix fun t => { t with latch := BitVec.ofNat 32 (s.cycle / 2 ^ 32) } else s2

/-- The state still holds the issuing path as it issued, where no step is owed. -/
def Kept (s' : State) (c : Ctx) : Prop :=
  ∃ w t p, wgOf s' c.wid = some w ∧ w.threads[c.tix]? = some t ∧ t.paths[c.pix]? = some p ∧
    p.mask = c.path.mask ∧ p.pc = c.path.pc ∧ p.vtext = c.path.vtext ∧ p.stack = c.path.stack ∧ p.wait = .none ∧
    stepping s' w t = false

/-- The instruction's effect has made `s'` of the state, and the instruction completes there: the issuing path goes on
with the next instruction, joins of its thread that this completes are completed, and nothing else changes but the
count of canonical work. -/
def Ends (s' t : State) (c : Ctx) : Prop :=
  t = { s' with wgs := t.wgs, regions := t.regions } ∧
  (∀ v, v ≠ c.wid → wgOf t v = wgOf s' v) ∧
  (∀ r, ∃ x, regionOf t r = { regionOf s' r with workOf := x }) ∧
  ∃ w' th' w th, wgOf s' c.wid = some w' ∧ w'.threads[c.tix]? = some th' ∧ wgOf t c.wid = some w ∧
    w.threads[c.tix]? = some th ∧ w = { w' with threads := w.threads } ∧
    (∀ j, j ≠ c.tix → w.threads[j]? = w'.threads[j]?) ∧
    th = { th' with paths := th.paths, jregs := th.jregs } ∧ GoesToNext c th

/-- What an instruction that acts on paths alone leaves: registers, flags, scratchpad and exited lanes of its workgroup,
the s registers of its thread, the workgroup's other threads, the other workgroups, memory, cores, partitions and
transfers. -/
def Untouched (s t : State) (c : Ctx) (w : Workgroup) (th : Thread) : Prop :=
  w.v = c.wg.v ∧ w.k = c.wg.k ∧ w.fpflags = c.wg.fpflags ∧ w.pad = c.wg.pad ∧ w.exited = c.wg.exited ∧
  th.sregs = c.th.sregs ∧ t.mem = s.mem ∧ t.cores = s.cores ∧ t.parts = s.parts ∧ t.transfers = s.transfers ∧
  (∀ v, v ≠ c.wid → wgOf t v = wgOf s v) ∧ (∀ j, j ≠ c.tix → w.threads[j]? = c.wg.threads[j]?)

/-- The outcome is a state in which the issuing thread holds a path with the given property, and nothing is touched but
paths, join registers and turns. -/
def LeavesPath (s : State) (c : Ctx) (o : Out) (good : Thread → Path → Prop) : Prop :=
  ∃ t w th p, o = .next t ∧ wgOf t c.wid = some w ∧ w.threads[c.tix]? = some th ∧ p ∈ th.paths ∧ good th p ∧
    Untouched s t c w th

end Sys2Proof.Machine
end

