-- ==== Sys2Proof/Certificates/Slice0/Obligations.lean ====
section
/-! DEFINITION. The statements for the provers. Where a docstring names a rule R<n> of spec/, that rule is what the
statement formalises or rests on. `Issues s i c` (Sys2Proof/Safety.lean) is the premise of every statement about an
instruction of T-form and V-form: a path is about to issue it and stages 5 to 13 and 15 of R375 find nothing. -/

section

open Sys2Proof Sys2Proof.Machine

/-! ### Encoding (R77 to R83, R94 to R103, R217, R379) -/

/-- O1. Words of the spec's assembly tables are the instructions that those tables give them. -/
def Obligations.SpecWordsDecode : Prop :=
  decodeTableWord 64 0x0001AF4080201002 =
    some (.add { g := 0, d := 0x001, a := 0x001, b := 0x102, c := 0x15E, ty := 1, mod := 0, sub := 0 }) ∧
  decodeTableWord 64 0xFFFFFFF021309022 = some (.addi { g := 0, d := 0x109, a := 0x109, subi := 0, imm := 0xFFFFFFF0 }) ∧
  decodeTableWord 64 0 = none ∧
  decodeTableWord 64 0x00805657A0405090 =
    some (.ld { g := 0, d := 0x005, a := 0x102, x := 0x15E, xs := 0, scope := 3, ord := 1, ty := 1, sp := 0, off := 8 }) ∧
  decodeTableWord 64 0x1C700080A0807092 =
    some (.atom { g := 0, d := 0x007, a := 0x104, b := 0x002, c := 0x001, ty := 0, aop := 7, scope := 4, ord := 3,
                  sp := 0, nr := 0 }) ∧
  decodeTableWord 64 0xFFFFFFFD1015E1B0 = some (.bra { g := 1, a := 0x15E, j := 0, ks := 0, sub := 1, tgt := 0xFFFFFFFD }) ∧
  decodeTableWord 64 0x040E6057A170A0C0 =
    some (.mma { g := 0, a := 0x10A, b := 0x10B, c := 0x15E, z := 0, acc := 0, ta := 0xC, tb := 0xC, sh := 1, cba := 0,
                 cbb := 1, sc := 0, rz := 0 }) ∧
  decodeTableWord 64 0x000001D7ABD080C7 = some (.xfer { g := 0, a := 0x108, b := 0x15E, c := 0x15E, ch := 3, rz := 0 }) ∧
  decodeTableWord 64 0x0000040D2BC020D0 = some (.getsr { g := 0, d := 0x002, a := 0x15E, sreg := 0x034, imm := 1 }) ∧
  decodeTableWord 32 0x6AFCAC56 =
    some (.sCmplt { sa := 1, sb := 11, da := 2, db := 15, ta := 11, pd := 2, pw := 1, dq := 1 })

/-- O2. The decoder reads back every T-form and V-form word, and every slot word of S-form, that the encoder writes for
a well-formed instruction, every field at every value that the encoding admits. -/
def Obligations.DecodeOfEncode : Prop :=
  (∀ (i : Instr) (w : BitVec 64), i.WellFormed = true → encodeTV i = some w → decodeTV w = .ok i) ∧
  (∀ (i : Instr) (w : BitVec 32), i.WellFormed = true → encodeSlot i = some w → decodeSlot w = .ok i)

/-- O3. What the decoder reads is well-formed and encodes to the same word: no two words are one instruction, and no
bit of a word is dropped. -/
def Obligations.EncodeOfDecode : Prop :=
  (∀ (w : BitVec 64) (i : Instr), decodeTV w = .ok i → i.WellFormed = true ∧ encodeTV i = some w) ∧
  (∀ (w : BitVec 32) (i : Instr), decodeSlot w = .ok i → i.WellFormed = true ∧ encodeSlot i = some w)

/-! ### The step of the module (R345, R375, R380) -/

/-- O4. A step runs the decoded instruction. The bytes that fetch finds at the program counter of the thread that is to
issue, or the slot word of the element that is to fire, are decoded, and the step is `exec` of that instruction in the
state that fetch leaves, less the issue itself; a word that is no instruction takes its exception in the issuing path.
An event that is due is executed before any issue, the detector of a load judges the cycle behind every issue (R420), and
with nothing left to do the next cycle begins (log 3). -/
def Obligations.StepRunsDecodedInstruction : Prop :=
  ∀ s : State, s.powered = true → s.frozen = false →
    (∀ i rest, s.agenda = i :: rest → step s = exec i { s with agenda := rest, cur := .none }) ∧
    (∀ wid tix rest, s.agenda = [] → s.issue = .thread wid tix :: rest →
      (∀ w s' i, fetch { s with issue := rest } wid tix = .word w s' → decodeTV w = .ok i →
        step s = exec i { s' with cur := .thread wid tix w }) ∧
      (∀ w s' e, fetch { s with issue := rest } wid tix = .word w s' → decodeTV w = .error e →
        step s = .next (refuseWord s' wid tix w e)) ∧
      (∀ s', fetch { s with issue := rest } wid tix = .ended s' → step s = .next s')) ∧
    (∀ lid tile el slot rest i, s.agenda = [] → s.issue = .slot lid tile el slot :: rest →
      unitActs { s with issue := rest } lid tile el = true → decodeSlot (slotWord s lid tile el slot) = .ok i →
      step s = exec i { s with issue := rest, cur := .slot lid tile el slot }) ∧
    (∀ lid rest, s.agenda = [] → s.issue = .detector lid :: rest →
      step s = exec (.fabricStalled lid) { s with issue := rest, cur := .none }) ∧
    (s.agenda = [] → s.issue = [] → step s = exec .issueCycle { s with cur := .none })

/-- O5. The word that fetch reads is the eight bytes of memory, little-endian, at the physical address to which the
walk of the page table takes the program counter's address, when no translation cache holds another translation and
the core's instruction cache does not hold an earlier word of that address. -/
def Obligations.FetchReadsMemory : Prop :=
  ∀ (s : State) (wid tix pix pa attr : Nat) (w : Workgroup) (t : Thread) (p : Path) (s1 : State),
    wgOf s wid = some w → w.threads[tix]? = some t → pickPath t = some pix → t.paths[pix]? = some p →
    w.tx = [] → p.stepDue = [] →
    pcInText s (launchOf s w.lid) w.core p = true → canonical (textAddr (launchOf s w.lid) p.vtext p.pc) = true →
    translate s (spaceOf (launchOf s w.lid) w.core) .fetch (textAddr (launchOf s w.lid) p.vtext p.pc) = .ok pa attr s1 →
    badData s1 pa 8 = false → (tfind (coreOf s1 w.core).icache pa).all (· = BitVec.ofNat 64 (readLE s1.mem pa 8)) = true →
    ∃ s2, fetch s wid tix = .word (BitVec.ofNat 64 (readLE s1.mem pa 8)) s2 ∧ s2.mem = s.mem

/-- O6. Every step has a next state: the machine stops only where the agenda holds what is no event of the spec. -/
def Obligations.EveryStepGoesOn : Prop :=
  ∀ s : State, (∀ i ∈ s.agenda.head?, isWordInstr i = false) → GoesOn (step s)

/-- O7. Every step keeps the canonical form of memory, from every state that has it. -/
def Obligations.StepKeepsMemoryForm : Prop := ∀ s t : State, MemoryOk s → step s = .next t → MemoryOk t

/-- O8. What reset leaves (R10, R22, R202, R203, R307, R430): nothing is placed and memory is in canonical form, and
stays so when a word is stored there for the next step; core and region registers hold the values of R203 and R307; a
workgroup that is created holds those of R202, the launch's arguments in s0 to s7 of each thread, and 0 in every other
register (that the rest are 0 is R22; where R22 is silent, log 1 and INVENTORY.md name the choice). -/
def Obligations.ResetState : Prop :=
  (MemoryOk State.reset ∧ (∀ nbits w, MemoryOk (State.reset.withFetchWord nbits w)) ∧ State.reset.wgs = [] ∧
    State.reset.launches = [] ∧ State.reset.powered = true ∧ State.reset.frozen = false ∧ State.reset.locks = []) ∧
  (∀ c, (coreOf State.reset c).bp = List.replicate 8 0 ∧ (coreOf State.reset c).wp = List.replicate 4 0 ∧
    (coreOf State.reset c).mbox = List.replicate 8 0) ∧
  (∀ r, let g := regionOf State.reset r
    stepOf g = 0 ∧ g.band = 0 ∧ g.boost = 0 ∧ g.minstep = 0 ∧ g.sstep = 0 ∧ g.slotdly = 8 ∧ g.stopKind = 0 ∧ g.stops = 0) ∧
  (∀ (la : Launch) (lid w cycle core base frame : Nat) (slots : List Nat),
    let g := freshWorkgroup la lid w cycle core base frame slots
    g.fairt = 256 ∧ g.txctl = 8 ∧ g.fpflags = 0 ∧ g.rm = 0 ∧ g.tvec.toNat = fld (hdr la 8) 28 0 ∧
    (∀ l r, vGet g l r = 0) ∧ (∀ n, n ≠ 0 → kGet g n = 0) ∧ (∀ x, trapOf g x = {}) ∧ (∀ l, txOf g l = {}) ∧
    ∀ t ∈ g.threads, (∀ n, sGet t n = if n < 8 then pkt la (8 + n) else 0) ∧ (∀ n, jGet t n = 0) ∧
      ∀ p ∈ t.paths, p.pc = 0 ∧ p.stack = [] ∧ p.wait = .none)

/-- O9. A frozen module resumes only through module reset: until one is asked for, a step changes nothing. -/
def Obligations.FrozenModuleStands : Prop :=
  ∀ s : State, s.frozen = true → s.powered = true →
    ((∀ x ∈ s.inputs, x.2 ≠ .moduleReset) → step s = .next s) ∧
    (∀ c rest, s.inputs = (c, .moduleReset) :: rest → ∃ t, step s = .next t ∧ t.frozen = false)

/-! ### Traps (R102, R200, R208, R209, R357 to R363, R369 to R371, R375, R379) -/

/-- An opcode that R379 lists as reserved. -/
def reservedOpcode (op : Nat) : Prop :=
  op = 0x00 ∨ op = 0x1F ∨ (0x2A ≤ op ∧ op ≤ 0x3F) ∨ (0x49 ≤ op ∧ op ≤ 0x5F) ∨ (0x77 ≤ op ∧ op ≤ 0x8F) ∨
  (0x9C ≤ op ∧ op ≤ 0xAF) ∨ (0xB8 ≤ op ∧ op ≤ 0xBF) ∨ (0xCC ≤ op ∧ op ≤ 0xCF) ∨ (0xD5 ≤ op ∧ op ≤ 0xD7) ∨
  (0xDB ≤ op ∧ op ≤ 0xFF)

/-- A trap outside trap mode, with a handler set and a cause that may enter it, sets the trap-state registers of
its canonical TG together, suspends every path of the thread as it stood, and starts the handler path: the trapping
lanes (those that have not exited: SINGLE_STEP alone can name others), in T-form at canonical PC TVEC.CPC with an empty
return stack. Lane, predicate, s and join registers keep
their values. (The trapping path is not one that a hop out of S-form brought to a fault: R366.) -/
def Says.TrapEntersHandler : Prop :=
  ∀ (s : State) (wid tix pix : Nat) (a : TrapArgs) (w : Workgroup) (t : Thread) (p : Path),
    wgOf s wid = some w → w.threads[tix]? = some t → t.paths[pix]? = some p → t.susp = none → p.cut = [] →
    w.tvec ≠ 0x1FFFFFFF → a.cause.escalates = false → claimed (coreOf s w.core) a.cause a.debugN = false →
    a.lanes ≠ 0 → a.lanes &&& blockMask (lowestLane a.lanes / 32) = a.lanes →
    let g := lowestLane a.lanes / 32
    let s' := takeTrap s wid tix pix a
    ∃ w' t' u, wgOf s' wid = some w' ∧ w'.threads[tix]? = some t' ∧
      trapOf w' g =
        { cause := BitVec.ofNat 8 a.cause.code, tm := true, pc := a.pc.getD (canonPc s (launchOf s w.lid) w.core p),
          mask := blockOf a.lanes g, tgix := BitVec.ofNat 4 g, addr := BitVec.ofNat 64 a.addr, iter := 0,
          form := if p.vtext then .v else .t } ∧
      t'.paths = [{ mask := a.lanes &&& ~~~w.exited, pc := w.tvec.zeroExtend 32 }] ∧ t'.halt = none ∧
      t'.susp = some u ∧ u.paths = t.paths ∧ u.trapped = pix ∧ u.done = a.done ∧ u.lanes = a.lanes ∧
      u.skip = a.lanes ∧
      t'.sregs = t.sregs ∧ t'.jregs = t.jregs ∧ w'.v = w.v ∧ w'.k = w.k ∧ s'.mem = s.mem ∧
      (((partOf s (launchOf s w.lid).part).td.getD 1 0).getLsbD 0 = false → s'.deferred = s.deferred)

/-- Without a handler, or for a cause marked E, the trap escalates: the trap-state registers are set, the thread
halts with no path, and a record of the cause waits to be written to the partition's ring. A trap in trap mode is
HANDLER_FAULT: every trap-state register keeps its value, and the record alone carries the handler's fault. -/
def Says.TrapEscalates : Prop :=
  ∀ (s : State) (wid tix pix : Nat) (a : TrapArgs) (w : Workgroup) (t : Thread) (p : Path),
    wgOf s wid = some w → w.threads[tix]? = some t → t.paths[pix]? = some p → p.cut = [] → a.pc = none →
    claimed (coreOf s w.core) a.cause a.debugN = false →
    a.lanes ≠ 0 → a.lanes &&& blockMask (lowestLane a.lanes / 32) = a.lanes →
    let g := lowestLane a.lanes / 32
    let la := launchOf s w.lid
    let s' := takeTrap s wid tix pix a
    (t.susp = none → w.tvec = 0x1FFFFFFF ∨ a.cause.escalates = true →
      ∃ w' t', wgOf s' wid = some w' ∧ w'.threads[tix]? = some t' ∧
        (trapOf w' g).cause = BitVec.ofNat 8 a.cause.code ∧ (trapOf w' g).tm = true ∧
        (trapOf w' g).addr = BitVec.ofNat 64 a.addr ∧ t'.paths = [] ∧ t'.halt = some (.escalated false) ∧
        ∃ r, (partOf s' la.part).escPending = (partOf s la.part).escPending ++ [r] ∧ r.lid = w.lid ∧
          r.doubles[0]? = some (BitVec.ofNat 64 (la.lidNo.toNat * 2 ^ 32 + a.cause.code * 256 + a.cause.code)) ∧
          r.doubles[3]? = some (BitVec.ofNat 64 a.addr)) ∧
    (t.susp.isSome = true →
      ∃ w' t', wgOf s' wid = some w' ∧ w'.threads[tix]? = some t' ∧ (∀ n, trapOf w' n = trapOf w n) ∧
        t'.paths = [] ∧ t'.halt = some (.escalated true) ∧ t'.susp = t.susp ∧
        ∃ r, (partOf s' la.part).escPending = (partOf s la.part).escPending ++ [r] ∧ r.lid = w.lid ∧
          r.doubles[0]? = some (BitVec.ofNat 64 (la.lidNo.toNat * 2 ^ 32 + a.cause.code * 256 + 0x5C)) ∧
          r.doubles[3]? = some (BitVec.ofNat 64 a.addr))

/-- O10. Taking a trap (R357 to R363, R369, R370): entry to the handler, and escalation. -/
def Obligations.TrapsAreTaken : Prop := Says.TrapEntersHandler ∧ Says.TrapEscalates

/-- O11. A word whose OP is one of those that R379 lists as reserved is not an instruction, whatever its other fields
hold, and no other word is refused for its opcode; the all-zero word is one. It raises ILLEGAL_OPCODE at stage 2, with
TADDR holding the whole word. A word with an assigned OP and a reserved sub-operation is not an instruction either, and
fails at stage 3; every other word is read as an instruction, or fails stage 4 for a reserved field. -/
def Obligations.IllegalOpcodeTraps : Prop :=
  (∀ w : BitVec 64, decodeTV w = .error .opcode ↔ reservedOpcode (w.extractLsb' 0 8).toNat) ∧
  decodeTV 0 = .error .opcode ∧
  (∀ w : BitVec 64, decodeTV w = .error .subOperation → ¬reservedOpcode (w.extractLsb' 0 8).toNat) ∧
  (∀ w : BitVec 64, ¬reservedOpcode (w.extractLsb' 0 8).toNat → decodeTV w ≠ .error .subOperation →
    (∃ i, decodeTV w = .ok i) ∨ decodeTV w = .error .reserved) ∧
  (∀ (s s' : State) (wid tix pix : Nat) (w : Workgroup) (t : Thread) (p : Path) (word : Dbl) (rest : List IssueItem)
      (e : DecodeError), e = .opcode ∨ e = .subOperation →
    s.powered = true → s.frozen = false → s.agenda = [] → s.issue = .thread wid tix :: rest →
    fetch { s with issue := rest } wid tix = .word word s' → decodeTV word = .error e →
    wgOf s' wid = some w → w.threads[tix]? = some t → pickPath t = some pix → t.paths[pix]? = some p →
    step s = .next (takeTrap (issueOf s' wid tix w.lid p) wid tix pix
      { cause := .illegalOpcode, lanes := (p.limit.map (p.mask &&& ·)).getD p.mask, addr := word.toNat })) ∧
  Cause.illegalOpcode.code = 0x01

/-- Every instruction of T-form and V-form that stages 5 to 11 of R375 refuse takes their first cause, with its
effect in no lane: the trap is instruction-wide, over every active lane of the path. -/
def Says.RefusedInstructionTraps : Prop :=
  ∀ (s : State) (i : Instr) (c : Ctx) (cause : Cause), (encodeTV i).isSome = true → ctxOf s i = some c →
    judge (envOf c) i = some cause →
    exec i s = .next (takeTrap (issued (begin s c) c) c.wid c.tix c.pix
      { cause := cause, lanes := c.act, addr := judgeAddr c.word cause i })

/-- O12. `split` and `join` in V-form raise BAD_FORM, though the word passes every other check. -/
def Obligations.SplitAndJoinInVectorForm : Prop :=
  ∀ (s : State) (f : FmtB) (c : Ctx),
    (ctxOf s (.split f) = some c → c.path.vtext = true → joinOk c.th.susp.isSome f.j = true →
      exec (.split f) s = .next (takeTrap (issued (begin s c) c) c.wid c.tix c.pix
        { cause := .badForm, lanes := c.act, addr := c.word.toNat })) ∧
    (ctxOf s (.join f) = some c → c.path.vtext = true → joinOk c.th.susp.isSome f.j = true →
      exec (.join f) s = .next (takeTrap (issued (begin s c) c) c.wid c.tix c.pix
        { cause := .badForm, lanes := c.act, addr := c.word.toNat })) ∧
    Cause.badForm.code = 0x07

/-- The privileged forms: `rett` and `rett.next` outside trap mode, and `setsr` of a register that has no field
marked RW, raise PRIVILEGED; `hop`, `launch` and `txbegin` in trap mode raise BAD_FORM. -/
def Says.PrivilegedForms : Prop :=
  ∀ (s : State) (c : Ctx),
    (∀ f : FmtS, ctxOf s (.rett f) = some c → c.th.susp = none → f.sreg = 0 → judge (envOf c) (.rett f) = some .privileged) ∧
    (∀ f : FmtS, ctxOf s (.rettNext f) = some c → c.th.susp = none → f.sreg = 0 →
      judge (envOf c) (.rettNext f) = some .privileged) ∧
    (∀ f : FmtS, ctxOf s (.setsr f) = some c → f.d = 0x15E → isUniform f.a = true →
      f.sreg.toNat ∈ sysRegs → f.sreg.toNat ∉ sysRegsRw → judge (envOf c) (.setsr f) = some .privileged) ∧
    (∀ f : FmtS, ctxOf s (.hop f) = some c → c.th.susp.isSome = true → fld f.imm 1 0 ≠ 3 →
      judge (envOf c) (.hop f) = some .badForm) ∧
    (∀ f : FmtB, ctxOf s (.txbegin f) = some c → c.th.susp.isSome = true → 12 ≤ f.j.toNat → f.a.toNat < c.wg.nvregs →
      f.a.toNat < 256 → judge (envOf c) (.txbegin f) = some .badForm) ∧
    (∀ f : FmtS, ctxOf s (.launch f) = some c → c.th.susp.isSome = true → isS f.a = true → isV f.d = true →
      f.d.toNat < c.wg.nvregs → judge (envOf c) (.launch f) = some .badForm) ∧
    Cause.privileged.code = 0x08

/-- O13. An instruction that R375 refuses takes its first cause; among the causes, those of the privileged forms. -/
def Obligations.RefusedInstructionsTrap : Prop := Says.RefusedInstructionTraps ∧ Says.PrivilegedForms

/-- `trap` and `brk` complete by trapping: every passing lane of the lowest passing lane's block traps at the
instruction, SOFTWARE_TRAP with TADDR = zext(code, 16), or BREAKPOINT with TADDR = 0x1_0000 + code. (A trap names one
canonical TG, R359; in T-form that is the whole path.) -/
def Says.TrapAndBrk : Prop :=
  ∀ (s : State) (f : FmtS) (c : Ctx), c.pass ≠ 0 →
    (Issues s (.trap f) c → ∃ s1, exec (.trap f) s = .next (takeTrap s1 c.wid c.tix c.pix
        { cause := .softwareTrap, lanes := c.pass &&& blockMask (lowestLane c.pass / 32), addr := fld f.imm 15 0 }) ∧
      s1.mem = s.mem ∧ ∃ w1, wgOf s1 c.wid = some w1 ∧ w1.v = c.wg.v ∧ w1.k = c.wg.k ∧ w1.tvec = c.wg.tvec ∧
        ∃ t1, w1.threads[c.tix]? = some t1 ∧ t1.paths = c.th.paths ∧ t1.sregs = c.th.sregs ∧ t1.susp = c.th.susp) ∧
    (Issues s (.brk f) c → ∃ s1, exec (.brk f) s = .next (takeTrap s1 c.wid c.tix c.pix
        { cause := .breakpoint, lanes := c.pass &&& blockMask (lowestLane c.pass / 32), addr := 0x10000 + fld f.imm 15 0 }) ∧
      s1.mem = s.mem ∧ ∃ w1, wgOf s1 c.wid = some w1 ∧ w1.v = c.wg.v ∧ w1.k = c.wg.k ∧ w1.tvec = c.wg.tvec ∧
        ∃ t1, w1.threads[c.tix]? = some t1 ∧ t1.paths = c.th.paths ∧ t1.sregs = c.th.sregs ∧ t1.susp = c.th.susp)

/-- The handler's return has been carried out: trap mode is over, and every suspended path that may run, with the lanes
that have not exited, stands in the thread again as `resumePaths` gives it; memory is as it was, and registers too where
no path waits in a round of a lane instruction (R152), which the return may complete. -/
def Returned (s t : State) (c : Ctx) (u : Suspended) (next : Bool) : Prop :=
  ∃ w th, wgOf t c.wid = some w ∧ w.threads[c.tix]? = some th ∧ th.susp = none ∧ th.halt = none ∧
    (trapOf w c.th.tgix).tm = false ∧ (trapOf w c.th.tgix).pc = (trapOf c.wg c.th.tgix).pc ∧
    (trapOf w c.th.tgix).mask = (trapOf c.wg c.th.tgix).mask ∧ (trapOf w c.th.tgix).addr = (trapOf c.wg c.th.tgix).addr ∧
    (∀ q ∈ resumePaths c.wg.exited u next true, q.mask ≠ 0 → q.wait = .none → q ∈ th.paths) ∧ t.mem = s.mem ∧
    ((∀ x ∈ c.wg.threads, ∀ p ∈ x.paths ++ u.paths, ∀ n word, p.wait ≠ .lane n word) →
      w.v = c.wg.v ∧ w.k = c.wg.k ∧ th.sregs = c.th.sregs)

/-- `rett` and `rett.next` end trap mode: TCAUSE.TM is 0, TPC, TMASK and TADDR keep their values, and the suspended
paths resume. The trapping path issues its instruction again for the lanes that did not perform it and have not
exited, less the lanes that `rett.next` passes over (the trapping ones; for the causes of R381, R386 and R411 the whole
path's); with none left it goes on at the next instruction with its full mask, or, where lanes that performed it have
begun a wait there or lanes still commit at a `txend`, waits on (log 87). -/
def Says.ReturnFromTrap : Prop :=
  (∀ (s : State) (f : FmtS) (c : Ctx) (u : Suspended), c.pass ≠ 0 → c.th.susp = some u → returnBlock c = none →
    (Issues s (.rett f) c → ∃ t, exec (.rett f) s = .next t ∧ Returned s t c u false) ∧
    (Issues s (.rettNext f) c → ∃ t, exec (.rettNext f) s = .next t ∧ Returned s t c u true)) ∧
  (∀ (exited : Mask) (u : Suspended) (next : Bool) (p : Path), u.after = false → u.paths[u.trapped]? = some p →
    let undone := ((p.limit.getD (p.mask &&& ~~~exited)) &&& ~~~u.done &&& ~~~exited) &&&
      (if next then ~~~u.skip else BitVec.allOnes 512)
    ∃ q, (resumePaths exited u next true)[u.trapped]? = some q ∧ q.mask = p.mask &&& ~~~exited ∧ q.stack = p.stack ∧
      (undone = 0 → p.wait ≠ .txend → p.wait = .none ∨ u.done &&& ~~~exited = 0 →
        q.pc = p.pc + 1 ∧ q.limit = none ∧ q.wait = .none) ∧
      (undone = 0 → p.wait = .txend ∨ (p.wait ≠ .none ∧ u.done &&& ~~~exited ≠ 0) →
        q.pc = p.pc ∧ q.limit = none ∧ q.wait = p.wait) ∧
      (undone ≠ 0 → q.pc = p.pc ∧ q.limit.getD q.mask = undone)) ∧
  (∀ (exited : Mask) (u : Suspended) (next : Bool) (n : Nat) (p : Path), n ≠ u.trapped → u.paths[n]? = some p →
    (resumePaths exited u next true)[n]? =
      some { p with mask := p.mask &&& ~~~exited, parked := p.parked &&& ~~~exited, asked := none })

/-- O14. `trap`, `brk`, `rett` and `rett.next`. -/
def Obligations.SoftwareTrapsAndReturns : Prop := Says.TrapAndBrk ∧ Says.ReturnFromTrap

/-! ### Integer, logic, move and predicate instructions (R66, R71, R99, R110, R124 to R128) -/

/-- The element-wise results of R124 and R125. With MOD 0 the element written is the exact result modulo 2^w, with
MOD 6 it is the exact result clamped to the range of the type; shifts count by the low bits of B that R110 gives; a
division by zero gives all ones and the dividend as remainder; `sar` shifts the signed value, `shr` the unsigned one. -/
def Says.ElementResults : Prop :=
  ∀ (ty : BitVec 4) (a b d : Nat) (j : Nat), ty ≠ 0xF → j < (elemShape ty).2 →
    let w := (elemShape ty).1
    let x := elem a w j
    let y := elem b w j
    let z := elem d w j
    let sg := isSigned ty
    let lo : Int := if sg then -(2 ^ (w - 1) : Nat) else 0
    let hi : Int := if sg then (2 ^ (w - 1) : Nat) - 1 else (2 ^ w : Nat) - 1
    let clamp := fun (v : Int) => lowInt (max lo (min hi v)) w
    elem (aluValue ty false (fun _ l => arg l 0 + arg l 1) [a, b]) w j = (x + y) % 2 ^ w ∧
    elem (aluValue ty false (fun _ l => arg l 0 - arg l 1) [a, b]) w j = (x + 2 ^ w - y) % 2 ^ w ∧
    elem (aluValue ty false intMul [a, b]) w j = x * y % 2 ^ w ∧
    elem (aluValue ty false (fun _ l => arg l 0 * arg l 1 + arg l 2) [a, b, d]) w j = (x * y + z) % 2 ^ w ∧
    elem (aluValue ty true (fun _ l => arg l 0 + arg l 1) [a, b]) w j = clamp (intOf sg w x + intOf sg w y) ∧
    elem (aluValue ty true (fun _ l => arg l 0 - arg l 1) [a, b]) w j = clamp (intOf sg w x - intOf sg w y) ∧
    elem (aluValue ty true intMul [a, b]) w j = clamp (intOf sg w x * intOf sg w y) ∧
    elem (aluValue ty true (fun _ l => -arg l 0) [a]) w j = clamp (-intOf sg w x) ∧
    elem (aluValue ty false (fun _ l => min (arg l 0) (arg l 1)) [a, b]) w j = (if intOf sg w x ≤ intOf sg w y then x else y) ∧
    elem (aluValue ty false (fun _ l => max (arg l 0) (arg l 1)) [a, b]) w j = (if intOf sg w x ≤ intOf sg w y then y else x) ∧
    elem (aluValue ty false intShl [a, b]) w j = x * 2 ^ (y % w) % 2 ^ w ∧
    elem (aluValue ty false intShr [a, b]) w j = x / 2 ^ (y % w) ∧
    elem (aluValue ty false intSar [a, b]) w j = lowInt (intOf sg w x / (2 ^ (y % w) : Nat)) w ∧
    (y = 0 → elem (aluValue ty false intDiv [a, b]) w j = 2 ^ w - 1 ∧ elem (aluValue ty false intRem [a, b]) w j = x) ∧
    (y ≠ 0 → sg = false →
      elem (aluValue ty false intDiv [a, b]) w j = x / y ∧ elem (aluValue ty false intRem [a, b]) w j = x % y)

/-- The value that an element-by-element integer instruction of format A writes in lane `l` (R124). -/
def alu (s : State) (c : Ctx) (f : FmtA) (xs : List Opnd) (op : Nat → List Int → Int) (l : Nat) : Nat :=
  aluValue f.ty (f.mod == 6) op (xs.map fun x => readOp s.cycle c x (isWide f.ty) l)

/-- Source `x` of a format A instruction in lane `l`, as wide as the type. -/
def src (s : State) (c : Ctx) (f : FmtA) (x : Opnd) (l : Nat) : Nat := readOp s.cycle c x (isWide f.ty) l

/-- An instruction of format A completes with `val` as its result in each passing lane; no flag is raised. -/
def Writes (s : State) (c : Ctx) (i : Instr) (f : FmtA) (val : Nat → Nat) : Prop :=
  Issues s i c → LaneResult s c f.d (isWide f.ty) (f.ty == 1) val 0 (exec i s)

/-- The arithmetic, minimum and maximum, and shift instructions complete with the results of R125 in every passing
lane, or once in an s register, and change nothing else. -/
def Says.ArithmeticCompletes : Prop :=
  ∀ (s : State) (f : FmtA) (c : Ctx), c.pass ≠ 0 →
    Writes s c (.add f) f (alu s c f [f.a, f.b] fun _ l => arg l 0 + arg l 1) ∧
    Writes s c (.sub f) f (alu s c f [f.a, f.b] fun _ l => arg l 0 - arg l 1) ∧
    Writes s c (.mul f) f (alu s c f [f.a, f.b] fun _ l => arg l 0 * arg l 1) ∧
    Writes s c (.mulhi f) f (alu s c f [f.a, f.b] fun w l => arg l 0 * arg l 1 / (2 ^ w : Nat)) ∧
    Writes s c (.mad f) f (alu s c f [f.a, f.b, f.c] fun _ l => arg l 0 * arg l 1 + arg l 2) ∧
    Writes s c (.div f) f (alu s c f [f.a, f.b] intDiv) ∧
    Writes s c (.rem f) f (alu s c f [f.a, f.b] intRem) ∧
    Writes s c (.min f) f (alu s c f [f.a, f.b] fun _ l => min (arg l 0) (arg l 1)) ∧
    Writes s c (.max f) f (alu s c f [f.a, f.b] fun _ l => max (arg l 0) (arg l 1)) ∧
    Writes s c (.abs f) f (alu s c f [f.a] fun _ l => (arg l 0).natAbs) ∧
    Writes s c (.neg f) f (alu s c f [f.a] fun _ l => -arg l 0) ∧
    Writes s c (.shl f) f (alu s c f [f.a, f.b] intShl) ∧
    Writes s c (.shr f) f (alu s c f [f.a, f.b] intShr) ∧
    Writes s c (.sar f) f (alu s c f [f.a, f.b] intSar) ∧
    Writes s c (.rol f) f (alu s c f [f.a, f.b] intRol) ∧
    Writes s c (.cmp f) f (alu s c f [f.a, f.b] fun _ l => if condHolds f.mod.toNat (arg l 0) (arg l 1) then 1 else 0)

/-- The logic, bit-field, counting, selection and move instructions complete with the results of R125 and R126. -/
def Says.LogicCompletes : Prop :=
  ∀ (s : State) (f : FmtA) (c : Ctx), c.pass ≠ 0 →
    let n := if isWide f.ty then 64 else 32
    let a := src s c f f.a
    let b := src s c f f.b
    let d := src s c f f.c
    Writes s c (.and f) f (fun l => a l &&& b l) ∧
    Writes s c (.or f) f (fun l => a l ||| b l) ∧
    Writes s c (.xor f) f (fun l => a l ^^^ b l) ∧
    Writes s c (.andn f) f (fun l => a l &&& (2 ^ n - 1 - b l)) ∧
    Writes s c (.not f) f (fun l => 2 ^ n - 1 - a l) ∧
    Writes s c (.bfe f) f (fun l => bfeValue (f.ty == 1) (a l) (b l)) ∧
    Writes s c (.bfi f) f (fun l => bfiValue (a l) (b l) (d l)) ∧
    Writes s c (.popc f) f (fun l => ((List.range n).filter (a l).testBit).length) ∧
    Writes s c (.clz f) f (fun l => ((List.range n).filter fun k => a l / 2 ^ k = 0).length) ∧
    Writes s c (.ctz f) f (fun l => ((List.range n).filter fun k => a l % 2 ^ (k + 1) = 0).length) ∧
    Writes s c (.brev f) f (fun l => revBits (a l) n) ∧
    Writes s c (.sel f) f (fun l => if d l = 1 then a l else b l) ∧
    Writes s c (.mov f) f a

/-- `bfe`, `bfi` and `brev` as bits: bit i of `bfe` of an unsigned type is bit pos + i of A below the length; `bfi`
takes the bits of B inside the field and those of A outside; bit i of `brev` is bit n − 1 − i of A. -/
def Says.BitFields : Prop :=
  (∀ a b i : Nat, a < 2 ^ 32 → i < 32 →
    (bfeValue false a b).testBit i = (decide (i < min (b / 256 % 64) (32 - b % 32)) && a.testBit (b % 32 + i))) ∧
  (∀ a b c i : Nat, a < 2 ^ 32 → i < 32 →
    (bfiValue a b c).testBit i =
      if c % 32 ≤ i ∧ i < c % 32 + min (c / 256 % 64) (32 - c % 32) then b.testBit (i - c % 32) else a.testBit i) ∧
  (∀ a n i : Nat, i < n → (revBits a n).testBit i = a.testBit (n - 1 - i))

/-- O15. The results of R124 to R126, as numbers and as bits. -/
def Obligations.IntegerResults : Prop := Says.ElementResults ∧ Says.BitFields

/-- An instruction of format I completes with `val` as its result: 32 bits in a lane register, 64 in an s register, bit
0 in a predicate. -/
def WritesI (s : State) (c : Ctx) (i : Instr) (f : FmtI) (val : Nat → Nat) : Prop :=
  Issues s i c → LaneResult s c f.d (isS f.d) false val 0 (exec i s)

/-- The instructions with an immediate complete with the results of R127. -/
def Says.ImmediatesComplete : Prop :=
  ∀ (s : State) (f : FmtI) (c : Ctx), c.pass ≠ 0 →
    let a := readOp s.cycle c f.a (isS f.d)
    let imm := lowInt (sextNat f.imm.toNat 32) 64
    let here := textAddr c.la c.path.vtext c.path.pc
    WritesI s c (.movi f) f (fun _ => imm) ∧
    WritesI s c (.moviLabel f) f (fun _ => lowInt (here - imageOf c.la + sextNat f.imm.toNat 32) 32) ∧
    WritesI s c (.addi f) f (fun l => (a l + imm) % 2 ^ 64) ∧
    WritesI s c (.andi f) f (fun l => a l &&& imm) ∧
    WritesI s c (.ori f) f (fun l => a l ||| imm) ∧
    WritesI s c (.xori f) f (fun l => a l ^^^ imm) ∧
    WritesI s c (.cmpiSigned f) f
      (fun l => if condHolds (f.subi.toNat + 2) (sextNat (a l) 32) (sextNat f.imm.toNat 32) then 1 else 0) ∧
    WritesI s c (.cmpiUnsigned f) f
      (fun l => if condHolds (f.subi.toNat + 2) (a l % 2 ^ 32 : Nat) f.imm.toNat then 1 else 0) ∧
    WritesI s c (.cmpiEquality f) f
      (fun l => if condHolds f.subi.toNat (a l % 2 ^ 32 : Nat) f.imm.toNat then 1 else 0) ∧
    (Issues s (.lea f) c → LaneResult s c f.d true false (fun _ => lowInt (here + sextNat f.imm.toNat 32) 64) 0 (exec (.lea f) s)) ∧
    (Issues s (.movhi f) c → isS f.d = true →
      LaneResult s c f.d true false (fun _ => (sGet c.th (f.d.toNat - 0x100)).toNat % 2 ^ 32 + f.imm.toNat * 2 ^ 32) 0
        (exec (.movhi f) s)) ∧
    (Issues s (.movhi f) c → isS f.d = false →
      LaneResult s c (f.d + 1) false false (fun _ => f.imm.toNat) 0 (exec (.movhi f) s))

/-- O16. Every integer instruction completes with its result and nothing else changed. -/
def Obligations.IntegerInstructionsComplete : Prop := Says.ArithmeticCompletes ∧ Says.LogicCompletes ∧ Says.ImmediatesComplete

/-- `pand`, `por`, `pxor` and `pnot` set kD[l] to kA[l] AND kB[l], kA[l] OR kB[l], kA[l] XOR kB[l] and NOT kA[l] in
each active lane that passes the guard; k0 reads true. -/
def Says.PredicatesComplete : Prop :=
  ∀ (s : State) (f : FmtA) (c : Ctx), c.pass ≠ 0 →
    let k := fun (x : Opnd) l => (kGet c.wg (x.toNat - 0x140)).getLsbD l
    let bit := fun (b : Bool) => if b then 1 else 0
    (Issues s (.pand f) c → LaneResult s c f.d false false (fun l => bit (k f.a l && k f.b l)) 0 (exec (.pand f) s)) ∧
    (Issues s (.por f) c → LaneResult s c f.d false false (fun l => bit (k f.a l || k f.b l)) 0 (exec (.por f) s)) ∧
    (Issues s (.pxor f) c → LaneResult s c f.d false false (fun l => bit (k f.a l != k f.b l)) 0 (exec (.pxor f) s)) ∧
    (Issues s (.pnot f) c → LaneResult s c f.d false false (fun l => bit (!k f.a l)) 0 (exec (.pnot f) s)) ∧
    (kGet c.wg 0 = BitVec.allOnes 512)

/-- `nop` completes: the path goes on, and no register changes. It reads no guard (R378). -/
def Says.NopCompletes : Prop :=
  ∀ (s : State) (f : FmtA) (c : Ctx), c.pass ≠ 0 → Issues s (.nop f) c →
    c.pass = c.act ∧ LaneResult s c opZero false false (fun _ => 0) 0 (exec (.nop f) s)

/-- An instruction whose guard fails in every active lane leaves every register as it was, FPFLAGS too, and the path
goes on at the next instruction. It holds of every instruction of T-form and V-form that has its effect lane by lane or
once (R24, R66), the instructions apart that act on the path as a whole. -/
def Says.FailedGuardOnlyAdvances : Prop :=
  ∀ (s : State) (i : Instr) (c : Ctx), (encodeTV i).isSome = true → runsEmpty i = false → Issues s i c → c.pass = 0 →
    c.path.mask ≠ 0 →
    ∃ t w th, exec i s = .next t ∧ wgOf t c.wid = some w ∧ w.threads[c.tix]? = some th ∧ GoesToNext c th ∧
      w.v = c.wg.v ∧ w.k = c.wg.k ∧ th.sregs = c.th.sregs ∧ w.fpflags = c.wg.fpflags ∧ w.pad = c.wg.pad ∧
      t.mem = s.mem ∧ t.cores = s.cores ∧ t.transfers = s.transfers ∧ t.parts = s.parts ∧
      (∀ v, v ≠ c.wid → wgOf t v = wgOf s v)

/-- O17. Predicate instructions, `nop` and failed guards. -/
def Obligations.PredicatesAndGuards : Prop := Says.PredicatesComplete ∧ Says.NopCompletes ∧ Says.FailedGuardOnlyAdvances

/-! ### Floating-point, conversion and lane instructions (R66, R113 to R120, R143 to R157) -/

/-- The index that stands for %glane in MOD 5: the lane, or for a result written once one that the spec leaves open
(R117, log 16). -/
def roundIndex (f : FmtA) (l : Nat) : Nat := if isS f.d then Config.onceGlane l else l

/-- The flags that the results of the passing lanes raise, or that of the lowest for a result written once. -/
def flagsOf (c : Ctx) (f : FmtA) (val : Nat → Flagged) : FFlags :=
  if isS f.d then (val (lowestLane c.pass)).2 else (lanesOf c.pass).foldl (fun fl l => fl ||| (val l).2) 0

/-- A floating-point instruction completes: the values in the passing lanes, and their flags ORed into FPFLAGS. -/
def WritesF (s : State) (c : Ctx) (i : Instr) (f : FmtA) (wide signed : Bool) (val : Nat → Flagged) : Prop :=
  Issues s i c → LaneResult s c f.d wide signed (fun l => (val l).1) (flagsOf c f val) (exec i s)

/-- The value and flags of R143 in lane `l`: the exact results of `op` on the elements, each rounded once. -/
def fp (s : State) (c : Ctx) (f : FmtA) (xs : List Opnd) (op : RMode → List XVal → XVal × FFlags) (l : Nat) : Flagged :=
  fpValue c.wg f.ty f.mod.toNat (roundIndex f l) op (xs.map fun x => readOp s.cycle c x false l)

/-- The floating-point arithmetic and the special functions complete with the exact result rounded once. (`fexp2`,
`flog2`, `fsinpi`, `fcospi` and `ftanh` round the model's 200-place value with a sticky mark: log 14, DEDUCED.) -/
def Says.FloatingCompletes : Prop :=
  ∀ (s : State) (f : FmtA) (c : Ctx), c.pass ≠ 0 →
    WritesF s c (.fadd f) f false false (fp s c f [f.a, f.b] fun m l => xAdd m (xarg l 0) (xarg l 1)) ∧
    WritesF s c (.fsub f) f false false (fp s c f [f.a, f.b] fun m l => xAdd m (xarg l 0) (xNeg (xarg l 1))) ∧
    WritesF s c (.fmul f) f false false (fp s c f [f.a, f.b] fun _ l => xMul (xarg l 0) (xarg l 1)) ∧
    WritesF s c (.fma f) f false false (fp s c f [f.a, f.b, f.c] fun m l => xFma m (xarg l 0) (xarg l 1) (xarg l 2)) ∧
    WritesF s c (.fdiv f) f false false (fp s c f [f.a, f.b] fun _ l => xDiv (xarg l 0) (xarg l 1)) ∧
    WritesF s c (.frcp f) f false false (fp s c f [f.a] fun _ l => xDiv xOne (xarg l 0)) ∧
    WritesF s c (.frsq f) f false false (fp s c f [f.a] fun _ l => xRsqrt (xarg l 0)) ∧
    WritesF s c (.fsqrt f) f false false (fp s c f [f.a] fun _ l => xSqrt (xarg l 0)) ∧
    WritesF s c (.fexp2 f) f false false (fp s c f [f.a] fun _ l => xExp2 (xarg l 0)) ∧
    WritesF s c (.flog2 f) f false false (fp s c f [f.a] fun _ l => xLog2 (xarg l 0)) ∧
    WritesF s c (.fsinpi f) f false false (fp s c f [f.a] fun _ l => xSinPi (xarg l 0)) ∧
    WritesF s c (.fcospi f) f false false (fp s c f [f.a] fun _ l => xCosPi (xarg l 0)) ∧
    WritesF s c (.ftanh f) f false false (fp s c f [f.a] fun _ l => xTanh (xarg l 0))

/-- `fmin`, `fmax`, `fabs` and `fneg` complete on the codes of the elements, raising no flag; `fcmp` writes the
truth of its condition in each element. -/
def Says.FloatingCodesComplete : Prop :=
  ∀ (s : State) (f : FmtA) (c : Ctx) (fm : FFmt), c.pass ≠ 0 → fmtOf f.ty = some fm →
    let n := (elemShape f.ty).2
    let a := fun l j => elem (readOp s.cycle c f.a false l) fm.bits j
    let b := fun l j => elem (readOp s.cycle c f.b false l) fm.bits j
    let each := fun (op : Nat → Nat → Nat) l => joinElems fm.bits ((List.range n).map (op l))
    (Issues s (.fmin f) c → LaneResult s c f.d false false (each fun l j => codeMin fm (a l j) (b l j)) 0 (exec (.fmin f) s)) ∧
    (Issues s (.fmax f) c → LaneResult s c f.d false false (each fun l j => codeMax fm (a l j) (b l j)) 0 (exec (.fmax f) s)) ∧
    (Issues s (.fabs f) c → LaneResult s c f.d false false (each fun l j => codeAbs fm (a l j)) 0 (exec (.fabs f) s)) ∧
    (Issues s (.fneg f) c → LaneResult s c f.d false false (each fun l j => codeNeg fm (a l j)) 0 (exec (.fneg f) s)) ∧
    WritesF s c (.fcmp f) f false false fun l => joinFlagged fm.bits ((List.range n).map fun j =>
      let (t, fl) := fcmpHolds f.mod.toNat (decodeFloat fm (a l j)) (decodeFloat fm (b l j))
      (if t then 1 else 0, fl))

/-- O18. Every floating-point instruction completes with its result and flags, and nothing else changed. -/
def Obligations.FloatingInstructionsComplete : Prop := Says.FloatingCompletes ∧ Says.FloatingCodesComplete

/-- O19. The order of codes that `fmin` and `fmax` use, and what `fabs`, `fneg` and compares give (R145, R146): a NaN
gives the canonical NaN, −0 orders below +0, and the sign alone changes; with a NaN only `.ne` and `.un` hold, and the
ordered conditions raise NV. -/
def Obligations.FloatingCodeRules : Prop :=
  (∀ (f : FFmt) (a b : Nat), decodeFloat f a = .nan ∨ decodeFloat f b = .nan →
    codeMin f a b = canonNaN f ∧ codeMax f a b = canonNaN f) ∧
  (∀ (f : FFmt) (a : Nat), decodeFloat f a = .nan → codeAbs f a = canonNaN f ∧ codeNeg f a = canonNaN f) ∧
  (codeMin fmtF32 0 0x80000000 = 0x80000000 ∧ codeMax fmtF32 0x80000000 0 = 0 ∧ codeMin fmtF32 0x80000000 0 = 0x80000000) ∧
  (∀ a : Nat, a < 2 ^ 32 → decodeFloat fmtF32 a ≠ .nan →
    codeAbs fmtF32 a = a % 2 ^ 31 ∧ codeNeg fmtF32 a = (a + 2 ^ 31) % 2 ^ 32) ∧
  (∀ (cc : Nat) (a b : XVal), cc ≤ 7 → a = .nan ∨ b = .nan →
    ((fcmpHolds cc a b).1 = true ↔ cc = 1 ∨ cc = 6) ∧
    (fcmpHolds cc a b).2 = if 2 ≤ cc ∧ cc ≤ 5 then flagNV else 0) ∧
  (∀ (a b : XVal), a ≠ .nan → b ≠ .nan → ∀ cc, (fcmpHolds cc a b).2 = 0)

/-- Conversions, packing and dot products complete with the results of R148 to R151. -/
def Says.ConversionsComplete : Prop :=
  ∀ (s : State) (f : FmtA) (c : Ctx), c.pass ≠ 0 →
    let a := fun l => readOp s.cycle c f.a false l
    let b := fun l => readOp s.cycle c f.b false l
    let d := fun l => readOp s.cycle c f.c false l
    let ctl := fun l j => ctlRound c.wg.rm c.wg.skey f.mod.toNat (roundIndex f l) j none
    WritesF s c (.cvt f) f (isWide f.ty) (f.ty == 1) (fun l =>
      cvtValue f.sub f.ty (f.mod == 6) (cvtRound s.cycle c f l (roundIndex f l)) (readOp s.cycle c f.a (isWide f.sub) l)) ∧
    WritesF s c (.pack f) f false false (fun l =>
      let rest := if (elemShape f.ty).2 > 2 then
        (List.range ((elemShape f.ty).2 - 2)).map fun j => (elem (d l) (elemShape f.ty).1 j, (0 : FFlags)) else []
      joinFlagged (elemShape f.ty).1
        (packElem f.ty (f.mod == 6) (ctl l 0) (a l) :: packElem f.ty (f.mod == 6) (ctl l 1) (b l) :: rest)) ∧
    (Issues s (.unpack f) c → LaneResult s c f.d false (isSigned f.ty)
      (fun l => unpackValue f.ty (elem (a l) (elemShape f.ty).1 f.sub.toNat)) 0 (exec (.unpack f) s)) ∧
    WritesF s c (.dot2 f) f false (isSigned f.ty)
      (fun l => dotValue c.wg f.ty f.mod.toNat (roundIndex f l) (a l) (b l) (d l)) ∧
    WritesF s c (.dot4 f) f false (isSigned f.ty)
      (fun l => dotValue c.wg f.ty f.mod.toNat (roundIndex f l) (a l) (b l) (d l))

/-- The values of R148 and R150 where no rounding enters: an integer to an integer type modulo 2^w or clamped, the
same type copied whatever it holds, `unpack` of an integer element extended by its sign or by zeros, and the spec's
worked conversion of 3.1415927 to bf16x2. -/
def Says.ExactConversions : Prop :=
  (∀ (ty : BitVec 4) (sat : Bool) (r : Nat → RCtx) (a : Nat), cvtValue ty ty sat r a = (a, 0)) ∧
  (∀ (r : Nat → RCtx) (a : Nat), a < 2 ^ 32 → cvtValue 1 0xD false r a = (lowInt (sextNat a 32) 64, 0)) ∧
  (∀ (r : Nat → RCtx) (a : Nat), a < 2 ^ 64 → cvtValue 0xE 2 true r a = (min a (2 ^ 32 - 1), 0)) ∧
  (∀ x : Nat, x < 2 ^ 16 → unpackValue 6 x = lowInt (sextNat x 16) 32) ∧
  (∀ x : Nat, x < 2 ^ 16 → unpackValue 7 x = x) ∧
  (cvtValue 3 5 false (fun _ => { mode := .rne }) 0x40490FDB).1 = 0x4049

/-- O20. Conversions, packing and dot products. -/
def Obligations.Conversions : Prop := Says.ConversionsComplete ∧ Says.ExactConversions

/-- The lanes of the passing set that share a block of 32 with lane `l` (R152, width `.g`). -/
def groupAt (c : Ctx) (l : Nat) : List Nat := (lanesOf c.pass).filter fun q => q / 32 = l / 32

/-- The lane instructions of width `.g` complete: `shfl` and `bcast` with values of lanes that take part, `vote`,
`redux` and `popk` with the combination over the block's passing lanes in ascending order. (In V-form the spec leaves
open which block an s destination takes its result from, log 17; here the passing lanes then lie in one block.) -/
def Says.LaneInstructionsComplete : Prop :=
  ∀ (s : State) (f : FmtA) (c : Ctx), c.pass ≠ 0 → isWideLane f = false →
    (isS f.d = true → ∀ l ∈ lanesOf c.pass, l / 32 = lowestLane c.pass / 32) →
    let w := isWide f.ty
    let a := fun l => readOp s.cycle c f.a w l
    let b := fun l => readOp s.cycle c f.b false l
    let holds := fun l => readOp s.cycle c f.a false l = 1
    let pick := fun (l : Nat) (n : Int) (other : Nat) =>
      if 0 ≤ n ∧ n < 32 ∧ c.pass.getLsbD (l / 32 * 32 + n.toNat) = true then a (l / 32 * 32 + n.toNat) else other
    let combine := fun (ls : List Nat) => match ls.map fun l => ((reduxSeed f (a l), 0) : Flagged) with
      | [] => (0, 0)
      | x :: t => t.foldl (reduxStep f) x
    (Issues s (.shfl f) c → LaneResult s c f.d w (f.ty == 1) (fun l =>
      let i := l % 32
      let n : Int := match f.sub.toNat % 8 with
        | 0 => b l
        | 1 => (i : Int) - b l
        | 2 => (i : Int) + b l
        | _ => ((i ^^^ b l : Nat) : Int)
      pick l n (a l)) 0 (exec (.shfl f) s)) ∧
    (Issues s (.bcast f) c → LaneResult s c f.d w (f.ty == 1) (fun l => pick l (b l) 0) 0 (exec (.bcast f) s)) ∧
    (Issues s (.vote f) c → LaneResult s c f.d w (f.ty == 1) (fun l =>
      match f.sub.toNat % 8 with
      | 0 => if ∃ q ∈ groupAt c l, holds q then 1 else 0
      | 1 => if ∀ q ∈ groupAt c l, holds q then 1 else 0
      | _ => ((groupAt c l).map fun q => if holds q then 2 ^ (q % 32) else 0).sum) 0 (exec (.vote f) s)) ∧
    (Issues s (.popk f) c → LaneResult s c f.d w (f.ty == 1)
      (fun l => ((groupAt c l).filter fun q => decide (holds q)).length) 0 (exec (.popk f) s)) ∧
    (Issues s (.redux f) c → LaneResult s c f.d w (f.ty == 1) (fun l => (combine (groupAt c l)).1)
      ((List.range 16).foldl (fun fl g => fl ||| (combine ((lanesOf c.pass).filter fun q => q / 32 = g)).2) 0)
      (exec (.redux f) s))

/-- A lane instruction of width `.w` in T-form is a wait point: while another thread of the workgroup that has not
retired has not reached the round, the path waits at the instruction and no register changes. -/
def Says.WideLaneInstructionWaits : Prop :=
  ∀ (s : State) (i : Instr) (f : FmtA) (c : Ctx) (g : Nat) (t2 : Thread), laneFields i = some f → isWideLane f = true →
    Issues s i c → c.pass ≠ 0 → c.path.vtext = false → c.th.strand = false → c.path.mask ≠ 0 →
    g ≠ c.tix → c.wg.threads[g]? = some t2 → retired c.wg t2 = false → roundPath t2 c.path.pc = none →
    ∃ t w th p, exec i s = .next t ∧ wgOf t c.wid = some w ∧ w.threads[c.tix]? = some th ∧ p ∈ th.paths ∧
      p.mask = c.path.mask ∧ p.pc = c.path.pc ∧ p.wait = .lane s.cycle c.word ∧
      w.v = c.wg.v ∧ w.k = c.wg.k ∧ th.sregs = c.th.sregs ∧ t.mem = s.mem

/-- O21. Lane instructions of both widths. -/
def Obligations.LaneInstructions : Prop := Says.LaneInstructionsComplete ∧ Says.WideLaneInstructionWaits

/-! ### Memory instructions (R85, R160 to R167, R249, R250, R401, R444) -/

/-- What a load of one lane reads. From the scratchpad: the bytes at the lane's address. From global memory, with
no byte of it in the core's coalescing buffer and no copy in L1 that the load may take: the bytes at the physical
address, little-endian. A byte that the coalescing buffer holds is read from there where it is good (R406), and memory is
unchanged. -/
def Says.LoadReadsMemory : Prop :=
  ∀ (f : FmtM) (c : Ctx) (once : Bool) (a : Access) (l : Nat),
    let n := accessBytes f.ty
    let ea := addrM a.st.cycle c f l
    (∀ w, f.sp = 1 → wgOf a.st c.wid = some w → ea % n = 0 → padHas c.wg.pad ea n = true → padBad w.pad ea n = false →
      zstPending c.wg c.tix ea n = false →
      loadLane f c once a l = some { a with vals := a.vals ++ [(l, readLE w.pad.scratch ea n)] }) ∧
    (∀ pa attr s1, f.sp = 0 → canonical ea = true → ea % n = 0 → pa % n = 0 →
      translate a.st (spaceOf c.la c.wg.core) .read ea = .ok pa attr s1 → inTx c l = false → inHost pa = false →
      reaches s1 true pa = true → (∀ i, i < n → cbByte (coreOf s1 c.wg.core) (pa + i) = none) →
      tfind (coreOf s1 c.wg.core).l1 (pa / 32) = none ∨ 3 ≤ f.scope.toNat ∨ attr ≠ 0 →
      lockedFor s1 none pa n = false → badData s1 pa n = false →
      ∃ s2, loadLane f c once a l =
          some { a with st := s2, vals := a.vals ++ [(l, readLE a.st.mem pa n)], plain := true } ∧ s2.mem = a.st.mem) ∧
    (∀ pa attr s1, f.sp = 0 → canonical ea = true → ea % n = 0 →
      translate a.st (spaceOf c.la c.wg.core) .read ea = .ok pa attr s1 → inTx c l = false → inHost pa = false →
      reaches s1 true pa = true → (∀ i, i < n → (cbByte (coreOf s1 c.wg.core) (pa + i)).isSome = true) →
      cbBad (coreOf s1 c.wg.core) pa n = false →
      loadLane f c once a l =
        some { a with st := s1, plain := true,
                      vals := a.vals ++ [(l, ofBytes ((List.range n).map fun i => (cbByte (coreOf s1 c.wg.core) (pa + i)).getD 0))] })

/-- O22. The checks of an address in the order of R401: a global address that is not canonical, an address that is not
aligned to the access, and a scratchpad address outside the allocation, fail in the lane with their causes at stage 15,
before any access. -/
def Obligations.AddressChecks : Prop :=
  ∀ (f : FmtM) (c : Ctx) (a : Access) (l : Nat),
    let n := accessBytes f.ty
    let ea := addrM a.st.cycle c f l
    let fails := fun cause => some { a with fails := a.fails ++ [⟨l, 15, cause, ea⟩] }
    (f.sp = 0 → canonical ea = false → loadLane f c false a l = fails .noncanonical ∧ storeLane f c false a l = fails .noncanonical) ∧
    (f.sp = 0 → canonical ea = true → ea % n ≠ 0 →
      loadLane f c false a l = fails .misaligned ∧ storeLane f c false a l = fails .misaligned) ∧
    (f.sp = 1 → ea % n ≠ 0 → loadLane f c false a l = fails .misaligned ∧ storeLane f c false a l = fails .misaligned) ∧
    (f.sp = 1 → ea % n = 0 → padHas c.wg.pad ea n = false →
      loadLane f c false a l = fails .scratchRange ∧ storeLane f c false a l = fails .scratchRange)

/-- `ld` completes when every lane's access can be made: the values, extended as R160 states, are set out for the
destination and return a number of cycles later (R444; how many is open, log 10); an acquire at gang scope or wider then
drops the core's L1 lines. No register is written yet, and nothing else changes. (While lanes' reads of the host window are
under way the path waits at the instruction: log 42, DEDUCED.) -/
def Says.LoadCompletes : Prop :=
  ∀ (s : State) (f : FmtM) (c : Ctx) (a : Access), Issues s (.ld f) c → c.pass ≠ 0 → c.path.mask ≠ 0 →
    eachAccess (accessLanes c (isS f.d)) (loadLane f (runCtx s c) (isS f.d)) (runState s c (.ld f)) = some a →
    a.fails = [] → a.gone = [] → a.asks = 0 →
    let s1 := if a.plain && f.ord == 1 && 3 ≤ f.scope.toNat then acquireGang a.st c.wg.core else a.st
    ∃ t, exec (.ld f) s = .next t ∧
      Ends (sendHome s1 c f.d (isWide f.ty) (a.vals.map fun x => (x.1, loadValue f.ty x.2))) t c

/-- LOAD_VALUE_RETURN: when the value of a load is due, each lane register and the s register that it was set out
for take it, every other lane register keeps its value, and the value is in flight no more. -/
def Says.LoadValueReturns : Prop :=
  ∀ (s : State) (wid tix fid : Nat) (w : Workgroup) (t : Thread) (f : Flight),
    wgOf s wid = some w → w.threads[tix]? = some t →
    t.flights.find? (fun f => f.fid = fid && (f.due.any fun d => d ≤ s.cycle)) = some f →
    (∀ e ∈ f.lanes, e.2.1 < 256) → f.lanes.Pairwise (fun x y => (x.1, x.2.1) ≠ (y.1, y.2.1)) →
    ∃ s' w' t', exec (.loadValueReturn wid tix fid) s = .next s' ∧ wgOf s' wid = some w' ∧ w'.threads[tix]? = some t' ∧
      (∀ e ∈ f.lanes, vGet w' e.1 e.2.1 = e.2.2) ∧
      (∀ l r, r < 256 → (∀ e ∈ f.lanes, (e.1, e.2.1) ≠ (l, r)) → vGet w' l r = vGet w l r) ∧
      (∀ n x, f.sreg = some (n, x) → sGet t' n = x) ∧ (∀ n, f.sreg.all (·.1 ≠ n) = true → sGet t' n = sGet t n) ∧
      t'.flights = t.flights.filter (·.fid ≠ fid) ∧ t'.paths = t.paths ∧ w'.k = w.k ∧ s'.mem = s.mem

/-- O23. Loads: what a lane reads, how `ld` completes, and how its value returns. -/
def Obligations.Loads : Prop := Says.LoadReadsMemory ∧ Says.LoadCompletes ∧ Says.LoadValueReturns

/-- What a store of one lane does. To the scratchpad: the bytes of the lane's data at its address. To global memory
at scope none, group or core: the bytes enter the core's coalescing buffer, and memory is unchanged while the buffer has
room. At gang scope or wider: the bytes are in memory, and every other byte of memory is unchanged. -/
def Says.StoreWritesMemory : Prop :=
  (∀ (s : State) (wid a : Nat) (bytes : List Byte) (w : Workgroup), wgOf s wid = some w →
    ∃ w', wgOf (padStore s wid a bytes) wid = some w' ∧
      (∀ i b, bytes[i]? = some b → memByte w'.pad.scratch (a + i) = b) ∧
      (∀ x, x < a ∨ a + bytes.length ≤ x → memByte w'.pad.scratch x = memByte w.pad.scratch x) ∧
      w'.v = w.v ∧ w'.k = w.k ∧ (padStore s wid a bytes).mem = s.mem) ∧
  (∀ (s s' : State) (core pa : Nat) (bytes : List Byte), cbStore s core pa bytes = some s' → pa % 128 + bytes.length ≤ 128 →
    (∀ i b, bytes[i]? = some b → cbByte (coreOf s' core) (pa + i) = some b) ∧
    ((coreOf s core).cb.length < 32 → s'.mem = s.mem)) ∧
  (∀ (s s' : State) (core pa : Nat) (bytes : List Byte), slicedStore s core none pa bytes = some s' →
    (inHost pa && !s.linkUp) = false →
    (∀ i b, bytes[i]? = some b → memByte s'.mem (pa + i) = b) ∧
    (∀ x, x < pa ∨ pa + bytes.length ≤ x → memByte s'.mem x = memByte s.mem x))

/-- `st` completes when every lane's access can be made, once where data and address are uniform (R161), behind a
drain of the core's coalescing buffer where it is a release at gang scope or wider: the effects of its lanes' stores,
in ascending order, and nothing else. -/
def Says.StoreCompletes : Prop :=
  ∀ (s s1 : State) (f : FmtM) (c : Ctx) (a : Access), Issues s (.st f) c → c.pass ≠ 0 → c.path.mask ≠ 0 →
    let once := isUniform f.d && isUniform f.a && isUniform f.x
    let lanes := accessLanes c once
    let releases := f.sp == 0 && f.ord == 2 && 3 ≤ f.scope.toNat && lanes.any fun l => !inTx (runCtx s c) l
    (if releases then releaseGang (runState s c (.st f)) c.wg.core else some (runState s c (.st f))) = some s1 →
    eachAccess lanes (storeLane f (runCtx s c) once) s1 = some a → a.fails = [] → a.gone = [] →
    ∃ t, exec (.st f) s = .next t ∧ Ends a.st t c

/-- `st` runs to its end, on conditions on the state and the operands alone. To the scratchpad: where every
lane's address is aligned and in range and no queued `zst` of its thread still has to write there, the lanes' bytes
are stored in ascending order. To global memory, for a store that one lane makes: where the address is canonical and
aligned, its page can be written and its rank is reached, then at scope none, group or core, with room in the core's
coalescing buffer, the bytes are in the buffer, what it held of other bytes is as before, and so is memory; and at
gang scope or wider, a release with nothing in that buffer, the bytes are in memory, and every other byte is as
before. -/
def Says.StoreRuns : Prop :=
  ∀ (s : State) (f : FmtM) (c : Ctx), Issues s (.st f) c → c.pass ≠ 0 → c.path.mask ≠ 0 →
    let once := isUniform f.d && isUniform f.a && isUniform f.x
    let s0 := runState s c (.st f)
    let n := accessBytes f.ty
    let ea := addrM s.cycle (runCtx s c) f
    let bytes := fun l => toBytes n (readOp s.cycle (runCtx s c) f.d (isWide f.ty) l)
    let core := c.wg.core
    (f.sp = 1 → (∀ l ∈ accessLanes c once, ea l % n = 0 ∧ padHas c.wg.pad (ea l) n = true ∧
        zstPending c.wg c.tix (ea l) n = false) →
      ∃ t, exec (.st f) s = .next t ∧
        Ends ((accessLanes c once).foldl (fun s' l => padStore s' c.wid (ea l) (bytes l)) s0) t c) ∧
    (∀ (l pa attr : Nat) (s1 : State), f.sp = 0 → accessLanes c once = [l] → inTx (runCtx s c) l = false →
      canonical (ea l) = true → ea l % n = 0 → translate s0 (spaceOf c.la core) .write (ea l) = .ok pa attr s1 →
      reaches s1 false pa = true →
      (f.scope.toNat < 3 → (coreOf s1 core).cb.length < 32 → ∃ t s', exec (.st f) s = .next t ∧ Ends s' t c ∧
        (∀ i, cbByte (coreOf s' core) (pa + i) = if i < n then (bytes l)[i]? else cbByte (coreOf s1 core) (pa + i)) ∧
        (∀ x, x < pa → cbByte (coreOf s' core) x = cbByte (coreOf s1 core) x) ∧ s'.mem = s.mem ∧
        wgOf s' c.wid = wgOf s0 c.wid) ∧
      (3 ≤ f.scope.toNat → (f.ord = 2 → (coreOf s core).cb = []) → lockedFor s1 none pa n = false →
        (inHost pa && !s1.linkUp) = false → ¬(f.ord = 2 ∧ f.scope = 5 ∧ (coreOf s1 core).dropped = true) →
        ∃ t s', exec (.st f) s = .next t ∧ Ends s' t c ∧ (∀ i b, (bytes l)[i]? = some b → memByte s'.mem (pa + i) = b) ∧
          ∀ x, x < pa ∨ pa + n ≤ x → memByte s'.mem x = memByte s.mem x))

/-- O24. Stores: what a lane's store does, how `st` completes, and when it runs to its end. -/
def Obligations.Stores : Prop := Says.StoreWritesMemory ∧ Says.StoreCompletes ∧ Says.StoreRuns

/-- Each AOP computes the value of R164 and is permitted for its types alone. -/
def Says.AtomicValues : Prop :=
  (∀ (e : Env) (f : FmtMA), f.aop.toNat ≤ 12 →
    let types := match f.aop.toNat with
      | 0 | 1 | 2 => [1, 2, 13, 14]
      | 3 | 4 | 5 => [0, 1, 2, 13, 14]
      | 6 | 7 => [0, 1, 2, 3, 13, 14]
      | 8 | 9 => [2]
      | _ => [3, 4, 5]
    f.ty.toNat ∉ types → judge e (.atom f) = some .badType ∧ judge e (.red f) = some .badType) ∧
  (∀ (ty : BitVec 4) (b cmp old : Nat), isWide ty = true ∨ ty.toNat ≤ 2 →
    let w := if isWide ty then 64 else 32
    let v := fun (x : Nat) => if isSigned ty then sextNat x w else (x : Int)
    b < 2 ^ w → old < 2 ^ w →
    atomNew 0 ty b cmp old = (old + b) % 2 ^ w ∧
    atomNew 1 ty b cmp old = (if v b < v old then b else old) ∧
    atomNew 2 ty b cmp old = (if v old < v b then b else old) ∧
    atomNew 3 ty b cmp old = old &&& b ∧ atomNew 4 ty b cmp old = old ||| b ∧ atomNew 5 ty b cmp old = old ^^^ b ∧
    atomNew 6 ty b cmp old = b ∧ atomNew 7 ty b cmp old = (if old = cmp then b else old)) ∧
  (∀ (b cmp old : Nat), atomNew 8 2 b cmp old = (if old ≥ b then 0 else old + 1) ∧
    atomNew 9 2 b cmp old = (if old = 0 ∨ old > b then b else old - 1)) ∧
  (∀ (b cmp old : Nat), b < 2 ^ 32 → old < 2 ^ 32 →
    atomNew 10 3 b cmp old =
      (roundFloat fmtF32 { mode := .rne } (xAdd .rne (decodeFloat fmtF32 old) (decodeFloat fmtF32 b)).1).1 % 2 ^ 32 ∧
    atomNew 11 3 b cmp old = codeMin fmtF32 old b ∧ atomNew 12 3 b cmp old = codeMax fmtF32 old b)

/-- One lane's atomic. On the scratchpad the old value is returned and the new one of R164 is there, in one step. On
a page of the host or peer window an atomic beyond `.add`, `.xchg` and `.cas` takes PAGE_PERMISSION (R258, R262). -/
def Says.ScratchpadAtomic : Prop :=
  (∀ (f : FmtMA) (c : Ctx) (once : Bool) (a : Access) (l : Nat) (w : Workgroup),
    let n := if isWide f.ty then 8 else 4
    let ea := addrMA a.st.cycle c f l
    let b := readOp a.st.cycle c f.b (isWide f.ty) l
    let cmp := if f.aop == 7 then readOp a.st.cycle c f.c (isWide f.ty) l else 0
    f.sp = 1 → wgOf a.st c.wid = some w → ea % n = 0 → padHas c.wg.pad ea n = true → padBad w.pad ea n = false →
    zstPending c.wg c.tix ea n = false →
    let old := readLE w.pad.scratch ea n
    let new := atomNew f.aop.toNat f.ty b cmp old
    ∃ s' w', atomLane f c once a l = some { a with st := s', vals := a.vals ++ [(l, old)] } ∧ wgOf s' c.wid = some w' ∧
      readLE w'.pad.scratch ea n = new % 2 ^ (8 * n) ∧
      (∀ x, x < ea ∨ ea + n ≤ x → memByte w'.pad.scratch x = memByte w.pad.scratch x)) ∧
  (∀ (f : FmtMA) (c : Ctx) (once : Bool) (a : Access) (l pa attr : Nat) (s' : State),
    let n := if isWide f.ty then 8 else 4
    let ea := addrMA a.st.cycle c f l
    f.sp = 0 → locateAccess a.st c true .both ea n = .at_ (.mem pa attr) s' → attr ≠ 0 → f.aop ∉ [0, 6, 7] →
    atomLane f c once a l = some { a with fails := a.fails ++ accessFail c once l 15 .pagePermission ea })

/-- `atom` and `red` complete when every lane's access can be made: in ascending lane order, each lane seeing what the
one before left, behind the release and before the acquire that ORD and SCOPE ask for; `atom` sets the old values out
for its destination, `red` returns none. -/
def Says.AtomicsComplete : Prop :=
  ∀ (s s1 : State) (f : FmtMA) (c : Ctx) (a : Access) (returns : Bool), c.pass ≠ 0 → c.path.mask ≠ 0 →
    let i := if returns then Instr.atom f else Instr.red f
    Issues s i c →
    let once := returns && isS f.d
    let wide := f.sp == 0 && 3 ≤ f.scope.toNat
    (if wide && f.ord.getLsbD 1 then releaseGang (runState s c i) c.wg.core else some (runState s c i)) = some s1 →
    eachAccess (accessLanes c once) (atomLane f (runCtx s c) once) s1 = some a → a.fails = [] → a.gone = [] → a.asks = 0 →
    let s2 := if wide && a.plain && f.ord.getLsbD 0 then acquireGang a.st c.wg.core else a.st
    let s3 := if returns then sendHome s2 c f.d (isWide f.ty)
      (a.vals.map fun x => (x.1, if f.ty == 1 then lowInt (sextNat x.2 32) 64 else x.2)) else s2
    ∃ t, exec i s = .next t ∧ Ends s3 t c

/-- O25. Atomics: the values of R164, one lane's atomic, and how `atom` and `red` complete. -/
def Obligations.Atomics : Prop := Says.AtomicValues ∧ Says.ScratchpadAtomic ∧ Says.AtomicsComplete

/-- O26. `fence`, `prefetch` and `cctl` complete. A fence narrower than gang scope only advances the path; a wider one
drains the core's coalescing buffer, invalidates its L1 lines, or both, as its order says. A prefetch changes L1 copies
alone, and `cctl.inv` drops the lines of its range; registers and memory are as they were. (While the walk of one of
their addresses meets a locked table sector they wait, R285; a release at system scope that waits on writes which the
host link has dropped, those of its own drain among them, ends with LINK_ERROR in each lane instead, R437.) -/
def Obligations.FencesAndCacheControlComplete : Prop :=
  ∀ (s : State) (c : Ctx), c.pass ≠ 0 → c.path.mask ≠ 0 →
    (∀ f : FmtM, Issues s (.fence f) c → f.scope.toNat < 3 →
      ∃ t, exec (.fence f) s = .next t ∧ Ends (runState s c (.fence f)) t c) ∧
    (∀ (f : FmtM) (s1 : State), Issues s (.fence f) c → 3 ≤ f.scope.toNat →
      (if f.ord.getLsbD 1 then releaseGang (runState s c (.fence f)) c.wg.core else some (runState s c (.fence f))) = some s1 →
      ¬(f.ord.getLsbD 1 = true ∧ f.scope = 5 ∧ (coreOf s1 c.wg.core).dropped = true) →
      ∃ t, exec (.fence f) s = .next t ∧ Ends (if f.ord.getLsbD 0 then acquireGang s1 c.wg.core else s1) t c ∧
        (f.ord.getLsbD 0 = true → (coreOf t c.wg.core).l1 = []) ∧
        (f.ord.getLsbD 1 = true → (coreOf t c.wg.core).cb = [])) ∧
    (∀ f : FmtM, Issues s (.prefetch f) c →
      (∀ l ∈ lanesOf c.pass, addrM s.cycle c f l % 4 = 0 → mapWaits s (spaceOf c.la c.wg.core) (addrM s.cycle c f l) = false) →
      ∃ t s', exec (.prefetch f) s = .next t ∧ Ends s' t c ∧ t.mem = s.mem ∧
        s' = { runState s c (.prefetch f) with cores := s'.cores } ∧
        ∀ k, coreOf s' k = { coreOf s k with l1 := (coreOf s' k).l1, badL1 := (coreOf s' k).badL1 }) ∧
    (∀ (f : FmtA) (s1 : State) (ps : List (Nat × Nat)), Issues s (.cctlFlush f) c →
      cctlPieces (runState s c (.cctlFlush f)) (runCtx s c) f = some ps →
      drainWhere (runState s c (.cctlFlush f)) c.wg.core
        (fun e => e.bytes.any fun x => ps.any fun (pa, n) => pa ≤ x.1 && x.1 < pa + n) = some s1 →
      ∃ t, exec (.cctlFlush f) s = .next t ∧ Ends s1 t c) ∧
    (∀ (f : FmtA) (ps : List (Nat × Nat)), Issues s (.cctlInv f) c →
      cctlPieces (runState s c (.cctlInv f)) (runCtx s c) f = some ps →
      ∃ t, exec (.cctlInv f) s = .next t ∧ t.mem = s.mem ∧
        Ends (modCore (runState s c (.cctlInv f)) c.wg.core fun k => { k with l1 := k.l1.filter fun x =>
          !(ps.any fun (pa, n) => pa / 128 ≤ x.1 / 4 && x.1 / 4 ≤ (pa + n - 1) / 128) }) t c)

/-! ### Barriers (R22, R24, R168 to R171, R381) -/

/-- O27. An arrival of n lanes (R169): an unarmed object takes the default count first; below PENDING the lanes only
lower it; otherwise the phase moves once for the lanes that PENDING awaits and once more for each further COUNT, and
PENDING awaits the rest. A wait on a token ends once the phase has moved from 1 to 32,767 past it. An object is the 64
bits of R168. -/
def Obligations.ArrivalMovesPhases : Prop :=
  (∀ (b : BarObj) (dflt n : Nat), b.armed = true → 1 ≤ b.count →
    (n < b.pending → arriveAt b dflt n = { b with pending := b.pending - n }) ∧
    (b.pending ≤ n → arriveAt b dflt n =
      { b with phase := b.phase + 1 + BitVec.ofNat 16 ((n - b.pending) / b.count)
               pending := b.count - (n - b.pending) % b.count })) ∧
  (∀ (b : BarObj) (dflt n : Nat), b.armed = false → 1 ≤ dflt →
    arriveAt b dflt n = arriveAt { b with count := dflt, pending := dflt, armed := true } dflt n) ∧
  (∀ phase token : Half, waitEnded phase token = true ↔ 1 ≤ (phase - token).toNat ∧ (phase - token).toNat ≤ 32767) ∧
  (∀ x : Nat, x < 2 ^ 64 → (BarObj.ofNat x).toNat = x)

/-- `bar.init`, `bar.arrive`, `bar.wait` and `bar.sync` on an object inside the allocation complete. `bar.init` sets
COUNT and PENDING and arms the object, its phase unchanged; an arrival updates the object by R169 and ends the waits
that this ends; `bar.wait` gives way (log 112, DEDUCED: also where the wait is over at once) and goes on when the wait on
its token has ended, and waits at the object otherwise. -/
def Says.BarriersComplete : Prop :=
  ∀ (s : State) (f : FmtA) (c : Ctx), c.pass ≠ 0 → c.path.mask ≠ 0 →
    let off := readOp s.cycle c f.a false (lowestLane c.pass)
    let n := readOp s.cycle c f.b false (lowestLane c.pass)
    let b := BarObj.ofNat (readLE c.wg.pad.scratch off 8)
    let arrived := arriveAt b (32 * c.wg.ntg) (lanesOf c.pass).length
    off % 8 = 0 → padHas c.wg.pad off 8 = true → padBad c.wg.pad off 8 = false →
    (Issues s (.barInit f) c → barWaited c.wg off = false → 1 ≤ n → n ≤ 65535 →
      ∃ t, exec (.barInit f) s = .next t ∧
        Ends (putBar (runState s c (.barInit f)) c.wid off { b with count := n, pending := n, armed := true }) t c) ∧
    (Issues s (.barArrive f) c → b.refuses = false → tokensQueued c.wg c.tix = false →
      let s1 := settleBars (putBar (runState s c (.barArrive f)) c.wid off arrived) c.wid
      ∃ t, exec (.barArrive f) s = .next t ∧
        Ends (if isS f.d then modWg s1 c.wid fun w => writeOp w c.tix f.d true false 0 b.phase.toNat else s1) t c) ∧
    (Issues s (.barWait f) c → waitEnded b.phase (BitVec.ofNat 16 n) = true →
      ∃ t, exec (.barWait f) s = .next t ∧ Ends (passWait (runState s c (.barWait f)) c) t c) ∧
    (Issues s (.barWait f) c → waitEnded b.phase (BitVec.ofNat 16 n) = false →
      LeavesPath s c (exec (.barWait f) s) fun _ p =>
        p.mask = c.path.mask ∧ p.pc = c.path.pc ∧ p.wait = .bar off (BitVec.ofNat 16 n) false) ∧
    (Issues s (.barSync f) c → b.refuses = false → tokensQueued c.wg c.tix = false → b.armed = true → b.count ≤ 65535 →
      b.pending ≤ (lanesOf c.pass).length → (lanesOf c.pass).length - b.pending < 32767 * b.count →
      ∃ t, exec (.barSync f) s = .next t ∧
        Ends (passWait (settleBars (putBar (runState s c (.barSync f)) c.wid off arrived) c.wid) c) t c) ∧
    (Issues s (.barSync f) c → b.refuses = false → tokensQueued c.wg c.tix = false → b.armed = true →
      (lanesOf c.pass).length < b.pending → b.pending ≤ 65535 →
      ∃ t w th p, exec (.barSync f) s = .next t ∧ wgOf t c.wid = some w ∧ w.threads[c.tix]? = some th ∧ p ∈ th.paths ∧
        p.mask = c.path.mask ∧ p.pc = c.path.pc ∧ p.wait = .bar off b.phase false ∧
        w.pad.scratch = writeLE c.wg.pad.scratch off 8 arrived.toNat ∧ w.v = c.wg.v ∧ w.k = c.wg.k ∧ t.mem = s.mem)

/-- `gbar` drains the core's coalescing buffer, arrives at the object in memory with the path's passing lanes, and
waits on the token; at an armed object with COUNT 0 nothing changes there, and the path waits for the slice's answer, which
brings BAD_OPERAND. Once the slice's answer has come, GBAR_PHASE_COMPLETE ends the wait and the core drops its global L1
lines. -/
def Says.GangBarrierCompletes : Prop :=
  (∀ (s s1 s2 : State) (f : FmtM) (c : Ctx) (pa attr x : Nat), Issues s (.gbar f) c → c.pass ≠ 0 → c.path.mask ≠ 0 →
    let ea := addrM s.cycle c { f with sp := 0 } (lowestLane c.pass)
    let b := BarObj.ofNat x
    canonical ea = true → ea % 8 = 0 →
    translate (runState s c (.gbar f)) (spaceOf c.la c.wg.core) .read ea = .ok pa attr s1 → reaches s1 true pa = true →
    tokensQueued c.wg c.tix = false → drainAll s1 c.wg.core = some s2 → lockedFor s2 none pa 8 = false →
    badData s2 pa 8 = false → x = readLE s2.mem pa 8 →
    ∃ t w th p, exec (.gbar f) s = .next t ∧ wgOf t c.wid = some w ∧ w.threads[c.tix]? = some th ∧ p ∈ th.paths ∧
      p.mask = c.path.mask ∧ p.pc = c.path.pc ∧ (coreOf t c.wg.core).cb = [] ∧ w.v = c.wg.v ∧ w.k = c.wg.k ∧
      th.sregs = c.th.sregs ∧
      (b.refuses = false → p.wait = .gbar ea pa b.phase none false ∧
        t.mem = writeLE s2.mem pa 8 (arriveAt b (fld (hdr c.la 1) 24 18 * 32 * c.wg.ntg) (lanesOf c.pass).length).toNat) ∧
      (b.refuses = true → t.mem = s2.mem ∧ ∃ d, p.wait = .refused c.word d ∧ s.cycle < d ∧
        ∀ n, markedCause n p.wait = if d ≤ n then some (.badOperand, c.word.toNat) else none)) ∧
  (∀ (s : State) (wid tix lane va pa d : Nat) (tok : Half) (w : Workgroup) (t : Thread) (p : Path),
    wgOf s wid = some w → w.threads[tix]? = some t → p ∈ t.paths → p.wait = .gbar va pa tok (some d) false →
    p.mask.getLsbD lane = true → d ≤ s.cycle →
    ∃ s' w' t', exec (.gbarPhaseComplete wid tix lane) s = .next s' ∧ wgOf s' wid = some w' ∧ w'.threads[tix]? = some t' ∧
      (∃ q ∈ t'.paths, q.mask = p.mask ∧ q.pc = p.pc + 1 ∧ q.wait = .none) ∧
      (∀ q ∈ t.paths, q.wait = .none → q ∈ t'.paths) ∧
      (coreOf s' w.core).l1 = [] ∧ w'.v = w.v ∧ w'.k = w.k ∧ t'.sregs = t.sregs ∧ s'.mem = s.mem)

/-- O28. Barriers of a workgroup and of a gang. -/
def Obligations.Barriers : Prop := Says.BarriersComplete ∧ Says.GangBarrierCompletes

/-! ### Transactions (R172 to R177, R280 to R288, R414) -/

/-- O29. `txbegin`: a path of T-form whose passing lanes are all outside transactions and below TXCTL's limit drains the
core's buffer and begins their transactions, with the path's lanes recorded in jN; lanes inside only count their depth;
lanes at the limit are queued for the partition's token, and the path stays. -/
def Obligations.TransactionBegins : Prop :=
  ∀ (s : State) (f : FmtB) (c : Ctx), Issues s (.txbegin f) c → c.pass ≠ 0 → c.path.mask ≠ 0 → c.path.vtext = false →
    c.path.queued = false → f.a.toNat < 256 →
    (∀ s1, (∀ l ∈ lanesOf c.pass, (txOf c.wg l).st = .out ∧ (txOf c.wg l).consec.toNat < c.wg.txctl.toNat) →
      jGet c.th f.j.toNat = 0 → drainAll (runState s c (.txbegin f)) c.wg.core = some s1 →
      ∃ t s' w' th', exec (.txbegin f) s = .next t ∧ Ends s' t c ∧ wgOf s' c.wid = some w' ∧
        w'.threads[c.tix]? = some th' ∧ jGet th' f.j.toNat = c.pass ∧ s'.mem = s1.mem ∧
        (∀ l ∈ lanesOf c.pass, (txOf w' l).st = .active ∧ (txOf w' l).depth = 1 ∧ (txOf w' l).reads = [] ∧
          (txOf w' l).writes = [] ∧ (txOf w' l).vs = f.a.toNat ∧ (txOf w' l).target = c.path.pc + f.tgt ∧
          vGet w' l f.a.toNat = 0) ∧
        (∀ l r, r < 256 → ¬(l ∈ lanesOf c.pass ∧ r = f.a.toNat) → vGet w' l r = vGet c.wg l r) ∧ w'.k = c.wg.k) ∧
    ((∀ l ∈ lanesOf c.pass, (txOf c.wg l).st = .active ∧ (txOf c.wg l).depth < 7) →
      ∃ t s' w', exec (.txbegin f) s = .next t ∧ Ends s' t c ∧ wgOf s' c.wid = some w' ∧ w'.v = c.wg.v ∧ w'.k = c.wg.k ∧
        s'.mem = s.mem ∧ ∀ l ∈ lanesOf c.pass, (txOf w' l).st = .active ∧ (txOf w' l).depth = (txOf c.wg l).depth + 1) ∧
    ((∀ l ∈ lanesOf c.pass, (txOf c.wg l).st = .out ∧ c.wg.txctl.toNat ≤ (txOf c.wg l).consec.toNat) → c.path.mask = c.pass →
      jGet c.th f.j.toNat = 0 →
      ∃ t w th p, exec (.txbegin f) s = .next t ∧ wgOf t c.wid = some w ∧ w.threads[c.tix]? = some th ∧ p ∈ th.paths ∧
        p.mask = c.path.mask ∧ p.pc = c.path.pc ∧ p.wait = .none ∧ p.queued = true ∧ th.gave = true ∧
        (∀ l ∈ lanesOf c.pass, (txOf w l).st = .queued) ∧ w.v = c.wg.v ∧ w.k = c.wg.k ∧ t.mem = s.mem)

/-- `txend`: a lane deeper than 1 comes out one level; a lane at depth 1 with empty logs commits at once; with a lane
that has something to commit, the path waits while it commits (so it does where a re-issue after a trap finds lanes that
had begun to commit before, or whose commit has failed since, R363). In a handler it has no effect. -/
def Says.TransactionEnds : Prop :=
  ∀ (s : State) (f : FmtA) (c : Ctx), Issues s (.txend f) c → c.path.mask ≠ 0 → c.act = c.pass →
    (c.th.susp.isSome = true → ∃ t, exec (.txend f) s = .next t ∧ Ends (runState s c (.txend f)) t c) ∧
    (c.th.susp = none → c.path.vtext = false → c.path.aborted = [] →
      (∀ l ∈ lanesOf c.path.mask, committing c.wg l = false) →
      (∀ l ∈ lanesOf c.act, (txOf c.wg l).st = .active ∧ 1 < (txOf c.wg l).depth) →
      ∃ t s' w', exec (.txend f) s = .next t ∧ Ends s' t c ∧ wgOf s' c.wid = some w' ∧ w'.v = c.wg.v ∧ s'.mem = s.mem ∧
        ∀ l ∈ lanesOf c.act, (txOf w' l).st = .active ∧ (txOf w' l).depth = (txOf c.wg l).depth - 1) ∧
    (c.th.susp = none → c.path.vtext = false → c.path.aborted = [] →
      (∀ l ∈ lanesOf c.path.mask, committing c.wg l = false) →
      (∀ l ∈ lanesOf c.act, (txOf c.wg l).st = .active ∧ (txOf c.wg l).depth = 1 ∧ (txOf c.wg l).reads = [] ∧
        (txOf c.wg l).writes = []) →
      ∃ t s' w', exec (.txend f) s = .next t ∧ Ends s' t c ∧ wgOf s' c.wid = some w' ∧ w'.v = c.wg.v ∧ s'.mem = s.mem ∧
        ∀ l ∈ lanesOf c.act, (txOf w' l).st = .out ∧ (txOf w' l).consec = 0) ∧
    (c.th.susp = none → c.act ≠ 0 →
      (∀ l ∈ lanesOf c.act, (txOf c.wg l).st = .active ∧ (txOf c.wg l).depth = 1 ∧ (txOf c.wg l).writes ≠ []) →
      ∃ t w th p, exec (.txend f) s = .next t ∧ wgOf t c.wid = some w ∧ w.threads[c.tix]? = some th ∧ p ∈ th.paths ∧
        p.mask = c.path.mask ∧ p.pc = c.path.pc ∧ p.wait = .txend ∧ w.v = c.wg.v ∧ t.mem = s.mem ∧
        ∀ l ∈ lanesOf c.act, (txOf w l).st = .committing ∧ (txOf w l).writes = (txOf c.wg l).writes)

/-- `txabort` aborts each passing lane that is inside a transaction, with class 2 and detail A[7:0]: the cause is in
the lane's register, the lane is out, its count of aborts is one higher, and in T-form it goes to its abort target; other
lanes go on. `txtest` writes the status of R176. R175 names no return stack for the aborting lanes: that their new path
keeps the stack of the path they were on is the model's reading (log 39, DEDUCED), and so is whose status an s register
takes (log 99, DESIGN CHOICE). -/
def Says.TransactionAbortAndTest : Prop :=
  ∀ (s : State) (f : FmtA) (c : Ctx), c.pass ≠ 0 →
    (Issues s (.txabort f) c → c.th.susp = none → c.path.vtext = false →
      (∀ l ∈ lanesOf c.pass, (txOf c.wg l).st = .active ∧ (txOf c.wg l).vs < 256) →
      ∃ t w th, exec (.txabort f) s = .next t ∧ wgOf t c.wid = some w ∧ w.threads[c.tix]? = some th ∧ t.mem = s.mem ∧
        (∀ l ∈ lanesOf c.pass,
          (txOf w l).st = .out ∧ (txOf w l).last = 2 ∧
          (txOf w l).consec = (if (txOf c.wg l).consec = 255 then 255 else (txOf c.wg l).consec + 1) ∧
          vGet w l (txOf c.wg l).vs = BitVec.ofNat 32 (2 + 256 * (readOp s.cycle c f.a false l % 256)) ∧
          ∃ p ∈ th.paths, p.mask.getLsbD l = true ∧ p.pc = (txOf c.wg l).target ∧ p.stack = c.path.stack ∧ p.wait = .none) ∧
        (c.path.mask &&& ~~~c.pass ≠ 0 →
          ∃ p ∈ th.paths, p.mask = c.path.mask &&& ~~~c.pass ∧ p.pc = c.path.pc + 1 ∧ p.wait = .none)) ∧
    (Issues s (.txtest f) c → LaneResult s c f.d false false (fun l =>
      let t := txOf c.wg l
      if c.th.susp.isSome || t.st = .out then 0 else 1 + 2 * t.depth + (if t.st = .irrev then 16 else 0)) 0
      (exec (.txtest f) s))

/-- O30. `txend`, `txabort` and `txtest`. -/
def Obligations.TransactionsEnd : Prop := Says.TransactionEnds ∧ Says.TransactionAbortAndTest

/-- O31. TX_COMMIT of a revocable lane that holds every lock of its logs: with every logged value still current, its
writes are in memory, its locks are free and it is out with CONSEC 0; with a value that differs nothing of its logs is
written and it aborts with class 1. COMMIT_LOCK_TIMEOUT frees every lock of a lane that has not all of them 256 cycles
after its first. TX_WATCHDOG aborts with class 7 a lane that has spent 65,536 cycles inside. -/
def Obligations.CommitEvents : Prop :=
  (∀ (s : State) (wid lane : Nat) (w : Workgroup), wgOf s wid = some w → (txOf w lane).st = .committing →
    (∀ sec ∈ logSectors (txOf w lane), lockHolder s sec = some (wid, lane)) →
    (∀ x ∈ (txOf w lane).reads, badData s (32 * x.1) 32 = false) → (txOf w lane).bad = [] →
    ((∀ x ∈ (txOf w lane).reads, sliceSector s x.1 = x.2) →
      ∃ s' w', exec (.txCommit wid lane) s = .next s' ∧ wgOf s' wid = some w' ∧ (txOf w' lane).st = .out ∧
        (txOf w' lane).consec = 0 ∧ (∀ x ∈ s'.locks, x.2 ≠ (wid, lane)) ∧ w'.v = w.v ∧
        ((coreOf s w.core).cb = [] → s.linkUp = true → (txOf w lane).writes.Pairwise (fun x y => x.1 ≠ y.1) →
          (∀ x ∈ (txOf w lane).writes, ∀ i, i < 32 → x.2.2.getLsbD i = true →
            memByte s'.mem (32 * x.1 + i) = sectorByte x.2.1 i) ∧
          (∀ a, (∀ x ∈ (txOf w lane).writes, a / 32 = x.1 → x.2.2.getLsbD (a % 32) = false) →
            memByte s'.mem a = memByte s.mem a))) ∧
    ((∃ x ∈ (txOf w lane).reads, sliceSector s x.1 ≠ x.2) → (txOf w lane).vs < 256 →
      ∃ s' w', exec (.txCommit wid lane) s = .next s' ∧ wgOf s' wid = some w' ∧ (txOf w' lane).st = .out ∧
        (txOf w' lane).last = 1 ∧ vGet w' lane (txOf w lane).vs = 1 ∧ (∀ x ∈ s'.locks, x.2 ≠ (wid, lane)) ∧
        s'.mem = s.mem)) ∧
  (∀ (s : State) (wid lane sec first : Nat) (w : Workgroup), wgOf s wid = some w → (txOf w lane).st = .committing →
    sec ∈ logSectors (txOf w lane) → lockHolder s sec ≠ some (wid, lane) → (txOf w lane).firstLock = some first →
    first + 256 ≤ s.cycle →
    ∃ s' w', exec (.commitLockTimeout wid lane) s = .next s' ∧ wgOf s' wid = some w' ∧
      (∀ x ∈ s'.locks, x.2 ≠ (wid, lane)) ∧ (∀ x ∈ s.locks, x.2 ≠ (wid, lane) → x ∈ s'.locks) ∧
      (txOf w' lane).st = .committing ∧ (txOf w' lane).firstLock = none ∧ s'.mem = s.mem) ∧
  (∀ (s : State) (wid lane : Nat) (w : Workgroup), wgOf s wid = some w → (txOf w lane).st = .active →
    (txOf w lane).begun + 65536 ≤ s.cycle → lane < 512 →
    ∃ s' w', exec (.txWatchdog wid lane) s = .next s' ∧ wgOf s' wid = some w' ∧ (txOf w' lane).st = .out ∧
      (txOf w' lane).last = 7 ∧
      (txOf w' lane).consec = (if (txOf w lane).consec = 255 then 255 else (txOf w lane).consec + 1))

/-! ### Control (R23, R24, R27, R130 to R136) -/

/-- O32. `bra`, as R131 states it: SUB 0 goes to PC + TGT when the guard holds in every active lane, to PC + 1 when in
none, and raises DIVERGENT_BRANCH otherwise; `.any` goes when it holds in at least one, `.all` when in every active
lane; the path keeps its lanes, in either form. -/
def Obligations.Branches : Prop :=
  ∀ (s : State) (f : FmtB) (c : Ctx), Issues s (.bra f) c → c.act ≠ 0 →
    let k := kGet c.wg (f.g.toNat % 8)
    let held := c.act &&& (if f.g.toNat ≥ 8 then ~~~k else k)
    let goes := fun (pc : Word) => LeavesPath s c (exec (.bra f) s) fun _ p =>
      p.mask = c.path.mask ∧ p.pc = pc ∧ p.stack = c.path.stack ∧ p.wait = .none
    (f.sub = 0 → held = c.act → goes (c.path.pc + f.tgt)) ∧
    (f.sub = 0 → held = 0 → goes (c.path.pc + 1)) ∧
    (f.sub = 0 → held ≠ 0 → held ≠ c.act → ∃ s1 addr, exec (.bra f) s = .next (takeTrap s1 c.wid c.tix c.pix
      { cause := .divergentBranch, lanes := c.act, addr := addr }) ∧ Cause.divergentBranch.code = 0x10) ∧
    (f.sub = 1 → held ≠ 0 → goes (c.path.pc + f.tgt)) ∧
    (f.sub = 1 → held = 0 → goes (c.path.pc + 1)) ∧
    (f.sub = 2 → held = c.act → goes (c.path.pc + f.tgt)) ∧
    (f.sub = 2 → held ≠ c.act → goes (c.path.pc + 1))

/-- `call` pushes PC + 1 and goes to PC + TGT while the stack holds fewer than 16 entries, and overflows at 16; `ret`
pops the top entry and goes to it, and underflows on an empty stack. -/
def Says.CallsAndReturns : Prop :=
  ∀ (s : State) (f : FmtB) (c : Ctx), c.pass ≠ 0 →
    (Issues s (.call f) c → c.path.stack.length < 16 → LeavesPath s c (exec (.call f) s) fun _ p =>
      p.mask = c.path.mask ∧ p.pc = c.path.pc + f.tgt ∧ p.stack = (c.path.pc + 1) :: c.path.stack ∧ p.wait = .none) ∧
    (Issues s (.call f) c → 16 ≤ c.path.stack.length → ∃ s1, exec (.call f) s = .next (takeTrap s1 c.wid c.tix c.pix
      { cause := .stackOverflow, lanes := c.act, addr := c.word.toNat })) ∧
    (∀ pc rest, Issues s (.ret f) c → c.path.stack = pc :: rest → LeavesPath s c (exec (.ret f) s) fun _ p =>
      p.mask = c.path.mask ∧ p.pc = pc ∧ p.stack = rest ∧ p.wait = .none) ∧
    (Issues s (.ret f) c → c.path.stack = [] → ∃ s1, exec (.ret f) s = .next (takeTrap s1 c.wid c.tix c.pix
      { cause := .stackUnderflow, lanes := c.act, addr := c.word.toNat }))

/-- `split` records the path's lanes in an empty jN and divides the path by kM, each part with the return stack, or
moves it whole where a part is empty; a jN that is not empty is a JOIN_MISMATCH. `join` of an empty jN only moves on;
otherwise the path waits until every lane of jN's mask that has not exited is at a `join` naming jN, and the last one
makes one path of them, jN empty again. -/
def Says.SplitsAndJoins : Prop :=
  ∀ (s : State) (f : FmtB) (c : Ctx), c.pass ≠ 0 →
    let n := f.j.toNat
    let taken := c.act &&& kGet c.wg f.ks.toNat
    let rest := c.path.mask &&& ~~~taken
    let alone := ∀ p ∈ c.th.paths, p.wait ≠ .join n
    let arrived := arrivedAt c.th n ||| c.path.mask
    (Issues s (.split f) c → jGet c.th n = 0 → alone → taken ≠ 0 → rest ≠ 0 →
      LeavesPath s c (exec (.split f) s) (fun th p => jGet th n = c.path.mask ∧ p.mask = taken ∧ p.pc = c.path.pc + f.tgt ∧
        p.stack = c.path.stack ∧ p.wait = .none ∧
        ∃ q ∈ th.paths, q.mask = rest ∧ q.pc = c.path.pc + 1 ∧ q.stack = c.path.stack ∧ q.wait = .none)) ∧
    (Issues s (.split f) c → jGet c.th n = 0 → alone → taken = 0 ∨ rest = 0 →
      LeavesPath s c (exec (.split f) s) (fun th p => jGet th n = c.path.mask ∧ p.mask = c.path.mask ∧
        p.pc = (if taken = 0 then c.path.pc + 1 else c.path.pc + f.tgt) ∧ p.wait = .none)) ∧
    (Issues s (.split f) c → jGet c.th n ≠ 0 → ∃ s1, exec (.split f) s = .next (takeTrap s1 c.wid c.tix c.pix
      { cause := .joinMismatch, lanes := c.act, addr := n })) ∧
    (Issues s (.join f) c → jGet c.th n = 0 → LeavesPath s c (exec (.join f) s) fun _ p =>
      p.mask = c.path.mask ∧ p.pc = c.path.pc + 1 ∧ p.wait = .none) ∧
    (Issues s (.join f) c → jGet c.th n ≠ 0 → c.act &&& ~~~jGet c.th n = 0 → n < 16 →
      jGet c.th n &&& ~~~c.wg.exited &&& ~~~arrived ≠ 0 →
      LeavesPath s c (exec (.join f) s) (fun th p => jGet th n = jGet c.th n ∧ p.mask = c.path.mask ∧ p.pc = c.path.pc ∧
        p.wait = .join n)) ∧
    (Issues s (.join f) c → jGet c.th n ≠ 0 → c.act &&& ~~~jGet c.th n = 0 → n < 16 →
      jGet c.th n &&& ~~~c.wg.exited &&& ~~~arrived = 0 →
      LeavesPath s c (exec (.join f) s) (fun th p => jGet th n = 0 ∧ p.mask = arrived ∧ p.wait = .none ∧
        (∀ q ∈ th.paths, q.wait ≠ .join n) ∧
        ∃ q ∈ c.th.paths, q.mask.getLsbD (lowestLane arrived) = true ∧ (q.wait = .join n ∨ q = c.path) ∧ p.pc = q.pc + 1))

/-- O33. Calls, returns, splits and joins. -/
def Obligations.CallsSplitsAndJoins : Prop := Says.CallsAndReturns ∧ Says.SplitsAndJoins

/-- `yield` moves the path on and gives up its turn, or in V-form the strand's next issue slot; `sleep` of a count of
0 acts as `yield`, and of another waits for min(count, 1,048,576) cycles, after which SLEEP_EXPIRE lets the path go on. -/
def Says.YieldsAndSleeps : Prop :=
  (∀ (s : State) (f : FmtB) (c : Ctx), c.act ≠ 0 →
    let n := readOp s.cycle c f.a false (lowestLane c.pass)
    let gone := fun (th : Thread) (p : Path) => p.mask = c.path.mask ∧ p.pc = c.path.pc + 1 ∧ p.wait = .none ∧
      (c.path.vtext = false → th.gave = true ∧ th.run = lowestLane c.path.mask) ∧
      (c.path.vtext = true → th.gaveSlot = true)
    (Issues s (.yield f) c → LeavesPath s c (exec (.yield f) s) gone) ∧
    (Issues s (.sleep f) c → c.pass ≠ 0 → n = 0 → LeavesPath s c (exec (.sleep f) s) gone) ∧
    (Issues s (.sleep f) c → c.pass ≠ 0 → n ≠ 0 → LeavesPath s c (exec (.sleep f) s) fun _ p =>
      p.mask = c.path.mask ∧ p.pc = c.path.pc ∧ p.wait = .sleep (s.cycle + 1 + min n 1048576))) ∧
  (∀ (s : State) (wid tix lane u : Nat) (w : Workgroup) (t : Thread) (p : Path), wgOf s wid = some w →
    w.threads[tix]? = some t → p ∈ t.paths → p.wait = .sleep u → p.mask.getLsbD lane = true → u ≤ s.cycle →
    ∃ s' w' t', exec (.sleepExpire wid tix lane) s = .next s' ∧ wgOf s' wid = some w' ∧ w'.threads[tix]? = some t' ∧
      (∃ q ∈ t'.paths, q.mask = p.mask ∧ q.pc = p.pc + 1 ∧ q.stack = p.stack ∧ q.wait = .none) ∧
      (∀ q ∈ t.paths, q.wait = .none → q ∈ t'.paths) ∧ w'.v = w.v ∧ t'.sregs = t.sregs ∧ s'.mem = s.mem)

/-- `exit` removes each passing lane for good, out of its transaction; the remaining lanes go on at PC + 1. The last
lanes of a workgroup report a failed matrix token first (R409). -/
def Says.ExitRemovesLanes : Prop :=
  ∀ (s : State) (f : FmtB) (c : Ctx), Issues s (.exit f) c → c.pass ≠ 0 →
    (lastLanes c.wg c.pass = false ∨ failedHead c.wg = none →
      ∃ t w th, exec (.exit f) s = .next t ∧ wgOf t c.wid = some w ∧ w.threads[c.tix]? = some th ∧
        w.exited = c.wg.exited ||| c.pass ∧ t.mem = s.mem ∧ (∀ l ∈ lanesOf c.pass, (txOf w l).st = .out) ∧
        (∀ l, l ∉ lanesOf c.pass → (txOf w l).st = (txOf c.wg l).st) ∧
        (c.path.mask &&& ~~~c.pass ≠ 0 →
          ∃ p ∈ th.paths, p.mask = c.path.mask &&& ~~~c.pass ∧ p.pc = c.path.pc + 1 ∧ p.wait = .none)) ∧
    (∀ a, lastLanes c.wg c.pass = true → failedHead c.wg = some a →
      ∃ s1, exec (.exit f) s = .next (takeTrap s1 c.wid c.tix c.pix
        { cause := .dataError, lanes := c.act, addr := a.toNat, token := true }))

/-- O34. `yield`, `sleep` and `exit`. -/
def Obligations.YieldsAndExits : Prop := Says.YieldsAndSleeps ∧ Says.ExitRemovesLanes

/-! ### The matrix unit (R111, R112, R122, R123, R179 to R188, R408, R409) -/

/-- The matrix instructions complete: once its operands pass the checks of R198 and no failed token stands at the
head of the queue, each puts one token at the end of its workgroup's queue, with the values that its operands have now,
and the path goes on; while the queue is throttled an `mma` waits until the queue accepts a control token (R311): that
`mma` alone counts as a control token there (log 108, DEDUCED), and that the thread tries again two cycles later (log 78,
DESIGN CHOICE), are the model's choices. `zrd` sets its lane registers out for the values that the token brings. -/
def Says.MatrixInstructionsComplete : Prop :=
  ∀ (s : State) (f : FmtX) (c : Ctx), c.pass ≠ 0 → c.path.mask ≠ 0 → failedHead c.wg = none →
    let op := fun x => readOp s.cycle c x false (lowestLane c.pass)
    let row := fun l => readOp s.cycle c f.b false l
    let pad := c.wg.pad
    let queues := fun (i : Instr) (o : MOp) => ∃ t, exec i s = .next t ∧
      Ends (modWg (runState s c i) c.wid fun w =>
        { w with pad := { w.pad with queue := w.pad.queue ++ [{ op := o, left := o.groups, tix := some c.tix }] } }) t c
    let k := 32 * (f.sh.toNat + 1)
    let scaled := f.sc = 1
    let e := tileBytes f.ta
    let stride := if op f.b = 0 then 32 * e else op f.b
    let tile := op f.a % e = 0 ∧ (op f.b = 0 ∨ op f.b % e = 0 ∧ 32 * e ≤ op f.b) ∧
      padHas pad (op f.a) (31 * stride + 32 * e) = true
    (Issues s (.mma f) c → op f.a % 64 = 0 → op f.b % 64 = 0 → padHas pad (op f.a) (operandBytes f.ta k) = true →
      padHas pad (op f.b) (operandBytes f.tb k) = true →
      (scaled → op f.c % 64 = 0 ∧ padHas pad (op f.c) (2 * k) = true) →
      (f.ta = 0xC → slotLoaded pad f.cba.toNat = true ∧ slotLoaded pad f.cbb.toNat = true) →
      let o := MOp.mma f.z.toNat (f.acc == 1) (f.sc == 1) f.ta f.tb k f.cba.toNat f.cbb.toNat (op f.a) (op f.b)
        (if scaled then op f.c else 0)
      (mayTake s.cycle pad = true → ∃ t, exec (.mma f) s = .next t ∧
        Ends (modWg (runState s c (.mma f)) c.wid fun w => { w with pad := (tookToken s.cycle
          { w.pad with queue := w.pad.queue ++ [{ op := o, left := o.groups, tix := some c.tix }] }) }) t c) ∧
      (mayTake s.cycle pad = false → LeavesPath s c (exec (.mma f) s) fun th p => p = c.path ∧ th.stalled = s.cycle + 2)) ∧
    (Issues s (.zld f) c → tile → queues (.zld f) (.zld f.z.toNat f.ta (op f.a) stride)) ∧
    (Issues s (.zst f) c → tile → queues (.zst f) (.zst f.z.toNat f.ta (op f.a) stride)) ∧
    (Issues s (.zwr f) c → (∀ l ∈ lanesOf c.pass, row l ≤ 31) →
      queues (.zwr f) (.zwr f.z.toNat ((lanesOf c.pass).map fun l =>
        (row l, l % 32, BitVec.ofNat 32 (readOp s.cycle c f.a false l))))) ∧
    (Issues s (.zclr f) c → queues (.zclr f) (.zclr f.z.toNat)) ∧
    (Issues s (.cbld f) c → op f.a % 32 = 0 → padHas pad (op f.a) 32 = true →
      queues (.cbld f) (.cbld f.cba.toNat (op f.a))) ∧
    (Issues s (.zrd f) c → (∀ l ∈ lanesOf c.pass, row l ≤ 31) →
      ∃ t w th, exec (.zrd f) s = .next t ∧ wgOf t c.wid = some w ∧ w.threads[c.tix]? = some th ∧ GoesToNext c th ∧
        w.pad.queue = pad.queue ++ [{ op := .zrd f.z.toNat ((lanesOf c.pass).map fun l => (l, l % 32, f.a.toNat, row l)) s.nextId,
                                      left := 0, tix := some c.tix }] ∧
        th.flights = c.th.flights ++ [{ fid := s.nextId, due := none,
                                        lanes := (lanesOf c.pass).map fun l => (l, f.a.toNat, 0) }] ∧
        w.v = c.wg.v ∧ w.k = c.wg.k ∧ th.sregs = c.th.sregs ∧ t.mem = s.mem)

/-- What tokens do (R122, R180, R182, R186, R187), and when. MATRIX_TOKEN_COMPLETE performs the token at the head of
a workgroup's queue once its last result is due and nothing that it reads is uncorrectable: tile and codebook as the
token says, its flags, its stores, and for `zrd` its lane registers, in one step. Of the values: a tile element after
`zclr`, after an integer `mma` on whose operands no store has raced, after an f32 or i32 `zld`, after `zwr`; the
elements that `zrd` returns; a loaded codebook; every tile that the token does not name. -/
def Says.MatrixTokensAct : Prop :=
  (∀ (s : State) (wid : Nat) (w : Workgroup) (t : MTok) (rest : List MTok) (due : Nat), wgOf s wid = some w →
    w.pad.queue = t :: rest → t.failed = none → t.finish = some due → due ≤ s.cycle → tokenBad w.pad t = none →
    let r := performToken s.tick w.pad t
    ∃ s' w', exec (.matrixTokenComplete wid) s = .next s' ∧ wgOf s' wid = some w' ∧ w'.pad.z = r.pad.z ∧
      w'.pad.cb = r.pad.cb ∧ w'.fpflags = w.fpflags ||| r.flags ∧
      w'.pad.scratch = r.writes.foldl (fun m x => writeBytes m x.1 x.2) w.pad.scratch ∧
      w'.pad.queue.map (·.op) = rest.map (·.op) ∧
      w'.v = (r.regs.foldl (fun w x => vPut w x.1 x.2.1 x.2.2) w).v ∧ w'.k = w.k ∧ s'.mem = s.mem ∧
      (∀ fid, t.op.flight = some fid → ∀ th ∈ w'.threads, ∀ f ∈ th.flights, f.fid ≠ fid)) ∧
  (∀ (tick : Nat) (p : Pad) (t : MTok) (z i j : Nat), i < 32 → j < 32 →
    let at_ := fun (p : Pad) => tget 0 p.z (1024 * z + 32 * i + j)
    let after := fun (o : MOp) => (performToken tick p { t with op := o }).pad
    let byte := fun (signed : Bool) (a : Nat) => intOf signed 8 (memByte p.scratch a).toNat
    at_ (after (.zclr z)) = 0 ∧
    (∀ acc ta tb k cba cbb a b c, t.old = [] → ta = 8 ∨ ta = 9 → tb = 8 ∨ tb = 9 →
      at_ (after (.mma z acc false ta tb k cba cbb a b c)) = BitVec.ofInt 32 ((if acc then ((at_ p).toNat : Int) else 0) +
        ((List.range k).map fun e => byte (ta == 8) (a + i * k + e) * byte (tb == 8) (b + j * k + e)).sum)) ∧
    (∀ ty addr stride, t.old = [] → ty ≠ 4 → ty ≠ 5 →
      at_ (after (.zld z ty addr stride)) = BitVec.ofNat 32 (readLE p.scratch (addr + i * stride + 4 * j) 4)) ∧
    (∀ x, at_ (after (.zwr z [(i, j, x)])) = x) ∧
    (∀ l reg fid, (performToken tick p { t with op := .zrd z [(l, j, reg, i)] fid }).regs = [(l, reg, at_ p)]) ∧
    (∀ slot addr, t.old = [] → tfind (after (.cbld slot addr)).cb slot = some (BitVec.ofNat 256 (readLE p.scratch addr 32))) ∧
    (∀ y e, e / 1024 ≠ y → (∀ acc sc ta tb k cba cbb a b c,
        tget 0 (after (.mma y acc sc ta tb k cba cbb a b c)).z e = tget 0 p.z e) ∧
      tget 0 (after (.zclr y)).z e = tget 0 p.z e ∧
      ∀ ty addr stride, tget 0 (after (.zld y ty addr stride)).z e = tget 0 p.z e))

/-- O35. The matrix instructions, and what their tokens do. -/
def Obligations.MatrixUnit : Prop := Says.MatrixInstructionsComplete ∧ Says.MatrixTokensAct

/-! ### Transfers (R189 to R198, R327 to R329, R410 to R413, R438) -/

/-- The transfer instructions complete. `xfer` of a descriptor that passes the checks of R198 drains the core's
buffer and starts the transfer, its words counted on the tag; `expect` adds to the tag's count, and of 0 does nothing;
`waitc` on a tag whose
count is 0 gives way (log 112, DEDUCED) and goes on, waits while it is not 0, and takes TRANSFER_FAULT, clearing FAULT, where a transfer has stopped;
`xstat` writes the status of R196. -/
def Says.TransferInstructionsComplete : Prop :=
  ∀ (s : State) (f : FmtC) (c : Ctx), c.pass ≠ 0 → c.path.mask ≠ 0 →
    let ch := f.ch.toNat
    let o := PadOwner.workgroup c.wid
    let tag := tagOf c.wg.pad ch
    (∀ src dst ssp dsp esz peer rtag member ls s1, Issues s (.xfer f) c →
      readDesc c.wg.pad (gangSize c.la) ((List.range 8).map fun i => sGet c.th (f.a.toNat - 0x100 + i)) =
        .ok src dst ssp dsp esz peer rtag member ls →
      (ssp = 1 → sideInside c.wg.pad src esz ls true = true) → (dsp = 1 → sideInside c.wg.pad dst esz ls false = true) →
      tag.count + elemCount ls * 2 ^ esz / 4 < 2 ^ 20 → tokensQueued c.wg c.tix = false →
      releaseGang (runState s c (.xfer f)) c.wg.core = some s1 →
      ∃ t, exec (.xfer f) s = .next t ∧ Ends (startXfer s1 o ch src dst ssp dsp esz peer rtag member ls) t c) ∧
    (let n := readOp s.cycle c f.a false (lowestLane c.pass)
     (Issues s (.expect f) c → tag.count + n < 2 ^ 20 → n ≠ 0 → tag.held = [] →
      ∃ t, exec (.expect f) s = .next t ∧
        Ends (modTag (runState s c (.expect f)) o ch fun t => { t with count := t.count + n }) t c) ∧
     (Issues s (.expect f) c → tag.count < 2 ^ 20 → n = 0 →
      ∃ t, exec (.expect f) s = .next t ∧ Ends (runState s c (.expect f)) t c)) ∧
    (Issues s (.waitc f) c → tag.fault = none → tag.count = 0 →
      ∃ t, exec (.waitc f) s = .next t ∧ Ends (passWait (acquireTag (runState s c (.waitc f)) o ch) c) t c) ∧
    (Issues s (.waitc f) c → tag.fault = none → tag.count ≠ 0 →
      LeavesPath s c (exec (.waitc f) s) fun _ p =>
        p.mask = c.path.mask ∧ p.pc = c.path.pc ∧ p.wait = .chan ch none) ∧
    (∀ a, Issues s (.waitc f) c → tag.fault = some a →
      ∃ s1 w1, exec (.waitc f) s = .next (takeTrap s1 c.wid c.tix c.pix
          { cause := .transferFault, lanes := c.act, addr := a.toNat }) ∧
        wgOf s1 c.wid = some w1 ∧ (tagOf w1.pad ch).fault = none ∧ s1.mem = s.mem) ∧
    (Issues s (.xstat f) c → LaneResult s c f.a (isS f.a) false (fun _ =>
      tag.count + (if tag.fault.isSome then 2 ^ 20 else 0) + (if tag.held ≠ [] then 2 ^ 21 else 0)) 0 (exec (.xstat f) s))

/-- The events of a transfer. TRANSFER_WORD_LAND: the next group in loop order, of one element of whole words that no
fault stops, is written to global memory or to the owner's scratchpad, and the tag's count falls by its words; a fault
of the next group stops the transfer there. TRANSFER_ACK lowers the tag by one. TRANSFER_STOP sets FAULT, keeping an earlier
address, once nothing of the transfer is under way. A peer's word lands in the scratchpad of its receiver while the
tag's count lasts, or is refused; one for a workgroup that is not on a core, or behind such a word, is held. -/
def Says.TransferEvents : Prop :=
  (∀ (s s1 : State) (xid pick g d pa : Nat) (rest : List Nat) (t : Transfer) (bytes : List Byte),
    tfind s.transfers xid = some t → t.ready = [] → t.todo = g :: rest → pick % t.todo.length = 0 → t.start ≤ s.cycle →
    checkGroup t (groupMembers t.esz (elemCount t.levels) g) s = .ok [(bytes, d, pa)] s1 →
    (∀ wid w, t.owner = .workgroup wid → wgOf s1 wid = some w → t.dsp = 1 →
      ∃ s' w', exec (.transferWordLand xid pick) s = .next s' ∧ wgOf s' wid = some w' ∧
        w'.pad.scratch = writeBytes w.pad.scratch d bytes ∧
        (tagOf w'.pad t.ch).count = (tagOf w.pad t.ch).count - bytes.length / 4 ∧ w'.v = w.v ∧ s'.mem = s1.mem) ∧
    (t.dsp = 0 → (inHost pa && !s1.linkUp) = false →
      ∃ s', exec (.transferWordLand xid pick) s = .next s' ∧ s'.mem = writeBytes s1.mem pa bytes)) ∧
  (∀ (s : State) (xid pick g a : Nat) (rest : List Nat) (t : Transfer), tfind s.transfers xid = some t → t.ready = [] →
    t.todo = g :: rest → t.start ≤ s.cycle → checkGroup t (groupMembers t.esz (elemCount t.levels) g) s = .fails a →
    ∃ s' t', exec (.transferWordLand xid pick) s = .next s' ∧ tfind s'.transfers xid = some t' ∧
      t'.todo = t.todo.filter (· < g) ∧ t'.stop.map (·.1) = some (BitVec.ofNat 64 a) ∧
      s'.mem = s.mem ∧ s'.wgs = s.wgs) ∧
  (∀ (s : State) (xid : Nat) (t : Transfer), tfind s.transfers xid = some t → 0 < t.acks →
    ∃ s', exec (.transferAck xid) s = .next s' ∧
      (tagOf (padOf s' t.owner) t.ch).count = (tagOf (padOf s t.owner) t.ch).count - 1 ∧
      (∀ t', tfind s'.transfers xid = some t' → t'.acks = t.acks - 1) ∧ s'.mem = s.mem) ∧
  (∀ (s : State) (xid wid words : Nat) (addr : Dbl) (t : Transfer) (w : Workgroup), tfind s.transfers xid = some t →
    t.owner = .workgroup wid → wgOf s wid = some w → t.stop = some (addr, words) → t.todo = [] → t.ready = [] → t.sent = [] →
    t.acks = 0 →
    (∀ th ∈ w.threads, ∀ p ∈ th.paths, waitsOn t.ch p = false ∧ markedCause s.cycle p.wait = none) →
    ∃ s' w', exec (.transferStop xid) s = .next s' ∧ wgOf s' wid = some w' ∧ tfind s'.transfers xid = none ∧
      (tagOf w'.pad t.ch).fault = some ((tagOf w.pad t.ch).fault.getD addr) ∧
      (tagOf w'.pad t.ch).count = (tagOf w.pad t.ch).count - words ∧ w'.v = w.v ∧ s'.mem = s.mem) ∧
  (∀ (s : State) (word : PeerWord), (∃ h ∈ s.heldWords, h.bind = word.bind ∧ h.member = word.member) →
    exec (.peerWordReceive word) s = .next { s with heldWords := s.heldWords ++ [word] }) ∧
  (∀ (s : State) (word : PeerWord), (∀ h ∈ s.heldWords, h.bind ≠ word.bind ∨ h.member ≠ word.member) →
    (boundLaunch s word.bind.toNat = none →
      exec (.peerWordReceive word) s = .next { s with out := .peerAnswer false :: s.out }) ∧
    (∀ lid wid w a b0 b1 b2 b3, boundLaunch s word.bind.toNat = some lid → word.member < workgroupCount (launchOf s lid) →
      receiverOf s lid word.member = .at_ wid → wgOf s wid = some w →
      word.bytes = [(a, b0), (a + 1, b1), (a + 2, b2), (a + 3, b3)] → a + 4 ≤ w.pad.size →
      (tagOf w.pad (word.tag % 16)).count ≠ 0 →
      ∃ s' w', exec (.peerWordReceive word) s = .next s' ∧ wgOf s' wid = some w' ∧
        w'.pad.scratch = writeBytes w.pad.scratch a [b0, b1, b2, b3] ∧
        (tagOf w'.pad (word.tag % 16)).count = (tagOf w.pad (word.tag % 16)).count - 1 ∧
        s'.out = .peerAnswer true :: s.out ∧ w'.v = w.v ∧ s'.mem = s.mem) ∧
    (∀ lid, boundLaunch s word.bind.toNat = some lid → word.member < workgroupCount (launchOf s lid) →
      receiverOf s lid word.member = .waits →
      exec (.peerWordReceive word) s = .next { s with heldWords := s.heldWords ++ [word] }))

/-- O36. The transfer instructions, and what transfers do. -/
def Obligations.Transfers : Prop := Says.TransferInstructionsComplete ∧ Says.TransferEvents

/-! ### System registers and phases (R199 to R207, R308, R315, R327) -/

/-- O37. `getsr` completes with the register's value for each passing lane, whole in an s register and by halves in a lane
register; `setsr` writes the register once; FPFLAGS is read and written behind the thread's matrix tokens. What the
registers hold, and what a write leaves in them. -/
def Obligations.SystemRegistersComplete : Prop :=
  (∀ (s : State) (f : FmtS) (c : Ctx), c.pass ≠ 0 → c.path.mask ≠ 0 →
    f.sreg.toNat ≠ 0x010 ∨ tokensQueued c.wg c.tix = false →
    (Issues s (.getsr f) c →
      (isS f.d = true → LaneResult s c f.d true false (fun l => (sysRead s c f.sreg.toNat l).toNat) 0 (exec (.getsr f) s)) ∧
      (isS f.d = false → LaneResult s c f.d false false (fun l =>
        (sysRead s c f.sreg.toNat l).toNat / (if f.imm.getLsbD 0 then 2 ^ 32 else 1) % 2 ^ 32) 0 (exec (.getsr f) s))) ∧
    (Issues s (.setsr f) c → ∃ t, exec (.setsr f) s = .next t ∧
      Ends (sysWrite (runState s c (.setsr f)) c f.sreg.toNat
        (BitVec.ofNat 64 (readOp s.cycle c f.a true (lowestLane c.pass)))) t c)) ∧
  (∀ (s : State) (c : Ctx) (l : Nat), wgOf s c.wid = some c.wg →
    let r := trapOf c.wg (l / 32)
    let g := regionOf s (regionOfCore c.wg.core)
    (sysRead s c 0x000 l).toNat = (if c.path.vtext then 1 else 0) ∧
    sysRead s c 0x003 l = c.wg.fairt.zeroExtend 64 ∧
    (sysRead s c 0x010 l).toNat = c.wg.fpflags.toNat ∧
    sysRead s c 0x020 l = c.wg.txctl.zeroExtend 64 ∧
    fld (sysRead s c 0x021 l) 7 0 = (txOf c.wg l).last.toNat ∧ fld (sysRead s c 0x021 l) 15 8 = (txOf c.wg l).consec.toNat ∧
    sysRead s c 0x031 l = g.band.zeroExtend 64 ∧ sysRead s c 0x032 l = g.boost.zeroExtend 64 ∧
    sysRead s c 0x033 l = c.la.undecl ∧ sysRead s c 0x034 l = c.la.eacc ∧
    (fld (sysRead s c 0x040 l) 7 0 = r.cause.toNat ∧ (sysRead s c 0x040 l).getLsbD 15 = r.tm) ∧
    sysRead s c 0x041 l = r.pc.zeroExtend 64 ∧
    (fld (sysRead s c 0x042 l) 31 0 = r.mask.toNat ∧ fld (sysRead s c 0x042 l) 35 32 = r.tgix.toNat) ∧
    sysRead s c 0x043 l = r.addr ∧ sysRead s c 0x044 l = r.iter.zeroExtend 64 ∧
    sysRead s c 0x046 l = c.wg.tvec.zeroExtend 64 ∧ sysRead s c 0x070 l = s.rank.zeroExtend 64 ∧
    (∀ n, n < 8 → sysRead s c (0x050 + n) l = (coreOf s c.wg.core).bp.getD n 0 ∧
      sysRead s c (0x060 + n) l = (coreOf s c.wg.core).mbox.getD n 0)) ∧
  (∀ (s : State) (c : Ctx) (x : Dbl), wgOf s c.wid = some c.wg →
    (wgOf (sysWrite s c 0x003 x) c.wid).map (·.fairt) = some (if fld x 15 0 < 16 then 16 else x.extractLsb' 0 16) ∧
    (wgOf (sysWrite s c 0x010 x) c.wid).map (·.fpflags) = some (x.extractLsb' 0 5) ∧
    (wgOf (sysWrite s c 0x020 x) c.wid).map (·.txctl) = some (if fld x 7 0 = 0 then 1 else x.extractLsb' 0 8) ∧
    (wgOf (sysWrite s c 0x046 x) c.wid).map (·.tvec) = some (x.extractLsb' 0 29) ∧
    (∀ n, n < 8 → (coreOf s c.wg.core).mbox.length = 8 →
      (coreOf (sysWrite s c (0x060 + n) x) c.wg.core).mbox.getD n 0 = x) ∧
    (∀ n, n ∉ [0x001, 0x003, 0x010, 0x011, 0x020, 0x046] → n < 0x060 ∨ 0x068 ≤ n → sysWrite s c n x = s))

/-- O38. `phase` declares a burst from onset to stop with its intensity, in place of an earlier one, ends the queue's
throttle, and prepares the region; `phase.clr` withdraws it. PHASE_ONSET makes it run, PHASE_BURST_END ends it, and
REGULATOR_VOLTAGE_READY ends the preparation. -/
def Obligations.PhasesComplete : Prop :=
  (∀ (s : State) (f : FmtI) (c : Ctx), c.pass ≠ 0 → c.path.mask ≠ 0 →
    let onset := s.cycle + 64 * fld f.imm 9 0
    let burst : Phase := { onset := onset, stop := onset + 256 * 2 ^ fld f.imm 17 14, int := fld f.imm 13 10 + 1,
                           since := s.cycle, running := decide (fld f.imm 9 0 = 0) }
    (Issues s (.phase f) c → ∃ t, exec (.phase f) s = .next t ∧
      Ends (prepareRegion (modWg (runState s c (.phase f)) c.wid fun w =>
        { w with phase := some burst, pad := { w.pad with throttle := none } }) (regionOfCore c.wg.core) (64 * fld f.imm 9 0)) t c) ∧
    (Issues s (.phaseClr f) c → ∃ t, exec (.phaseClr f) s = .next t ∧
      Ends (modWg (runState s c (.phaseClr f)) c.wid fun w => { w with phase := none }) t c)) ∧
  (∀ (s : State) (o : PhaseOwner) (p : Phase), phaseAt s o = some p →
    (p.onset ≤ s.cycle → ∃ s', exec (.phaseOnset o) s = .next s' ∧ phaseAt s' o = some { p with running := true } ∧
      s'.mem = s.mem ∧ s'.regions = s.regions) ∧
    (p.stop ≤ s.cycle → ∃ s', exec (.phaseBurstEnd o) s = .next s' ∧ phaseAt s' o = none ∧
      s'.mem = s.mem ∧ s'.regions = s.regions)) ∧
  (∀ (s : State) (r d : Nat), (regionOf s r).settling = some d → d ≤ s.cycle →
    ∃ s', exec (.regulatorVoltageReady r) s = .next s' ∧ regionOf s' r = { regionOf s r with settling := none } ∧
      (∀ q, q ≠ r → regionOf s' q = regionOf s q) ∧ s'.wgs = s.wgs ∧ s'.mem = s.mem)

/-! ### Points, hops and child launches (R43 to R47, R53 to R59, R138 to R140, R385, R399, R400) -/

/-- `eqp` goes on where no hop is pending or the conditions that concern its own thread do not hold (R55, R134; that
those of the other threads are judged once the workgroup has gathered is log 49's, DEDUCED), and otherwise waits at the
point; with the last TG there and every condition met a hop between T-form and V-form begins, to complete 16 cycles later.
`hop` is discarded when it names the running form, and otherwise proposes; a proposal replaces the older one of every
workgroup on the region, of one that already runs in the form too (R54). EQP_WAIT_LIMIT lets every path that waits at the point go on. The hops between T-form and V-form
carry lane registers, predicates and s0 to s31, and start at the entry's PC with empty stacks. -/
def Says.PointsAndHops : Prop :=
  (∀ (s : State) (f : FmtS) (c : Ctx), c.act ≠ 0 → c.path.mask ≠ 0 →
    let point := pointNamed c.la (fld f.imm 15 0)
    (Issues s (.eqp f) c → pendingHop s c.wg = none →
      ∃ t, exec (.eqp f) s = .next t ∧ Ends (runState s c (.eqp f)) t c) ∧
    (∀ h e, Issues s (.eqp f) c → pendingHop s c.wg = some h → point = some e →
      threadHolds c.wg c.th h e = false ∨ c.path.stack ≠ [] →
      ∃ t, exec (.eqp f) s = .next t ∧ Ends (runState s c (.eqp f)) t c) ∧
    (∀ h e, Issues s (.eqp f) c → pendingHop s c.wg = some h → point = some e →
      threadHolds c.wg c.th h e = true → c.path.stack = [] → h.form = .s ∨ e.kind = 1 ∨ groupMapBad c.la e = false →
      ∃ t w th p, exec (.eqp f) s = .next t ∧ wgOf t c.wid = some w ∧ w.threads[c.tix]? = some th ∧ p ∈ th.paths ∧
        p.mask = c.path.mask ∧ p.pc = c.path.pc ∧ p.wait = .eqp s.cycle ∧ w.v = c.wg.v ∧ w.k = c.wg.k ∧
        th.sregs = c.th.sregs ∧ t.mem = s.mem ∧
        (h.form ≠ .s → pointHolds c.wg h e = true → h.due = none → h.from_ ≤ s.cycle → c.wg.hop = some h → c.wg.threads = [c.th] → c.th.paths = [c.path] → c.th.halt = none →
          w.hop = some { h with point := some e.id, due := some (s.cycle + 16) })) ∧
    (Issues s (.hop f) c → hopForm f = (if c.wg.strand then .v else .t) →
      ∃ t, exec (.hop f) s = .next t ∧ Ends (runState s c (.hop f)) t c) ∧
    (Issues s (.hop f) c → hopForm f ≠ (if c.wg.strand then .v else .t) →
      ∃ t, exec (.hop f) s = .next t ∧
        Ends (propose (runState s c (.hop f)) c.wg.lid (regionOfCore c.wg.core) s.cycle (hopForm f)) t c)) ∧
  (∀ (s : State) (lid region from_ wid : Nat) (form : Form) (w : Workgroup), wgOf s wid = some w → w.lid = lid →
    regionOfCore w.core = region → form ≠ .s → (launchOf s lid).form ≠ .s →
    hopRuns s lid = false → hasVersion (launchOf s lid) form = true →
    policyAllows (launchOf s lid).policy.toNat (launchOf s lid).form form = true →
    wgOf (propose s lid region from_ form) wid =
      some { w with hop := if (w.strand = true ↔ form = .t) then some { form := form, from_ := from_ } else none }) ∧
  (∀ (s : State) (wid since : Nat) (pc : Word) (w : Workgroup) (h : HopReq), wgOf s wid = some w →
    pointWait w = some (pc, since) → pendingHop s w = some h → h.due = none → since + 4096 ≤ s.cycle →
    ∃ s' w', exec (.eqpWaitLimit wid) s = .next s' ∧ wgOf s' wid = some w' ∧ w'.v = w.v ∧ w'.k = w.k ∧ s'.mem = s.mem ∧
      ∀ (i : Nat) (th : Thread) (p : Path) (n : Nat), w.threads[i]? = some th → p ∈ th.paths → p.wait = .eqp n →
        ∃ (th' : Thread) (q : Path), w'.threads[i]? = some th' ∧ q ∈ th'.paths ∧ q.mask = p.mask ∧ q.pc = p.pc + 1 ∧ q.wait = .none) ∧
  (∀ (s : State) (wid id d g b : Nat) (w : Workgroup) (t : Thread) (e : PointEntry), wgOf s wid = some w →
    pointNamed (launchOf s w.lid) id = some e → d ≤ s.cycle → (coreOf s w.core).cb = [] →
    (∀ vpc, w.hop = some { form := .v, point := some id, due := some d, from_ := b } → e.vpc = some vpc → w.strand = false →
      firstLive w = some (g, t) →
      ∃ s' w' th, exec (.hopTToVComplete wid) s = .next s' ∧ wgOf s' wid = some w' ∧ w'.strand = true ∧ w'.hop = none ∧
        w'.threads = [th] ∧ th.paths = [{ mask := fullMask w.ntg &&& ~~~w.exited, pc := vpc, vtext := true }] ∧
        w'.v = w.v ∧ w'.k = w.k ∧ th.jregs = [] ∧ ∀ n, sGet th n = if n < 32 then sGet t n else 0) ∧
    (w.hop = some { form := .t, point := some id, due := some d, from_ := b } → w.strand = true → w.threads[0]? = some t →
      ∃ s' w', exec (.hopVToTComplete wid) s = .next s' ∧ wgOf s' wid = some w' ∧ w'.strand = false ∧ w'.hop = none ∧
        w'.v = w.v ∧ w'.k = w.k ∧ ∀ i, i < w.ntg → ∃ th, w'.threads[i]? = some th ∧ th.tgix = i ∧ th.jregs = [] ∧
          (blockMask i &&& ~~~w.exited ≠ 0 → th.paths = [{ mask := blockMask i &&& ~~~w.exited, pc := e.cpc }]) ∧
          ∀ n, sGet th n = if n < 32 then sGet t n else 0))

/-- O39. `launch` completes once every lane's packet can be read: 2 in each lane's register for a queue that is not enabled,
3 for a ring that cannot be written; otherwise the first lanes' packets, as many as there are free slots, are in the
ring, which no lock holds, WRIDX stands behind them, and each lane has 0, or 1 where no slot was left. -/
def Obligations.LaunchCompletes : Prop :=
  ∀ (s s1 : State) (f : FmtS) (c : Ctx) (bytes : Nat → List Byte), Issues s (.launch f) c → c.pass ≠ 0 → c.path.mask ≠ 0 →
    drainAll (runState s c (.launch f)) c.wg.core = some s1 →
    (∀ l ∈ lanesOf c.pass, readChild s1 c (readOp s.cycle c f.a true l) = .ok (bytes l)) →
    let q := queueDesc s1 c.la.part (fld f.imm 7 0)
    let n := min (min (2 ^ q.logn) (q.rd + 2 ^ q.logn - q.wr)) (lanesOf c.pass).length
    let all := fun (v : Nat) => ∃ t, exec (.launch f) s = .next t ∧ Ends (eachLane (runCtx s c) s1 f.d false false fun _ => v) t c
    (q.en = false → all 2) ∧
    (∀ cause, q.en = true → ringWritable s1 c.la.part q = .fails cause → all 3) ∧
    (q.en = true → ringWritable s1 c.la.part q = .ok () → (n = 0 ∨ slotsLocked s1 c.la.part q n = false) →
      let s2 := if n = 0 then s1 else sliceWrite s1 (q.pa + 24) (toBytes 8 (q.wr + n))
      let s3 := ((((lanesOf c.pass).map bytes).take n).zipIdx.map fun x => (q.wr + x.2, x.1)).foldl (writeChild c.la.part q) s2
      ∃ t, exec (.launch f) s = .next t ∧
        Ends (eachLane (runCtx s c) s3 f.d false false fun l => if (lanesOf c.pass).idxOf l < n then 0 else 1) t c)

/-- The hops into and out of S-form: a workgroup that has gathered at a launch point leaves its core and is parked; a
hop is abandoned after its limits with the parked workgroups saved in T-form and 16 intervals of back-off (after the limits
of R57 too: log 67, DEDUCED); a hop out of S-form injects markers, and once every unit has stopped at them the records leave S-form. -/
def Says.SpatialHops : Prop :=
  (∀ (s s1 : State) (wid since : Nat) (pc : Word) (w : Workgroup) (la : Launch) (h : HopReq) (e : PointEntry),
    wgOf s wid = some w → tfind s.launches w.lid = some la → la.form ≠ .s → pointWait w = some (pc, since) →
    pendingHop s w = some h → h.form = .s → gathered w pc = true → canSave s (wid, w) = true →
    pointAt s w pc w.strand = .ok (some e) → pointHolds w h e = true → drainAll s w.core = some s1 →
    blockLocked s w.frame (frameBytes la) = false →
    contextFails s la (canonicalWg (locations (mapOf la e)) (parkedWg w e.cpc)) = none →
    ∃ s', exec (.hopIntoSArrive wid) s = .next s' ∧ wgOf s' wid = none ∧
      ∃ x ∈ (launchOf s' w.lid).parked ++ (launchOf s' w.lid).saved, x.w = w.w ∧ x.v = w.v ∧ x.k = w.k ∧ x.strand = false) ∧
  (∀ (s : State) (lid since : Nat) (la : Launch), tfind s.launches lid = some la → la.form ≠ .s →
    (la.parkedAt = some since → la.fabric = none → allArrived s lid la = false → since + 65536 ≤ s.cycle →
      ∃ s', exec (.hopIntoSAbandon lid) s = .next s' ∧ (launchOf s' lid).saved = la.saved ++ la.parked.map (unpark s.cycle) ∧
        (launchOf s' lid).parked = [] ∧ (launchOf s' lid).hop = none ∧ (launchOf s' lid).backoff = 16 ∧ s'.mem = s.mem) ∧
    (la.wantsFabric = some since → la.fabric.all (fun f => f.tiles = [] ∧ f.need = []) = true → since + 4096 ≤ s.cycle →
      ∃ s', exec (.hopRectangleTimeout lid) s = .next s' ∧ (launchOf s' lid).saved = la.saved ++ la.parked.map (unpark s.cycle) ∧
        (launchOf s' lid).wantsFabric = none ∧ (launchOf s' lid).hop = none ∧ (launchOf s' lid).backoff = 16)) ∧
  (∀ (s : State) (lid : Nat) (la : Launch) (f : Fabric) (form : Form) (e : PointEntry), tfind s.launches lid = some la →
    la.fabric = some f →
    (f.state = .running → f.drain = none → outPoint la f = some (form, e) →
      ∃ s', exec (.hopOutOfS lid) s = .next s' ∧ (fabricOf s' lid).state = .draining ∧
        (fabricOf s' lid).drain = some (some form) ∧ (launchOf s' lid).hop = some { form := form, point := some e.id } ∧
        (fabricOf s' lid).tiles = f.tiles ∧ s'.mem = s.mem) ∧
    (∀ s1, drained s lid = true → f.drain = some (some form) → drainTiles s f = some s1 → pointNamed la (hopPoint la) = some e →
      exitLocked s la f = false → exitFails s la f = none →
      ∃ s', exec (.hopOutDrainComplete lid) s = .next s' ∧ (tfind s'.launches lid = none ∨
        (launchOf s' lid).form = form ∧ (launchOf s' lid).fabric = none ∧ (launchOf s' lid).hop = none ∧
        ∀ x ∈ (launchOf s' lid).saved, fullMask x.ntg &&& ~~~x.exited ≠ 0)) ∧
    (∀ s1, drained s lid = true → f.drain = some none → drainTiles s f = some s1 → framesLocked s f.frames = false →
      tilesFail s la f = none →
      ∃ s', exec (.hopOutDrainComplete lid) s = .next s' ∧ (launchOf s' lid).savedFabric = some f ∧
        (launchOf s' lid).wantsFabric = some s.cycle))

/-- O40. Equivalence points, `hop`, and hops into and out of S-form. -/
def Obligations.Hops : Prop := Says.PointsAndHops ∧ Says.SpatialHops

/-- O41. The loads of a graph. FABRIC_LOAD_STREAM streams a saved load to its new rectangle; on entry it reads and judges
every load of the graph, refuses the graph with the reason that its checks give, or keeps what it has read and streams the
first load; later loads are those read then (R392). GATES_OPEN sets the load running once every tile has acknowledged in time; a later load that
does not is stalled by TILE_ACK_TIMEOUT. FREEZE_RUNDOWN_END freezes the load and escalates the launch; so does
FABRIC_STALLED at the end of the 4,096th cycle in which nothing has moved and nothing is under way.
FABRIC_LOAD_COMPLETE ends the launch behind its last load. FAULT_EXTRACTION brings the launch to T-form. -/
def Obligations.LoadsComplete : Prop :=
  ∀ (s : State) (lid : Nat) (la : Launch), tfind s.launches lid = some la →
    let froze := fun (s' : State) (cause : Nat) => (fabricOf s' lid).state = .frozen ∧
      ∃ r, (partOf s' la.part).escPending = (partOf s la.part).escPending ++ [r] ∧ r.launchCause = true ∧ r.lid = lid ∧
        r.doubles[0]? = some (BitVec.ofNat 64 (la.lidNo.toNat * 2 ^ 32 + cause * 256 + cause))
    (∀ origin f, (partOf s la.part).placing = none → nextPick s la.part = some (.rect lid origin) → la.savedFabric = some f →
      framesLocked s f.frames = false → framesFail s la.part f.frames = none →
      (streamLoad s lid (restoreFabric s la f origin)).isSome = true →
      ∃ s', exec (.fabricLoadStream lid) s = .next s' ∧ (fabricOf s' lid).state = .loading ∧ (fabricOf s' lid).origin = origin ∧
        (fabricOf s' lid).streamed = s.cycle ∧ (launchOf s' lid).savedFabric = none ∧ (launchOf s' lid).wantsFabric = none) ∧
    (∀ origin, (partOf s la.part).placing = none → nextPick s la.part = some (.rect lid origin) → la.savedFabric = none →
      let load := (la.fabric.map (·.load)).getD 0
      (∀ p, la.plans[load]? = some p → exec (.fabricLoadStream lid) s = .next (streamPlan s lid origin p)) ∧
      (load = 0 → la.plans = [] →
        (∀ r, entryPlans s la = .ok (.error r) →
          exec (.fabricLoadStream lid) s = .next (refuseLoad s lid origin r.1 r.2)) ∧
        (∀ p rest, entryPlans s la = .ok (.ok (p :: rest)) → wantedSize la = (p.width, p.height) →
          exec (.fabricLoadStream lid) s =
            .next (streamPlan (modLaunch s lid fun la => { la with plans := p :: rest }) lid origin p)))) ∧
    (∀ f, la.fabric = some f → f.tiles ≠ [] → f.state = .loading →
      (f.ackDue ≤ s.cycle → s.cycle < f.streamed + 4096 → la.form = .s →
        ∃ s', exec (.gatesOpen lid) s = .next s' ∧ (fabricOf s' lid).state = .running ∧
          (fabricOf s' lid).quiet = (if f.resumed then f.quiet else 0) ∧ (launchOf s' lid).form = .s ∧ (fabricOf s' lid).tiles = f.tiles) ∧
      (f.streamed + 4096 ≤ s.cycle → f.streamed + 4096 ≤ f.ackDue → f.load ≠ 0 ∨ f.resumed = true →
        ∃ s', exec (.tileAckTimeout lid) s = .next s' ∧ froze s' 0x51)) ∧
    (∀ f, la.fabric = some f →
      (∀ e, f.state = .freezing → 64 ≤ f.quiet → f.fault = some e →
        ∃ s', exec (.freezeRundownEnd lid) s = .next s' ∧ froze s' 0x50) ∧
      (f.state = .running ∨ f.state = .draining → 4095 ≤ f.quiet → f.moved = false → workFlies s lid = false →
        loadDone s lid = false →
        ∃ s', exec (.fabricStalled lid) s = .next s' ∧ froze s' 0x51) ∧
      (∀ s1, loadDone s lid = true → f.tiles.foldlM (fun s t => drainAll s t.core) s = some s1 →
        la.plans[f.load + 1]? = none →
        ∃ s', exec (.fabricLoadComplete lid) s = .next s' ∧ tfind s'.launches lid = none) ∧
      (∀ r s1, f.stopAt = some r → f.state = .draining → f.drain = none → 64 ≤ f.quiet → inFlightWork s lid = false →
        drainTiles s f = some s1 → exitLocked s la f = false → exitFails s la f = none →
        ((liveRecords la (startWgs la lid s.cycle f)).all fun q =>
          (standing la f (isLastLoad la f) (workTokens f) r q).isSome) = true →
        ∃ s', exec (.faultExtraction lid) s = .next s' ∧ (tfind s'.launches lid = none ∨
          (launchOf s' lid).form = .t ∧ (launchOf s' lid).fabric = none)))

/-! ### Slots of the elements (R213 to R223, R246, R458) -/

/-- An element `u` of a load fires a slot: the load is there with its tile and unit, no debug stop is armed, and each of
its channels, outputs and registers exists. -/
structure Fires (s : State) (lid tile el slot : Nat) (f : FmtSlot) (u : FUnit) : Prop where
  cur : s.cur = .slot lid tile el slot
  load : ∃ la fab ft, tfind s.launches lid = some la ∧ la.fabric = some fab ∧ fab.tiles[tile]? = some ft ∧
    ft.units[el]? = some u
  noStep : stepArmed s lid = false
  noSite : siteArmed s lid tile el slot = false
  parts : u.ins.length = 4 ∧ u.outs.length = 4 ∧ u.regs.length = 6
  apart : f.da = f.db → f.da.toNat < 4 ∨ 10 ≤ f.da.toNat

/-- The firing has its effect (R221, R222): the result to the register or the port that DA names, the copy of B to that
of DB, each with its token; bit 0 of the result to the predicate; the heads that DQ names are gone; SFLAGS takes the
flags. `m` is the mark of the DA token; a quiet firing sends no token. -/
def Fired (s t : State) (lid tile el : Nat) (f : FmtSlot) (u : FUnit) (arity : Nat) (m : BitVec 4) (x : Word) (fl : FFlags)
    (quiet : Bool := false) : Prop :=
  let v := unitOf t lid tile el
  let a := slotSrc u f.sa
  let b := slotSrc u f.sb
  let da := if arity = 0 then 15 else f.da.toNat
  let taken := fun (n : Nat) => (f.dq.getLsbD 0 = true ∧ f.sa.toNat = n) ∨ (f.dq.getLsbD 1 = true ∧ f.sb.toNat = n)
  let record := ((if 0 < arity then a.2.2.2 else none).or (if 2 ≤ arity ∨ f.db ≠ 15 then b.2.2.2 else none)).getD u.last
  (launchOf t lid).sflags = (launchOf s lid).sflags ||| fl ∧
  (∀ n, n < 6 → v.regs.getD n 0 =
    if da = 4 + n then x else if f.db.toNat = 4 + n then b.1 else u.regs.getD n 0) ∧
  (∀ n, n < 8 → v.preds.getLsbD n = if f.pw = 1 ∧ f.pd.toNat = n then x.getLsbD 0 else u.preds.getLsbD n) ∧
  (∀ n, n < 4 → (outOf v n).toks = (outOf u n).toks ++
    (if da = n then [.data x (slotTag f a.2.1 (if 2 ≤ arity ∨ f.db ≠ 15 then b.2.1 else 0) x) m record] else []) ++
    (if f.db.toNat = n ∧ quiet = false then [.data b.1 b.2.1 b.2.2.1 (b.2.2.2.getD u.last)] else [])) ∧
  (∀ n, n < 4 → (inOf v n).toks = if taken n then (inOf u n).toks.tail else (inOf u n).toks) ∧
  v.slots = u.slots ∧ v.lits = u.lits ∧ t.mem = s.mem ∧ t.wgs = s.wgs ∧ t.parts = s.parts

/-- The slot operation fires with `val` as its result on the data of A and B. -/
def FiresAs (s : State) (i : Instr) (f : FmtSlot) (lid tile el : Nat) (u : FUnit) (arity : Nat)
    (val : Nat → Nat → Nat × FFlags) : Prop :=
  let r := val (slotSrc u f.sa).1.toNat (slotSrc u f.sb).1.toNat
  ∃ t, exec i s = .next t ∧ Fired s t lid tile el f u arity (if arity = 0 then 0 else (slotSrc u f.sa).2.2.1) (BitVec.ofNat 32 r.1) r.2

/-- The slot operations on integers and bits fire with the results of R222, integer types and saturation from the
element's configuration; `nop` sends no token (R103); `mark` sets the end mark of its token to B's low nibble, and
with 9 to 14 there faults (R246). (That a firing of `nop` copies B to the register that DB names is log 93's,
DEDUCED.) -/
def Says.IntegerSlotsFire : Prop :=
  ∀ (s : State) (lid tile el slot : Nat) (f : FmtSlot) (u : FUnit), Fires s lid tile el slot f u →
    let ty : BitVec 4 := u.q0.extractLsb' 0 4
    let sat := u.q0.getLsbD 11
    let wide : BitVec 4 := if ty = 1 then 1 else 2
    let int := fun (ty : BitVec 4) (sat : Bool) (op : Nat → List Int → Int) (a b : Nat) =>
      ((aluValue ty sat op [a, b], 0) : Nat × FFlags)
    let bits := fun (op : Nat → Nat → Nat) (a b : Nat) => ((op a b, 0) : Nat × FFlags)
    let test := fun (signed : Bool) (op : Int → Int → Bool) =>
      bits fun a b => if op (intOf signed 32 a) (intOf signed 32 b) then 1 else 0
    let as := fun (i : Instr) (arity : Nat) val => FiresAs s i f lid tile el u arity val
    (∃ t, exec (.sNop f) s = .next t ∧ Fired s t lid tile el f u 0 0 0 0 true) ∧
    as (.sMov f) 1 (bits fun a _ => a) ∧
    as (.sAdd f) 2 (int ty sat fun _ l => arg l 0 + arg l 1) ∧
    as (.sSub f) 2 (int ty sat fun _ l => arg l 0 - arg l 1) ∧
    as (.sMul f) 2 (int ty sat fun _ l => arg l 0 * arg l 1) ∧
    as (.sMulhi f) 2 (int wide false fun w l => arg l 0 * arg l 1 / (2 ^ w : Nat)) ∧
    as (.sMin f) 2 (int ty false fun _ l => min (arg l 0) (arg l 1)) ∧
    as (.sMax f) 2 (int ty false fun _ l => max (arg l 0) (arg l 1)) ∧
    as (.sAbs f) 1 (int ty sat fun _ l => (arg l 0).natAbs) ∧
    as (.sNeg f) 1 (int ty sat fun _ l => -arg l 0) ∧
    as (.sAnd f) 2 (bits fun a b => a &&& b) ∧
    as (.sOr f) 2 (bits fun a b => a ||| b) ∧
    as (.sXor f) 2 (bits fun a b => a ^^^ b) ∧
    as (.sAndn f) 2 (bits fun a b => a &&& (2 ^ 32 - 1 - b)) ∧
    as (.sNot f) 1 (bits fun a _ => 2 ^ 32 - 1 - a) ∧
    as (.sShl f) 2 (int ty false intShl) ∧
    as (.sShr f) 2 (int ty false intShr) ∧
    as (.sSar f) 2 (int ty false intSar) ∧
    as (.sPopc f) 1 (bits fun a _ => ((List.range 32).filter a.testBit).length) ∧
    as (.sClz f) 1 (bits fun a _ => ((List.range 32).filter fun k => a / 2 ^ k = 0).length) ∧
    as (.sCmpeq f) 2 (test true fun a b => a = b) ∧
    as (.sCmpne f) 2 (test true fun a b => a ≠ b) ∧
    as (.sCmplt f) 2 (test true fun a b => a < b) ∧
    as (.sCmple f) 2 (test true fun a b => a ≤ b) ∧
    as (.sCmpltu f) 2 (test false fun a b => a < b) ∧
    as (.sCmpleu f) 2 (test false fun a b => a ≤ b) ∧
    as (.sDiv f) 2 (int wide false intDiv) ∧
    as (.sRem f) 2 (int wide false intRem) ∧
    (let low := (slotSrc u f.sb).1.toNat % 16
     (low < 9 ∨ low = 15 → ∃ t, exec (.sMark f) s = .next t ∧
       Fired s t lid tile el f u 2 (BitVec.ofNat 4 low) (slotSrc u f.sa).1 0) ∧
     (9 ≤ low → low ≤ 14 → ∃ t fault, exec (.sMark f) s = .next t ∧ (fabricOf t lid).fault = some fault ∧
       (unitOf t lid tile el).faulted = true ∧ (unitOf t lid tile el).outs = u.outs ∧ (unitOf t lid tile el).regs = u.regs))

/-- The floating-point slot operations fire with the results of R222: each element's exact result rounded once in the
configuration's mode, codes and compares as in T-form, conversions between f32 and i32. (`fexp2`, `flog2` and `ftanh`
round the model's 200-place value with a sticky mark: log 14, DEDUCED.) -/
def Says.FloatingSlotsFire : Prop :=
  ∀ (s : State) (lid tile el slot : Nat) (f : FmtSlot) (u : FUnit) (fm : FFmt), Fires s lid tile el slot f u →
    fmtOf (u.q0.extractLsb' 4 4) = some fm →
    let ty : BitVec 4 := u.q0.extractLsb' 4 4
    let rm := modeOf (fld u.q0 10 8)
    let rounded := fun (ty : BitVec 4) (fm : FFmt) (op : XVal → XVal → XVal × FFlags) (a b : Nat) =>
      joinFlagged fm.bits ((List.range (elemShape ty).2).map fun j =>
        let (x, e) := op (decodeFloat fm (elem a fm.bits j)) (decodeFloat fm (elem b fm.bits j))
        let (v, e') := roundFloat fm { mode := rm } x
        (v, e ||| e'))
    let codes := fun (op : Nat → Nat → Nat) (a b : Nat) =>
      ((joinElems fm.bits ((List.range (elemShape ty).2).map fun j => op (elem a fm.bits j) (elem b fm.bits j)), 0) : Nat × FFlags)
    let test := fun (cc : Nat) (a b : Nat) =>
      let (t, e) := fcmpHolds cc (decodeFloat fmtF32 a) (decodeFloat fmtF32 b)
      (((if t then 1 else 0), e) : Nat × FFlags)
    let as := fun (i : Instr) (arity : Nat) val => FiresAs s i f lid tile el u arity val
    as (.sFadd f) 2 (rounded ty fm fun x y => xAdd rm x y) ∧
    as (.sFsub f) 2 (rounded ty fm fun x y => xAdd rm x (xNeg y)) ∧
    as (.sFmul f) 2 (rounded ty fm fun x y => xMul x y) ∧
    as (.sFmin f) 2 (codes (codeMin fm)) ∧
    as (.sFmax f) 2 (codes (codeMax fm)) ∧
    as (.sFabs f) 1 (codes fun a _ => codeAbs fm a) ∧
    as (.sFneg f) 1 (codes fun a _ => codeNeg fm a) ∧
    as (.sFcmpeq f) 2 (test 0) ∧
    as (.sFcmplt f) 2 (test 2) ∧
    as (.sFcmple f) 2 (test 3) ∧
    as (.sFrcp f) 1 (rounded 3 fmtF32 fun x _ => xDiv xOne x) ∧
    as (.sFrsq f) 1 (rounded 3 fmtF32 fun x _ => xRsqrt x) ∧
    as (.sFsqrt f) 1 (rounded 3 fmtF32 fun x _ => xSqrt x) ∧
    as (.sFexp2 f) 1 (rounded 3 fmtF32 fun x _ => xExp2 x) ∧
    as (.sFlog2 f) 1 (rounded 3 fmtF32 fun x _ => xLog2 x) ∧
    as (.sFtanh f) 1 (rounded 3 fmtF32 fun x _ => xTanh x) ∧
    as (.sFdiv f) 2 (rounded 3 fmtF32 fun x y => xDiv x y) ∧
    as (.sCvtfi f) 1 (fun a _ => roundInteger true 32 { mode := rm } (decodeFloat fmtF32 a)) ∧
    as (.sCvtif f) 1 (fun a _ => roundFloat fmtF32 { mode := rm } (xOfInt (intOf true 32 a)))

/-- O42. Every slot operation of S-form fires with its result. -/
def Obligations.SlotsFire : Prop := Says.IntegerSlotsFire ∧ Says.FloatingSlotsFire

/-! ### Channels, routers and nodes of a load (R213 to R215, R221, R224 to R238, R313, R458) -/

/-- A unit `u` of a tile `ft` of a load that fires: it neither faulted nor stopped, no debug stop is armed at it, and
each of its channels and outputs exists. -/
structure Acts (s : State) (lid tile unit : Nat) (fab : Fabric) (ft : FTile) (u : FUnit) : Prop where
  inLoad : ∃ la, tfind s.launches lid = some la ∧ la.fabric = some fab
  hasTile : fab.tiles[tile]? = some ft
  hasUnit : ft.units[unit]? = some u
  live : fires fab = true ∧ u.faulted = false ∧ u.stopped = false
  free : stepArmed s lid = false ∧ siteArmed s lid tile unit 31 = false ∧ fab.stopAt = none
  parts : u.ins.length = 4 ∧ u.outs.length = 4

/-- The step goes on in `t` with nothing outside the launches changed. -/
def InLoad (s : State) (o : Out) (good : State → Prop) : Prop :=
  ∃ t, o = .next t ∧ good t ∧ t.mem = s.mem ∧ t.wgs = s.wgs ∧ t.cores = s.cores ∧ t.parts = s.parts

/-- O43. Packets move (R221, R225, R226, R313): a staging register empties into the channel that it is connected to once
the channel has room; a router gives a packet for its own tile to the channel that the route names; a held credit
returns after its delay; a unit whose inputs all show markers passes them on and stops. -/
def Obligations.PacketsMove : Prop :=
  ∀ (s : State) (lid tile unit : Nat) (fab : Fabric) (ft : FTile) (u : FUnit), Acts s lid tile unit fab ft u →
    (∀ out v n x, out < 4 → n < 4 → (outOf u out).toks ≠ [] → (outOf u out).filled < s.cycle →
      (outOf u out).dests = [.chan v n] → ft.units[v]? = some x → x.ins.length = 4 →
      channelTakes s.cycle (inOf x n) (outOf u out).toks = true →
      InLoad s (exec (.stagingSend lid tile unit out) s) fun t =>
        (outOf (unitOf t lid tile unit) out).toks = [] ∧ (outOf (unitOf t lid tile unit) out).dests = [] ∧
        (inOf (unitOf t lid tile v) n).toks = (inOf x n).toks ++ (outOf u out).toks) ∧
    (∀ out v n x, out < 4 → n < 4 → (outOf u out).dests = [.chan v n] → ft.units[v]? = some x →
      channelTakes s.cycle (inOf x n) (outOf u out).toks = false →
      InLoad s (exec (.stagingSend lid tile unit out) s) fun t =>
        (outOf (unitOf t lid tile unit) out).toks = (outOf u out).toks) ∧
    (∀ dir p, dir < 5 → ft.ports.length = 5 → ft.ports.getD dir [] = [p] → p.left = [0] → p.came ≠ s.cycle →
      let r := ft.routes.getD p.cls 0
      fld r 11 7 = unit → fld r 6 5 < 4 → channelTakes s.cycle (inOf u (fld r 6 5)) p.toks = true →
      InLoad s (exec (.routerPacket lid tile dir) s) fun t =>
        (tileOf (fabricOf t lid) tile).ports.getD dir [] = [] ∧
        (inOf (unitOf t lid tile unit) (fld r 6 5)).toks = (inOf u (fld r 6 5)).toks ++ p.toks) ∧
    (InLoad s (exec (.routerCreditReturn lid tile) s) fun t => (tileOf (fabricOf t lid) tile).credits =
      ft.credits.filter fun c => (regionOf s (regionOfCore ft.core)).cycles < c.2.2) ∧
    (markerReady s lid tile unit = true →
      InLoad s (exec (.unitMarkerPass lid tile unit) s) fun t => (unitOf t lid tile unit).stopped = true ∧
        ∀ n ∈ inputsOf fab tile unit, (inOf (unitOf t lid tile unit) n).toks = (inOf u n).toks.tail)

/-- O44. Steer, merge, repeat and address generator (R229 to R232, R246, R458): a steer sends its data token to the arm
that bit 0 of the control token names and notes arm and end mark in order; a merge takes tokens of its arms into its
window and emits them in the noted order with the noted end marks; a repeat stores a block of up to 1,024 tokens, more
being a fault, and sends it as often as each count token says, a count of 0 dropping it; a generator sends the offsets of
its pass with the dimensions that each completes (that such a token has tag 0 is log 23's, DESIGN CHOICE). -/
def Obligations.StreamNodesAct : Prop :=
  ∀ (s : State) (lid tile unit : Nat) (fab : Fabric) (ft : FTile) (u : FUnit), Acts s lid tile unit fab ft u →
    let now := fun (t : State) => unitOf t lid tile unit
    (∀ d tag m r p tag' m' r', headOf u 0 = some (d, tag, m, r) → headOf u 1 = some (p, tag', m', r') → u.fifo.length < 64 →
      let arm := p.getLsbD 0
      let out := if arm then 1 else 0
      outEmpty u out = true →
      InLoad s (exec (.steerFire lid tile unit) s) fun t => (outOf (now t) out).toks = [.data d tag 0 r] ∧
        (now t).fifo = u.fifo ++ [(u.counter, arm, m)] ∧ (now t).counter = u.counter + 1 ∧
        (inOf (now t) 0).toks = (inOf u 0).toks.tail ∧ (inOf (now t) 1).toks = (inOf u 1).toks.tail) ∧
    (∀ arm d tag m r, windowArms s lid tile unit = [arm] → headOf u (if arm then 1 else 0) = some (d, tag, m, r) →
      u.window.length < windowOf u →
      InLoad s (exec (.mergeWindowTake lid tile unit) s) fun t => (now t).window = u.window ++ [(arm, .data d tag m r)] ∧
        (inOf (now t) (if arm then 1 else 0)).toks = (inOf u (if arm then 1 else 0)).toks.tail) ∧
    (∀ arm m d tag m' r inside x, 2 ≤ unit → mergeReady s lid tile unit = true → mergeHead s lid tile unit = some (arm, m) →
      armToken u arm = some (.data d tag m' r, inside) → ft.units[unit - 2]? = some x →
      InLoad s (exec (.mergeEmit lid tile unit) s) fun t => (outOf (now t) 0).toks = [.data d tag m r] ∧
        (unitOf t lid tile (unit - 2)).fifo = x.fifo.tail) ∧
    (∀ d tag m r, unit = 20 → headOf u 0 = some (d, tag, m, r) → u.whole = false →
      (u.block.length < 1024 → InLoad s (exec (.repeatStore lid tile) s) fun t =>
        (now t).block = u.block ++ [.data d tag m r] ∧ (now t).whole = decide (m ≠ 0)) ∧
      (1024 ≤ u.block.length → ∃ t fault, exec (.repeatStore lid tile) s = .next t ∧ (fabricOf t lid).fault = some fault ∧
        (now t).faulted = true ∧ (now t).block = u.block)) ∧
    (∀ k rest, unit = 20 → u.whole = true → u.emit = k :: rest → outEmpty u 0 = true →
      InLoad s (exec (.repeatEmit lid tile) s) fun t => (outOf (now t) 0).toks = [emitted u.last k] ∧
        (now t).emit = (if rest = [] ∧ 0 < u.counter then u.block else rest) ∧
        (rest = [] → u.counter = 0 → (now t).block = [] ∧ (now t).whole = false)) ∧
    (∀ n tag m r, unit = 20 → u.whole = true → u.emit = [] → headOf u 1 = some (n, tag, m, r) →
      InLoad s (exec (.repeatEmit lid tile) s) fun t => (inOf (now t) 1).toks = (inOf u 1).toks.tail ∧
        (n = 0 → (now t).block = [] ∧ (now t).whole = false) ∧
        (n ≠ 0 → (now t).emit = u.block ∧ (now t).counter = n.toNat - 1 ∧ (now t).last = r)) ∧
    (∀ base r0 gate fresh, unitInUse fab tile unit = true → outEmpty u 0 = true →
      agPass s lid tile unit = some (base, r0, gate, fresh) →
      let n := if fresh then 0 else u.counter
      let levels := agLevels ft 4 unit
      InLoad s (exec (.addressGeneratorOffset lid tile unit) s) fun t => (outOf (now t) 0).toks =
        [.data (BitVec.ofNat 32 (lowInt (base.toNat + agOffset levels n) 32)) 0
          (if n + 1 = agTotal levels then gate.getD 15 else BitVec.ofNat 4 (agDone levels n))
          (if u.q0.getLsbD 58 then r0 else r0 + n)] ∧
        (now t).pass = (if n + 1 = agTotal levels then none else some (base, r0, gate)))

/-- O45. Memory node, matrix node, owner and transfer port (R233 to R238): a load or a store of the tile's scratchpad, and
the value and the completion token that follow it, the token also where the value still waits for out0; a matrix token for a control token that passes the checks, none while
a throttled node may take none, and the completion token of a `zrd` once its last column has left out0; an update of an
owned word, which returns the old one; a word of a descriptor; an `expect`. (Tag and end mark of an owner's old value, and
the tag of the matrix node's completion token, are log 23's, DESIGN CHOICE.) -/
def Obligations.ServiceNodesAct : Prop :=
  ∀ (s : State) (lid tile unit : Nat) (fab : Fabric) (ft : FTile) (u : FUnit) (la : Launch), Acts s lid tile unit fab ft u →
    tfind s.launches lid = some la → ft.units.length = 32 →
    let now := fun (t : State) => unitOf t lid tile unit
    let padNow := fun (t : State) => (tileOf (fabricOf t lid) tile).pad
    (∀ off tag m r, headOf u 0 = some (off, tag, m, r) → memReady s lid tile unit = true → u.q0.getLsbD 41 = true →
      let ea := nodeAddr la u off
      let n := accessBytes (nodeTy u)
      nodeWatched s lid u ea = false → ea % n = 0 → padHas ft.pad ea n = true → padBad ft.pad ea n = false →
      (u.q0.getLsbD 36 = false → InLoad s (exec (.memoryNodeAccess lid tile unit) s) fun t =>
        (∃ due, (now t).access = some { value := some (BitVec.ofNat 32 (loadValue (nodeTy u) (readLE ft.pad.scratch ea n))),
                                        tag := tag, mark := m, record := r, due := due }) ∧
        (inOf (now t) 0).toks = (inOf u 0).toks.tail) ∧
      (∀ d tag' m' r', u.q0.getLsbD 36 = true → headOf u 1 = some (d, tag', m', r') →
        InLoad s (exec (.memoryNodeAccess lid tile unit) s) fun t =>
          (padNow t).scratch = writeBytes ft.pad.scratch ea (toBytes n d.toNat) ∧
          ∃ due, (now t).access = some { value := none, tag := tag, mark := m, record := r, due := due })) ∧
    (∀ a, u.access = some a → a.performed = false → a.due ≤ s.cycle → a.value.isSome = true → outEmpty u 0 = false →
      outEmpty u 1 = true → u.owed = [] →
      InLoad s (exec (.memoryNodeCompletion lid tile unit) s) fun t => (now t).access = some { a with performed := true } ∧
        (outOf (now t) 0).toks = (outOf u 0).toks ∧ (outOf (now t) 1).toks = [.data 0 0 a.mark a.record]) ∧
    (∀ a, u.access = some a → a.performed = false → a.due ≤ s.cycle → outEmpty u 0 = true → outEmpty u 1 = true → u.owed = [] →
      InLoad s (exec (.memoryNodeCompletion lid tile unit) s) fun t => (now t).access = none ∧
        (outOf (now t) 0).toks = (match a.value with | some v => [.data v a.tag a.mark a.record] | none => []) ∧
        (outOf (now t) 1).toks = [.data 0 0 a.mark a.record]) ∧
    (∀ w tag m r op, unit = 29 → headOf u 0 = some (w, tag, m, r) → u.columns = [] → u.owed = [] →
      u.taken.length ≤ ft.pad.queue.length → headDue s.cycle ft.pad = none → ft.pad.queue.length < 8 →
      mayTake s.cycle ft.pad = true → fld w 3 0 ≤ 5 → fld w 31 26 = 0 →
      (mxInputs (mxFmt w) (fld w 3 0)).all (hasHead u) = true →
      (let val := fun n => ((headOf u n).map (·.1.toNat)).getD 0
       mxToken la ft.pad w (val 1) (val 2) (val 3) (((headOf u 3).map (·.2.2.2)).getD r) = .ok op) →
      InLoad s (exec (.matrixNodeControl lid tile) s) fun t =>
        (padNow t).queue = ft.pad.queue ++ [{ op := op, left := op.groups, tix := none }] ∧
        (inOf (now t) 0).toks = (inOf u 0).toks.tail) ∧
    (unit = 29 → u.columns = [] → u.owed = [] → u.taken.length ≤ ft.pad.queue.length → headDue s.cycle ft.pad = none →
      mayTake s.cycle ft.pad = false → exec (.matrixNodeControl lid tile) s = .next s) ∧
    (∀ w m r rest, unit = 29 → headOf u 0 = none → u.columns = [] → u.taken = .data w 0 m r :: rest →
      ft.pad.queue.length ≤ rest.length → u.owed = [] → outEmpty u 0 = true → outEmpty u 1 = true →
      InLoad s (exec (.matrixNodeControl lid tile) s) fun t => (outOf (now t) 1).toks = [.data 0 0 m r] ∧ (now t).taken = rest) ∧
    (∀ off aop m1 r b tag m2 r2 rest, unit = 30 →
      (inOf u 0).toks = .data off aop m1 r :: .data b tag m2 r2 :: rest → u.q0.getLsbD 44 = false ∨ outEmpty u 0 = true →
      let a := lowInt (fld u.q0 19 0 + off.toNat : Nat) 32
      let ty : BitVec 4 := u.q0.extractLsb' 40 4
      aop ≠ 7 → aop.toNat ≤ 12 → (aopTypes aop.toNat).contains ty.toNat = true → a % 4 = 0 → off.toNat + 4 ≤ fld u.q0 39 20 →
      padHas ft.pad a 4 = true → padBad ft.pad a 4 = false →
      InLoad s (exec (.ownerUpdate lid tile) s) fun t =>
        (padNow t).scratch = writeBytes ft.pad.scratch a
          (toBytes 4 (atomNew aop.toNat ty b.toNat 0 (readLE ft.pad.scratch a 4))) ∧
        (inOf (now t) 0).toks = rest ∧
        (u.q0.getLsbD 44 = true → (outOf (now t) 0).toks = [.data (BitVec.ofNat 32 (readLE ft.pad.scratch a 4)) 0 0 r])) ∧
    (∀ d tag m r, unit = 31 → headOf u 0 = some (d, tag, m, r) → u.owed = [] → u.taken.length < 15 →
      InLoad s (exec (.transferPortDescriptor lid tile) s) fun t => (now t).taken = u.taken ++ [.data d tag m r] ∧
        (inOf (now t) 0).toks = (inOf u 0).toks.tail) ∧
    (∀ n tag m r, unit = 31 → headOf u 1 = some (n, tag, m, r) → (mxEnv la).excl = true →
      (tagOf ft.pad tag.toNat).count + n.toNat < 2 ^ 20 →
      InLoad s (exec (.transferPortExpect lid tile) s) fun t =>
        (tagOf (padNow t) tag.toNat).count = (tagOf ft.pad tag.toNat).count + n.toNat ∧
        (inOf (now t) 1).toks = (inOf u 1).toks.tail)

/-! ### The Barista strip (R210, R211, R290 to R297, R388, R391 to R396) -/

/-- The stages of a partition's strip hold one packet, in stage `n`. -/
def InStage (s : State) (part n : Nat) (p : StripPacket) : Prop := (stripOf s part).stages = [(n, p)]

/-- The agent instruction that moves the packets of a TYPE of R292. -/
def packetInstr (part : Nat) : Nat → Instr
  | 1 => .launchPacket part
  | 2 => .waitPacket part
  | 3 => .signalPacket part
  | 4 => .copyPacket part
  | _ => .waitAllPacket part

/-- Arbitration (R296, R297): a watch wakes the strip; it picks a ready queue of the highest PRI, among equals the
first one after the queue served last; that queue's next packet enters stage 1, whatever its TYPE, with the descriptor as
it stands now, where its partition is the one that the die's strip serves next (which of several, log 62), and a strip with
nothing ready goes to sleep. -/
def Says.QueueArbitration : Prop :=
  ∀ (s : State) (part : Nat),
    (∃ t, exec (.stripWatchWake part) s = .next t ∧ (stripOf t part).awake = true ∧ t = { s with parts := t.parts }) ∧
    (∀ n, pickQueue s part = some n → n < 256 ∧ ∃ x, readyPri s part n = some x ∧
      let turn := fun q => (q + 256 - ((stripOf s part).last + 1) % 256) % 256
      ∀ m < 256, ∀ y, readyPri s part m = some y → y < x ∨ (y = x ∧ turn n ≤ turn m)) ∧
    ((stripOf s part).awake = true → stageFree s part 1 = true → (stripOf s part).refused = [] →
      (∀ m < 256, (queueDesc s part m).en = true → queueBad (queueDesc s part m) = none) →
      (∀ n d, pickQueue s part = some n → servedNext s part = true → nextSlot s part (queueDesc s part n) = .packet d →
        let q := queueDesc s part n
        ∃ t, exec (.stripArbitration part) s = .next t ∧ (stripOf t part).last = n ∧ t.mem = s.mem ∧
          tfind (stripOf t part).stages 1 =
            some { queue := n, index := q.rd, type := fld d 7 0, qpa := q.pa, slot := slotAddr q q.rd, asid := q.asid,
                   root := q.root }) ∧
      (∀ n, pickQueue s part = some n → servedNext s part = false → exec (.stripArbitration part) s = .next s) ∧
      (pickQueue s part = none → ∃ t, exec (.stripArbitration part) s = .next t ∧ (stripOf t part).awake = false ∧
        t.mem = s.mem))

/-- The way of a packet through the stages (R292 to R296), alone in them: stage 1 reads its slot and frees it, stage
2 checks it and reads its buffer list, stage 3 lets WAIT and WAIT-ALL stand aside, stage 4 passes on what is no LAUNCH,
stage 5 performs its before-actions. In stage 6 SIGNAL stores or adds, COPY moves one word at a time (which one is open,
log 9). WAIT starts when its signal holds and no earlier packet of its queue is still to start, WAIT-ALL when its signals
do and no earlier packet of its queue runs; a packet completes with SIGVAL at SIGADDR, unless that is 0. -/
def Says.PacketsComplete : Prop :=
  ∀ (s : State) (part : Nat),
    let strip := fun (t : State) => stripOf t part
    (∀ n p, InStage s part n p → 1 ≤ p.type → p.type ≤ 5 →
      let o := exec (packetInstr part p.type) s
      let sp := packetSpace s part p
      let stands := fun (m : Nat) (x : StripPacket) (mem : Memory) => ∃ t, o = .next t ∧ InStage t part m x ∧
        (strip t).parked = (strip s).parked ∧ (strip t).running = (strip s).running ∧ t.mem = mem
      let starts := fun (x : StripPacket) (mem : Memory) => ∃ t, o = .next t ∧ (strip t).stages = [] ∧
        (strip t).running = (strip s).running ++ [x] ∧ t.mem = mem
      (∀ ds unread s2, n = 1 → stageFree s part 2 = true → readEach s sp p.slot 16 = some (ds, unread) →
        let x := { p with doubles := ds, unread := unread, type := fld (ds.getD 0 0) 7 0 }
        freeSlot s part x = some s2 → stands 2 x s2.mem) ∧
      (∀ bufs, n = 2 → stageFree s part 3 = true → stage2 s part p = some (.ok bufs) → stands 3 { p with bufs := bufs } s.mem) ∧
      (∀ r, n = 2 → stage2 s part p = some (.error r) → unstarted (strip s) p.queue 2 = false →
        (∀ x ∈ (strip s).parked, x.queue ≠ p.queue) →
        ∃ t, o = .next t ∧ (strip t).stages = [] ∧ t.mem = s.mem ∧ ∃ rec, (partOf t part).escPending = (partOf s part).escPending ++ [rec] ∧
          fld (rec.doubles.getD 0 0) 7 0 = Cause.packetMalformed.code) ∧
      (n = 3 → isWait p = true →
        ∃ t, o = .next t ∧ (strip t).stages = [] ∧ (strip t).parked = (strip s).parked ++ [p] ∧ t.mem = s.mem) ∧
      (n = 3 → isWait p = false → stageFree s part 4 = true → stands 4 p s.mem) ∧
      (n = 4 → p.type ≠ 1 → stageFree s part 5 = true → stands 5 p s.mem) ∧
      (∀ s2, n = 5 → stageFree s part 6 = true → beforeActions s part sp p.bufs = some s2 → stands 6 p s.mem) ∧
      (∀ s2, n = 6 → p.type = 3 →
        ((pd p 3).getLsbD 0 = true → ∀ pa, probe s sp .write (pd p 1).toNat = .ok pa → badData s pa 8 = false) →
        devStore s part sp (pd p 1).toNat (fun old => toBytes 8
          (if (pd p 3).getLsbD 0 = true then (old + (pd p 2).toNat) % 2 ^ 64 else (pd p 2).toNat)) 8 = .ok s2 →
        starts { p with done := true } s2.mem) ∧
      (∀ d s2, n = 6 → p.type = 4 →
        let todo := p.todo.getD (List.range (fld (pd p 3) 39 0 / 4))
        let i := todo.getD (Config.landPick s.tick % todo.length) 0
        let src := ((pd p 1).toNat + 4 * i) % 2 ^ 64
        readDbl s sp (src / 8 * 8) = .ok d →
        devStore s part sp ((pd p 2).toNat + 4 * i) (fun _ => toBytes 4 (d.toNat / 2 ^ (8 * (src % 8)) % 2 ^ 32)) 4 = .ok s2 →
        (todo.erase i = [] → starts { p with done := true, todo := some [] } s2.mem) ∧
        (todo.erase i ≠ [] → stands 6 { p with todo := some (todo.erase i) } s2.mem))) ∧
    (∀ queue p s2, (strip s).parked.find? (·.queue = queue) = some p → parkedMet s part p = some none →
      beforeActions s part (packetSpace s part p) p.bufs = some s2 →
      ∃ t, exec (.waitConditionMet part queue) s = .next t ∧ (strip t).parked = (strip s).parked.filter (· ≠ p) ∧
        (strip t).running = (strip s).running ++ [{ p with done := true }] ∧ (strip t).awake = true ∧ t.mem = s.mem) ∧
    (∀ p, unstarted (strip s) p.queue 3 = true → parkedMet s part p = none) ∧
    (∀ p d, p.type = 2 → unstarted (strip s) p.queue 3 = false → readDbl s (packetSpace s part p) (pd p 1).toNat = .ok d →
      (parkedMet s part p = some none ↔ signalHolds (fld (pd p 3) 1 0) d.toNat (pd p 2).toNat = true)) ∧
    (∀ p, p.type = 5 → (∀ x ∈ signalsOf p, ∃ d, readDbl s (packetSpace s part p) x.1 = .ok d) →
      (parkedMet s part p = some none ↔ (∀ r ∈ (strip s).running, r.queue ≠ p.queue) ∧
        (∀ x ∈ (strip s).stages, 3 < x.1 → x.2.queue ≠ p.queue) ∧
        ∀ x ∈ signalsOf p, ∀ d, readDbl s (packetSpace s part p) x.1 = .ok d → x.2.2 ≤ d.toNat)) ∧
    (∀ queue index p s2, ((strip s).running.find? fun r => r.queue = queue && r.index = index && r.done) = some p →
      (if pd p 5 = 0 then s2 = s
       else devStore s part (packetSpace s part p) (pd p 5).toNat (fun _ => toBytes 8 (pd p 6).toNat) 8 = .ok s2) →
      ∃ t, exec (.packetComplete part queue index) s = .next t ∧ t.mem = s2.mem ∧ (strip t).awake = true ∧
        (strip t).running = (strip s).running.filter fun r => !(r.queue = queue && r.index = index))

/-- O46. The Barista strip: arbitration and packets. -/
def Obligations.StripServesQueues : Prop := Says.QueueArbitration ∧ Says.PacketsComplete

/-- O47. In stage 4 a LAUNCH packet's image is read and found sound; in stage 6 it makes a launch of its own number, with
the image's header and estimates and the BIND of that cycle (R320), in the form that R300 gives. A launch whose budget is
used up ends with cause LAUNCH_BUDGET (R388), a launch without one never. -/
def Obligations.LaunchPackets : Prop :=
  (∀ (s : State) (part : Nat) (p : StripPacket) (im : Image), p.type = 1 →
    let la := launchOfPacket part p im
    (InStage s part 4 p → readImage s (packetSpace s part p) (pd p 1).toNat = .ok im → headerBad im.hdr = false →
      packetMismatch la = false → stageFree s part 5 = true →
      ∃ t, exec (.launchPacket part) s = .next t ∧ InStage t part 5 { p with image := some im } ∧ t.mem = s.mem) ∧
    (∀ (f : Form) (w h : Nat), InStage s part 6 p → p.image = some im → startForm s la = some (f, w, h) →
      unplaceable s la = false →
      ∃ t la', exec (.launchPacket part) s = .next t ∧ tfind t.launches s.nextId = some la' ∧ t.nextId = s.nextId + 1 ∧
        la'.pkt = p.doubles ∧ la'.hdr = im.hdr ∧ la'.est = im.est ∧ la'.part = part ∧ la'.lidNo = (partOf s part).nextLid ∧
        la'.bind = ((partOf s part).pd.getD 4 0).extractLsb' 32 16 ∧ la'.bound = ((partOf s part).pd.getD 4 0).getLsbD 48 ∧
        la'.form = f ∧ (f = .s → la'.wantsFabric = some s.cycle ∧ la'.fabric.map (fun x => (x.width, x.height)) = some (w, h)) ∧
        (stripOf t part).stages = [] ∧ (stripOf t part).running = (stripOf s part).running ++ [{ p with done := false }] ∧
        t.mem = s.mem)) ∧
  (∀ (s : State) (lid : Nat) (la : Launch), tfind s.launches lid = some la →
    (pkt la 4 = 0 ∨ la.used < (pkt la 4).toNat → exec (.launchBudget lid) s = .next s) ∧
    (pkt la 4 ≠ 0 → (pkt la 4).toNat ≤ la.used → ∃ t, exec (.launchBudget lid) s = .next t ∧
      tfind t.launches lid = none ∧ (∀ x ∈ t.wgs, x.2.lid ≠ lid) ∧
      ∃ r ∈ (partOf t la.part).escPending, r.lid = lid ∧ r.launchCause = true ∧
        fld (r.doubles.getD 0 0) 7 0 = Cause.launchBudget.code ∧ r.doubles.getD 3 0 = pkt la 4))

/-! ### The distributor (R20 to R26, R298, R299) and escalation records (R369 to R372) -/

/-- O48. Placement (R22, R298, R299): every member of a gang that fits gets a core of its own that fits it; the placement
takes at most 64 cycles (log 10); then each member of a fresh gang stands on its core in its frame with pc 0 and the
launch's arguments in s0 to s7. A first launch that has failed for 65,536 cycles blocks the list. -/
def Obligations.GangsArePlaced : Prop :=
  (∀ (s : State) (la : Launch) (gang : Nat) (fresh : Bool) (cores frames : List Nat),
    gangFits s la gang fresh = some (cores, frames) →
    cores.length = (waitingMembers la gang fresh).length ∧ (∀ c ∈ cores, c ∈ placeCores s la.part) ∧
    ((placeCores s la.part).Nodup → cores.Nodup) ∧
    ∀ (i : Nat) m c, (waitingMembers la gang fresh)[i]? = some m → cores[i]? = some c → coreFits s la m.2 c = true) ∧
  (∀ (s : State) (part lid gang : Nat) (fresh : Bool) (cores frames : List Nat) (s1 : State),
    (partOf s part).placing = none → nextPick (noteFirst s part) part = some (.gang lid gang fresh cores frames) →
    cores.foldlM (setSpu (imgScratch (launchOf s lid))) (noteFirst s part) = some s1 →
    ∃ t due, exec (.gangPlacement part) s = .next t ∧ s.cycle < due ∧ due ≤ s.cycle + 64 ∧
      (partOf t part).placing =
        some { lid := lid, gang := gang, fresh := fresh, cores := cores, frames := frames, due := due }) ∧
  (∀ (s : State) (part : Nat) (pl : Placing) (la : Launch), (partOf s part).placing = some pl → pl.due ≤ s.cycle →
    pl.fresh = true → tfind s.launches pl.lid = some la →
    ∃ t la', exec (.gangPlacementComplete part) s = .next t ∧ (partOf t part).placing = none ∧
      tfind t.launches pl.lid = some la' ∧ tfind la'.placed pl.gang = some s.cycle ∧ la'.nextGang = pl.gang + 1 ∧
      la'.started = true ∧
      ∀ x ∈ ((gangMembers la pl.gang).zip (pl.cores.zip pl.frames)), ∃ wid wg, wgOf t wid = some wg ∧ wg.lid = pl.lid ∧
        wg.w = x.1 ∧ wg.core = x.2.1 ∧ wg.frame = x.2.2 ∧ wg.nvregs = imgVregs la ∧ wg.exited = 0 ∧
        ∀ th ∈ wg.threads, (∃ m, th.paths = [{ mask := m, pc := 0, vtext := wg.strand }]) ∧
          ∀ i < 8, sGet th i = pkt la (8 + i)) ∧
  (∀ (s : State) (part lid since : Nat) (la : Launch), (partOf s part).firstFailed = some (lid, since) →
    since + 65536 ≤ s.cycle → (distList s part).head? = some (lid, la) →
    ∃ t, exec (.distributorListBlock part) s = .next t ∧ (partOf t part).blocked = true ∧ t = { s with parts := t.parts })

/-- O49. Pre-emption and retirement (R25, R299, R302): of the launches of lower PRI than the one that has waited 4,096
cycles, the gang of the lowest PRI that was placed last is sent back; a workgroup whose TGs and engines have finished
leaves its core, and with its last workgroup the launch retires and its packet is done. A save writes its frame and
nothing else, with the scratchpad in its place, and a restore reads it back (R303; the order of the tile bytes is log 36's
and not stated). -/
def Obligations.PreemptionAndRetirement : Prop :=
  (∀ (s : State) (la : Launch) (w : Workgroup) (a o : Nat),
    (a < w.frame ∨ w.frame + frameBytes la ≤ a → memByte (writeFrame s la w).mem a = memByte s.mem a) ∧
    (o < imgScratch la →
      memByte (writeFrame s la w).mem (w.frame + frameScratch la + o) = memByte w.pad.scratch o ∧
      memByte (readFrame (writeFrame s la w) la w).pad.scratch o = memByte w.pad.scratch o)) ∧
  (∀ (l : List (Victim × Nat × Nat)) (v : Victim), firstVictim l = some v →
    ∃ pri at_, (v, pri, at_) ∈ l ∧ ∀ y ∈ l, pri < y.2.1 ∨ (pri = y.2.1 ∧ y.2.2 ≤ at_)) ∧
  (∀ (s : State) (part since lid gang : Nat) (x : Nat × Launch), (distList s part).head? = some x →
    (partOf s part).firstFailed = some (x.1, since) → since + 4096 ≤ s.cycle → pickOf s x = none →
    savingGangs s part = [] → fabricSaving s part = false →
    firstVictim ((s.launches.filter fun y => y.2.part = part && priOf y.2 < priOf x.2).flatMap (victimsOf s)) =
      some (.gang lid gang) →
    exec (.preemptionTrigger part) s = .next (saveReady (markGang s lid gang) (launchOf s lid).part) ∧
    ∀ wid w, wgOf s wid = some w → w.lid = lid → w.w / gangSize (launchOf s lid) = gang →
      wgOf (markGang s lid gang) wid = some { w with saving := true }) ∧
  (∀ (s : State) (wid : Nat) (w : Workgroup) (la : Launch) (s1 : State), wgOf s wid = some w → mayRetire s wid w = true →
    drainAll s w.core = some s1 → tfind s.launches w.lid = some la →
    ∃ t, exec (.workgroupRetire wid) s = .next t ∧ wgOf t wid = none ∧
      (la.retired + 1 ≠ workgroupCount la → ∃ la', tfind t.launches w.lid = some la' ∧ la'.retired = la.retired + 1) ∧
      (la.retired + 1 = workgroupCount la → tfind t.launches w.lid = none ∧
        (stripOf t la.part).running = (stripOf s la.part).running.map fun r =>
          if r.queue = la.queue ∧ r.index = la.index then { r with done := true } else r))

/-- O50. Escalation records (R370, R372): the oldest record that waits is written to the ring while it has room and no
lock holds its place, and raises the supervisor's interrupt; CMD 1 and CMD 2 let the halted thread go on as `rett` and
`rett.next`, and do nothing for a launch cause; CMD 3 ends the launch. -/
def Obligations.EscalationRecords : Prop :=
  ∀ (s : State) (part : Nat),
    let esc := fun (t : State) => partOf t part
    (∀ r rest, (esc s).escPending = r :: rest → ringRoom (esc s) = true →
      let n := fld ((esc s).ed.getD 2 0) 31 0
      let pa := ((esc s).ed.getD 0 0).toNat + 64 * (n % 2 ^ fld ((esc s).ed.getD 1 0) 35 32)
      (lockedFor s none pa 64 = true → exec (.escalationRecordWrite part) s = .next s) ∧
      (lockedFor s none pa 64 = false → pa < 2 ^ 51 → ∃ t, exec (.escalationRecordWrite part) s = .next t ∧
        t.mem = (sliceWrite s pa (r.doubles.flatMap fun d => toBytes 8 d.toNat)).mem ∧
        (esc t).ed = (esc s).ed.set 2 (BitVec.ofNat 64 ((n + 1) % 2 ^ 32)) ∧ (esc t).escPending = rest ∧
        tfind (esc t).escWritten n = some r ∧ (esc t).supervisorIrq = true ∧ t.out = .supervisorInterrupt part :: s.out)) ∧
    (ringRoom (esc s) = false → exec (.escalationRecordWrite part) s = .next s) ∧
    (∀ record r, tfind (esc s).escWritten record = some r →
      (r.target = none → exec (.escResume part record) s = .next s ∧ exec (.escResumeNext part record) s = .next s) ∧
      (∀ w tix, r.target = some (w, tix) →
        let resumed := fun (t : State) (next : Bool) => tfind (esc t).escWritten record = none ∧ t.mem = s.mem ∧
          ∀ wid x th h, wgOf s wid = some x → x.lid = r.lid → x.w = w → x.threads[tix]? = some th →
            th.halt = some (.escalated h) → wgOf t wid = some (resumeWg x tix next)
        (∃ t, exec (.escResume part record) s = .next t ∧ resumed t false) ∧
        (∃ t, exec (.escResumeNext part record) s = .next t ∧ resumed t true)) ∧
      (∀ la, tfind s.launches r.lid = some la →
        ¬(fld (r.doubles.getD 0 0) 63 32 = 0xFFFFFFFF ∧ fld (r.doubles.getD 0 0) 7 0 = 0x15) →
        ∃ t, exec (.escEndLaunch part record) s = .next t ∧ tfind t.launches r.lid = none ∧ ∀ x ∈ t.wgs, x.2.lid ≠ r.lid))

/-! ### Region controllers, power and energy (R51 to R54, R305 to R316, R324, R325, R430 to R434) -/

/-- Nothing of the module but its regions and its Carafes, the counter of free values and the reports that go out has
changed. -/
def RegionsOnly (s t : State) : Prop :=
  t = { s with regions := t.regions, carafes := t.carafes, tick := t.tick, out := t.out }

/-- O51. A region controller (R306 to R308, R430 to R433): STEP is the sustained step, or the lower of MINSTEP and SSTEP
while BOOST lasts and no power response has raised the step (log 120, DEDUCED); band 7 holds it at 8 or above, a stop at 15. BADD adds to BOOST, which saturates. REGION_STOP counts
the stop and ends every launch that stands on the region; REGION_RESTART acts once no condition holds. -/
def Obligations.RegionControllers : Prop :=
  ∀ (s : State) (r : Nat),
    let g := fun (t : State) => regionOf t r
    (∃ t, exec (.regionStepSelect r) s = .next t ∧ g t = { g s with step := BitVec.ofNat 4 (chooseStep (g s)) } ∧
      RegionsOnly s t ∧ ∀ q, q ≠ r → regionOf t q = regionOf s q) ∧
    ((g s).stopKind ≠ 0 → chooseStep (g s) = 15) ∧
    ((g s).stopKind = 0 → (g s).band.toNat < 6 → (g s).boost = 0 → (g s).raise = 0 → chooseStep (g s) = (g s).sstep.toNat) ∧
    ((g s).stopKind = 0 → (g s).band.toNat < 6 → (g s).raise ≠ 0 → chooseStep (g s) = min 15 (sustainedStep (g s))) ∧
    ((g s).stopKind = 0 → (g s).band.toNat < 6 → (g s).boost ≠ 0 → (g s).raise = 0 →
      chooseStep (g s) = min (g s).minstep.toNat (g s).sstep.toNat) ∧
    ((g s).stopKind = 0 → (g s).band = 7 → 8 ≤ chooseStep (g s)) ∧
    (∀ amount : Word, ∃ t, exec (.badd r amount) s = .next t ∧
      (g t).boost.toNat = min (2 ^ 32 - 1) ((g s).boost.toNat + amount.toNat) ∧ RegionsOnly s t) ∧
    (∀ c, (g s).settling = some c → c ≤ s.cycle →
      ∃ t, exec (.regulatorVoltageReady r) s = .next t ∧ (g t).settling = none ∧ RegionsOnly s t) ∧
    (∀ band, ∃ t, exec (.temperatureBandChange r band) s = .next t ∧ (g t).band = band ∧ RegionsOnly s t) ∧
    (∀ kind, kind ≠ 0 → ∃ t, exec (.regionStop r kind) s = .next t ∧ (g t).stopKind = (g s).stopKind ||| kind ∧
      (g t).step = 15 ∧ (∀ lid ∈ launchesOn s r, tfind t.launches lid = none) ∧
      ((g s).stopKind = 0 → (g s).stops ≠ 255 → (g t).stops = (g s).stops + 1)) ∧
    ((g s).stopKind ≠ 0 → ∃ t, exec (.regionRestart r false) s = .next t ∧ (g t).stopKind = 0 ∧ RegionsOnly s t) ∧
    exec (.regionRestart r true) s = .next s

/-- The notice of R324 and R434 to a partition: THERM counts on and the supervisor's interrupt is pending. -/
def Notified (s t : State) (part : Nat) : Prop :=
  fld ((partOf t part).pd.getD 6 0) 23 16 = (fld ((partOf s part).pd.getD 6 0) 23 16 + 1) % 256 ∧
  (partOf t part).thermalIrq = true

/-- O52. The power monitor, the thermal responses and the throttle (R311, R324, R430, R434): an overload raises every
region's sustained step by 1, up to 12, and its end lowers it, no lower than SSTEP; overcurrent forces STEP 12 or higher until it is
released; undervoltage copies the Carafes and turns the module off; a change of a die's thermal cap or DRAM bypass
notifies the partitions concerned (which they are: log 76, DEDUCED; the die of a core: log 64, PRESUMED); a workgroup in excess is throttled for 20,000 cycles, and no longer once its excess
is over. -/
def Obligations.PowerResponses : Prop :=
  ∀ (s : State),
    (∀ above, ∃ t, exec (.powerOverloadResponse above) s = .next t ∧ RegionsOnly s t ∧ ∀ r < 64,
      let step := sustainedStep (regionOf s r)
      (regionOf t r).sstep = (regionOf s r).sstep ∧ sustainedStep (regionOf t r) =
        if above = true then (if step < 12 then step + 1 else step) else max (regionOf s r).sstep.toNat (step - 1)) ∧
    (∃ t, exec .overcurrentResponse s = .next t ∧ RegionsOnly s t ∧ ∀ r < 64, (regionOf t r).forced = true ∧
      12 ≤ stepOf (regionOf t r)) ∧
    (∃ t, exec .overcurrentRelease s = .next t ∧ RegionsOnly s t ∧ ∀ r < 64, (regionOf t r).forced = false) ∧
    exec .inputUndervoltage s = .next { s with flash := s.carafes, powered := false, out := .poweredOff :: s.out } ∧
    (∀ die capped, s.capped.Nodup → s.capped.contains die ≠ capped →
      ∃ t, exec (.thermalRescale die capped) s = .next t ∧ t.capped.contains die = capped ∧ t.mem = s.mem ∧
        ∀ p < 16, (partOf s p).pd.length = 8 → (partOf s p).res.bwsh ≠ 0 ∨ p ∈ partsOnDie s die → Notified s t p) ∧
    (∀ die hot, s.bypassed.Nodup → s.bypassed.contains die ≠ hot →
      ∃ t, exec (.stackedDramBypass die hot) s = .next t ∧ t.bypassed.contains die = hot ∧ t.mem = s.mem ∧
        ∀ p ∈ partsOnDie s die, (partOf s p).pd.length = 8 → Notified s t p) ∧
    (∀ wid w, wgOf s wid = some w →
      let excess := inExcess s.cycle (phaseAt s (.workgroup wid)) w.pad
      (w.pad.throttle = none → excess = true → ∃ t h w', exec (.throttleStart (.workgroup wid)) s = .next t ∧
        wgOf t wid = some w' ∧ w' = { w with pad := { w.pad with throttle := some h } } ∧ h.ends = s.cycle + 20000) ∧
      (∀ h, w.pad.throttle = some h → h.ends ≤ s.cycle → excess = false → ∃ t, exec (.throttleEnd (.workgroup wid)) s = .next t ∧
        wgOf t wid = some { w with pad := { w.pad with throttle := none } }))

/-- O53. Energy, estimates and shared counters (R51, R52, R54, R314, R315, R325): a launch is charged its share of the
interval's energy by slot-cycles, and EACC tells the sum in µJ; the running form's WORK becomes (7 × WORK + m) / 8 and
SAMPLES counts up to 65,535; the form proposed has the highest WORK and beats the measurement by the threshold. -/
def Obligations.EnergyAndEstimates : Prop :=
  (∀ (s : State) (r energy lid n : Nat) (la : Launch), (regionOf s r).slotCycles = [(lid, n)] →
    tfind s.launches lid = some la → la.fabric = none →
    ∃ t la', exec (.energyIntervalEnd r energy) s = .next t ∧ tfind t.launches lid = some la' ∧
      la'.energy = la.energy + energy * n / 16777216 ∧ la'.eacc = BitVec.ofNat 64 (la'.energy / 1000) ∧
      (regionOf t r).slotCycles = [] ∧ (regionOf t r).intervalStart = s.cycle ∧
      (regionOf t r).intervalBefore = (regionOf s r).intervalStart ∧
      t.agenda = .percolatorIntervalEnd lid r
        (workPerUj s.tick (tget 0 (regionOf s r).workOf lid) (energy * n / 16777216)) :: s.agenda) ∧
  (∀ (tick work nJ : Nat), nJ ≠ 0 → workPerUj tick work nJ = 1000 * work / nJ) ∧
  (∀ (s : State) (lid r m : Nat) (la : Launch) (form : Form), tfind s.launches lid = some la →
    formOn s lid r (regionOf s r).intervalBefore = some form →
    ∃ t la', exec (.percolatorIntervalEnd lid r m) s = .next t ∧ tfind t.launches lid = some la' ∧
      la'.est = la.est.set (formNo form) (refine s.tick (la.est.getD (formNo form) 0) m)) ∧
  (∀ (tick m : Nat) (d : Dbl), (7 * fld d 31 0 + m) / 8 < 2 ^ 32 →
    fld (refine tick d m) 31 0 = (7 * fld d 31 0 + m) / 8 ∧ fld (refine tick d m) 47 32 = min 65535 (fld d 47 32 + 1) ∧
    fld (refine tick d m) 63 48 = fld d 63 48) ∧
  (∀ (la : Launch) (running f : Form) (m : Nat), proposal la running m = some f → f ≠ running ∧ hasVersion la f = true ∧
    policyAllows la.policy.toNat running f = true ∧ m * (100 + la.thr.toNat) < workOf la f * 100 ∧
    ∀ g, g ≠ running → hasVersion la g = true → policyAllows la.policy.toNat running g = true →
      m * (100 + la.thr.toNat) < workOf la g * 100 → workOf la g ≤ workOf la f) ∧
  (∀ (s : State) (part counter used capacity : Nat), ∃ t, exec (.sharedCounterWindow part counter used capacity) s = .next t ∧
    tget (0, 0) (partOf t part).windows counter =
      (64 * (if counter = 3 then (partOf s part).idle - (partOf s part).idleAt else used) / capacity, (tget (0, 0) (partOf s part).windows counter).1) ∧ t = { s with parts := t.parts })

/-! ### Partitions, the host, peers, boot and reset (R10, R203, R307, R317 to R323, R331, R332, R370, R406 to R408,
R433 to R442) -/

/-- A command of a partition has ended with a STATUS. -/
def CommandEnded (s t : State) (part status : Nat) : Prop :=
  (partOf s part).pd.length = 8 → busyOf t part = false ∧ fld ((partOf t part).pd.getD 6 0) 15 12 = status

/-- The partition has been reset: its launches, contexts and cached translations are gone, and of its packets only those
that are done and still wait to store their completion are left (R26, R285); its resources stay. -/
def PartitionCleared (s t : State) (part : Nat) : Prop :=
  (∀ x ∈ t.launches, x.2.part ≠ part) ∧ (∀ e ∈ t.tlb, e.part ≠ part) ∧ (partOf t part).res = (partOf s part).res ∧
  (partOf t part).ed = (partOf s part).ed ∧ (∀ p ∈ (stripOf t part).running, p.done = true) ∧
  (stripOf t part).stages = [] ∧ (stripOf t part).parked = [] ∧ (partOf t part).escPending = [] ∧
  CommandEnded s t part 0

/-- O54. CMD 1, 2 and 3 (R321 to R323, R435): new resources are refused with STATUS 2 where another partition holds
them and with STATUS 3 where the descriptor is invalid; otherwise they are in use once nothing is left on the cores
that leave. CMD 2 clears the partition, as a reset of its virtual function does that the host link delivers, CMD 3 drops its
cached translations. -/
def Obligations.PartitionCommands : Prop :=
  ∀ (s : State) (part : Nat),
    ((partOf s part).next = none → conflicts s part (askedFor s part) = true →
      ∃ t, exec (.partitionApplyResources part) s = .next t ∧ (partOf t part).res = (partOf s part).res ∧
        CommandEnded s t part 2 ∧ t.mem = s.mem) ∧
    ((partOf s part).next = none → conflicts s part (askedFor s part) = false → invalidRes s part (askedFor s part) = true →
      ∃ t, exec (.partitionApplyResources part) s = .next t ∧ (partOf t part).res = (partOf s part).res ∧
        CommandEnded s t part 3 ∧ t.mem = s.mem) ∧
    ((partOf s part).next = none → conflicts s part (askedFor s part) = false → invalidRes s part (askedFor s part) = false →
      (partOf s part).placing = none → (∀ x ∈ s.launches, x.2.part ≠ part) →
      (∀ x ∈ s.wgs, (launchOf s x.2.lid).part ≠ part) → s.locks = [] →
      ∃ t, exec (.partitionApplyResources part) s = .next t ∧ (partOf t part).res = askedFor s part ∧
        (partOf t part).next = none ∧ CommandEnded s t part 0) ∧
    ((partOf s part).next = none → ∃ t, exec (.partitionReset part) s = .next t ∧ PartitionCleared s t part) ∧
    ((partOf s part).next = none → hostLink s = true → ∃ t, exec (.flrVf part) s = .next t ∧ PartitionCleared s t part) ∧
    (let d := (partOf s part).pd.getD 5 0
     ∃ t, exec (.translationInvalidation part) s = .next t ∧ CommandEnded s t part 0 ∧ t.mem = s.mem ∧
       t.tlb = s.tlb.filter fun e => !(e.part = part && (d.getLsbD 0 || e.asid = d.extractLsb' 48 16)))

/-- O55. Register writes (R11, R203, R307, R319, R320, R337): partition descriptors keep what is written; RPCTL sets
SSTEP, MINSTEP no higher than SSTEP, and SLOTDLY; a command while BUSY gives STATUS 1; breakpoints, watchpoints, the
debug control and the mailboxes of a core. -/
def Obligations.RegisterWrites : Prop :=
  ∀ (s : State) (v : Dbl),
    (∀ a reg, windowReg a = some reg → exec (.registerWrite (.window a) v) s = .next (writeWindow s reg v)) ∧
    (∀ a, windowReg a = none → exec (.registerWrite (.window a) v) s = .next s) ∧
    (∀ part n, n < 8 → n ≠ 6 → (partOf s part).pd.length = 8 →
      (partOf (writeWindow s (.pd part n) v) part).pd.getD n 0 = v) ∧
    (∀ part, (partOf s part).pd.length = 8 → busyOf s part = true →
      let t := writeWindow s (.pd part 6) v
      busyOf t part = true ∧ fld ((partOf t part).pd.getD 6 0) 15 12 = 1 ∧ t.agenda = s.agenda) ∧
    (∀ r, let g := regionOf (writeWindow s (.rpctl r) v) r
      g.sstep.toNat = fld v 3 0 ∧ g.minstep.toNat = min (fld v 11 8) (fld v 3 0) ∧ g.slotdly.toNat = fld v 23 16) ∧
    (∀ c n, ∃ t, exec (.registerWrite (.breakpoint c n) v) s = .next t ∧ coreOf t c =
      { coreOf s c with bp := (coreOf s c).bp.set n v } ∧ t = { s with cores := t.cores }) ∧
    (∀ c n, ∃ t, exec (.registerWrite (.watchpoint c n) v) s = .next t ∧ coreOf t c =
      { coreOf s c with wp := (coreOf s c).wp.set n v } ∧ t = { s with cores := t.cores }) ∧
    (∀ c n, ∃ t, exec (.registerWrite (.mailbox c n) v) s = .next t ∧ coreOf t c =
      { coreOf s c with mbox := (coreOf s c).mbox.set n v } ∧ t = { s with cores := t.cores }) ∧
    (∀ c, ∃ t, exec (.registerWrite (.debugControl c) v) s = .next t ∧ t = { s with cores := t.cores } ∧
      fld (coreOf t c).dbg 31 14 = fld v 31 14 ∧ fld (coreOf t c).dbg 13 0 = 0 ∧ fld (coreOf t c).dbg 63 32 = 0)

/-- Host and peer accesses (R272, R326, R331, R390, R407, R437, R440): a read that meets no lock and no bad sector
returns the bytes, a bad one ends in an abort or a peer error and is entered in the Carafe; a write stores its bytes; a
virtual function reaches its partition's queue table and nothing behind it; while the link is down, or in recovery, nothing
of the host arrives in module memory, and a poisoned write is discarded. Physical function 0 gives BOOTSTAT, in recovery the
staging SRAM, and answers configuration requests with a retry until the link is enabled. (Where module memory stands behind
a base address register is log 121's, DESIGN CHOICE.) -/
def Says.HostAndPeerAccesses : Prop :=
  ∀ (s : State) (addr n : Nat) (data : List Byte),
    (s.arrivals = [] → n ≠ 0 → addr + n ≤ 2 ^ 40 → lockedFor s none addr n = false →
      (badData s addr n = false →
        (hostLink s = true → exec (.hostRead (.memory addr) n) s = .next { s with out := .hostData (readBytes s.mem addr n) :: s.out }) ∧
        exec (.peerMemoryAccess addr (.read n)) s = .next { s with out := .peerData (readBytes s.mem addr n) :: s.out }) ∧
      (badData s addr n = true →
        (hostLink s = true → ∃ t, exec (.hostRead (.memory addr) n) s = .next t ∧
          t = { s with out := .completerAbort :: s.out, carafes := t.carafes }) ∧
        ∃ t, exec (.peerMemoryAccess addr (.read n)) s = .next t ∧ t = { s with out := .peerError :: s.out, carafes := t.carafes })) ∧
    (s.arrivals = [] → data ≠ [] → addr + data.length ≤ 2 ^ 40 → lockedFor s none addr data.length = false →
      (hostLink s = true → ∃ t, exec (.hostWrite (.memory addr) data false) s = .next t ∧ t.mem = writeBytes s.mem addr data) ∧
      ∃ t, exec (.peerMemoryAccess addr (.write data)) s = .next t ∧ t.mem = writeBytes s.mem addr data) ∧
    (s.arrivals = [] → n ≠ 0 → addr + n ≤ 2 ^ 40 → lockedFor s none addr n = true → hostLink s = true →
      exec (.hostRead (.memory addr) n) s = .next { s with arrivals := [.hostRead addr n] }) ∧
    (hostLink s = false → exec (.hostRead (.memory addr) n) s = .next s ∧
      ∀ poisoned, exec (.hostWrite (.memory addr) data poisoned) s = .next s) ∧
    (hostLink s = true → ∃ t, exec (.hostWrite (.memory addr) data true) s = .next t ∧ t = { s with carafes := t.carafes }) ∧
    (∀ part o, part < 16 → hostLink s = true →
      let qtab := ((partOf s part).pd.getD 0 0).toNat
      (o + n ≤ 16384 → exec (.hostRead (.queueTable part o) n) s = exec (.hostRead (.memory (qtab + o)) n) s) ∧
      (16384 < o + n → exec (.hostRead (.queueTable part o) n) s = .next { s with out := .completerAbort :: s.out }) ∧
      (o + data.length ≤ 16384 →
        exec (.hostWrite (.queueTable part o) data false) s = exec (.hostWrite (.memory (qtab + o)) data false) s) ∧
      (16384 < o + data.length → exec (.hostWrite (.queueTable part o) data false) s = .next s)) ∧
    (s.linkEnabled = false → exec (.hostRead (.configuration addr) n) s = .next { s with out := .configurationRetry :: s.out }) ∧
    (s.linkUp = true → exec (.hostRead (.status 0) 8) s =
      .next { s with tick := s.tick + 1, out := .hostData (toBytes 8 (bootstat s.boot)) :: s.out }) ∧
    (∀ o, s.linkUp = true → s.boot.recovery = true →
      (o + data.length ≤ 2 ^ 24 → ∃ t, exec (.hostWrite (.staging o) data false) s = .next t ∧
        t = { s with boot := { s.boot with sram := writeBytes s.boot.sram o data } }) ∧
      (o + n ≤ 2 ^ 24 → exec (.hostRead (.staging o) n) s = .next { s with out := .hostData (readBytes s.boot.sram o n) :: s.out }))

/-- Link, ports and the debug port (R337, R437 to R439): the link goes down, which fails every read of the host window
that is under way, and, where enabled, comes up; an outstanding host read that stays unanswered is noted for its lane, which
takes LINK_ERROR when its path tries the instruction again (log 42, DEDUCED); a reset of physical function 0 touches the boot status alone; a port goes down and up,
and down with its third failed retraining within 1 ms; a thread that the debug port halted goes on as after `rett` or
`rett.next`. -/
def Says.LinksAndDebugPort : Prop :=
  ∀ (s : State),
    (∃ t, exec .linkDown s = .next t ∧
      t = { s with linkUp := false, carafes := t.carafes, wgs := t.wgs, launches := t.launches } ∧
      (∀ wid, wgOf t wid = (wgOf s wid).map fun w => { w with linkFails := w.linkFails ++ w.threads.flatMap askedLanes }) ∧
      (∀ lid tile u, unitOf t lid tile u =
        { unitOf s lid tile u with asked := (unitOf s lid tile u).asked.map fun a => (a.1, true) })) ∧
    (s.linkEnabled = true → ∃ t, exec .linkUp s = .next t ∧ t = { s with linkUp := true, carafes := t.carafes }) ∧
    (∀ wid tix lane w th, wgOf s wid = some w → w.threads[tix]? = some th → ∃ t, exec (.hostReadTimeout wid tix lane) s = .next t ∧
      t = { s with wgs := t.wgs } ∧ wgOf t wid = some (if lane ∈ askedLanes th then
        { w with linkFails := w.linkFails ++ [lane] } else w)) ∧
    (∃ t, exec .flrPf0 s = .next t ∧
      t = { s with boot := { s.boot with state := 0, step := 0, code := 0 }, carafes := t.carafes }) ∧
    (∀ port, let up := fun (t : State) => (tget {} t.ports port).up
      (∃ t, exec (.peerPortDown port) s = .next t ∧ up t = false) ∧
      (∃ t, exec (.peerPortUp port) s = .next t ∧ up t = true ∧ t.mem = s.mem) ∧
      exec (.flitCrcFailure port false) s = .next s ∧
      (∃ t, exec (.flitCrcFailure port true) s = .next t ∧
        (2 ≤ ((tget {} s.ports port).fails.filter fun c => s.cycle < c + 2500000).length → up t = false) ∧
        (((tget {} s.ports port).fails.filter fun c => s.cycle < c + 2500000).length < 2 → up t = up s))) ∧
    (∀ core slot wid tix w, haltedAt s core slot = some (wid, tix) → wgOf s wid = some w →
      (∃ t, exec (.debugResume core slot) s = .next t ∧ wgOf t wid = some (resumeWg w tix false) ∧ t.mem = s.mem) ∧
      (∃ t, exec (.debugResumeNext core slot) s = .next t ∧ wgOf t wid = some (resumeWg w tix true) ∧ t.mem = s.mem))

/-- O56. What the host, peers and the debug port do. -/
def Obligations.OutsideAccesses : Prop := Says.HostAndPeerAccesses ∧ Says.LinksAndDebugPort

/-- O57. Boot, reset, freeze, attestation and soft errors (R10, R331, R332, R345, R406, R407, R440, R441): a boot whose
images are accepted extends MR0 with the first stage (from 0: log 5, DESIGN CHOICE) and MR1 with the firmware, copies the
images from the staging SRAM to memory (where to, log 29) and ends running with the host link up; one whose first-stage
copies are both refused fails in step 1 with its code, and the next cycle finds the ROM in recovery, where an image that
the host has staged is judged in the same way. A module reset keeps memory (log 77, DEDUCED). An error that the code
corrects changes nothing but the Carafe (log 122, DEDUCED). -/
def Obligations.BootResetAndErrors : Prop :=
  ∀ (s : State),
    (∀ a b rest, (∀ i ∈ a :: rest, imageCode { minVersion := s.boot.minVersion } i = 0) →
      (rest.flatMap (·.data)).length ≤ 2 ^ 24 →
      ∃ t, exec (.powerOnBoot (a :: b :: rest) true true) s = .next t ∧ t.powered = true ∧ t.frozen = false ∧
        t.boot.sram = writeBytes [] 0 (rest.flatMap (·.data)) ∧ t.mem = rest.zipIdx.foldl
          (fun m x => writeBytes m (Config.imageBase x.2 % 2 ^ 39) x.1.data) [] ∧
        t.boot.state = 1 ∧ t.boot.step = 6 ∧ t.linkUp = true ∧ t.boot.strips = true ∧ t.boot.rootPorts = 0xF ∧
        t.boot.mr.getD 0 0 = Config.sha384 (toBytes 48 0 ++ toBytes 48 (Config.sha384 a.data).toNat) ∧
        ∀ f r, rest = f :: r → t.boot.mr.getD 1 0 = Config.sha384 (toBytes 48 0 ++ toBytes 48 (Config.sha384 f.data).toNat)) ∧
    (∀ a b rest trained strips, imageCode { minVersion := s.boot.minVersion } a ≠ 0 →
      imageCode { minVersion := s.boot.minVersion } b ≠ 0 →
      ∃ t, exec (.powerOnBoot (a :: b :: rest) trained strips) s = .next t ∧ t.boot.state = 2 ∧ t.boot.step = 1 ∧
        t.boot.recovery = true ∧ t.linkUp = false ∧ t.linkEnabled = false ∧
        t.boot.code = BitVec.ofNat 8 (imageCode { minVersion := s.boot.minVersion } b) ∧ t.boot.mr = [0, 0, 0]) ∧
    (s.powered = true → s.frozen = false → s.boot.recovery = true → s.linkEnabled = false →
      ∃ t, exec .issueCycle s = .next t ∧ t.boot.state = 3 ∧ t.boot.recovery = true ∧ t.linkEnabled = true ∧ t.linkUp = true) ∧
    (∀ staged, let image := stagedImage s.boot staged
      (s.boot.recovery = false → exec (.recoveryBoot staged) s = .next s) ∧
      (s.boot.recovery = true → s.linkEnabled = true → imageCode s.boot image ≠ 0 →
        ∃ t, exec (.recoveryBoot staged) s = .next t ∧ t.boot.state = 2 ∧ t.boot.step = 1 ∧ t.boot.recovery = true ∧
          t.boot.code = BitVec.ofNat 8 (imageCode s.boot image) ∧ t.boot.mr = s.boot.mr ∧ t.mem = s.mem) ∧
      (s.boot.recovery = true → s.linkEnabled = true → imageCode s.boot image = 0 → s.boot.mr.length = 3 →
        ∃ t, exec (.recoveryBoot staged) s = .next t ∧ t.boot.mr.getD 0 0 =
          Config.sha384 (toBytes 48 (s.boot.mr.getD 0 0).toNat ++ toBytes 48 (Config.sha384 image.data).toNat))) ∧
    (s.powered = true → ∃ t, exec .moduleReset s = .next t ∧ t = { resetModule s with carafes := t.carafes } ∧ t.mem = s.mem) ∧
    (∃ t, exec .freeze s = .next t ∧ t = { s with frozen := true, carafes := t.carafes }) ∧
    (∀ part nonce, (s.boot.secretGood = false → exec (.attestationRequest part nonce) s = .next { s with out := .noReport :: s.out }) ∧
      (s.boot.secretGood = true → s.boot.mr.length = 3 →
        let body := reportBody s part nonce
        exec (.attestationRequest part nonce) s =
          .next { s with out := .report (body ++ toBytes 96 (Config.sign body).toNat) (Config.sign body) :: s.out } ∧
        body.length = 0x1A0 ∧ (body.drop 8).take 48 = toBytes 48 nonce.toNat)) ∧
    (∀ target, ∃ t, exec (.softError target false) s = .next t ∧ t = { s with carafes := t.carafes }) ∧
    (∀ a, ∃ t, exec (.softError (.memory a) true) s = .next t ∧ a / 32 ∈ t.badMem ∧ t.mem = s.mem) ∧
    (∀ wid w l r, wgOf s wid = some w → ∃ t, exec (.softError (.laneReg wid l r) true) s = .next t ∧
      wgOf t wid = some { w with badRegs := (r, l) :: w.badRegs })

/-- O58. A cycle (R27, R28, R301): time and the clocks of the regions go on, and what the outside world does in the
cycle comes onto the agenda; each half of a core serves a ready TG of the highest PRI, of those the oldest; with the
progress promise, a path that has held its turn longer than FAIRT cycles gives way and a TG that has not issued for
FAIRT cycles takes the issue slot of its half, a strand of VL 64 or more that of the other half too where no claim there
stands higher or has an override of its own; without it neither happens. (That a region's clock skips STEP of 16 module
cycles evenly is log 57's, DEDUCED, and that the override counts FAIRT in module cycles log 57's, DESIGN CHOICE.) -/
def Obligations.CycleBegins : Prop :=
  (∀ (s : State), s.frozen = false → s.powered = true → ∃ t, exec .issueCycle s = .next t ∧ t.cycle = s.cycle + 1 ∧
    t.inputs = (s.inputs.filter fun x => s.cycle + 1 < x.1) ∧ (∀ x ∈ s.inputs, x.1 ≤ s.cycle + 1 → x.2 ∈ t.agenda) ∧
    ∀ r < 64, (regionOf t r).cycles = (regionOf s r).cycles +
      if 16 ≤ (regionOf s r).frac + (16 - stepOf (regionOf s r)) then 1 else 0) ∧
  (∀ (s : State) (core half : Nat) (c : Claim), serveHalf s core half = some c → c ∈ claimsOn s core half ∧
    ∀ x ∈ claimsOn s core half, (x.gaveSlot = false → c.gaveSlot = false) ∧
      (x.gaveSlot = c.gaveSlot → claimBefore x c = false)) ∧
  (∀ (s : State) (wid tix : Nat) (w : Workgroup) (th : Thread), wgOf s wid = some w → w.threads[tix]? = some th →
    (∀ i p, promiseOn (launchOf s w.lid) = true → th.gave = false → w.fairt.toNat < th.turn → 1 < (readyPaths th).length →
      pickPath th = some i → th.paths[i]? = some p → ∃ t w', exec (.fairnessTimerExpire wid tix) s = .next t ∧
        wgOf t wid = some w' ∧ w'.threads[tix]? = some { th with run := lowestLane p.mask, gave := true, turn := 0, stalled := 0 } ∧
        w'.v = w.v ∧ t.mem = s.mem) ∧
    (threadReady s w th = true → promiseOn (launchOf s w.lid) = true → th.last + w.fairt.toNat ≤ s.cycle →
      ∃ t, exec (.fairnessOverride wid tix) s = .next t ∧ .thread wid tix ∈ t.issue ∧
        (∀ i ∈ t.issue, halfOf s i = some (w.core, th.slot % 2) → i = .thread wid tix) ∧
        (∀ i ∈ s.issue, halfOf s i ≠ some (w.core, 0) → halfOf s i ≠ some (w.core, 1) → i ∈ t.issue) ∧
        (let c := claimOf s wid tix w th
         let other := 1 - th.slot % 2
         (¬(c.strand = true ∧ 64 ≤ c.vl) → ∀ i ∈ s.issue, halfOf s i ≠ some (w.core, th.slot % 2) → i ∈ t.issue) ∧
         (c.strand = true → 64 ≤ c.vl → (∀ x ∈ claimsOn s w.core other, claimBefore x c = false ∧ x.starved = false) →
           ∀ i ∈ t.issue, halfOf s i ≠ some (w.core, other))) ∧
        t = { s with issue := t.issue }) ∧
    (promiseOn (launchOf s w.lid) = false → exec (.fairnessTimerExpire wid tix) s = .next s ∧
      exec (.fairnessOverride wid tix) s = .next s)) ∧
  (∀ (s : State) (core line : Nat) (e : CbEntry), (coreOf s core).cb = [e] → e.line = line → e.born + 4096 ≤ s.cycle →
    (e.bytes.map (·.1)).Nodup → (∀ x ∈ e.bytes, inHost x.1 = false ∧ lockedFor s none x.1 1 = false) →
    ∃ t, exec (.coalescingEntryAgeDrain core line) s = .next t ∧ (coreOf t core).cb = [] ∧
      (∀ x ∈ e.bytes, memByte t.mem x.1 = x.2) ∧ ∀ a, a ∉ e.bytes.map (·.1) → memByte t.mem a = memByte s.mem a)

end
end

