-- ==== Sys2Proof/Laws/Encoding.lean ====
section
/-! SUPPORT. The formats as bit fields: a packed word gives back its opcode and fields, and a word is the packing of
its fields. -/

namespace Sys2Proof.Machine

theorem append_lo {n m : Nat} (x : BitVec n) (y : BitVec m) (i : Nat) (h : i < m) : (x ++ y).getLsbD i = y.getLsbD i := by
  rw [BitVec.getLsbD_append, if_pos h]

theorem append_hi {n m : Nat} (x : BitVec n) (y : BitVec m) (i : Nat) (h : m ≤ i) : (x ++ y).getLsbD i = x.getLsbD (i - m) := by
  rw [BitVec.getLsbD_append, if_neg (Nat.not_lt.2 h)]

theorem unpackA_pack (op : BitVec 8) (f : FmtA) : unpackA (packA op f) = f := by
  cases f
  simp only [packA, unpackA, FmtA.mk.injEq]
  refine ⟨?_, ?_, ?_, ?_, ?_, ?_, ?_, ?_⟩ <;>
  · apply BitVec.eq_of_getLsbD_eq
    intro i hi
    rw [BitVec.getLsbD_extractLsb']
    simp (disch := omega) only [append_lo, append_hi, hi, decide_true, Bool.true_and]
    congr 1
    omega

theorem packA_lo (op : BitVec 8) (f : FmtA) : (packA op f).extractLsb' 0 4 = op.extractLsb' 0 4 := by
  apply BitVec.eq_of_getLsbD_eq
  intro i hi
  rw [BitVec.getLsbD_extractLsb', BitVec.getLsbD_extractLsb', packA, append_lo _ _ _ (by omega)]

theorem packA_hi (op : BitVec 8) (f : FmtA) : (packA op f).extractLsb' 4 4 = op.extractLsb' 4 4 := by
  apply BitVec.eq_of_getLsbD_eq
  intro i hi
  rw [BitVec.getLsbD_extractLsb', BitVec.getLsbD_extractLsb', packA, append_lo _ _ _ (by omega)]

theorem unpackI_pack (op : BitVec 8) (f : FmtI) : unpackI (packI op f) = f := by
  cases f
  simp only [packI, unpackI, FmtI.mk.injEq]
  refine ⟨?_, ?_, ?_, ?_, ?_⟩ <;>
  · apply BitVec.eq_of_getLsbD_eq
    intro i hi
    rw [BitVec.getLsbD_extractLsb']
    simp (disch := omega) only [append_lo, append_hi, hi, decide_true, Bool.true_and]
    congr 1
    omega

theorem packI_lo (op : BitVec 8) (f : FmtI) : (packI op f).extractLsb' 0 4 = op.extractLsb' 0 4 := by
  apply BitVec.eq_of_getLsbD_eq
  intro i hi
  rw [BitVec.getLsbD_extractLsb', BitVec.getLsbD_extractLsb', packI, append_lo _ _ _ (by omega)]

theorem packI_hi (op : BitVec 8) (f : FmtI) : (packI op f).extractLsb' 4 4 = op.extractLsb' 4 4 := by
  apply BitVec.eq_of_getLsbD_eq
  intro i hi
  rw [BitVec.getLsbD_extractLsb', BitVec.getLsbD_extractLsb', packI, append_lo _ _ _ (by omega)]

theorem unpackM_pack (op : BitVec 8) (f : FmtM) : unpackM (packM op f) = f := by
  cases f
  simp only [packM, unpackM, FmtM.mk.injEq]
  refine ⟨?_, ?_, ?_, ?_, ?_, ?_, ?_, ?_, ?_, ?_⟩ <;>
  · apply BitVec.eq_of_getLsbD_eq
    intro i hi
    rw [BitVec.getLsbD_extractLsb']
    simp (disch := omega) only [append_lo, append_hi, hi, decide_true, Bool.true_and]
    congr 1
    omega

theorem packM_lo (op : BitVec 8) (f : FmtM) : (packM op f).extractLsb' 0 4 = op.extractLsb' 0 4 := by
  apply BitVec.eq_of_getLsbD_eq
  intro i hi
  rw [BitVec.getLsbD_extractLsb', BitVec.getLsbD_extractLsb', packM, append_lo _ _ _ (by omega)]

theorem packM_hi (op : BitVec 8) (f : FmtM) : (packM op f).extractLsb' 4 4 = op.extractLsb' 4 4 := by
  apply BitVec.eq_of_getLsbD_eq
  intro i hi
  rw [BitVec.getLsbD_extractLsb', BitVec.getLsbD_extractLsb', packM, append_lo _ _ _ (by omega)]

theorem unpackMA_pack (op : BitVec 8) (f : FmtMA) : unpackMA (packMA op f) = f := by
  cases f
  simp only [packMA, unpackMA, FmtMA.mk.injEq]
  refine ⟨?_, ?_, ?_, ?_, ?_, ?_, ?_, ?_, ?_, ?_, ?_⟩ <;>
  · apply BitVec.eq_of_getLsbD_eq
    intro i hi
    rw [BitVec.getLsbD_extractLsb']
    simp (disch := omega) only [append_lo, append_hi, hi, decide_true, Bool.true_and]
    congr 1
    omega

theorem packMA_lo (op : BitVec 8) (f : FmtMA) : (packMA op f).extractLsb' 0 4 = op.extractLsb' 0 4 := by
  apply BitVec.eq_of_getLsbD_eq
  intro i hi
  rw [BitVec.getLsbD_extractLsb', BitVec.getLsbD_extractLsb', packMA, append_lo _ _ _ (by omega)]

theorem packMA_hi (op : BitVec 8) (f : FmtMA) : (packMA op f).extractLsb' 4 4 = op.extractLsb' 4 4 := by
  apply BitVec.eq_of_getLsbD_eq
  intro i hi
  rw [BitVec.getLsbD_extractLsb', BitVec.getLsbD_extractLsb', packMA, append_lo _ _ _ (by omega)]

theorem unpackB_pack (op : BitVec 8) (f : FmtB) : unpackB (packB op f) = f := by
  cases f
  simp only [packB, unpackB, FmtB.mk.injEq]
  refine ⟨?_, ?_, ?_, ?_, ?_, ?_⟩ <;>
  · apply BitVec.eq_of_getLsbD_eq
    intro i hi
    rw [BitVec.getLsbD_extractLsb']
    simp (disch := omega) only [append_lo, append_hi, hi, decide_true, Bool.true_and]
    congr 1
    omega

theorem packB_lo (op : BitVec 8) (f : FmtB) : (packB op f).extractLsb' 0 4 = op.extractLsb' 0 4 := by
  apply BitVec.eq_of_getLsbD_eq
  intro i hi
  rw [BitVec.getLsbD_extractLsb', BitVec.getLsbD_extractLsb', packB, append_lo _ _ _ (by omega)]

theorem packB_hi (op : BitVec 8) (f : FmtB) : (packB op f).extractLsb' 4 4 = op.extractLsb' 4 4 := by
  apply BitVec.eq_of_getLsbD_eq
  intro i hi
  rw [BitVec.getLsbD_extractLsb', BitVec.getLsbD_extractLsb', packB, append_lo _ _ _ (by omega)]

theorem unpackX_pack (op : BitVec 8) (f : FmtX) : unpackX (packX op f) = f := by
  cases f
  simp only [packX, unpackX, FmtX.mk.injEq]
  refine ⟨?_, ?_, ?_, ?_, ?_, ?_, ?_, ?_, ?_, ?_, ?_, ?_, ?_⟩ <;>
  · apply BitVec.eq_of_getLsbD_eq
    intro i hi
    rw [BitVec.getLsbD_extractLsb']
    simp (disch := omega) only [append_lo, append_hi, hi, decide_true, Bool.true_and]
    congr 1
    omega

theorem packX_lo (op : BitVec 8) (f : FmtX) : (packX op f).extractLsb' 0 4 = op.extractLsb' 0 4 := by
  apply BitVec.eq_of_getLsbD_eq
  intro i hi
  rw [BitVec.getLsbD_extractLsb', BitVec.getLsbD_extractLsb', packX, append_lo _ _ _ (by omega)]

theorem packX_hi (op : BitVec 8) (f : FmtX) : (packX op f).extractLsb' 4 4 = op.extractLsb' 4 4 := by
  apply BitVec.eq_of_getLsbD_eq
  intro i hi
  rw [BitVec.getLsbD_extractLsb', BitVec.getLsbD_extractLsb', packX, append_lo _ _ _ (by omega)]

theorem unpackC_pack (op : BitVec 8) (f : FmtC) : unpackC (packC op f) = f := by
  cases f
  simp only [packC, unpackC, FmtC.mk.injEq]
  refine ⟨?_, ?_, ?_, ?_, ?_, ?_⟩ <;>
  · apply BitVec.eq_of_getLsbD_eq
    intro i hi
    rw [BitVec.getLsbD_extractLsb']
    simp (disch := omega) only [append_lo, append_hi, hi, decide_true, Bool.true_and]
    congr 1
    omega

theorem packC_lo (op : BitVec 8) (f : FmtC) : (packC op f).extractLsb' 0 4 = op.extractLsb' 0 4 := by
  apply BitVec.eq_of_getLsbD_eq
  intro i hi
  rw [BitVec.getLsbD_extractLsb', BitVec.getLsbD_extractLsb', packC, append_lo _ _ _ (by omega)]

theorem packC_hi (op : BitVec 8) (f : FmtC) : (packC op f).extractLsb' 4 4 = op.extractLsb' 4 4 := by
  apply BitVec.eq_of_getLsbD_eq
  intro i hi
  rw [BitVec.getLsbD_extractLsb', BitVec.getLsbD_extractLsb', packC, append_lo _ _ _ (by omega)]

theorem unpackS_pack (op : BitVec 8) (f : FmtS) : unpackS (packS op f) = f := by
  cases f
  simp only [packS, unpackS, FmtS.mk.injEq]
  refine ⟨?_, ?_, ?_, ?_, ?_⟩ <;>
  · apply BitVec.eq_of_getLsbD_eq
    intro i hi
    rw [BitVec.getLsbD_extractLsb']
    simp (disch := omega) only [append_lo, append_hi, hi, decide_true, Bool.true_and]
    congr 1
    omega

theorem packS_lo (op : BitVec 8) (f : FmtS) : (packS op f).extractLsb' 0 4 = op.extractLsb' 0 4 := by
  apply BitVec.eq_of_getLsbD_eq
  intro i hi
  rw [BitVec.getLsbD_extractLsb', BitVec.getLsbD_extractLsb', packS, append_lo _ _ _ (by omega)]

theorem packS_hi (op : BitVec 8) (f : FmtS) : (packS op f).extractLsb' 4 4 = op.extractLsb' 4 4 := by
  apply BitVec.eq_of_getLsbD_eq
  intro i hi
  rw [BitVec.getLsbD_extractLsb', BitVec.getLsbD_extractLsb', packS, append_lo _ _ _ (by omega)]

theorem join_bits (w : BitVec 64) (s l n : Nat) :
    (w.extractLsb' (s + l) n ++ w.extractLsb' s l : BitVec (n + l)) = w.extractLsb' s (n + l) := by
  apply BitVec.eq_of_getLsbD_eq
  intro i hi
  by_cases h : i < l
  · rw [append_lo _ _ _ h, BitVec.getLsbD_extractLsb', BitVec.getLsbD_extractLsb', decide_eq_true h, decide_eq_true hi]
  · rw [append_hi _ _ _ (Nat.not_lt.1 h), BitVec.getLsbD_extractLsb', BitVec.getLsbD_extractLsb', decide_eq_true hi,
      decide_eq_true (show i - l < n by omega), show s + l + (i - l) = s + i by omega]

theorem all_bits (w : BitVec 64) : w.extractLsb' 0 64 = w := by
  apply BitVec.eq_of_getLsbD_eq
  intro i hi
  rw [BitVec.getLsbD_extractLsb', decide_eq_true hi, Nat.zero_add, Bool.true_and]

theorem packI_unpack (w : BitVec 64) : packI (w.extractLsb' 0 8) (unpackI w) = w := by
  refine Eq.trans ?_ (all_bits w)
  simp only [packI, unpackI]
  erw [join_bits w 30 2 32]
  erw [join_bits w 21 9 34]
  erw [join_bits w 12 9 43]
  erw [join_bits w 8 4 52]
  erw [join_bits w 0 8 56]

theorem packM_unpack (w : BitVec 64) : packM (w.extractLsb' 0 8) (unpackM w) = w := by
  refine Eq.trans ?_ (all_bits w)
  simp only [packM, unpackM]
  erw [join_bits w 50 2 12]
  erw [join_bits w 46 4 14]
  erw [join_bits w 44 2 18]
  erw [join_bits w 41 3 20]
  erw [join_bits w 39 2 23]
  erw [join_bits w 30 9 25]
  erw [join_bits w 21 9 34]
  erw [join_bits w 12 9 43]
  erw [join_bits w 8 4 52]
  erw [join_bits w 0 8 56]

theorem packMA_unpack (w : BitVec 64) : packMA (w.extractLsb' 0 8) (unpackMA w) = w := by
  refine Eq.trans ?_ (all_bits w)
  simp only [packMA, unpackMA]
  erw [join_bits w 61 2 1]
  erw [join_bits w 59 2 3]
  erw [join_bits w 56 3 5]
  erw [join_bits w 52 4 8]
  erw [join_bits w 48 4 12]
  erw [join_bits w 39 9 16]
  erw [join_bits w 30 9 25]
  erw [join_bits w 21 9 34]
  erw [join_bits w 12 9 43]
  erw [join_bits w 8 4 52]
  erw [join_bits w 0 8 56]

theorem packB_unpack (w : BitVec 64) : packB (w.extractLsb' 0 8) (unpackB w) = w := by
  refine Eq.trans ?_ (all_bits w)
  simp only [packB, unpackB]
  erw [join_bits w 28 4 32]
  erw [join_bits w 25 3 36]
  erw [join_bits w 21 4 39]
  erw [join_bits w 12 9 43]
  erw [join_bits w 8 4 52]
  erw [join_bits w 0 8 56]

theorem packX_unpack (w : BitVec 64) : packX (w.extractLsb' 0 8) (unpackX w) = w := by
  refine Eq.trans ?_ (all_bits w)
  simp only [packX, unpackX]
  erw [join_bits w 61 1 2]
  erw [join_bits w 58 3 3]
  erw [join_bits w 55 3 6]
  erw [join_bits w 51 4 9]
  erw [join_bits w 47 4 13]
  erw [join_bits w 43 4 17]
  erw [join_bits w 42 1 21]
  erw [join_bits w 39 3 22]
  erw [join_bits w 30 9 25]
  erw [join_bits w 21 9 34]
  erw [join_bits w 12 9 43]
  erw [join_bits w 8 4 52]
  erw [join_bits w 0 8 56]

theorem packC_unpack (w : BitVec 64) : packC (w.extractLsb' 0 8) (unpackC w) = w := by
  refine Eq.trans ?_ (all_bits w)
  simp only [packC, unpackC]
  erw [join_bits w 39 4 21]
  erw [join_bits w 30 9 25]
  erw [join_bits w 21 9 34]
  erw [join_bits w 12 9 43]
  erw [join_bits w 8 4 52]
  erw [join_bits w 0 8 56]

theorem packS_unpack (w : BitVec 64) : packS (w.extractLsb' 0 8) (unpackS w) = w := by
  refine Eq.trans ?_ (all_bits w)
  simp only [packS, unpackS]
  erw [join_bits w 30 12 22]
  erw [join_bits w 21 9 34]
  erw [join_bits w 12 9 43]
  erw [join_bits w 8 4 52]
  erw [join_bits w 0 8 56]

theorem packA_top (op : BitVec 8) (f : FmtA) : (packA op f).extractLsb' 60 4 = 0 := by
  apply BitVec.eq_of_getLsbD_eq
  intro i hi
  rw [BitVec.getLsbD_extractLsb', packA]
  simp (disch := omega) only [append_hi, hi, decide_true, Bool.true_and]
  rw [BitVec.getLsbD_zero]
  exact (BitVec.getLsbD_zero (w := 4) (i := i)).symm

theorem packA_unpack (w : BitVec 64) (h : w.extractLsb' 60 4 = 0) : packA (w.extractLsb' 0 8) (unpackA w) = w := by
  refine Eq.trans ?_ (all_bits w)
  simp only [packA, unpackA]
  rw [show (0#4) = w.extractLsb' 60 4 from h.symm]
  erw [join_bits w 56 4 4]
  erw [join_bits w 52 4 8]
  erw [join_bits w 48 4 12]
  erw [join_bits w 39 9 16]
  erw [join_bits w 30 9 25]
  erw [join_bits w 21 9 34]
  erw [join_bits w 12 9 43]
  erw [join_bits w 8 4 52]
  erw [join_bits w 0 8 56]

theorem unpackSlot_pack (op : BitVec 6) (f : FmtSlot) : unpackSlot (packSlot op f) = f := by
  cases f
  simp only [packSlot, unpackSlot, FmtSlot.mk.injEq]
  refine ⟨?_, ?_, ?_, ?_, ?_, ?_, ?_, ?_⟩ <;>
  · apply BitVec.eq_of_getLsbD_eq
    intro i hi
    rw [BitVec.getLsbD_extractLsb']
    simp (disch := omega) only [append_lo, append_hi, hi, decide_true, Bool.true_and]
    congr 1
    omega

theorem packSlot_op (op : BitVec 6) (f : FmtSlot) : (packSlot op f).extractLsb' 0 6 = op := by
  apply BitVec.eq_of_getLsbD_eq
  intro i hi
  rw [BitVec.getLsbD_extractLsb', packSlot, append_lo _ _ _ (by omega), decide_eq_true hi, Nat.zero_add, Bool.true_and]

theorem join_slot (w : BitVec 32) (s l n : Nat) :
    (w.extractLsb' (s + l) n ++ w.extractLsb' s l : BitVec (n + l)) = w.extractLsb' s (n + l) := by
  apply BitVec.eq_of_getLsbD_eq
  intro i hi
  by_cases h : i < l
  · rw [append_lo _ _ _ h, BitVec.getLsbD_extractLsb', BitVec.getLsbD_extractLsb', decide_eq_true h, decide_eq_true hi]
  · rw [append_hi _ _ _ (Nat.not_lt.1 h), BitVec.getLsbD_extractLsb', BitVec.getLsbD_extractLsb', decide_eq_true hi,
      decide_eq_true (show i - l < n by omega), show s + l + (i - l) = s + i by omega]

theorem packSlot_unpack (w : BitVec 32) : packSlot (w.extractLsb' 0 6) (unpackSlot w) = w := by
  have : w.extractLsb' 0 32 = w := by
    apply BitVec.eq_of_getLsbD_eq
    intro i hi
    rw [BitVec.getLsbD_extractLsb', decide_eq_true hi, Nat.zero_add, Bool.true_and]
  refine Eq.trans ?_ this
  simp only [packSlot, unpackSlot]
  erw [join_slot w 29 1 2]
  erw [join_slot w 26 3 3]
  erw [join_slot w 22 4 6]
  erw [join_slot w 18 4 10]
  erw [join_slot w 14 4 14]
  erw [join_slot w 10 4 18]
  erw [join_slot w 6 4 22]
  erw [join_slot w 0 6 26]

end Sys2Proof.Machine
end

