-- ==== Sys2Proof/Laws/Table.lean ====
section
/-! SUPPORT. What reading a table or a memory gives after a write, and that every memory operation keeps the
canonical form. -/

namespace Sys2Proof.Machine

/-! ### Tables -/

variable {α : Type}

@[simp] theorem tfind_nil (k : Nat) : tfind ([] : Tbl α) k = none := rfl

@[simp] theorem tfind_tset_self (m : Tbl α) (k : Nat) (x : α) : tfind (tset m k x) k = some x := by
  induction m with
  | nil => simp [tset, tfind]
  | cons h t ih =>
    obtain ⟨i, y⟩ := h
    simp only [tset]
    split
    · simp [tfind]
    · split
      · simp [tfind]
      · simp only [tfind]; rw [if_neg (by omega)]; exact ih

theorem tfind_tset_ne (m : Tbl α) {k j : Nat} (x : α) (h : j ≠ k) : tfind (tset m k x) j = tfind m j := by
  induction m with
  | nil => simp only [tset, tfind]; rw [if_neg (by omega)]
  | cons hd t ih =>
    obtain ⟨i, y⟩ := hd
    simp only [tset]
    split
    · simp only [tfind]; rw [if_neg (by omega)]
    · split
      · next hk => subst hk; simp only [tfind]; rw [if_neg (by omega), if_neg (by omega)]
      · simp only [tfind, ih]

theorem tfind_terase (m : Tbl α) (k j : Nat) : tfind (terase m k) j = if j = k then none else tfind m j := by
  induction m with
  | nil => simp [terase]
  | cons hd t ih =>
    obtain ⟨i, y⟩ := hd
    simp only [terase]
    split
    · next hi => subst hi; rw [ih]; split
                 · rfl
                 · simp only [tfind]; rw [if_neg (by omega)]
    · next hi =>
      simp only [tfind, ih]
      split
      · next h => rw [if_neg (by omega)]
      · rfl

theorem tget_tput [DecidableEq α] (d : α) (m : Tbl α) (k j : Nat) (x : α) :
    tget d (tput d m k x) j = if j = k then x else tget d m j := by
  unfold tget tput
  by_cases hx : x = d
  · rw [if_pos hx, tfind_terase]
    split <;> simp [hx]
  · rw [if_neg hx]
    by_cases h : j = k
    · subst h; simp
    · rw [tfind_tset_ne m x h, if_neg h]

@[simp] theorem tget_tput_self [DecidableEq α] (d : α) (m : Tbl α) (k : Nat) (x : α) : tget d (tput d m k x) k = x := by
  simp [tget_tput]

theorem tget_tset (d : α) (m : Tbl α) (k j : Nat) (x : α) :
    tget d (tset m k x) j = if j = k then x else tget d m j := by
  unfold tget
  by_cases h : j = k
  · subst h; simp
  · rw [tfind_tset_ne m x h, if_neg h]

theorem tfind_tmod (m : Tbl α) (k j : Nat) (f : α → α) :
    tfind (tmod m k f) j = if j = k then (tfind m j).map f else tfind m j := by
  unfold tmod
  split
  · next x hx =>
    by_cases h : j = k
    · subst h; simp [hx]
    · rw [tfind_tset_ne m _ h, if_neg h]
  · next hx =>
    split
    · next h => subst h; simp [hx]
    · rfl

/-! ### Memory: reading after writing -/

@[simp] theorem memByte_nil (a : Nat) : memByte [] a = unwritten := rfl

theorem memByte_memPut (m : Memory) (a b : Nat) (x : Byte) :
    memByte (memPut m a x) b = if b = a then x else memByte m b := tget_tput unwritten m a b x

theorem memByte_writeBytes_out (m : Memory) (a : Nat) (l : List Byte) (b : Nat) (h : b < a ∨ a + l.length ≤ b) :
    memByte (writeBytes m a l) b = memByte m b := by
  induction l generalizing m a with
  | nil => rfl
  | cons x t ih =>
    simp only [List.length_cons] at h
    rw [writeBytes, ih _ _ (by omega), memByte_memPut, if_neg (by omega)]

theorem memByte_writeBytes_in (m : Memory) (a : Nat) (l : List Byte) (i : Nat) (h : i < l.length) :
    memByte (writeBytes m a l) (a + i) = l[i] := by
  induction l generalizing m a i with
  | nil => simp at h
  | cons x t ih =>
    cases i with
    | zero => rw [writeBytes, memByte_writeBytes_out _ _ _ _ (by omega), memByte_memPut]; simp
    | succ n =>
      simp only [List.length_cons, Nat.add_lt_add_iff_right] at h
      rw [writeBytes, show a + (n + 1) = (a + 1) + n from by omega, ih _ _ _ h]; rfl

theorem memByte_writeLE_out (m : Memory) (a n v b : Nat) (h : b < a ∨ a + n ≤ b) :
    memByte (writeLE m a n v) b = memByte m b := by
  induction n generalizing m a v with
  | zero => rfl
  | succ k ih => rw [writeLE, ih _ _ _ (by omega), memByte_memPut, if_neg (by omega)]

/-- Reading depends on the bytes read alone. -/
theorem readLE_congr (m m' : Memory) (a n : Nat) (h : ∀ b, a ≤ b → b < a + n → memByte m b = memByte m' b) :
    readLE m a n = readLE m' a n := by
  induction n generalizing a with
  | zero => rfl
  | succ k ih => rw [readLE, readLE, h a (by omega) (by omega), ih _ fun b h1 h2 => h b (by omega) (by omega)]

/-- A read after a write to the same place gives the value written. -/
theorem readLE_writeLE (m : Memory) (a n v : Nat) : readLE (writeLE m a n v) a n = v % 256 ^ n := by
  induction n generalizing m a v with
  | zero => simp [readLE, Nat.mod_one]
  | succ k ih =>
    rw [writeLE, readLE, ih, memByte_writeLE_out _ _ _ _ _ (by omega), memByte_memPut, if_pos rfl]
    have e : 256 ^ (k + 1) = 256 * 256 ^ k := by rw [Nat.pow_add, Nat.mul_comm]
    rw [BitVec.toNat_ofNat, show 2 ^ 8 = 256 from rfl, e, Nat.mod_mul]

/-! ### The canonical form -/

theorem Memory.wf_iff (m : Memory) :
    m.wf = true ↔ List.Pairwise (fun x y : Host.Cell => x.1 < y.1) m ∧ ∀ x ∈ m, x.2 ≠ unwritten := by
  simp [Memory.wf]

@[simp] theorem wf_nil : Memory.wf [] = true := by decide

theorem mem_tset (m : Tbl α) (k : Nat) (x : α) (e : Nat × α) (h : e ∈ tset m k x) : e = (k, x) ∨ e ∈ m := by
  induction m with
  | nil => simp [tset] at h; exact .inl h
  | cons hd t ih =>
    obtain ⟨i, y⟩ := hd
    simp only [tset] at h
    split at h
    · simpa using h
    · split at h
      · simp only [List.mem_cons] at h ⊢; exact h.imp_right .inr
      · simp only [List.mem_cons] at h ⊢
        rcases h with h | h
        · exact .inr (.inl h)
        · exact (ih h).imp_right .inr

theorem mem_terase (m : Tbl α) (k : Nat) (e : Nat × α) (h : e ∈ terase m k) : e ∈ m := by
  induction m with
  | nil => simp [terase] at h
  | cons hd t ih =>
    obtain ⟨i, y⟩ := hd
    simp only [terase] at h
    split at h
    · exact List.mem_cons_of_mem _ (ih h)
    · simp only [List.mem_cons] at h ⊢; exact h.imp_right ih

/-- Listing a value keeps keys rising. -/
theorem tset_pairwise (m : Tbl α) (k : Nat) (x : α) (h : m.Pairwise fun a b => a.1 < b.1) :
    (tset m k x).Pairwise fun a b => a.1 < b.1 := by
  induction m with
  | nil => simp [tset]
  | cons hd t ih =>
    obtain ⟨i, y⟩ := hd
    rw [List.pairwise_cons] at h
    simp only [tset]
    split
    · next hk =>
      rw [List.pairwise_cons]
      refine ⟨fun e he => ?_, List.pairwise_cons.2 h⟩
      simp only [List.mem_cons] at he
      rcases he with rfl | he
      · exact hk
      · exact Nat.lt_trans hk (h.1 e he)
    · split
      · next hk => subst hk; exact List.pairwise_cons.2 h
      · next h1 h2 =>
        rw [List.pairwise_cons]
        refine ⟨fun e he => ?_, ih h.2⟩
        rcases mem_tset t k x e he with rfl | he
        · show i < k
          omega
        · exact h.1 e he

theorem terase_pairwise (m : Tbl α) (k : Nat) (h : m.Pairwise fun a b => a.1 < b.1) :
    (terase m k).Pairwise fun a b => a.1 < b.1 := by
  induction m with
  | nil => simp [terase]
  | cons hd t ih =>
    obtain ⟨i, y⟩ := hd
    rw [List.pairwise_cons] at h
    simp only [terase]
    split
    · exact ih h.2
    · exact List.pairwise_cons.2 ⟨fun e he => h.1 e (mem_terase t k e he), ih h.2⟩

/-- Every write keeps the canonical form. -/
theorem wf_memPut (m : Memory) (a : Nat) (b : Byte) (h : m.wf = true) : (memPut m a b).wf = true := by
  rw [Memory.wf_iff] at h ⊢
  unfold memPut tput
  split
  · exact ⟨terase_pairwise m a h.1, fun x hx => h.2 x (mem_terase m a x hx)⟩
  · next hb =>
    refine ⟨tset_pairwise m a b h.1, fun x hx => ?_⟩
    rcases mem_tset m a b x hx with rfl | hx
    · exact hb
    · exact h.2 x hx

theorem wf_writeLE (m : Memory) (a n v : Nat) (h : m.wf = true) : (writeLE m a n v).wf = true := by
  induction n generalizing m a v with
  | zero => exact h
  | succ k ih => exact ih _ _ _ (wf_memPut m a _ h)

theorem wf_writeBytes (m : Memory) (a : Nat) (l : List Byte) (h : m.wf = true) : (writeBytes m a l).wf = true := by
  induction l generalizing m a with
  | nil => exact h
  | cons x t ih => exact ih _ _ (wf_memPut m a x h)

/-- The cells of a block stand in it, ascending, and none holds what an unlisted byte reads as. -/
theorem cellsOf_pairwise (f : Nat → Byte) (a n : Nat) :
    List.Pairwise (fun x y : Host.Cell => x.1 < y.1) (cellsOf f a n) := by
  unfold cellsOf
  refine List.Pairwise.filterMap _ (fun i j hij x hx y hy => ?_) List.pairwise_lt_range
  split at hx <;> split at hy <;> simp_all
  subst hx hy
  simp; omega

theorem mem_cellsOf (f : Nat → Byte) (a n : Nat) (x : Host.Cell) :
    x ∈ cellsOf f a n ↔ ∃ i, i < n ∧ f i ≠ unwritten ∧ x = (a + i, f i) := by
  simp only [cellsOf, List.mem_filterMap, List.mem_range]
  constructor
  · rintro ⟨i, hi, h⟩
    split at h
    · simp at h
    · next hf => exact ⟨i, hi, hf, by simpa using h.symm⟩
  · rintro ⟨i, hi, hf, rfl⟩
    exact ⟨i, hi, by rw [if_neg hf]⟩

/-- Writing a block keeps the canonical form. -/
theorem wf_fillBlock (m : Memory) (a n : Nat) (f : Nat → Byte) (h : m.wf = true) : (fillBlock m a n f).wf = true := by
  rw [Memory.wf_iff] at h ⊢
  unfold fillBlock
  refine ⟨?_, ?_⟩
  · rw [List.pairwise_append, List.pairwise_append]
    refine ⟨⟨h.1.filter _, cellsOf_pairwise f a n, fun x hx y hy => ?_⟩, h.1.filter _, fun x hx y hy => ?_⟩
    · obtain ⟨i, _, _, rfl⟩ := (mem_cellsOf f a n y).1 hy
      have := (List.mem_filter.1 hx).2
      simp at this ⊢; omega
    · have hy := (List.mem_filter.1 hy).2
      rcases List.mem_append.1 hx with hx | hx
      · have := (List.mem_filter.1 hx).2
        simp at this hy ⊢; omega
      · obtain ⟨i, _, _, rfl⟩ := (mem_cellsOf f a n x).1 hx
        simp at hy ⊢; omega
  · intro x hx
    rcases List.mem_append.1 hx with hx | hx
    · rcases List.mem_append.1 hx with hx | hx
      · exact h.2 x (List.mem_filter.1 hx).1
      · obtain ⟨i, _, hf, rfl⟩ := (mem_cellsOf f a n x).1 hx
        exact hf
    · exact h.2 x (List.mem_filter.1 hx).1

theorem tfind_append (l m : Tbl α) (k : Nat) : tfind (l ++ m) k = (tfind l k).or (tfind m k) := by
  induction l with
  | nil => rfl
  | cons hd t ih => simp only [List.cons_append, tfind]; split <;> simp [ih]

theorem tfind_filter (m : Tbl α) (p : Nat → Bool) (k : Nat) :
    tfind (m.filter fun x => p x.1) k = if p k then tfind m k else none := by
  induction m with
  | nil => simp [tfind]
  | cons hd t ih =>
    simp only [List.filter_cons, tfind]
    split
    · next hp =>
      simp only [tfind]
      split
      · next h => rw [← h, if_pos hp]
      · exact ih
    · next hp =>
      rw [ih]
      split
      · next h => rw [if_neg]; rintro rfl; exact hp h
      · rfl

theorem tfind_cellsOf (f : Nat → Byte) (a n k : Nat) :
    tfind (cellsOf f a n) k = if a ≤ k ∧ k < a + n ∧ f (k - a) ≠ unwritten then some (f (k - a)) else none := by
  unfold cellsOf
  induction n with
  | zero => rw [if_neg (by omega)]; rfl
  | succ n ih =>
    rw [List.range_succ, List.filterMap_append, tfind_append, ih]
    have last : tfind (List.filterMap (fun i => if f i = unwritten then none else some (a + i, f i)) [n]) k =
        if k = a + n ∧ f n ≠ unwritten then some (f n) else none := by
      by_cases hf : f n = unwritten
      · simp [hf]
      · simp [tfind, hf, show (k = a + n) = (a + n = k) from propext eq_comm]
    rw [last]
    by_cases hk : k = a + n
    · subst hk
      by_cases hf : f n = unwritten <;> simp [hf]
    · simp only [hk, false_and, if_false, Option.or_none]
      congr 1
      exact propext ⟨fun h => ⟨h.1, by omega, h.2.2⟩, fun h => ⟨h.1, by omega, h.2.2⟩⟩

/-- What a memory reads after a block is written: the block's bytes in it, the rest as before. -/
theorem memByte_fillBlock (m : Memory) (a n : Nat) (f : Nat → Byte) (k : Nat) :
    memByte (fillBlock m a n f) k = if a ≤ k ∧ k < a + n then f (k - a) else memByte m k := by
  unfold memByte tget fillBlock
  rw [tfind_append, tfind_append, tfind_filter m (fun i => decide (i < a)), tfind_filter m (fun i => decide (a + n ≤ i)),
    tfind_cellsOf]
  by_cases h1 : k < a
  · rw [if_neg (by omega : ¬(a ≤ k ∧ k < a + n ∧ _)), if_neg (by omega : ¬(a ≤ k ∧ k < a + n))]
    simp [h1, show ¬(a + n ≤ k) by omega]
  · by_cases h2 : k < a + n
    · rw [if_pos (by omega : a ≤ k ∧ k < a + n)]
      by_cases hf : f (k - a) = unwritten
      · simp [h1, hf, show ¬(a + n ≤ k) by omega]
      · simp [h1, hf, h2, show a ≤ k by omega]
    · rw [if_neg (by omega : ¬(a ≤ k ∧ k < a + n))]
      simp [h1, h2, show a + n ≤ k by omega]

/-- In canonical form, memories that read the same are the same. -/
theorem memory_ext (m m' : Memory) (h : m.wf = true) (h' : m'.wf = true) (he : ∀ a, memByte m a = memByte m' a) :
    m = m' := by
  rw [Memory.wf_iff] at h h'
  have low : ∀ (l : Memory) (a : Nat), (∀ x ∈ l, a < x.1) → memByte l a = unwritten := by
    intro l a hl
    have : tfind l a = none := by
      induction l with
      | nil => rfl
      | cons hd t ih =>
        obtain ⟨i, y⟩ := hd
        have := hl (i, y) (by simp)
        rw [tfind, if_neg (by simp at this; omega)]
        exact ih fun x hx => hl x (List.mem_cons_of_mem _ hx)
    simp [memByte, tget, this]
  have step : ∀ (i : Nat) (x : Byte) (t : Memory) (a : Nat), memByte ((i, x) :: t) a = if i = a then x else memByte t a := by
    intro i x t a
    simp only [memByte, tget, tfind]
    split <;> rfl
  induction m generalizing m' with
  | nil =>
    cases m' with
    | nil => rfl
    | cons hd t =>
      obtain ⟨i, x⟩ := hd
      have := he i
      rw [step, if_pos rfl] at this
      exact absurd this.symm (h'.2 (i, x) (by simp))
  | cons hd t ih =>
    obtain ⟨i, x⟩ := hd
    cases m' with
    | nil =>
      have := he i
      rw [step, if_pos rfl] at this
      exact absurd this (h.2 (i, x) (by simp))
    | cons hd' t' =>
      obtain ⟨i', x'⟩ := hd'
      rw [List.pairwise_cons] at h h'
      have e1 := he i
      have e2 := he i'
      rw [step, step, if_pos rfl] at e1
      rw [step, step] at e2
      have hx := h.2 (i, x) (by simp)
      have hx' := h'.2 (i', x') (by simp)
      have key : i = i' := by
        apply Nat.le_antisymm
        · apply Nat.le_of_not_lt
          intro hlt
          rw [if_neg (by omega), if_pos rfl, low t i' fun y hy => Nat.lt_trans hlt (h.1.1 y hy)] at e2
          exact hx' e2.symm
        · apply Nat.le_of_not_lt
          intro hlt
          rw [if_neg (by omega), low t' i fun y hy => Nat.lt_trans hlt (h'.1.1 y hy)] at e1
          exact hx e1
      subst key
      rw [if_pos rfl] at e1
      subst e1
      have : t = t' := by
        apply ih t' ⟨h.1.2, fun y hy => h.2 y (List.mem_cons_of_mem _ hy)⟩ ⟨h'.1.2, fun y hy => h'.2 y (List.mem_cons_of_mem _ hy)⟩
        intro a
        have ea := he a
        rw [step, step] at ea
        by_cases hia : i = a
        · subst hia
          rw [low t i fun y hy => h.1.1 y hy, low t' i fun y hy => h'.1.1 y hy]
        · rwa [if_neg hia, if_neg hia] at ea
      rw [this]

end Sys2Proof.Machine
end

