-- ==== Sys2Proof/Laws/State.lean ====
section
/-! SUPPORT. The fields of the state under each named update, and what each accessor reads after it. -/

namespace Sys2Proof.Machine

variable (s : State)

/-! ### putWg -/

@[simp] theorem putWg_cycle (wid : Nat) (w : Workgroup) : (putWg s wid w).cycle = s.cycle := rfl
@[simp] theorem putWg_tick (wid : Nat) (w : Workgroup) : (putWg s wid w).tick = s.tick := rfl
@[simp] theorem putWg_agenda (wid : Nat) (w : Workgroup) : (putWg s wid w).agenda = s.agenda := rfl
@[simp] theorem putWg_issue (wid : Nat) (w : Workgroup) : (putWg s wid w).issue = s.issue := rfl
@[simp] theorem putWg_inputs (wid : Nat) (w : Workgroup) : (putWg s wid w).inputs = s.inputs := rfl
@[simp] theorem putWg_cur (wid : Nat) (w : Workgroup) : (putWg s wid w).cur = s.cur := rfl
@[simp] theorem putWg_out (wid : Nat) (w : Workgroup) : (putWg s wid w).out = s.out := rfl
@[simp] theorem putWg_mem (wid : Nat) (w : Workgroup) : (putWg s wid w).mem = s.mem := rfl
@[simp] theorem putWg_badMem (wid : Nat) (w : Workgroup) : (putWg s wid w).badMem = s.badMem := rfl
@[simp] theorem putWg_deferred (wid : Nat) (w : Workgroup) : (putWg s wid w).deferred = s.deferred := rfl
@[simp] theorem putWg_unwalked (wid : Nat) (w : Workgroup) : (putWg s wid w).unwalked = s.unwalked := rfl
@[simp] theorem putWg_locks (wid : Nat) (w : Workgroup) : (putWg s wid w).locks = s.locks := rfl
@[simp] theorem putWg_tlb (wid : Nat) (w : Workgroup) : (putWg s wid w).tlb = s.tlb := rfl
@[simp] theorem putWg_cores (wid : Nat) (w : Workgroup) : (putWg s wid w).cores = s.cores := rfl
@[simp] theorem putWg_regions (wid : Nat) (w : Workgroup) : (putWg s wid w).regions = s.regions := rfl
@[simp] theorem putWg_carafes (wid : Nat) (w : Workgroup) : (putWg s wid w).carafes = s.carafes := rfl
@[simp] theorem putWg_flash (wid : Nat) (w : Workgroup) : (putWg s wid w).flash = s.flash := rfl
@[simp] theorem putWg_parts (wid : Nat) (w : Workgroup) : (putWg s wid w).parts = s.parts := rfl
@[simp] theorem putWg_launches (wid : Nat) (w : Workgroup) : (putWg s wid w).launches = s.launches := rfl
@[simp] theorem putWg_transfers (wid : Nat) (w : Workgroup) : (putWg s wid w).transfers = s.transfers := rfl
@[simp] theorem putWg_nextId (wid : Nat) (w : Workgroup) : (putWg s wid w).nextId = s.nextId := rfl
@[simp] theorem putWg_rank (wid : Nat) (w : Workgroup) : (putWg s wid w).rank = s.rank := rfl
@[simp] theorem putWg_routes (wid : Nat) (w : Workgroup) : (putWg s wid w).routes = s.routes := rfl
@[simp] theorem putWg_ports (wid : Nat) (w : Workgroup) : (putWg s wid w).ports = s.ports := rfl
@[simp] theorem putWg_heldWords (wid : Nat) (w : Workgroup) : (putWg s wid w).heldWords = s.heldWords := rfl
@[simp] theorem putWg_arrivals (wid : Nat) (w : Workgroup) : (putWg s wid w).arrivals = s.arrivals := rfl
@[simp] theorem putWg_linkEnabled (wid : Nat) (w : Workgroup) : (putWg s wid w).linkEnabled = s.linkEnabled := rfl
@[simp] theorem putWg_linkUp (wid : Nat) (w : Workgroup) : (putWg s wid w).linkUp = s.linkUp := rfl
@[simp] theorem putWg_bypassed (wid : Nat) (w : Workgroup) : (putWg s wid w).bypassed = s.bypassed := rfl
@[simp] theorem putWg_capped (wid : Nat) (w : Workgroup) : (putWg s wid w).capped = s.capped := rfl
@[simp] theorem putWg_boot (wid : Nat) (w : Workgroup) : (putWg s wid w).boot = s.boot := rfl
@[simp] theorem putWg_frozen (wid : Nat) (w : Workgroup) : (putWg s wid w).frozen = s.frozen := rfl
@[simp] theorem putWg_powered (wid : Nat) (w : Workgroup) : (putWg s wid w).powered = s.powered := rfl

/-! ### modWg -/

@[simp] theorem modWg_cycle (wid : Nat) (f : Workgroup → Workgroup) : (modWg s wid f).cycle = s.cycle := rfl
@[simp] theorem modWg_tick (wid : Nat) (f : Workgroup → Workgroup) : (modWg s wid f).tick = s.tick := rfl
@[simp] theorem modWg_agenda (wid : Nat) (f : Workgroup → Workgroup) : (modWg s wid f).agenda = s.agenda := rfl
@[simp] theorem modWg_issue (wid : Nat) (f : Workgroup → Workgroup) : (modWg s wid f).issue = s.issue := rfl
@[simp] theorem modWg_inputs (wid : Nat) (f : Workgroup → Workgroup) : (modWg s wid f).inputs = s.inputs := rfl
@[simp] theorem modWg_cur (wid : Nat) (f : Workgroup → Workgroup) : (modWg s wid f).cur = s.cur := rfl
@[simp] theorem modWg_out (wid : Nat) (f : Workgroup → Workgroup) : (modWg s wid f).out = s.out := rfl
@[simp] theorem modWg_mem (wid : Nat) (f : Workgroup → Workgroup) : (modWg s wid f).mem = s.mem := rfl
@[simp] theorem modWg_badMem (wid : Nat) (f : Workgroup → Workgroup) : (modWg s wid f).badMem = s.badMem := rfl
@[simp] theorem modWg_deferred (wid : Nat) (f : Workgroup → Workgroup) : (modWg s wid f).deferred = s.deferred := rfl
@[simp] theorem modWg_unwalked (wid : Nat) (f : Workgroup → Workgroup) : (modWg s wid f).unwalked = s.unwalked := rfl
@[simp] theorem modWg_locks (wid : Nat) (f : Workgroup → Workgroup) : (modWg s wid f).locks = s.locks := rfl
@[simp] theorem modWg_tlb (wid : Nat) (f : Workgroup → Workgroup) : (modWg s wid f).tlb = s.tlb := rfl
@[simp] theorem modWg_cores (wid : Nat) (f : Workgroup → Workgroup) : (modWg s wid f).cores = s.cores := rfl
@[simp] theorem modWg_regions (wid : Nat) (f : Workgroup → Workgroup) : (modWg s wid f).regions = s.regions := rfl
@[simp] theorem modWg_carafes (wid : Nat) (f : Workgroup → Workgroup) : (modWg s wid f).carafes = s.carafes := rfl
@[simp] theorem modWg_flash (wid : Nat) (f : Workgroup → Workgroup) : (modWg s wid f).flash = s.flash := rfl
@[simp] theorem modWg_parts (wid : Nat) (f : Workgroup → Workgroup) : (modWg s wid f).parts = s.parts := rfl
@[simp] theorem modWg_launches (wid : Nat) (f : Workgroup → Workgroup) : (modWg s wid f).launches = s.launches := rfl
@[simp] theorem modWg_transfers (wid : Nat) (f : Workgroup → Workgroup) : (modWg s wid f).transfers = s.transfers := rfl
@[simp] theorem modWg_nextId (wid : Nat) (f : Workgroup → Workgroup) : (modWg s wid f).nextId = s.nextId := rfl
@[simp] theorem modWg_rank (wid : Nat) (f : Workgroup → Workgroup) : (modWg s wid f).rank = s.rank := rfl
@[simp] theorem modWg_routes (wid : Nat) (f : Workgroup → Workgroup) : (modWg s wid f).routes = s.routes := rfl
@[simp] theorem modWg_ports (wid : Nat) (f : Workgroup → Workgroup) : (modWg s wid f).ports = s.ports := rfl
@[simp] theorem modWg_heldWords (wid : Nat) (f : Workgroup → Workgroup) : (modWg s wid f).heldWords = s.heldWords := rfl
@[simp] theorem modWg_arrivals (wid : Nat) (f : Workgroup → Workgroup) : (modWg s wid f).arrivals = s.arrivals := rfl
@[simp] theorem modWg_linkEnabled (wid : Nat) (f : Workgroup → Workgroup) : (modWg s wid f).linkEnabled = s.linkEnabled := rfl
@[simp] theorem modWg_linkUp (wid : Nat) (f : Workgroup → Workgroup) : (modWg s wid f).linkUp = s.linkUp := rfl
@[simp] theorem modWg_bypassed (wid : Nat) (f : Workgroup → Workgroup) : (modWg s wid f).bypassed = s.bypassed := rfl
@[simp] theorem modWg_capped (wid : Nat) (f : Workgroup → Workgroup) : (modWg s wid f).capped = s.capped := rfl
@[simp] theorem modWg_boot (wid : Nat) (f : Workgroup → Workgroup) : (modWg s wid f).boot = s.boot := rfl
@[simp] theorem modWg_frozen (wid : Nat) (f : Workgroup → Workgroup) : (modWg s wid f).frozen = s.frozen := rfl
@[simp] theorem modWg_powered (wid : Nat) (f : Workgroup → Workgroup) : (modWg s wid f).powered = s.powered := rfl

/-! ### modTh -/

@[simp] theorem modTh_cycle (wid tix : Nat) (f : Thread → Thread) : (modTh s wid tix f).cycle = s.cycle := rfl
@[simp] theorem modTh_tick (wid tix : Nat) (f : Thread → Thread) : (modTh s wid tix f).tick = s.tick := rfl
@[simp] theorem modTh_agenda (wid tix : Nat) (f : Thread → Thread) : (modTh s wid tix f).agenda = s.agenda := rfl
@[simp] theorem modTh_issue (wid tix : Nat) (f : Thread → Thread) : (modTh s wid tix f).issue = s.issue := rfl
@[simp] theorem modTh_inputs (wid tix : Nat) (f : Thread → Thread) : (modTh s wid tix f).inputs = s.inputs := rfl
@[simp] theorem modTh_cur (wid tix : Nat) (f : Thread → Thread) : (modTh s wid tix f).cur = s.cur := rfl
@[simp] theorem modTh_out (wid tix : Nat) (f : Thread → Thread) : (modTh s wid tix f).out = s.out := rfl
@[simp] theorem modTh_mem (wid tix : Nat) (f : Thread → Thread) : (modTh s wid tix f).mem = s.mem := rfl
@[simp] theorem modTh_badMem (wid tix : Nat) (f : Thread → Thread) : (modTh s wid tix f).badMem = s.badMem := rfl
@[simp] theorem modTh_deferred (wid tix : Nat) (f : Thread → Thread) : (modTh s wid tix f).deferred = s.deferred := rfl
@[simp] theorem modTh_unwalked (wid tix : Nat) (f : Thread → Thread) : (modTh s wid tix f).unwalked = s.unwalked := rfl
@[simp] theorem modTh_locks (wid tix : Nat) (f : Thread → Thread) : (modTh s wid tix f).locks = s.locks := rfl
@[simp] theorem modTh_tlb (wid tix : Nat) (f : Thread → Thread) : (modTh s wid tix f).tlb = s.tlb := rfl
@[simp] theorem modTh_cores (wid tix : Nat) (f : Thread → Thread) : (modTh s wid tix f).cores = s.cores := rfl
@[simp] theorem modTh_regions (wid tix : Nat) (f : Thread → Thread) : (modTh s wid tix f).regions = s.regions := rfl
@[simp] theorem modTh_carafes (wid tix : Nat) (f : Thread → Thread) : (modTh s wid tix f).carafes = s.carafes := rfl
@[simp] theorem modTh_flash (wid tix : Nat) (f : Thread → Thread) : (modTh s wid tix f).flash = s.flash := rfl
@[simp] theorem modTh_parts (wid tix : Nat) (f : Thread → Thread) : (modTh s wid tix f).parts = s.parts := rfl
@[simp] theorem modTh_launches (wid tix : Nat) (f : Thread → Thread) : (modTh s wid tix f).launches = s.launches := rfl
@[simp] theorem modTh_transfers (wid tix : Nat) (f : Thread → Thread) : (modTh s wid tix f).transfers = s.transfers := rfl
@[simp] theorem modTh_nextId (wid tix : Nat) (f : Thread → Thread) : (modTh s wid tix f).nextId = s.nextId := rfl
@[simp] theorem modTh_rank (wid tix : Nat) (f : Thread → Thread) : (modTh s wid tix f).rank = s.rank := rfl
@[simp] theorem modTh_routes (wid tix : Nat) (f : Thread → Thread) : (modTh s wid tix f).routes = s.routes := rfl
@[simp] theorem modTh_ports (wid tix : Nat) (f : Thread → Thread) : (modTh s wid tix f).ports = s.ports := rfl
@[simp] theorem modTh_heldWords (wid tix : Nat) (f : Thread → Thread) : (modTh s wid tix f).heldWords = s.heldWords := rfl
@[simp] theorem modTh_arrivals (wid tix : Nat) (f : Thread → Thread) : (modTh s wid tix f).arrivals = s.arrivals := rfl
@[simp] theorem modTh_linkEnabled (wid tix : Nat) (f : Thread → Thread) : (modTh s wid tix f).linkEnabled = s.linkEnabled := rfl
@[simp] theorem modTh_linkUp (wid tix : Nat) (f : Thread → Thread) : (modTh s wid tix f).linkUp = s.linkUp := rfl
@[simp] theorem modTh_bypassed (wid tix : Nat) (f : Thread → Thread) : (modTh s wid tix f).bypassed = s.bypassed := rfl
@[simp] theorem modTh_capped (wid tix : Nat) (f : Thread → Thread) : (modTh s wid tix f).capped = s.capped := rfl
@[simp] theorem modTh_boot (wid tix : Nat) (f : Thread → Thread) : (modTh s wid tix f).boot = s.boot := rfl
@[simp] theorem modTh_frozen (wid tix : Nat) (f : Thread → Thread) : (modTh s wid tix f).frozen = s.frozen := rfl
@[simp] theorem modTh_powered (wid tix : Nat) (f : Thread → Thread) : (modTh s wid tix f).powered = s.powered := rfl

/-! ### modPath -/

@[simp] theorem modPath_cycle (wid tix pix : Nat) (f : Path → Path) : (modPath s wid tix pix f).cycle = s.cycle := rfl
@[simp] theorem modPath_tick (wid tix pix : Nat) (f : Path → Path) : (modPath s wid tix pix f).tick = s.tick := rfl
@[simp] theorem modPath_agenda (wid tix pix : Nat) (f : Path → Path) : (modPath s wid tix pix f).agenda = s.agenda := rfl
@[simp] theorem modPath_issue (wid tix pix : Nat) (f : Path → Path) : (modPath s wid tix pix f).issue = s.issue := rfl
@[simp] theorem modPath_inputs (wid tix pix : Nat) (f : Path → Path) : (modPath s wid tix pix f).inputs = s.inputs := rfl
@[simp] theorem modPath_cur (wid tix pix : Nat) (f : Path → Path) : (modPath s wid tix pix f).cur = s.cur := rfl
@[simp] theorem modPath_out (wid tix pix : Nat) (f : Path → Path) : (modPath s wid tix pix f).out = s.out := rfl
@[simp] theorem modPath_mem (wid tix pix : Nat) (f : Path → Path) : (modPath s wid tix pix f).mem = s.mem := rfl
@[simp] theorem modPath_badMem (wid tix pix : Nat) (f : Path → Path) : (modPath s wid tix pix f).badMem = s.badMem := rfl
@[simp] theorem modPath_deferred (wid tix pix : Nat) (f : Path → Path) : (modPath s wid tix pix f).deferred = s.deferred := rfl
@[simp] theorem modPath_unwalked (wid tix pix : Nat) (f : Path → Path) : (modPath s wid tix pix f).unwalked = s.unwalked := rfl
@[simp] theorem modPath_locks (wid tix pix : Nat) (f : Path → Path) : (modPath s wid tix pix f).locks = s.locks := rfl
@[simp] theorem modPath_tlb (wid tix pix : Nat) (f : Path → Path) : (modPath s wid tix pix f).tlb = s.tlb := rfl
@[simp] theorem modPath_cores (wid tix pix : Nat) (f : Path → Path) : (modPath s wid tix pix f).cores = s.cores := rfl
@[simp] theorem modPath_regions (wid tix pix : Nat) (f : Path → Path) : (modPath s wid tix pix f).regions = s.regions := rfl
@[simp] theorem modPath_carafes (wid tix pix : Nat) (f : Path → Path) : (modPath s wid tix pix f).carafes = s.carafes := rfl
@[simp] theorem modPath_flash (wid tix pix : Nat) (f : Path → Path) : (modPath s wid tix pix f).flash = s.flash := rfl
@[simp] theorem modPath_parts (wid tix pix : Nat) (f : Path → Path) : (modPath s wid tix pix f).parts = s.parts := rfl
@[simp] theorem modPath_launches (wid tix pix : Nat) (f : Path → Path) : (modPath s wid tix pix f).launches = s.launches := rfl
@[simp] theorem modPath_transfers (wid tix pix : Nat) (f : Path → Path) : (modPath s wid tix pix f).transfers = s.transfers := rfl
@[simp] theorem modPath_nextId (wid tix pix : Nat) (f : Path → Path) : (modPath s wid tix pix f).nextId = s.nextId := rfl
@[simp] theorem modPath_rank (wid tix pix : Nat) (f : Path → Path) : (modPath s wid tix pix f).rank = s.rank := rfl
@[simp] theorem modPath_routes (wid tix pix : Nat) (f : Path → Path) : (modPath s wid tix pix f).routes = s.routes := rfl
@[simp] theorem modPath_ports (wid tix pix : Nat) (f : Path → Path) : (modPath s wid tix pix f).ports = s.ports := rfl
@[simp] theorem modPath_heldWords (wid tix pix : Nat) (f : Path → Path) : (modPath s wid tix pix f).heldWords = s.heldWords := rfl
@[simp] theorem modPath_arrivals (wid tix pix : Nat) (f : Path → Path) : (modPath s wid tix pix f).arrivals = s.arrivals := rfl
@[simp] theorem modPath_linkEnabled (wid tix pix : Nat) (f : Path → Path) : (modPath s wid tix pix f).linkEnabled = s.linkEnabled := rfl
@[simp] theorem modPath_linkUp (wid tix pix : Nat) (f : Path → Path) : (modPath s wid tix pix f).linkUp = s.linkUp := rfl
@[simp] theorem modPath_bypassed (wid tix pix : Nat) (f : Path → Path) : (modPath s wid tix pix f).bypassed = s.bypassed := rfl
@[simp] theorem modPath_capped (wid tix pix : Nat) (f : Path → Path) : (modPath s wid tix pix f).capped = s.capped := rfl
@[simp] theorem modPath_boot (wid tix pix : Nat) (f : Path → Path) : (modPath s wid tix pix f).boot = s.boot := rfl
@[simp] theorem modPath_frozen (wid tix pix : Nat) (f : Path → Path) : (modPath s wid tix pix f).frozen = s.frozen := rfl
@[simp] theorem modPath_powered (wid tix pix : Nat) (f : Path → Path) : (modPath s wid tix pix f).powered = s.powered := rfl

/-! ### modLaunch -/

@[simp] theorem modLaunch_cycle (lid : Nat) (f : Launch → Launch) : (modLaunch s lid f).cycle = s.cycle := rfl
@[simp] theorem modLaunch_tick (lid : Nat) (f : Launch → Launch) : (modLaunch s lid f).tick = s.tick := rfl
@[simp] theorem modLaunch_agenda (lid : Nat) (f : Launch → Launch) : (modLaunch s lid f).agenda = s.agenda := rfl
@[simp] theorem modLaunch_issue (lid : Nat) (f : Launch → Launch) : (modLaunch s lid f).issue = s.issue := rfl
@[simp] theorem modLaunch_inputs (lid : Nat) (f : Launch → Launch) : (modLaunch s lid f).inputs = s.inputs := rfl
@[simp] theorem modLaunch_cur (lid : Nat) (f : Launch → Launch) : (modLaunch s lid f).cur = s.cur := rfl
@[simp] theorem modLaunch_out (lid : Nat) (f : Launch → Launch) : (modLaunch s lid f).out = s.out := rfl
@[simp] theorem modLaunch_mem (lid : Nat) (f : Launch → Launch) : (modLaunch s lid f).mem = s.mem := rfl
@[simp] theorem modLaunch_badMem (lid : Nat) (f : Launch → Launch) : (modLaunch s lid f).badMem = s.badMem := rfl
@[simp] theorem modLaunch_deferred (lid : Nat) (f : Launch → Launch) : (modLaunch s lid f).deferred = s.deferred := rfl
@[simp] theorem modLaunch_unwalked (lid : Nat) (f : Launch → Launch) : (modLaunch s lid f).unwalked = s.unwalked := rfl
@[simp] theorem modLaunch_locks (lid : Nat) (f : Launch → Launch) : (modLaunch s lid f).locks = s.locks := rfl
@[simp] theorem modLaunch_tlb (lid : Nat) (f : Launch → Launch) : (modLaunch s lid f).tlb = s.tlb := rfl
@[simp] theorem modLaunch_cores (lid : Nat) (f : Launch → Launch) : (modLaunch s lid f).cores = s.cores := rfl
@[simp] theorem modLaunch_regions (lid : Nat) (f : Launch → Launch) : (modLaunch s lid f).regions = s.regions := rfl
@[simp] theorem modLaunch_carafes (lid : Nat) (f : Launch → Launch) : (modLaunch s lid f).carafes = s.carafes := rfl
@[simp] theorem modLaunch_flash (lid : Nat) (f : Launch → Launch) : (modLaunch s lid f).flash = s.flash := rfl
@[simp] theorem modLaunch_parts (lid : Nat) (f : Launch → Launch) : (modLaunch s lid f).parts = s.parts := rfl
@[simp] theorem modLaunch_wgs (lid : Nat) (f : Launch → Launch) : (modLaunch s lid f).wgs = s.wgs := rfl
@[simp] theorem modLaunch_transfers (lid : Nat) (f : Launch → Launch) : (modLaunch s lid f).transfers = s.transfers := rfl
@[simp] theorem modLaunch_nextId (lid : Nat) (f : Launch → Launch) : (modLaunch s lid f).nextId = s.nextId := rfl
@[simp] theorem modLaunch_rank (lid : Nat) (f : Launch → Launch) : (modLaunch s lid f).rank = s.rank := rfl
@[simp] theorem modLaunch_routes (lid : Nat) (f : Launch → Launch) : (modLaunch s lid f).routes = s.routes := rfl
@[simp] theorem modLaunch_ports (lid : Nat) (f : Launch → Launch) : (modLaunch s lid f).ports = s.ports := rfl
@[simp] theorem modLaunch_heldWords (lid : Nat) (f : Launch → Launch) : (modLaunch s lid f).heldWords = s.heldWords := rfl
@[simp] theorem modLaunch_arrivals (lid : Nat) (f : Launch → Launch) : (modLaunch s lid f).arrivals = s.arrivals := rfl
@[simp] theorem modLaunch_linkEnabled (lid : Nat) (f : Launch → Launch) : (modLaunch s lid f).linkEnabled = s.linkEnabled := rfl
@[simp] theorem modLaunch_linkUp (lid : Nat) (f : Launch → Launch) : (modLaunch s lid f).linkUp = s.linkUp := rfl
@[simp] theorem modLaunch_bypassed (lid : Nat) (f : Launch → Launch) : (modLaunch s lid f).bypassed = s.bypassed := rfl
@[simp] theorem modLaunch_capped (lid : Nat) (f : Launch → Launch) : (modLaunch s lid f).capped = s.capped := rfl
@[simp] theorem modLaunch_boot (lid : Nat) (f : Launch → Launch) : (modLaunch s lid f).boot = s.boot := rfl
@[simp] theorem modLaunch_frozen (lid : Nat) (f : Launch → Launch) : (modLaunch s lid f).frozen = s.frozen := rfl
@[simp] theorem modLaunch_powered (lid : Nat) (f : Launch → Launch) : (modLaunch s lid f).powered = s.powered := rfl

/-! ### modPart -/

@[simp] theorem modPart_cycle (p : Nat) (f : Partition → Partition) : (modPart s p f).cycle = s.cycle := rfl
@[simp] theorem modPart_tick (p : Nat) (f : Partition → Partition) : (modPart s p f).tick = s.tick := rfl
@[simp] theorem modPart_agenda (p : Nat) (f : Partition → Partition) : (modPart s p f).agenda = s.agenda := rfl
@[simp] theorem modPart_issue (p : Nat) (f : Partition → Partition) : (modPart s p f).issue = s.issue := rfl
@[simp] theorem modPart_inputs (p : Nat) (f : Partition → Partition) : (modPart s p f).inputs = s.inputs := rfl
@[simp] theorem modPart_cur (p : Nat) (f : Partition → Partition) : (modPart s p f).cur = s.cur := rfl
@[simp] theorem modPart_out (p : Nat) (f : Partition → Partition) : (modPart s p f).out = s.out := rfl
@[simp] theorem modPart_mem (p : Nat) (f : Partition → Partition) : (modPart s p f).mem = s.mem := rfl
@[simp] theorem modPart_badMem (p : Nat) (f : Partition → Partition) : (modPart s p f).badMem = s.badMem := rfl
@[simp] theorem modPart_deferred (p : Nat) (f : Partition → Partition) : (modPart s p f).deferred = s.deferred := rfl
@[simp] theorem modPart_unwalked (p : Nat) (f : Partition → Partition) : (modPart s p f).unwalked = s.unwalked := rfl
@[simp] theorem modPart_locks (p : Nat) (f : Partition → Partition) : (modPart s p f).locks = s.locks := rfl
@[simp] theorem modPart_tlb (p : Nat) (f : Partition → Partition) : (modPart s p f).tlb = s.tlb := rfl
@[simp] theorem modPart_cores (p : Nat) (f : Partition → Partition) : (modPart s p f).cores = s.cores := rfl
@[simp] theorem modPart_regions (p : Nat) (f : Partition → Partition) : (modPart s p f).regions = s.regions := rfl
@[simp] theorem modPart_carafes (p : Nat) (f : Partition → Partition) : (modPart s p f).carafes = s.carafes := rfl
@[simp] theorem modPart_flash (p : Nat) (f : Partition → Partition) : (modPart s p f).flash = s.flash := rfl
@[simp] theorem modPart_launches (p : Nat) (f : Partition → Partition) : (modPart s p f).launches = s.launches := rfl
@[simp] theorem modPart_wgs (p : Nat) (f : Partition → Partition) : (modPart s p f).wgs = s.wgs := rfl
@[simp] theorem modPart_transfers (p : Nat) (f : Partition → Partition) : (modPart s p f).transfers = s.transfers := rfl
@[simp] theorem modPart_nextId (p : Nat) (f : Partition → Partition) : (modPart s p f).nextId = s.nextId := rfl
@[simp] theorem modPart_rank (p : Nat) (f : Partition → Partition) : (modPart s p f).rank = s.rank := rfl
@[simp] theorem modPart_routes (p : Nat) (f : Partition → Partition) : (modPart s p f).routes = s.routes := rfl
@[simp] theorem modPart_ports (p : Nat) (f : Partition → Partition) : (modPart s p f).ports = s.ports := rfl
@[simp] theorem modPart_heldWords (p : Nat) (f : Partition → Partition) : (modPart s p f).heldWords = s.heldWords := rfl
@[simp] theorem modPart_arrivals (p : Nat) (f : Partition → Partition) : (modPart s p f).arrivals = s.arrivals := rfl
@[simp] theorem modPart_linkEnabled (p : Nat) (f : Partition → Partition) : (modPart s p f).linkEnabled = s.linkEnabled := rfl
@[simp] theorem modPart_linkUp (p : Nat) (f : Partition → Partition) : (modPart s p f).linkUp = s.linkUp := rfl
@[simp] theorem modPart_bypassed (p : Nat) (f : Partition → Partition) : (modPart s p f).bypassed = s.bypassed := rfl
@[simp] theorem modPart_capped (p : Nat) (f : Partition → Partition) : (modPart s p f).capped = s.capped := rfl
@[simp] theorem modPart_boot (p : Nat) (f : Partition → Partition) : (modPart s p f).boot = s.boot := rfl
@[simp] theorem modPart_frozen (p : Nat) (f : Partition → Partition) : (modPart s p f).frozen = s.frozen := rfl
@[simp] theorem modPart_powered (p : Nat) (f : Partition → Partition) : (modPart s p f).powered = s.powered := rfl

/-! ### modCore -/

@[simp] theorem modCore_cycle (c : Nat) (f : Core → Core) : (modCore s c f).cycle = s.cycle := rfl
@[simp] theorem modCore_tick (c : Nat) (f : Core → Core) : (modCore s c f).tick = s.tick := rfl
@[simp] theorem modCore_agenda (c : Nat) (f : Core → Core) : (modCore s c f).agenda = s.agenda := rfl
@[simp] theorem modCore_issue (c : Nat) (f : Core → Core) : (modCore s c f).issue = s.issue := rfl
@[simp] theorem modCore_inputs (c : Nat) (f : Core → Core) : (modCore s c f).inputs = s.inputs := rfl
@[simp] theorem modCore_cur (c : Nat) (f : Core → Core) : (modCore s c f).cur = s.cur := rfl
@[simp] theorem modCore_out (c : Nat) (f : Core → Core) : (modCore s c f).out = s.out := rfl
@[simp] theorem modCore_mem (c : Nat) (f : Core → Core) : (modCore s c f).mem = s.mem := rfl
@[simp] theorem modCore_badMem (c : Nat) (f : Core → Core) : (modCore s c f).badMem = s.badMem := rfl
@[simp] theorem modCore_deferred (c : Nat) (f : Core → Core) : (modCore s c f).deferred = s.deferred := rfl
@[simp] theorem modCore_unwalked (c : Nat) (f : Core → Core) : (modCore s c f).unwalked = s.unwalked := rfl
@[simp] theorem modCore_locks (c : Nat) (f : Core → Core) : (modCore s c f).locks = s.locks := rfl
@[simp] theorem modCore_tlb (c : Nat) (f : Core → Core) : (modCore s c f).tlb = s.tlb := rfl
@[simp] theorem modCore_regions (c : Nat) (f : Core → Core) : (modCore s c f).regions = s.regions := rfl
@[simp] theorem modCore_carafes (c : Nat) (f : Core → Core) : (modCore s c f).carafes = s.carafes := rfl
@[simp] theorem modCore_flash (c : Nat) (f : Core → Core) : (modCore s c f).flash = s.flash := rfl
@[simp] theorem modCore_parts (c : Nat) (f : Core → Core) : (modCore s c f).parts = s.parts := rfl
@[simp] theorem modCore_launches (c : Nat) (f : Core → Core) : (modCore s c f).launches = s.launches := rfl
@[simp] theorem modCore_wgs (c : Nat) (f : Core → Core) : (modCore s c f).wgs = s.wgs := rfl
@[simp] theorem modCore_transfers (c : Nat) (f : Core → Core) : (modCore s c f).transfers = s.transfers := rfl
@[simp] theorem modCore_nextId (c : Nat) (f : Core → Core) : (modCore s c f).nextId = s.nextId := rfl
@[simp] theorem modCore_rank (c : Nat) (f : Core → Core) : (modCore s c f).rank = s.rank := rfl
@[simp] theorem modCore_routes (c : Nat) (f : Core → Core) : (modCore s c f).routes = s.routes := rfl
@[simp] theorem modCore_ports (c : Nat) (f : Core → Core) : (modCore s c f).ports = s.ports := rfl
@[simp] theorem modCore_heldWords (c : Nat) (f : Core → Core) : (modCore s c f).heldWords = s.heldWords := rfl
@[simp] theorem modCore_arrivals (c : Nat) (f : Core → Core) : (modCore s c f).arrivals = s.arrivals := rfl
@[simp] theorem modCore_linkEnabled (c : Nat) (f : Core → Core) : (modCore s c f).linkEnabled = s.linkEnabled := rfl
@[simp] theorem modCore_linkUp (c : Nat) (f : Core → Core) : (modCore s c f).linkUp = s.linkUp := rfl
@[simp] theorem modCore_bypassed (c : Nat) (f : Core → Core) : (modCore s c f).bypassed = s.bypassed := rfl
@[simp] theorem modCore_capped (c : Nat) (f : Core → Core) : (modCore s c f).capped = s.capped := rfl
@[simp] theorem modCore_boot (c : Nat) (f : Core → Core) : (modCore s c f).boot = s.boot := rfl
@[simp] theorem modCore_frozen (c : Nat) (f : Core → Core) : (modCore s c f).frozen = s.frozen := rfl
@[simp] theorem modCore_powered (c : Nat) (f : Core → Core) : (modCore s c f).powered = s.powered := rfl

/-! ### modRegion -/

@[simp] theorem modRegion_cycle (r : Nat) (f : Region → Region) : (modRegion s r f).cycle = s.cycle := rfl
@[simp] theorem modRegion_tick (r : Nat) (f : Region → Region) : (modRegion s r f).tick = s.tick := rfl
@[simp] theorem modRegion_agenda (r : Nat) (f : Region → Region) : (modRegion s r f).agenda = s.agenda := rfl
@[simp] theorem modRegion_issue (r : Nat) (f : Region → Region) : (modRegion s r f).issue = s.issue := rfl
@[simp] theorem modRegion_inputs (r : Nat) (f : Region → Region) : (modRegion s r f).inputs = s.inputs := rfl
@[simp] theorem modRegion_cur (r : Nat) (f : Region → Region) : (modRegion s r f).cur = s.cur := rfl
@[simp] theorem modRegion_out (r : Nat) (f : Region → Region) : (modRegion s r f).out = s.out := rfl
@[simp] theorem modRegion_mem (r : Nat) (f : Region → Region) : (modRegion s r f).mem = s.mem := rfl
@[simp] theorem modRegion_badMem (r : Nat) (f : Region → Region) : (modRegion s r f).badMem = s.badMem := rfl
@[simp] theorem modRegion_deferred (r : Nat) (f : Region → Region) : (modRegion s r f).deferred = s.deferred := rfl
@[simp] theorem modRegion_unwalked (r : Nat) (f : Region → Region) : (modRegion s r f).unwalked = s.unwalked := rfl
@[simp] theorem modRegion_locks (r : Nat) (f : Region → Region) : (modRegion s r f).locks = s.locks := rfl
@[simp] theorem modRegion_tlb (r : Nat) (f : Region → Region) : (modRegion s r f).tlb = s.tlb := rfl
@[simp] theorem modRegion_cores (r : Nat) (f : Region → Region) : (modRegion s r f).cores = s.cores := rfl
@[simp] theorem modRegion_carafes (r : Nat) (f : Region → Region) : (modRegion s r f).carafes = s.carafes := rfl
@[simp] theorem modRegion_flash (r : Nat) (f : Region → Region) : (modRegion s r f).flash = s.flash := rfl
@[simp] theorem modRegion_parts (r : Nat) (f : Region → Region) : (modRegion s r f).parts = s.parts := rfl
@[simp] theorem modRegion_launches (r : Nat) (f : Region → Region) : (modRegion s r f).launches = s.launches := rfl
@[simp] theorem modRegion_wgs (r : Nat) (f : Region → Region) : (modRegion s r f).wgs = s.wgs := rfl
@[simp] theorem modRegion_transfers (r : Nat) (f : Region → Region) : (modRegion s r f).transfers = s.transfers := rfl
@[simp] theorem modRegion_nextId (r : Nat) (f : Region → Region) : (modRegion s r f).nextId = s.nextId := rfl
@[simp] theorem modRegion_rank (r : Nat) (f : Region → Region) : (modRegion s r f).rank = s.rank := rfl
@[simp] theorem modRegion_routes (r : Nat) (f : Region → Region) : (modRegion s r f).routes = s.routes := rfl
@[simp] theorem modRegion_ports (r : Nat) (f : Region → Region) : (modRegion s r f).ports = s.ports := rfl
@[simp] theorem modRegion_heldWords (r : Nat) (f : Region → Region) : (modRegion s r f).heldWords = s.heldWords := rfl
@[simp] theorem modRegion_arrivals (r : Nat) (f : Region → Region) : (modRegion s r f).arrivals = s.arrivals := rfl
@[simp] theorem modRegion_linkEnabled (r : Nat) (f : Region → Region) : (modRegion s r f).linkEnabled = s.linkEnabled := rfl
@[simp] theorem modRegion_linkUp (r : Nat) (f : Region → Region) : (modRegion s r f).linkUp = s.linkUp := rfl
@[simp] theorem modRegion_bypassed (r : Nat) (f : Region → Region) : (modRegion s r f).bypassed = s.bypassed := rfl
@[simp] theorem modRegion_capped (r : Nat) (f : Region → Region) : (modRegion s r f).capped = s.capped := rfl
@[simp] theorem modRegion_boot (r : Nat) (f : Region → Region) : (modRegion s r f).boot = s.boot := rfl
@[simp] theorem modRegion_frozen (r : Nat) (f : Region → Region) : (modRegion s r f).frozen = s.frozen := rfl
@[simp] theorem modRegion_powered (r : Nat) (f : Region → Region) : (modRegion s r f).powered = s.powered := rfl

/-! ### ticked -/

@[simp] theorem ticked_cycle : (ticked s).cycle = s.cycle := rfl
@[simp] theorem ticked_agenda : (ticked s).agenda = s.agenda := rfl
@[simp] theorem ticked_issue : (ticked s).issue = s.issue := rfl
@[simp] theorem ticked_inputs : (ticked s).inputs = s.inputs := rfl
@[simp] theorem ticked_cur : (ticked s).cur = s.cur := rfl
@[simp] theorem ticked_out : (ticked s).out = s.out := rfl
@[simp] theorem ticked_mem : (ticked s).mem = s.mem := rfl
@[simp] theorem ticked_badMem : (ticked s).badMem = s.badMem := rfl
@[simp] theorem ticked_deferred : (ticked s).deferred = s.deferred := rfl
@[simp] theorem ticked_unwalked : (ticked s).unwalked = s.unwalked := rfl
@[simp] theorem ticked_locks : (ticked s).locks = s.locks := rfl
@[simp] theorem ticked_tlb : (ticked s).tlb = s.tlb := rfl
@[simp] theorem ticked_cores : (ticked s).cores = s.cores := rfl
@[simp] theorem ticked_regions : (ticked s).regions = s.regions := rfl
@[simp] theorem ticked_carafes : (ticked s).carafes = s.carafes := rfl
@[simp] theorem ticked_flash : (ticked s).flash = s.flash := rfl
@[simp] theorem ticked_parts : (ticked s).parts = s.parts := rfl
@[simp] theorem ticked_launches : (ticked s).launches = s.launches := rfl
@[simp] theorem ticked_wgs : (ticked s).wgs = s.wgs := rfl
@[simp] theorem ticked_transfers : (ticked s).transfers = s.transfers := rfl
@[simp] theorem ticked_nextId : (ticked s).nextId = s.nextId := rfl
@[simp] theorem ticked_rank : (ticked s).rank = s.rank := rfl
@[simp] theorem ticked_routes : (ticked s).routes = s.routes := rfl
@[simp] theorem ticked_ports : (ticked s).ports = s.ports := rfl
@[simp] theorem ticked_heldWords : (ticked s).heldWords = s.heldWords := rfl
@[simp] theorem ticked_arrivals : (ticked s).arrivals = s.arrivals := rfl
@[simp] theorem ticked_linkEnabled : (ticked s).linkEnabled = s.linkEnabled := rfl
@[simp] theorem ticked_linkUp : (ticked s).linkUp = s.linkUp := rfl
@[simp] theorem ticked_bypassed : (ticked s).bypassed = s.bypassed := rfl
@[simp] theorem ticked_capped : (ticked s).capped = s.capped := rfl
@[simp] theorem ticked_boot : (ticked s).boot = s.boot := rfl
@[simp] theorem ticked_frozen : (ticked s).frozen = s.frozen := rfl
@[simp] theorem ticked_powered : (ticked s).powered = s.powered := rfl

/-! ### What the accessors read -/

@[simp] theorem wgOf_putWg_self (wid : Nat) (w : Workgroup) : wgOf (putWg s wid w) wid = some w :=
  tfind_tset_self s.wgs wid w

theorem wgOf_putWg_ne {wid v : Nat} (w : Workgroup) (h : v ≠ wid) : wgOf (putWg s wid w) v = wgOf s v :=
  tfind_tset_ne s.wgs w h

theorem wgOf_modWg (wid v : Nat) (f : Workgroup → Workgroup) :
    wgOf (modWg s wid f) v = if v = wid then (wgOf s v).map f else wgOf s v := tfind_tmod s.wgs wid v f

@[simp] theorem wgOf_modWg_self (wid : Nat) (f : Workgroup → Workgroup) :
    wgOf (modWg s wid f) wid = (wgOf s wid).map f := by simp [wgOf_modWg]

@[simp] theorem wgOf_modTh_self (wid tix : Nat) (f : Thread → Thread) :
    wgOf (modTh s wid tix f) wid = (wgOf s wid).map fun w => { w with threads := w.threads.modify tix f } :=
  wgOf_modWg_self s wid _

@[simp] theorem wgOf_modPath_self (wid tix pix : Nat) (f : Path → Path) :
    wgOf (modPath s wid tix pix f) wid =
      (wgOf s wid).map fun w =>
        { w with threads := w.threads.modify tix fun t => { t with paths := t.paths.modify pix f } } :=
  wgOf_modWg_self s wid _

@[simp] theorem wgOf_modLaunch (lid wid : Nat) (f : Launch → Launch) : wgOf (modLaunch s lid f) wid = wgOf s wid := rfl
@[simp] theorem wgOf_modPart (p wid : Nat) (f : Partition → Partition) : wgOf (modPart s p f) wid = wgOf s wid := rfl
@[simp] theorem wgOf_modCore (c wid : Nat) (f : Core → Core) : wgOf (modCore s c f) wid = wgOf s wid := rfl
@[simp] theorem wgOf_modRegion (r wid : Nat) (f : Region → Region) : wgOf (modRegion s r f) wid = wgOf s wid := rfl
@[simp] theorem wgOf_ticked (wid : Nat) : wgOf (ticked s) wid = wgOf s wid := rfl

@[simp] theorem launchOf_putWg (wid lid : Nat) (w : Workgroup) : launchOf (putWg s wid w) lid = launchOf s lid := rfl
@[simp] theorem launchOf_modWg (wid lid : Nat) (f : Workgroup → Workgroup) : launchOf (modWg s wid f) lid = launchOf s lid := rfl
@[simp] theorem launchOf_modTh (wid tix lid : Nat) (f : Thread → Thread) : launchOf (modTh s wid tix f) lid = launchOf s lid := rfl
@[simp] theorem launchOf_modPath (wid tix pix lid : Nat) (f : Path → Path) :
    launchOf (modPath s wid tix pix f) lid = launchOf s lid := rfl
@[simp] theorem launchOf_modPart (p lid : Nat) (f : Partition → Partition) : launchOf (modPart s p f) lid = launchOf s lid := rfl
@[simp] theorem launchOf_modCore (c lid : Nat) (f : Core → Core) : launchOf (modCore s c f) lid = launchOf s lid := rfl
@[simp] theorem launchOf_modRegion (r lid : Nat) (f : Region → Region) : launchOf (modRegion s r f) lid = launchOf s lid := rfl
@[simp] theorem launchOf_ticked (lid : Nat) : launchOf (ticked s) lid = launchOf s lid := rfl

@[simp] theorem partOf_modPart_self (p : Nat) (f : Partition → Partition) : partOf (modPart s p f) p = f (partOf s p) := by
  simp [partOf, modPart, tget_tset]

@[simp] theorem coreOf_modCore_self (c : Nat) (f : Core → Core) : coreOf (modCore s c f) c = f (coreOf s c) := by
  simp [coreOf, modCore, tget_tset]

theorem coreOf_modCore_ne {c d : Nat} (f : Core → Core) (h : d ≠ c) : coreOf (modCore s c f) d = coreOf s d := by
  simp [coreOf, modCore, tget_tset, h]

@[simp] theorem coreOf_putWg (wid c : Nat) (w : Workgroup) : coreOf (putWg s wid w) c = coreOf s c := rfl
@[simp] theorem coreOf_modWg (wid c : Nat) (f : Workgroup → Workgroup) : coreOf (modWg s wid f) c = coreOf s c := rfl
@[simp] theorem coreOf_modTh (wid tix c : Nat) (f : Thread → Thread) : coreOf (modTh s wid tix f) c = coreOf s c := rfl
@[simp] theorem coreOf_modPath (wid tix pix c : Nat) (f : Path → Path) : coreOf (modPath s wid tix pix f) c = coreOf s c := rfl
@[simp] theorem coreOf_modLaunch (lid c : Nat) (f : Launch → Launch) : coreOf (modLaunch s lid f) c = coreOf s c := rfl
@[simp] theorem coreOf_modPart (p c : Nat) (f : Partition → Partition) : coreOf (modPart s p f) c = coreOf s c := rfl
@[simp] theorem coreOf_modRegion (r c : Nat) (f : Region → Region) : coreOf (modRegion s r f) c = coreOf s c := rfl
@[simp] theorem coreOf_ticked (c : Nat) : coreOf (ticked s) c = coreOf s c := rfl

@[simp] theorem regionOf_modRegion_self (r : Nat) (f : Region → Region) : regionOf (modRegion s r f) r = f (regionOf s r) := by
  simp [regionOf, modRegion, tget_tset]

theorem regionOf_modRegion_ne {r q : Nat} (f : Region → Region) (h : q ≠ r) : regionOf (modRegion s r f) q = regionOf s q := by
  simp [regionOf, modRegion, tget_tset, h]

end Sys2Proof.Machine
end

