-- ==== Sys2Proof/Laws/Operands.lean ====
section
/-! SUPPORT. What registers read as after a write, and the lanes of a mask. -/

namespace Sys2Proof.Machine

/-! ### The lanes of a mask -/

theorem fld_eq_zero_iff (m : Mask) (g : Nat) :
    fld m (32 * g + 31) (32 * g) = 0 ↔ ∀ i, i < 32 → m.getLsbD (32 * g + i) = false := by
  unfold fld
  rw [show 32 * g + 31 + 1 - 32 * g = 32 from by omega]
  constructor
  · intro h i hi
    have : (m.toNat / 2 ^ (32 * g) % 2 ^ 32).testBit i = false := by rw [h]; simp
    rw [Nat.testBit_mod_two_pow, Nat.testBit_div_two_pow] at this
    simp [hi] at this
    rw [← BitVec.testBit_toNat, Nat.add_comm]; exact this
  · intro h
    apply Nat.eq_of_testBit_eq
    intro i
    rw [Nat.testBit_mod_two_pow, Nat.testBit_div_two_pow, Nat.zero_testBit]
    by_cases hi : i < 32
    · have := h i hi
      rw [← BitVec.testBit_toNat, Nat.add_comm] at this
      simp [this]
    · simp [hi]

/-- The lanes listed are those of the mask. -/
theorem mem_lanesOf (m : Mask) (l : Nat) : l ∈ lanesOf m ↔ m.getLsbD l = true := by
  unfold lanesOf lanesFrom
  rw [List.mem_flatMap]
  constructor
  · rintro ⟨g, _, h⟩
    split at h
    · simp at h
    · exact (List.mem_filter.1 h).2
  · intro h
    have hl : l < 512 := by
      apply Nat.lt_of_not_le
      intro hc
      rw [BitVec.getLsbD_of_ge m l hc] at h
      exact Bool.noConfusion h
    refine ⟨l / 32, by simp; omega, ?_⟩
    rw [if_neg]
    · rw [List.mem_filter]
      exact ⟨by simp [List.mem_range'_1]; omega, h⟩
    · intro hz
      have := (fld_eq_zero_iff m (l / 32)).1 hz (l % 32) (by omega)
      rw [show 32 * (l / 32) + l % 32 = l from by omega, h] at this
      exact Bool.noConfusion this

theorem lanesOf_eq_nil (m : Mask) : lanesOf m = [] ↔ m = 0 := by
  constructor
  · intro h
    apply BitVec.eq_of_getLsbD_eq
    intro i _
    cases hb : m.getLsbD i
    · simp
    · rw [← mem_lanesOf, h] at hb
      simp at hb
  · rintro rfl
    cases h : lanesOf 0 with
    | nil => rfl
    | cons x t =>
      have : x ∈ lanesOf 0 := by rw [h]; simp
      rw [mem_lanesOf] at this
      simp at this

@[simp] theorem maskOf_nil : maskOf [] = 0 := rfl

theorem getLsbD_bit (l i : Nat) : (BitVec.ofNat 512 (2 ^ l)).getLsbD i = (decide (i < 512) && decide (l = i)) := by
  rw [BitVec.getLsbD_ofNat, Nat.testBit_two_pow]

/-! ### Registers -/

theorem vGet_vPut (w : Workgroup) (l r l' r' : Nat) (x : Word) (hr : r < 256) (hr' : r' < 256) :
    vGet (vPut w l r x) l' r' = if l' = l ∧ r' = r then x else vGet w l' r' := by
  simp only [vGet, vPut, tget_tput]
  by_cases h : l' = l ∧ r' = r
  · rw [if_pos h, if_pos (by omega)]
  · rw [if_neg h, if_neg (by omega)]

@[simp] theorem vPut_threads (w : Workgroup) (l r : Nat) (x : Word) : (vPut w l r x).threads = w.threads := rfl
@[simp] theorem vPut_k (w : Workgroup) (l r : Nat) (x : Word) : (vPut w l r x).k = w.k := rfl
@[simp] theorem kGet_vPut (w : Workgroup) (l r n : Nat) (x : Word) : kGet (vPut w l r x) n = kGet w n := rfl

@[simp] theorem sPut_v (w : Workgroup) (tix n : Nat) (x : Dbl) : (sPut w tix n x).v = w.v := rfl
@[simp] theorem sPut_k (w : Workgroup) (tix n : Nat) (x : Dbl) : (sPut w tix n x).k = w.k := rfl
@[simp] theorem vGet_sPut (w : Workgroup) (tix n l r : Nat) (x : Dbl) : vGet (sPut w tix n x) l r = vGet w l r := rfl
@[simp] theorem kGet_sPut (w : Workgroup) (tix n m : Nat) (x : Dbl) : kGet (sPut w tix n x) m = kGet w m := rfl

@[simp] theorem kPut_v (w : Workgroup) (n l : Nat) (b : Bool) : (kPut w n l b).v = w.v := rfl
@[simp] theorem kPut_threads (w : Workgroup) (n l : Nat) (b : Bool) : (kPut w n l b).threads = w.threads := rfl
@[simp] theorem vGet_kPut (w : Workgroup) (n l l' r : Nat) (b : Bool) : vGet (kPut w n l b) l' r = vGet w l' r := rfl

theorem sGet_put (t : Thread) (n m : Nat) (x : Dbl) :
    sGet { t with sregs := tput 0 t.sregs n x } m = if m = n then x else sGet t m := by simp [sGet, tget_tput]

/-- A bit of a mask after the bit of one lane is set or cleared. -/
theorem getLsbD_put (m : Mask) (l i : Nat) (b : Bool) (hl : l < 512) :
    (if b then m ||| BitVec.ofNat 512 (2 ^ l) else m &&& ~~~BitVec.ofNat 512 (2 ^ l)).getLsbD i =
      if i = l then b else m.getLsbD i := by
  by_cases hi : i < 512
  · cases b
    · rw [if_neg (by decide), BitVec.getLsbD_and, BitVec.getLsbD_not, getLsbD_bit]
      by_cases h : i = l
      · subst h; simp [hi]
      · have : decide (l = i) = false := by simp; omega
        simp [hi, h, this]
    · rw [if_pos rfl, BitVec.getLsbD_or, getLsbD_bit]
      by_cases h : i = l
      · subst h; simp [hi]
      · have : decide (l = i) = false := by simp; omega
        simp [h, this]
  · rw [BitVec.getLsbD_of_ge _ i (by omega), BitVec.getLsbD_of_ge _ i (by omega), if_neg (by omega)]

/-- k0 discards writes; another predicate changes in the written lane alone. -/
theorem kGet_kPut (w : Workgroup) (n l m i : Nat) (b : Bool) (hl : l < 512) :
    (kGet (kPut w n l b) m).getLsbD i = if m = n ∧ n ≠ 0 ∧ i = l then b else (kGet w m).getLsbD i := by
  by_cases hn : n = 0
  · subst hn; rw [if_neg (by simp)]; rfl
  · by_cases hm : m = n
    · subst hm
      have : kGet (kPut w m l b) m =
          if b then kGet w m ||| BitVec.ofNat 512 (2 ^ l) else kGet w m &&& ~~~BitVec.ofNat 512 (2 ^ l) := by
        rw [kGet, if_neg hn, kPut]
        simp only [if_neg hn, tget_tput_self]
      rw [this, getLsbD_put _ _ _ _ hl]
      simp [hn]
    · rw [if_neg (by simp [hm])]
      simp only [kGet, kPut, if_neg hn]
      split
      · rfl
      · rw [tget_tput, if_neg hm]

end Sys2Proof.Machine
end

