-- ==== Sys2Proof/Laws/Issue.lean ====
section
/-! SUPPORT. The issue of an instruction that meets `Issues`: what its meaning runs on, and what follows it. -/

namespace Sys2Proof.Machine

/-! ### Turns -/

@[simp] theorem takeTurn_tgix (t : Thread) (p : Path) : (takeTurn t p).tgix = t.tgix := by unfold takeTurn; dsimp; split <;> rfl
@[simp] theorem takeTurn_strand (t : Thread) (p : Path) : (takeTurn t p).strand = t.strand := by unfold takeTurn; dsimp; split <;> rfl
@[simp] theorem takeTurn_slot (t : Thread) (p : Path) : (takeTurn t p).slot = t.slot := by unfold takeTurn; dsimp; split <;> rfl
@[simp] theorem takeTurn_sregs (t : Thread) (p : Path) : (takeTurn t p).sregs = t.sregs := by unfold takeTurn; dsimp; split <;> rfl
@[simp] theorem takeTurn_jregs (t : Thread) (p : Path) : (takeTurn t p).jregs = t.jregs := by unfold takeTurn; dsimp; split <;> rfl
@[simp] theorem takeTurn_paths (t : Thread) (p : Path) : (takeTurn t p).paths = t.paths := by unfold takeTurn; dsimp; split <;> rfl
@[simp] theorem takeTurn_stalled (t : Thread) (p : Path) : (takeTurn t p).stalled = t.stalled := by unfold takeTurn; dsimp; split <;> rfl
@[simp] theorem takeTurn_last (t : Thread) (p : Path) : (takeTurn t p).last = t.last := by unfold takeTurn; dsimp; split <;> rfl
@[simp] theorem takeTurn_gaveSlot (t : Thread) (p : Path) : (takeTurn t p).gaveSlot = t.gaveSlot := by unfold takeTurn; dsimp; split <;> rfl
@[simp] theorem takeTurn_latch (t : Thread) (p : Path) : (takeTurn t p).latch = t.latch := by unfold takeTurn; dsimp; split <;> rfl
@[simp] theorem takeTurn_susp (t : Thread) (p : Path) : (takeTurn t p).susp = t.susp := by unfold takeTurn; dsimp; split <;> rfl
@[simp] theorem takeTurn_inner (t : Thread) (p : Path) : (takeTurn t p).inner = t.inner := by unfold takeTurn; dsimp; split <;> rfl
@[simp] theorem takeTurn_halt (t : Thread) (p : Path) : (takeTurn t p).halt = t.halt := by unfold takeTurn; dsimp; split <;> rfl
@[simp] theorem takeTurn_flights (t : Thread) (p : Path) : (takeTurn t p).flights = t.flights := by unfold takeTurn; dsimp; split <;> rfl

/-! ### The issuing path -/

theorem mem_readyPaths (t : Thread) (i : Nat) (p : Path) (h : (i, p) ∈ readyPaths t) :
    t.paths[i]? = some p ∧ pathReady p = true := by
  unfold readyPaths at h
  rw [List.mem_filter, List.mem_map] at h
  obtain ⟨⟨⟨q, j⟩, hq, he⟩, hr⟩ := h
  simp only [Prod.mk.injEq] at he
  obtain ⟨rfl, rfl⟩ := he
  have := List.mem_zipIdx_iff_getElem?.1 hq
  exact ⟨this, hr⟩

theorem lowestPath_mem (l : List (Nat × Path)) (i : Nat) (h : lowestPath l = some i) : ∃ p, (i, p) ∈ l := by
  cases l with
  | nil => simp [lowestPath] at h
  | cons x t =>
    simp only [lowestPath, Option.some.injEq] at h
    have key : ∀ (t : List (Nat × Path)) (b : Nat × Path),
        (t.foldl (fun best y => if lowestLane y.2.mask < lowestLane best.2.mask then y else best) b) = b ∨
        (t.foldl (fun best y => if lowestLane y.2.mask < lowestLane best.2.mask then y else best) b) ∈ t := by
      intro t
      induction t with
      | nil => intro b; exact .inl rfl
      | cons y r ih =>
        intro b
        rw [List.foldl_cons]
        rcases ih (if lowestLane y.2.mask < lowestLane b.2.mask then y else b) with h | h
        · rw [h]; split
          · exact .inr (by simp)
          · exact .inl rfl
        · exact .inr (List.mem_cons_of_mem _ h)
    refine ⟨(t.foldl (fun best y => if lowestLane y.2.mask < lowestLane best.2.mask then y else best) x).2, ?_⟩
    rw [← h]
    rcases key t x with h | h
    · rw [h]; simp
    · exact List.mem_cons_of_mem _ h

theorem nextPath_mem (t : Thread) (l i : Nat) (h : nextPath t l = some i) : ∃ p, (i, p) ∈ readyPaths t := by
  unfold nextPath at h
  dsimp only at h
  split at h
  · next j hj =>
    cases h
    obtain ⟨p, hp⟩ := lowestPath_mem _ _ hj
    exact ⟨p, (List.mem_filter.1 hp).1⟩
  · exact lowestPath_mem _ _ h

/-- The path that issues is ready. -/
theorem pickPath_ready (t : Thread) (i : Nat) (p : Path) (h : pickPath t = some i) (hp : t.paths[i]? = some p) :
    pathReady p = true := by
  have : ∃ q, (i, q) ∈ readyPaths t := by
    unfold pickPath at h
    split at h
    · next j q hj =>
      split at h
      · exact nextPath_mem _ _ _ h
      · cases h; exact ⟨q, List.mem_of_find?_eq_some hj⟩
    · exact nextPath_mem _ _ _ h
  obtain ⟨q, hq⟩ := this
  obtain ⟨h1, h2⟩ := mem_readyPaths t i q hq
  rw [hp] at h1
  cases h1
  exact h2

/-- What the issuing unit is made of. -/
structure CtxFacts (s : State) (i : Instr) (c : Ctx) : Prop where
  cur : s.cur = .thread c.wid c.tix c.word
  wg : wgOf s c.wid = some c.wg
  th : c.wg.threads[c.tix]? = some c.th
  pick : pickPath c.th = some c.pix
  path : c.th.paths[c.pix]? = some c.path
  ready : pathReady c.path = true
  la : c.la = launchOf s c.wg.lid
  act : c.act = (match c.path.limit with | some m => c.path.mask &&& m | none => c.path.mask)
  pass : c.pass = c.act &&& (if (guardOf i).toNat ≥ 8 then ~~~kGet c.wg ((guardOf i).toNat % 8) else kGet c.wg ((guardOf i).toNat % 8))

theorem ctxOf_facts {s : State} {i : Instr} {c : Ctx} (h : ctxOf s i = some c) : CtxFacts s i c := by
  unfold ctxOf at h
  split at h
  · next wid tix word hcur =>
    split at h
    · cases h
    · next w hw =>
      split at h
      · cases h
      · next t ht =>
        split at h
        · cases h
        · next pix hpick =>
          split at h
          · cases h
          · next p hp =>
            cases h
            exact ⟨hcur, hw, ht, hpick, hp, pickPath_ready _ _ _ hpick hp, rfl, rfl, rfl⟩
  · cases h

theorem and_eq_zero_of_left {a b : Mask} (h : a = 0) : a &&& b = 0 := by subst h; simp

/-- A path that passes some lane has lanes. -/
theorem CtxFacts.mask_ne {s : State} {i : Instr} {c : Ctx} (h : CtxFacts s i c) (hp : c.pass ≠ 0) : c.path.mask ≠ 0 := by
  intro hm
  apply hp
  rw [h.pass, h.act]
  apply and_eq_zero_of_left
  split <;> simp [hm]

/-- The issuing path is free of waits. -/
theorem CtxFacts.wait_none {s : State} {i : Instr} {c : Ctx} (h : CtxFacts s i c) : c.path.wait = .none := by
  have := h.ready
  unfold pathReady at this
  simp at this
  exact this.1

/-! ### What the meaning runs on -/

theorem modify_eq_set {α : Type} (l : List α) (i : Nat) (f : α → α) (x : α) (h : l[i]? = some x) :
    l.modify i f = l.set i (f x) := by
  apply List.ext_getElem?
  intro j
  rw [List.getElem?_modify, List.getElem?_set]
  by_cases hj : i = j
  · subst hj
    have : i < l.length := (List.getElem?_eq_some_iff.1 h).1
    rw [h]; simp [this]
  · simp [hj]

theorem wgOf_begin {s : State} {i : Instr} {c : Ctx} (h : CtxFacts s i c) :
    wgOf (begin s c) c.wid = some { c.wg with threads := c.wg.threads.set c.tix (takeTurn c.th c.path) } := by
  rw [begin, wgOf_modTh_self, h.wg, Option.map_some, modify_eq_set _ _ _ _ h.th]

theorem set_self_getElem? {α : Type} (l : List α) (i : Nat) (x y : α) (h : l[i]? = some x) : (l.set i y)[i]? = some y := by
  have : i < l.length := by
    rw [List.getElem?_eq_some_iff] at h
    exact h.1
  simp [this]

theorem wgOf_issued {s : State} {i : Instr} {c : Ctx} (h : CtxFacts s i c) :
    wgOf (issued (begin s c) c) c.wid = some (runWg s c) := by
  rw [issued, wgOf_modLaunch, wgOf_modTh_self, wgOf_begin h, Option.map_some]
  congr 1
  rw [runWg]
  congr 1
  rw [modify_eq_set _ _ _ _ (set_self_getElem? _ _ _ _ h.th), List.set_set]
  rfl

/-- `envOf`, `readOp` and the checks see the same before and after the turn is taken. -/
theorem readOp_congr (cycle : Nat) (c c' : Ctx) (x : Opnd) (wide : Bool) (l : Nat)
    (hv : c'.wg.v = c.wg.v) (hk : c'.wg.k = c.wg.k) (hs : c'.th.sregs = c.th.sregs) (hl : c'.th.latch = c.th.latch)
    (hw : c'.wg.w = c.wg.w) (hc : c'.wg.core = c.wg.core) (hn : c'.wg.ntg = c.wg.ntg) (hp : c'.path = c.path)
    (hla : c'.la = c.la) : readOp cycle c' x wide l = readOp cycle c x wide l := by
  simp only [readOp, vGet, sGet, kGet, specialVal, hv, hk, hs, hl, hw, hc, hn, hp, hla]
  rfl

@[simp] theorem readOp_runCtx (s : State) (c : Ctx) (cycle : Nat) (x : Opnd) (wide : Bool) (l : Nat) :
    readOp cycle (runCtx s c) x wide l = readOp cycle c x wide l := by
  apply readOp_congr <;> simp [runCtx, runWg, runThread]

@[simp] theorem addrM_runCtx (s : State) (c : Ctx) (cycle : Nat) (f : FmtM) (l : Nat) :
    addrM cycle (runCtx s c) f l = addrM cycle c f l := by simp [addrM]

@[simp] theorem addrMA_runCtx (s : State) (c : Ctx) (cycle : Nat) (f : FmtMA) (l : Nat) :
    addrMA cycle (runCtx s c) f l = addrMA cycle c f l := by simp [addrMA]

/-! ### Stages 5 to 15 see the same before and after the turn is taken -/

/-- The unit once the turn is taken. -/
def turnCtx (c : Ctx) : Ctx := { c with th := takeTurn c.th c.path }

@[simp] theorem readOp_turnCtx (c : Ctx) (cycle : Nat) (x : Opnd) (wide : Bool) (l : Nat) :
    readOp cycle (turnCtx c) x wide l = readOp cycle c x wide l := by
  apply readOp_congr <;> simp [turnCtx]

@[simp] theorem addrM_turnCtx (c : Ctx) (cycle : Nat) (f : FmtM) (l : Nat) :
    addrM cycle (turnCtx c) f l = addrM cycle c f l := by simp [addrM]

@[simp] theorem addrMA_turnCtx (c : Ctx) (cycle : Nat) (f : FmtMA) (l : Nat) :
    addrMA cycle (turnCtx c) f l = addrMA cycle c f l := by simp [addrMA]

@[simp] theorem envOf_turnCtx (c : Ctx) : envOf (turnCtx c) = envOf c := by simp [envOf, turnCtx]

@[simp] theorem touches_turnCtx (c : Ctx) (cycle : Nat) (i : Instr) (l : Nat) :
    touches cycle (turnCtx c) i l = touches cycle c i l := by
  cases i <;> simp [touches]

theorem bpLanes_turnCtx (c : Ctx) (cycle : Nat) (cpc : BitVec 29) (bp : Dbl) :
    bpLanes cycle (turnCtx c) cpc bp = bpLanes cycle c cpc bp := by
  simp only [bpLanes, readOp_turnCtx]; rfl

theorem lockedFor_congr {s s' : State} (hl : s'.locks = s.locks) (who : Option (Nat × Nat)) (pa n : Nat) :
    lockedFor s' who pa n = lockedFor s who pa n := by simp only [lockedFor, lockHolder, hl]

theorem badData_congr {s s' : State} (hb : s'.badMem = s.badMem) (pa n : Nat) : badData s' pa n = badData s pa n := by
  simp only [badData, hb]

theorem physOk_congr {s s' : State} (hp : s'.parts = s.parts) (part pa : Nat) : physOk s' part pa = physOk s part pa := by
  simp only [physOk, partOf, hp]

theorem leafOk_congr {s s' : State} (hp : s'.parts = s.parts) (part : Nat) (e : Dbl) (pa : Nat) :
    leafOk s' part e pa = leafOk s part e pa := by simp only [leafOk, physOk_congr hp]

theorem walkFrom_congr {s s' : State} (hm : s'.mem = s.mem) (hl : s'.locks = s.locks) (hb : s'.badMem = s.badMem) (ea : Nat) :
    ∀ level pa, walkFrom s' ea level pa = walkFrom s ea level pa := by
  intro level
  induction level with
  | zero =>
    intro pa
    rw [walkFrom, walkFrom]
    dsimp only
    rw [lockedFor_congr hl, badData_congr hb, hm]
  | succ n ih =>
    intro pa
    rw [walkFrom, walkFrom]
    dsimp only
    rw [lockedFor_congr hl, badData_congr hb, hm]
    simp only [ih]

/-- A probe reads memory, locks, failing sectors and the partitions' resources alone. -/
theorem probe_congr {s s' : State} (hm : s'.mem = s.mem) (hl : s'.locks = s.locks) (hb : s'.badMem = s.badMem)
    (hp : s'.parts = s.parts) (sp : Space) (need : Need) (ea : Nat) : probe s' sp need ea = probe s sp need ea := by
  unfold probe
  rw [walkFrom_congr hm hl hb]
  split
  · rfl
  · cases walkFrom s (ea % 2 ^ 60) 3 sp.root with
    | leaf l e =>
      simp only [judgeLeaf, leafOk_congr hp]
      cases leafOk s sp.part e (leafPa l e (ea % 2 ^ 60)) with
      | false => rfl
      | true => cases permits need e <;> rfl
    | fails => rfl
    | waits => rfl

theorem readSite_congr {s s' : State} (hm : s'.mem = s.mem) (hl : s'.locks = s.locks) (hb : s'.badMem = s.badMem)
    (hp : s'.parts = s.parts) (la : Launch) (core : Nat) (pc : Word) : readSite s' la core pc = readSite s la core pc := by
  simp only [readSite, probe_congr hm hl hb hp, lockedFor_congr hl, badData_congr hb, hm]

theorem siteOf_congr {s s' : State} (hm : s'.mem = s.mem) (hl : s'.locks = s.locks) (hb : s'.badMem = s.badMem)
    (hp : s'.parts = s.parts) (la : Launch) (core : Nat) (pc : Word) : siteOf s' la core pc = siteOf s la core pc := by
  unfold siteOf
  rw [readSite_congr (s := { s with locks := [] }) (s' := { s' with locks := [] }) hm rfl hb hp]

theorem canonPc_congr {s s' : State} (hm : s'.mem = s.mem) (hl : s'.locks = s.locks) (hb : s'.badMem = s.badMem)
    (hp : s'.parts = s.parts) (la : Launch) (core : Nat) (p : Path) : canonPc s' la core p = canonPc s la core p := by
  unfold canonPc pcInText; rw [siteOf_congr hm hl hb hp]

theorem debugStop_turn (s : State) (c : Ctx) (i : Instr) : debugStop (begin s c) (turnCtx c) i = debugStop s c i := by
  have hc : canonPc (begin s c) (turnCtx c).la (turnCtx c).wg.core (turnCtx c).path = canonPc s c.la c.wg.core c.path :=
    canonPc_congr (s := s) (s' := begin s c) rfl rfl rfl rfl c.la c.wg.core c.path
  simp only [debugStop, bpLanes_turnCtx, touches_turnCtx, hc]
  rfl

theorem inFlight_turn (c : Ctx) (l : List (Opnd × Bool)) : inFlight (turnCtx c) l = inFlight c l := by
  simp [inFlight, turnCtx]

theorem awaited_turn (s : State) (c : Ctx) (i : Instr) : awaited (begin s c) (turnCtx c) i = awaited s c i := by
  have hc : canonPc (begin s c) (turnCtx c).la (turnCtx c).wg.core (turnCtx c).path = canonPc s c.la c.wg.core c.path :=
    canonPc_congr (s := s) (s' := begin s c) rfl rfl rfl rfl c.la c.wg.core c.path
  simp only [awaited, testedOpnds, envOf_turnCtx, hc]
  rfl

theorem txStage_turn (c : Ctx) (i : Instr) : txStage (turnCtx c) i = txStage c i := by
  have : (turnCtx c).th.susp = c.th.susp := takeTurn_susp c.th c.path
  unfold txStage; rw [this]; rfl

theorem badUniformReg_turn (c : Ctx) (d : Demands) (i : Instr) : badUniformReg (turnCtx c) d i = badUniformReg c d i := by
  rfl

theorem badLaneRegs_congr (c c' : Ctx) (d : Demands) (h1 : c'.wg.badRegs = c.wg.badRegs) (h2 : c'.pass = c.pass) :
    badLaneRegs c' d = badLaneRegs c d := by
  simp only [badLaneRegs, h1, h2]

/-- What an answer of a meaning becomes. -/
def answer (d : Demands) (i : Instr) (s : State) (c : Ctx) (r : Res) (s1 s0 : State) : State :=
  match r with
  | .done s' more gone =>
    if more.any (!revocable c ·) && performedOnce d i then conclude s' { c with pass := 0 } more gone stepPath
    else conclude s' c more gone stepPath
  | .held s' more => conclude s' { c with pass := 0 } more [] id
  | .jump s' pc => conclude s' c [] [] fun p => { stepPath p with pc := pc }
  | .own s' => singleStep (settleThread (countWork s' c) c.wid c.tix) c
  | .stays s' => settleThread (countWork s' c) c.wid c.tix
  | .endsTx s' => conclude s' c [] [] passTxend
  | .tokenFails a =>
    if c.pass = 0 then conclude s1 c [] [] stepPath
    else takeTrap s1 c.wid c.tix c.pix { cause := .dataError, lanes := c.act, addr := a, token := true }
  | .wide cause a =>
    if c.pass = 0 then conclude s1 c [] [] stepPath
    else takeTrap s1 c.wid c.tix c.pix { cause := cause, lanes := c.act, addr := a }
  | .wideAt s' cause a => takeTrap s' c.wid c.tix c.pix { cause := cause, lanes := c.act, addr := a }
  | .stall => stalled s0 c (s.cycle + 2)
  | .asks lanes => asking s0 c lanes

theorem and_not_zero (m : Mask) : m &&& ~~~(0 : Mask) = m := by
  apply BitVec.eq_of_getLsbD_eq
  intro i hi
  rw [BitVec.getLsbD_and, BitVec.getLsbD_not, show (0 : Mask).getLsbD i = false from BitVec.getLsbD_zero]
  simp [hi]

/-- An instruction that meets `Issues` goes as its meaning answers. -/
theorem issue_eq {s : State} {i : Instr} {c : Ctx} (h : Issues s i c) (hp : c.pass ≠ 0 ∨ runsEmpty i = true)
    (body : Ctx → State → Res) :
    issue i s body = .next (answer (demandsOf (envOf c) i) i s (runCtx s c) (body (runCtx s c) (runState s c i)) (issued (begin s c) c) (begin s c)) := by
  have F := ctxOf_facts h.ctx
  have hw := wgOf_begin F
  have hth : (((wgOf (begin s c) c.wid).getD c.wg).threads[c.tix]?).getD c.th = takeTurn c.th c.path := by
    rw [hw, Option.getD_some, set_self_getElem? _ _ _ _ F.th]; rfl
  have hla : launchOf (begin s c) c.wg.lid = c.la := F.la.symm
  have hissued : issued (begin s c) (turnCtx c) = issued (begin s c) c := rfl
  have hwi : wgOf (issued (begin s c) c) c.wid = some (runWg s c) := wgOf_issued F
  simp only [issue, h.ctx, hth, hla]
  change (match judge (envOf (turnCtx c)) i with
    | some cause => _
    | none => if inFlight (turnCtx c) (awaited (begin s c) (turnCtx c) i) = true then _ else
      match debugStop (begin s c) (turnCtx c) i with
      | some a => _
      | none => Host.Outcome.next (perform (begin s c) (turnCtx c) i body)) = _
  rw [envOf_turnCtx, h.legal, inFlight_turn, awaited_turn, h.ready, debugStop_turn, h.noDebug]
  dsimp only
  congr 1
  unfold perform
  dsimp only
  rw [envOf_turnCtx, txStage_turn, h.outside, hissued]
  have hab : ∀ (st : State) (a b d : Nat), abortLanes st a b d [] = st := fun _ _ _ _ => rfl
  have hwi' : wgOf (issued (begin s c) c) (turnCtx c).wid = some (runWg s c) := hwi
  have hthr : ((runWg s c).threads[(turnCtx c).tix]?).getD (turnCtx c).th = runThread s c := by
    show ((c.wg.threads.set c.tix (runThread s c))[c.tix]?).getD _ = _
    rw [set_self_getElem? _ _ _ _ F.th]; rfl
  have hctx : Ctx.mk (turnCtx c).wid (turnCtx c).tix (turnCtx c).pix (turnCtx c).word (runWg s c) (runThread s c)
      (turnCtx c).path (turnCtx c).la (turnCtx c).act (turnCtx c).pass = runCtx s c := rfl
  simp only [List.map_nil, List.append_nil, List.nil_append, maskOf_nil, and_not_zero, hab, hwi', Option.getD_some,
    hthr, hctx, badLaneRegs_congr c (runCtx s c) _ rfl rfl, h.sound, badUniformReg_turn, h.soundUniform]
  have hcond : (decide ((turnCtx c).pass = 0) && !(runsEmpty i && (decide True && decide True || endsTx i))) = false := by
    have : (turnCtx c).pass = c.pass := rfl
    rw [this]
    rcases hp with hp | hp
    · rw [decide_eq_false hp]; simp
    · rw [hp]; simp
  have hstate : (if latches (runCtx s c) (demandsOf (envOf c) i) i = true then
      modTh (modWg (issued (begin s c) c) (turnCtx c).wid fun w => countIrrev w (turnCtx c).th.susp.isSome (turnCtx c).pass)
        (turnCtx c).wid (turnCtx c).tix fun t =>
          { t with latch := BitVec.ofNat 32 ((issued (begin s c) c).cycle / 2 ^ 32) }
    else modWg (issued (begin s c) c) (turnCtx c).wid fun w => countIrrev w (turnCtx c).th.susp.isSome (turnCtx c).pass) =
      runState s c i := by
    have h1 : (turnCtx c).th.susp = c.th.susp := takeTurn_susp c.th c.path
    have h2 : latches (runCtx s c) (demandsOf (envOf c) i) i = latches c (demandsOf (envOf c) i) i := by
      have : (runCtx s c).th.strand = c.th.strand := by
        show (takeTurn c.th c.path).strand = _
        unfold takeTurn; dsimp only; split <;> rfl
      simp only [latches, this]; rfl
    rw [h1, h2]; rfl
  rw [hcond, hstate, if_neg (by decide), if_neg (by simp), if_neg (by decide)]
  cases body (runCtx s c) (runState s c i) <;> rfl

/-! ### What follows an instruction -/

/-- A path of `m` that waits nowhere survives the completion of joins, and register contents do too. -/
theorem settleJoin_keeps (exited : Mask) (t : Thread) (n : Nat) :
    (∀ p ∈ t.paths, p.wait = .none → p ∈ (settleJoin exited t n).paths) ∧
    settleJoin exited t n = { t with jregs := (settleJoin exited t n).jregs, paths := (settleJoin exited t n).paths } ∧
    ((∀ p ∈ t.paths, ∀ n, p.wait ≠ .join n) → settleJoin exited t n = t) := by
  unfold settleJoin
  dsimp only
  split
  · exact ⟨fun p hp _ => hp, rfl, fun _ => rfl⟩
  · next h0 =>
    split
    · exact ⟨fun p hp _ => hp, rfl, fun _ => rfl⟩
    · next q hq =>
      refine ⟨fun p hp hw => ?_, rfl, fun hn => ?_⟩
      · apply List.mem_cons_of_mem
        rw [List.mem_filter]
        exact ⟨hp, by simp [hw]⟩
      · exfalso
        have h1 := List.mem_of_find?_eq_some hq
        have h2 := List.find?_some hq
        simp at h2
        exact hn q h1 n h2.1

theorem settlePaths_keeps (exited : Mask) (t : Thread) :
    (∀ p ∈ t.paths, p.wait = .none → p.mask ≠ 0 → p ∈ (settlePaths exited t).paths) ∧
    settlePaths exited t = { t with jregs := (settlePaths exited t).jregs, paths := (settlePaths exited t).paths } ∧
    ((∀ p ∈ t.paths, ∀ n, p.wait ≠ .join n) → (settlePaths exited t).jregs = t.jregs) := by
  have key : ∀ (l : List Nat) (t : Thread),
      (∀ p ∈ t.paths, p.wait = .none → p ∈ (l.foldl (settleJoin exited) t).paths) ∧
      l.foldl (settleJoin exited) t =
        { t with jregs := (l.foldl (settleJoin exited) t).jregs, paths := (l.foldl (settleJoin exited) t).paths } ∧
      ((∀ p ∈ t.paths, ∀ n, p.wait ≠ .join n) → l.foldl (settleJoin exited) t = t) := by
    intro l
    induction l with
    | nil => intro t; exact ⟨fun p hp _ => hp, rfl, fun _ => rfl⟩
    | cons n r ih =>
      intro t
      rw [List.foldl_cons]
      obtain ⟨a1, a2, a3⟩ := settleJoin_keeps exited t n
      obtain ⟨b1, b2, b3⟩ := ih (settleJoin exited t n)
      refine ⟨fun p hp hw => b1 p (a1 p hp hw) hw, ?_, fun hn => ?_⟩
      · generalize hu : r.foldl (settleJoin exited) (settleJoin exited t n) = u at *
        rw [a2] at b2
        exact b2
      · rw [a3 hn] at b3 ⊢
        exact b3 hn
  unfold settlePaths
  dsimp only
  obtain ⟨k1, k2, k3⟩ := key (List.range 16) { t with paths := t.paths.filter fun p => p.mask ≠ 0 || (p.vtext && p.parked ≠ 0) }
  refine ⟨fun p hp hw hm => k1 p ?_ hw, k2, fun hn => ?_⟩
  · show p ∈ t.paths.filter _
    rw [List.mem_filter]
    exact ⟨hp, by rw [decide_eq_true hm]; rfl⟩
  · rw [k3 fun p hp => hn p (List.mem_filter.1 hp).1]

/-- The end of an instruction that fails and aborts in no lane, with no step to take: its path moves, joins complete. -/
theorem conclude_eq {s : State} {c : Ctx} {w : Workgroup} {t : Thread} {p : Path} (move : Path → Path)
    (hw : wgOf s c.wid = some w) (ht : w.threads[c.tix]? = some t) (hp : t.paths[c.pix]? = some p)
    (hstep : stepping s w t = false) (hm : (move p).mask ≠ 0) (hwait : (move p).wait = .none) :
    conclude s c [] [] move =
      putWg (modPath (countWork s c) c.wid c.tix c.pix move) c.wid
        { w with threads := w.threads.set c.tix (settlePaths w.exited { t with paths := t.paths.set c.pix (move p) }) } := by
  have hw1 : wgOf (modPath (countWork s c) c.wid c.tix c.pix move) c.wid =
      some { w with threads := w.threads.set c.tix { t with paths := t.paths.set c.pix (move p) } } := by
    rw [wgOf_modPath_self, countWork, wgOf_modRegion, hw, Option.map_some, modify_eq_set _ _ _ _ ht,
      modify_eq_set _ _ _ _ hp]
  have hplt : c.pix < t.paths.length := (List.getElem?_eq_some_iff.1 hp).1
  have htlt : c.tix < w.threads.length := (List.getElem?_eq_some_iff.1 ht).1
  obtain ⟨k1, k2, k3⟩ := settlePaths_keeps w.exited { t with paths := t.paths.set c.pix (move p) }
  have hmem := k1 (move p) (List.mem_set hplt _) hwait hm
  have hset : settleThread (modPath (countWork s c) c.wid c.tix c.pix move) c.wid c.tix =
      putWg (modPath (countWork s c) c.wid c.tix c.pix move) c.wid
        { w with threads := w.threads.set c.tix (settlePaths w.exited { t with paths := t.paths.set c.pix (move p) }) } := by
    unfold settleThread
    rw [hw1]
    dsimp only
    rw [set_self_getElem? _ _ _ _ ht]
    dsimp only
    rw [List.set_set, if_neg]
    intro hc
    simp only [Bool.and_eq_true, decide_eq_true_eq] at hc
    rw [hc.1.1] at hmem
    simp at hmem
  have : conclude s c [] [] move = singleStep (settleThread (modPath (countWork s c) c.wid c.tix c.pix move) c.wid c.tix) c := rfl
  rw [this, hset]
  unfold singleStep
  rw [wgOf_putWg_self]
  dsimp only
  rw [set_self_getElem? _ _ _ _ ht]
  dsimp only
  rw [if_pos]
  have hslot : (settlePaths w.exited { t with paths := t.paths.set c.pix (move p) }).slot = t.slot := by rw [k2]
  have : stepping (putWg (modPath (countWork s c) c.wid c.tix c.pix move) c.wid
      { w with threads := w.threads.set c.tix (settlePaths w.exited { t with paths := t.paths.set c.pix (move p) }) })
      { w with threads := w.threads.set c.tix (settlePaths w.exited { t with paths := t.paths.set c.pix (move p) }) }
      (settlePaths w.exited { t with paths := t.paths.set c.pix (move p) }) = false := by
    rw [← hstep]
    unfold stepping
    rw [hslot]
    rfl
  rw [this]
  rfl

end Sys2Proof.Machine
end

