-- ==== Sys2Proof/Laws/Result.lean ====
section
/-! SUPPORT. The instructions that write registers alone: what the state is after them. -/

namespace Sys2Proof.Machine

/-! ### Writing a destination -/

/-- A change of registers: v and k registers, the s registers of one thread, FPFLAGS. -/
def RegChange (tix : Nat) (w w' : Workgroup) : Prop :=
  w' = { w with v := w'.v, k := w'.k, threads := w'.threads, badRegs := w'.badRegs, fpflags := w'.fpflags } ∧
  ∃ f : Tbl Dbl → Tbl Dbl, w'.threads = w.threads.modify tix fun t => { t with sregs := f t.sregs }

theorem modify_id_sregs (l : List Thread) (tix : Nat) : l.modify tix (fun t => { t with sregs := id t.sregs }) = l := by
  apply List.ext_getElem?
  intro j
  rw [List.getElem?_modify]
  cases l[j]? <;> simp

theorem RegChange.rfl' (tix : Nat) (w : Workgroup) : RegChange tix w w :=
  ⟨rfl, id, (modify_id_sregs _ _).symm⟩

theorem modify_modify {α : Type} (l : List α) (i : Nat) (f g : α → α) :
    (l.modify i f).modify i g = l.modify i fun x => g (f x) := by
  apply List.ext_getElem?
  intro j
  simp only [List.getElem?_modify]
  cases l[j]? <;> simp
  split <;> rfl

theorem RegChange.trans {tix : Nat} {a b c : Workgroup} (h1 : RegChange tix a b) (h2 : RegChange tix b c) : RegChange tix a c := by
  obtain ⟨e1, f, t1⟩ := h1
  obtain ⟨e2, g, t2⟩ := h2
  refine ⟨?_, fun x => g (f x), ?_⟩
  · rw [e1] at e2
    exact e2
  · rw [t2, t1, modify_modify]

theorem vPut_change (tix : Nat) (w : Workgroup) (l r : Nat) (x : Word) : RegChange tix w (vPut w l r x) :=
  ⟨rfl, id, (modify_id_sregs _ _).symm⟩

theorem sPut_change (tix : Nat) (w : Workgroup) (n : Nat) (x : Dbl) : RegChange tix w (sPut w tix n x) :=
  ⟨rfl, fun m => tput 0 m n x, rfl⟩

theorem kPut_change (tix : Nat) (w : Workgroup) (n l : Nat) (b : Bool) : RegChange tix w (kPut w n l b) :=
  ⟨rfl, id, (modify_id_sregs _ _).symm⟩

theorem orFlags_change (tix : Nat) (w : Workgroup) (f : FFlags) : RegChange tix w (orFlags w f) :=
  ⟨rfl, id, (modify_id_sregs _ _).symm⟩

theorem freshPred_change (tix : Nat) (w : Workgroup) (d : Opnd) (m : Mask) : RegChange tix w (freshPred w d m) := by
  unfold freshPred
  split
  · exact ⟨rfl, id, (modify_id_sregs _ _).symm⟩
  · exact RegChange.rfl' _ _

theorem writeOp_change (w : Workgroup) (tix : Nat) (d : Opnd) (wide signed : Bool) (l v : Nat) :
    RegChange tix w (writeOp w tix d wide signed l v) := by
  unfold writeOp
  dsimp only
  split
  · split
    · exact (vPut_change _ _ _ _ _).trans (vPut_change _ _ _ _ _)
    · exact vPut_change _ _ _ _ _
  · split
    · exact sPut_change _ _ _ _
    · split
      · exact kPut_change _ _ _ _ _
      · exact RegChange.rfl' _ _

/-- The result of each lane written in the lanes of a list. -/
def writeList (tix : Nat) (d : Opnd) (wide signed : Bool) (val : Nat → Nat) (ls : List Nat) (w : Workgroup) : Workgroup :=
  ls.foldl (fun w l => writeOp w tix d wide signed l (val l)) w

theorem writeList_change (tix : Nat) (d : Opnd) (wide signed : Bool) (val : Nat → Nat) (ls : List Nat) (w : Workgroup) :
    RegChange tix w (writeList tix d wide signed val ls w) := by
  unfold writeList
  induction ls generalizing w with
  | nil => exact RegChange.rfl' _ _
  | cons l t ih => exact (writeOp_change w tix d wide signed l (val l)).trans (ih _)

/-- The three classes of destination exclude each other. -/
theorem not_isS_of_isV {d : Opnd} (h : isV d = true) : isS d = false := by
  simp [isV, isS] at *; omega
theorem not_isK_of_isV {d : Opnd} (h : isV d = true) : isK d = false := by
  simp [isV, isK] at *; omega
theorem not_isV_of_isS {d : Opnd} (h : isS d = true) : isV d = false := by
  simp [isV, isS] at *; omega
theorem not_isK_of_isS {d : Opnd} (h : isS d = true) : isK d = false := by
  simp [isS, isK] at *; omega

theorem sGet_thread_v (w : Workgroup) (tix : Nat) (l r : Nat) (x : Word) : (vPut w l r x).threads[tix]? = w.threads[tix]? := rfl

/-- One lane's write of a lane register or a pair. -/
theorem writeOp_v (w : Workgroup) (tix : Nat) (d : Opnd) (wide signed : Bool) (l v l' r : Nat) (hr : r < 256)
    (hv : isV d = true) (hd : wide = true → d.toNat % 2 = 0) :
    vGet (writeOp w tix d wide signed l v) l' r =
      if l' = l ∧ r = d.toNat then BitVec.ofNat 32 v
      else if wide = true ∧ l' = l ∧ r = d.toNat + 1 then BitVec.ofNat 32 (v / 2 ^ 32) else vGet w l' r := by
  have hlt : d.toNat < 256 := by simp [isV] at hv; exact hv
  unfold writeOp
  dsimp only
  rw [if_pos hv]
  cases hw : wide
  · rw [if_neg (by decide), vGet_vPut _ _ _ _ _ _ hlt hr]
    simp
  · have := hd hw
    rw [if_pos rfl, vGet_vPut _ _ _ _ _ _ (by omega) hr, vGet_vPut _ _ _ _ _ _ hlt hr]
    by_cases h1 : l' = l ∧ r = d.toNat
    · rw [if_pos h1, if_neg (by omega), if_pos h1]
    · rw [if_neg h1]
      by_cases h2 : l' = l ∧ r = d.toNat + 1
      · rw [if_pos h2, if_neg h1, if_pos ⟨rfl, h2.1, h2.2⟩]
      · rw [if_neg h2, if_neg h1, if_neg (by simp; omega)]

theorem writeOp_v_k (w : Workgroup) (tix : Nat) (d : Opnd) (wide signed : Bool) (l v n : Nat) (hv : isV d = true) :
    kGet (writeOp w tix d wide signed l v) n = kGet w n := by
  unfold writeOp
  dsimp only
  rw [if_pos hv]
  split <;> rfl

theorem writeOp_v_threads (w : Workgroup) (tix : Nat) (d : Opnd) (wide signed : Bool) (l v : Nat) (hv : isV d = true) :
    (writeOp w tix d wide signed l v).threads = w.threads := by
  unfold writeOp
  dsimp only
  rw [if_pos hv]
  split <;> rfl

theorem writeOp_k_v (w : Workgroup) (tix : Nat) (d : Opnd) (wide signed : Bool) (l v l' r : Nat) (hv : isV d = false) :
    vGet (writeOp w tix d wide signed l v) l' r = vGet w l' r := by
  unfold writeOp
  dsimp only
  rw [hv, if_neg (by decide)]
  split
  · exact vGet_sPut _ _ _ _ _ _
  · split
    · exact vGet_kPut _ _ _ _ _ _
    · rfl

theorem writeOp_k_threads (w : Workgroup) (tix : Nat) (d : Opnd) (wide signed : Bool) (l v : Nat) (hs : isS d = false) :
    (writeOp w tix d wide signed l v).threads = w.threads := by
  unfold writeOp
  dsimp only
  split
  · split <;> rfl
  · rw [hs, if_neg (by decide)]
    split
    · exact kPut_threads _ _ _ _
    · rfl

theorem writeOp_k (w : Workgroup) (tix : Nat) (d : Opnd) (wide signed : Bool) (l v n i : Nat) (hl : l < 512)
    (hk : isK d = true) :
    (kGet (writeOp w tix d wide signed l v) n).getLsbD i =
      if d.toNat = 0x140 + n ∧ n ≠ 0 ∧ i = l then decide (v % 2 = 1) else (kGet w n).getLsbD i := by
  have hv : isV d = false := by
    cases h : isV d
    · rfl
    · rw [not_isK_of_isV h] at hk; exact Bool.noConfusion hk
  have hs : isS d = false := by
    cases h : isS d
    · rfl
    · rw [not_isK_of_isS h] at hk; exact Bool.noConfusion hk
  have hlo : 0x140 ≤ d.toNat := by simp [isK] at hk; exact hk.1
  unfold writeOp
  dsimp only
  rw [hv, hs, hk, if_neg (by decide), if_neg (by decide), if_pos rfl, kGet_kPut _ _ _ _ _ _ hl]
  by_cases h : d.toNat = 0x140 + n ∧ n ≠ 0 ∧ i = l
  · rw [if_pos h, if_pos (by omega)]
  · rw [if_neg h, if_neg (by omega)]

theorem writeOp_s_k (w : Workgroup) (tix : Nat) (d : Opnd) (wide signed : Bool) (l v n : Nat) (hk : isK d = false) :
    kGet (writeOp w tix d wide signed l v) n = kGet w n := by
  unfold writeOp
  dsimp only
  split
  · split <;> rfl
  · split
    · rfl
    · rw [hk, if_neg (by decide)]

/-! ### Lists of lanes -/

theorem writeList_v (tix : Nat) (d : Opnd) (wide signed : Bool) (val : Nat → Nat) (ls : List Nat) (w : Workgroup)
    (l r : Nat) (hr : r < 256) (hd : wide = true → isV d = true → d.toNat % 2 = 0) :
    vGet (writeList tix d wide signed val ls w) l r =
      if isV d = true ∧ l ∈ ls ∧ r = d.toNat then BitVec.ofNat 32 (val l)
      else if isV d = true ∧ wide = true ∧ l ∈ ls ∧ r = d.toNat + 1 then BitVec.ofNat 32 (val l / 2 ^ 32)
      else vGet w l r := by
  unfold writeList
  induction ls generalizing w with
  | nil => simp
  | cons x t ih =>
    rw [List.foldl_cons, ih]
    cases hv : isV d
    · simp [writeOp_k_v _ _ _ _ _ _ _ _ _ hv]
    · rw [writeOp_v _ _ _ _ _ _ _ _ _ hr hv fun hw => hd hw hv]
      by_cases hx : l = x
      · subst hx
        by_cases hr1 : r = d.toNat
        · simp [hr1]
        · by_cases hr2 : r = d.toNat + 1
          · cases wide <;> simp [hr2]
          · simp [hr1, hr2]
      · simp [hx]

theorem writeList_k (tix : Nat) (d : Opnd) (wide signed : Bool) (val : Nat → Nat) (ls : List Nat) (w : Workgroup)
    (n i : Nat) (hl : ∀ l ∈ ls, l < 512) :
    (kGet (writeList tix d wide signed val ls w) n).getLsbD i =
      if isK d = true ∧ d.toNat = 0x140 + n ∧ n ≠ 0 ∧ i ∈ ls then decide (val i % 2 = 1) else (kGet w n).getLsbD i := by
  unfold writeList
  induction ls generalizing w with
  | nil => simp
  | cons x t ih =>
    rw [List.foldl_cons, ih _ fun l hl' => hl l (List.mem_cons_of_mem _ hl')]
    cases hk : isK d
    · simp [writeOp_s_k _ _ _ _ _ _ _ _ hk]
    · rw [writeOp_k _ _ _ _ _ _ _ _ _ (hl x (by simp)) hk]
      by_cases hx : i = x
      · subst hx
        by_cases hn : d.toNat = 0x140 + n ∧ n ≠ 0
        · simp [hn]
        · rw [if_neg fun h => hn ⟨h.2.1, h.2.2.1⟩, if_neg fun h => hn ⟨h.1, h.2.1⟩, if_neg fun h => hn ⟨h.2.1, h.2.2.1⟩]
      · simp [hx]

theorem writeList_threads (tix : Nat) (d : Opnd) (wide signed : Bool) (val : Nat → Nat) (ls : List Nat) (w : Workgroup)
    (hs : isS d = false) : (writeList tix d wide signed val ls w).threads = w.threads := by
  unfold writeList
  induction ls generalizing w with
  | nil => rfl
  | cons x t ih => rw [List.foldl_cons, ih, writeOp_k_threads _ _ _ _ _ _ _ hs]

/-! ### The state that a meaning gets -/

theorem txOf_setTx (w : Workgroup) (l m : Nat) (t : LaneTx) : txOf (setTx w l t) m = if m = l then t else txOf w m := by
  simp [txOf, setTx, tget_tput]

theorem countIrrev_eq (w : Workgroup) (b : Bool) (pass : Mask) :
    countIrrev w b pass = { w with tx := (countIrrev w b pass).tx } ∧
    ∀ l, ∃ n, txOf (countIrrev w b pass) l = { txOf w l with instrs := n } := by
  unfold countIrrev
  split
  · exact ⟨rfl, fun l => ⟨(txOf w l).instrs, rfl⟩⟩
  · generalize lanesOf pass = ls
    have key : ∀ (ls : List Nat) (w : Workgroup),
        ls.foldl (fun w l => let t := txOf w l
          if t.st = .irrev then setTx w l { t with instrs := t.instrs + 1 } else w) w =
        { w with tx := (ls.foldl (fun w l => let t := txOf w l
          if t.st = .irrev then setTx w l { t with instrs := t.instrs + 1 } else w) w).tx } ∧
        ∀ l, ∃ n, txOf (ls.foldl (fun w l => let t := txOf w l
          if t.st = .irrev then setTx w l { t with instrs := t.instrs + 1 } else w) w) l = { txOf w l with instrs := n } := by
      intro ls
      induction ls with
      | nil => intro w; exact ⟨rfl, fun l => ⟨(txOf w l).instrs, rfl⟩⟩
      | cons x r ih =>
        intro w
        simp only [List.foldl_cons]
        by_cases hx : (txOf w x).st = .irrev
        · simp only [if_pos hx]
          obtain ⟨h1, h2⟩ := ih (setTx w x { txOf w x with instrs := (txOf w x).instrs + 1 })
          refine ⟨by rw [h1]; rfl, fun l => ?_⟩
          obtain ⟨n, hn⟩ := h2 l
          refine ⟨n, ?_⟩
          rw [hn, txOf_setTx]
          split
          · next h => subst h; rfl
          · rfl
        · simp only [if_neg hx]
          exact ih w
    exact key ls w

theorem countIrrev_threads (w : Workgroup) (b : Bool) (pass : Mask) : (countIrrev w b pass).threads = w.threads := by
  rw [(countIrrev_eq w b pass).1]

/-- The state that a meaning gets: the issuing thread has its turn and its last issue, irrevocable lanes are counted,
%cychi may have been latched. -/
theorem runState_facts {s : State} {i : Instr} {c : Ctx} (F : CtxFacts s i c) :
    ∃ w t, wgOf (runState s c i) c.wid = some w ∧ w.threads[c.tix]? = some t ∧
      w = { c.wg with tx := w.tx, threads := w.threads } ∧
      (∀ l, ∃ n, txOf w l = { txOf c.wg l with instrs := n }) ∧
      t = { runThread s c with latch := t.latch } ∧
      (∀ j, j ≠ c.tix → w.threads[j]? = c.wg.threads[j]?) ∧
      runState s c i = { s with wgs := (runState s c i).wgs, launches := (runState s c i).launches } ∧
      (∀ v, v ≠ c.wid → wgOf (runState s c i) v = wgOf s v) ∧
      (∀ lid, ∃ b, tfind (runState s c i).launches lid = (tfind s.launches lid).map fun la => { la with begun := b }) := by
  have hw := wgOf_issued F
  obtain ⟨e1, e2⟩ := countIrrev_eq (runWg s c) c.th.susp.isSome c.pass
  have hw2 : wgOf (modWg (issued (begin s c) c) c.wid fun w => countIrrev w c.th.susp.isSome c.pass) c.wid =
      some (countIrrev (runWg s c) c.th.susp.isSome c.pass) := by
    rw [wgOf_modWg_self, hw]; rfl
  have hth2 : (countIrrev (runWg s c) c.th.susp.isSome c.pass).threads[c.tix]? = some (runThread s c) := by
    rw [countIrrev_threads]
    exact set_self_getElem? _ _ _ _ F.th
  have hoth : ∀ j, j ≠ c.tix → (countIrrev (runWg s c) c.th.susp.isSome c.pass).threads[j]? = c.wg.threads[j]? := by
    intro j hj
    rw [countIrrev_threads]
    show (c.wg.threads.set c.tix _)[j]? = _
    rw [List.getElem?_set, if_neg (by omega)]
  have hwgs : ∀ v, v ≠ c.wid → wgOf (modWg (issued (begin s c) c) c.wid fun w => countIrrev w c.th.susp.isSome c.pass) v = wgOf s v := by
    intro v hv
    rw [wgOf_modWg, if_neg hv, issued, wgOf_modLaunch, modTh, wgOf_modWg, if_neg hv, begin, modTh, wgOf_modWg, if_neg hv]
  have hla : ∀ lid, ∃ b, tfind (issued (begin s c) c).launches lid = (tfind s.launches lid).map fun la => { la with begun := b } := by
    intro lid
    show ∃ b, tfind (tmod s.launches c.wg.lid _) lid = _
    rw [tfind_tmod]
    split
    · exact ⟨true, rfl⟩
    · cases h : tfind s.launches lid with
      | none => exact ⟨true, rfl⟩
      | some la => exact ⟨la.begun, rfl⟩
  have est : (modWg (issued (begin s c) c) c.wid fun w => countIrrev w c.th.susp.isSome c.pass) =
      { s with
        wgs := (modWg (issued (begin s c) c) c.wid fun w => countIrrev w c.th.susp.isSome c.pass).wgs
        launches := (issued (begin s c) c).launches } := rfl
  have hla' : ∀ lid, ∃ b, tfind (modWg (issued (begin s c) c) c.wid fun w => countIrrev w c.th.susp.isSome c.pass).launches lid =
      (tfind s.launches lid).map fun la => { la with begun := b } := hla
  unfold runState
  dsimp only
  generalize (modWg (issued (begin s c) c) c.wid fun w => countIrrev w c.th.susp.isSome c.pass) = R at *
  generalize countIrrev (runWg s c) c.th.susp.isSome c.pass = cw at *
  have ecw : cw = { c.wg with tx := cw.tx, threads := cw.threads } := by
    rw [e1]; rfl
  have esR : R = { s with wgs := R.wgs, launches := R.launches } := by
    rw [est]
  split
  · refine ⟨{ cw with threads := cw.threads.set c.tix { runThread s c with latch := BitVec.ofNat 32 (s.cycle / 2 ^ 32) } },
      { runThread s c with latch := BitVec.ofNat 32 (s.cycle / 2 ^ 32) }, ?_, ?_, ?_, ?_, rfl, ?_, ?_, ?_, ?_⟩
    · rw [wgOf_modTh_self, hw2, Option.map_some, modify_eq_set _ _ _ _ hth2]
    · exact set_self_getElem? _ _ _ _ hth2
    · rw [ecw]
    · exact e2
    · intro j hj
      show (List.set _ _ _)[j]? = _
      rw [List.getElem?_set, if_neg (by omega), hoth j hj]
    · rw [modTh, modWg, esR]
    · intro v hv
      rw [modTh, wgOf_modWg, if_neg hv]
      exact hwgs v hv
    · exact hla'
  · exact ⟨cw, runThread s c, hw2, hth2, ecw, e2, rfl, hoth, esR, hwgs, hla'⟩

/-! ### Instructions that write registers -/

/-- Two states that agree but for workgroups, launches and regions. -/
def SameRest (s t : State) : Prop := t = { s with wgs := t.wgs, launches := t.launches, regions := t.regions }

theorem SameRest.trans {a b c : State} (h1 : SameRest a b) (h2 : SameRest b c) : SameRest a c := by
  unfold SameRest at *
  rw [h1] at h2
  exact h2

@[simp] theorem runCtx_wid (s : State) (c : Ctx) : (runCtx s c).wid = c.wid := rfl
@[simp] theorem runCtx_tix (s : State) (c : Ctx) : (runCtx s c).tix = c.tix := rfl
@[simp] theorem runCtx_pix (s : State) (c : Ctx) : (runCtx s c).pix = c.pix := rfl
@[simp] theorem runCtx_pass (s : State) (c : Ctx) : (runCtx s c).pass = c.pass := rfl
@[simp] theorem runCtx_act (s : State) (c : Ctx) : (runCtx s c).act = c.act := rfl
@[simp] theorem runCtx_path (s : State) (c : Ctx) : (runCtx s c).path = c.path := rfl
@[simp] theorem runCtx_la (s : State) (c : Ctx) : (runCtx s c).la = c.la := rfl
@[simp] theorem runCtx_word (s : State) (c : Ctx) : (runCtx s c).word = c.word := rfl

/-- An instruction that changes registers alone. -/
theorem registers_result {s : State} {i : Instr} {c : Ctx} (h : Issues s i c) (hp : c.pass ≠ 0)
    (body : Ctx → State → Res) (G : Workgroup → Workgroup)
    (hb : body (runCtx s c) (runState s c i) = .done (modWg (runState s c i) c.wid G) [] [])
    (hG : ∀ w, RegChange c.tix w (G w)) :
    ∃ t w th w2 t2, issue i s body = .next t ∧ wgOf t c.wid = some w ∧ w.threads[c.tix]? = some th ∧
      GoesToNext c th ∧ RegistersOnly s t c w th ∧
      w2.v = c.wg.v ∧ w2.k = c.wg.k ∧ w2.fpflags = c.wg.fpflags ∧ w2.threads[c.tix]? = some t2 ∧ t2.sregs = c.th.sregs ∧
      w.v = (G w2).v ∧ w.k = (G w2).k ∧ w.fpflags = (G w2).fpflags ∧
      (G w2).threads[c.tix]? = some { t2 with sregs := th.sregs } := by
  have F := ctxOf_facts h.ctx
  obtain ⟨w2, t2, hw2, ht2, ew, htx, et, hoth, es, hwgs, hla⟩ := runState_facts F
  rw [issue_eq h (.inl hp), hb]
  generalize runState s c i = R at *
  have hwG : wgOf (modWg R c.wid G) c.wid = some (G w2) := by rw [wgOf_modWg_self, hw2]; rfl
  obtain ⟨eG, f, hf⟩ := hG w2
  have htG : (G w2).threads[c.tix]? = some { t2 with sregs := f t2.sregs } := by
    rw [hf, List.getElem?_modify, ht2]; simp
  have hpaths : t2.paths = c.th.paths := by rw [et]; simp [runThread]
  have hpG : ({ t2 with sregs := f t2.sregs } : Thread).paths[c.pix]? = some c.path := by
    show t2.paths[c.pix]? = _
    rw [hpaths]; exact F.path
  have hstep : stepping (modWg R c.wid G) (G w2) { t2 with sregs := f t2.sregs } = false := by
    rw [← h.noStep]
    unfold stepping
    have h1 : (G w2).core = c.wg.core := by rw [eG, ew]
    have h2 : ({ t2 with sregs := f t2.sregs } : Thread).slot = c.th.slot := by
      show t2.slot = _
      rw [et]; simp [runThread]
    have h3 : coreOf (modWg R c.wid G) (G w2).core = coreOf s c.wg.core := by
      rw [h1, coreOf_modWg, es]; rfl
    rw [h3, h2]
  have hm := F.mask_ne hp
  have hwn := F.wait_none
  have hc := conclude_eq (c := runCtx s c) stepPath hwG htG hpG hstep hm hwn
  simp only [runCtx_wid, runCtx_tix, runCtx_pix] at hc
  obtain ⟨k1, k2, k3⟩ := settlePaths_keeps (G w2).exited
    { t2 with sregs := f t2.sregs, paths := t2.paths.set c.pix (stepPath c.path) }
  have hplt : c.pix < t2.paths.length := by
    rw [hpaths]; exact (List.getElem?_eq_some_iff.1 F.path).1
  have kj : (∀ p ∈ c.th.paths, ∀ n, p.wait ≠ .join n) →
      (settlePaths (G w2).exited { t2 with sregs := f t2.sregs, paths := t2.paths.set c.pix (stepPath c.path) }).jregs =
        c.th.jregs := by
    intro hn
    rw [k3]
    · show t2.jregs = _
      rw [et]; simp [runThread]
    · intro p hp' n
      rcases List.mem_or_eq_of_mem_set hp' with hmem | rfl
      · rw [hpaths] at hmem; exact hn p hmem n
      · rw [show (stepPath c.path).wait = c.path.wait from rfl, hwn]; simp
  have k1' := k1 (stepPath c.path) (List.mem_set hplt _) hwn hm
  have k2' : settlePaths (G w2).exited { t2 with sregs := f t2.sregs, paths := t2.paths.set c.pix (stepPath c.path) } =
      { c.th with
        sregs := f t2.sregs
        jregs := (settlePaths (G w2).exited { t2 with sregs := f t2.sregs, paths := t2.paths.set c.pix (stepPath c.path) }).jregs
        paths := (settlePaths (G w2).exited { t2 with sregs := f t2.sregs, paths := t2.paths.set c.pix (stepPath c.path) }).paths
        run := t2.run, gave := t2.gave, turn := t2.turn, last := s.cycle, latch := t2.latch } := by
    rw [k2, et]
    simp [runThread]
  clear k1 k2 k3
  generalize settlePaths (G w2).exited { t2 with sregs := f t2.sregs, paths := t2.paths.set c.pix (stepPath c.path) } = ft at *
  have hsame : SameRest s R := by rw [SameRest, es]
  have hregion : ∀ q, regionOf (modWg R c.wid G) q = regionOf s q := by
    intro q; rw [es]; rfl
  refine ⟨conclude (modWg R c.wid G) (runCtx s c) [] [] stepPath, { G w2 with threads := (G w2).threads.set c.tix ft }, ft,
    w2, t2, rfl, ?_, ?_, ?_, ?_, ?_, ?_, ?_, ht2, ?_, rfl, rfl, rfl, ?_⟩
  · rw [hc]; exact wgOf_putWg_self _ _ _
  · exact set_self_getElem? _ _ _ _ htG
  · exact ⟨stepPath c.path, k1', rfl, rfl, rfl, rfl, hwn⟩
  · refine ⟨?_, ?_, ?_, ?_, ?_, ?_, ?_, ?_, ?_⟩
    · rw [hc]
      exact hsame.trans (b := R) (SameRest.trans (b := modWg R c.wid G) rfl (SameRest.trans (b := countWork (modWg R c.wid G) (runCtx s c)) rfl rfl))
    · intro v hv
      rw [hc, wgOf_putWg_ne _ _ hv, modPath, modTh, wgOf_modWg, if_neg hv, countWork, wgOf_modRegion, wgOf_modWg, if_neg hv]
      exact hwgs v hv
    · intro lid
      rw [hc]; exact hla lid
    · intro r
      rw [hc]
      have e : ∀ W, regionOf (putWg (modPath (countWork (modWg R c.wid G) (runCtx s c)) c.wid c.tix c.pix stepPath) c.wid W) r =
          regionOf (countWork (modWg R c.wid G) (runCtx s c)) r := fun _ => rfl
      rw [e, countWork]
      by_cases hq : r = regionOfCore (runCtx s c).wg.core
      · subst hq
        rw [regionOf_modRegion_self, hregion]
        exact ⟨_, rfl⟩
      · rw [regionOf_modRegion_ne _ _ hq, hregion]
        exact ⟨(regionOf s r).workOf, rfl⟩
    · rw [eG, ew]
    · intro l
      obtain ⟨n, hn⟩ := htx l
      refine ⟨n, ?_⟩
      rw [← hn]
      show tget {} (G w2).tx l = tget {} w2.tx l
      rw [eG]
    · intro j hj
      show ((G w2).threads.set c.tix _)[j]? = _
      rw [List.getElem?_set, if_neg (by omega), hf, List.getElem?_modify, hoth j hj]
      cases c.wg.threads[j]? <;> simp
      omega
    · rw [k2']
    · exact kj
  · rw [ew]
  · rw [ew]
  · rw [ew]
  · rw [et]; simp [runThread]
  · rw [htG, k2']

theorem kPut_fpflags (w : Workgroup) (n l : Nat) (b : Bool) : (kPut w n l b).fpflags = w.fpflags := rfl

@[simp] theorem freshPred_v (w : Workgroup) (d : Opnd) (m : Mask) : (freshPred w d m).v = w.v := by unfold freshPred; split <;> rfl
@[simp] theorem freshPred_k (w : Workgroup) (d : Opnd) (m : Mask) : (freshPred w d m).k = w.k := by unfold freshPred; split <;> rfl
@[simp] theorem freshPred_threads (w : Workgroup) (d : Opnd) (m : Mask) : (freshPred w d m).threads = w.threads := by
  unfold freshPred; split <;> rfl
@[simp] theorem freshPred_fpflags (w : Workgroup) (d : Opnd) (m : Mask) : (freshPred w d m).fpflags = w.fpflags := by
  unfold freshPred; split <;> rfl
@[simp] theorem vGet_freshPred (w : Workgroup) (d : Opnd) (m : Mask) (l r : Nat) : vGet (freshPred w d m) l r = vGet w l r := by
  simp [vGet]
@[simp] theorem kGet_freshPred (w : Workgroup) (d : Opnd) (m : Mask) (n : Nat) : kGet (freshPred w d m) n = kGet w n := by
  simp [kGet]

/-- What `eachLane` does to a workgroup. -/
def laneWrites (c : Ctx) (d : Opnd) (wide signed : Bool) (val : Nat → Nat) (w : Workgroup) : Workgroup :=
  if isS d then writeOp w c.tix d wide signed 0 (val (lowestLane c.pass))
  else freshPred (writeList c.tix d wide signed val (lanesOf c.pass) w) d c.pass

theorem laneWrites_change (c : Ctx) (d : Opnd) (wide signed : Bool) (val : Nat → Nat) (w : Workgroup) :
    RegChange c.tix w (laneWrites c d wide signed val w) := by
  unfold laneWrites
  split
  · exact writeOp_change _ _ _ _ _ _ _
  · exact (writeList_change _ _ _ _ _ _ _).trans (freshPred_change _ _ _ _)

/-- The registers after it. -/
theorem laneWrites_wrote (c : Ctx) (d : Opnd) (wide signed : Bool) (val : Nat → Nat) {w w' w2 : Workgroup} {th t2 : Thread}
    (hd : wide = true → isV d = true → d.toNat % 2 = 0)
    (hv : w2.v = c.wg.v) (hk : w2.k = c.wg.k) (ht : w2.threads[c.tix]? = some t2) (hs : t2.sregs = c.th.sregs)
    (hw : w' = laneWrites c d wide signed val w2) (ev : w.v = w'.v) (ek : w.k = w'.k)
    (eth : w'.threads[c.tix]? = some { t2 with sregs := th.sregs }) :
    Wrote c d wide signed val w th := by
  have gv : ∀ l r, vGet w l r = vGet w' l r := fun l r => by simp only [vGet, ev]
  have gk : ∀ n, kGet w n = kGet w' n := fun n => by simp only [kGet, ek]
  have gv2 : ∀ l r, vGet w2 l r = vGet c.wg l r := fun l r => by simp only [vGet, hv]
  have gk2 : ∀ n, kGet w2 n = kGet c.wg n := fun n => by simp only [kGet, hk]
  refine ⟨fun l r hr => ?_, fun n => ?_, fun n l => ?_⟩
  · rw [gv, hw, laneWrites]
    cases hS : isS d
    · rw [if_neg (by decide), vGet_freshPred, writeList_v _ _ _ _ _ _ _ _ _ hr hd, gv2]
      simp only [mem_lanesOf]
    · rw [if_pos rfl, writeOp_k_v _ _ _ _ _ _ _ _ _ (not_isV_of_isS hS), not_isV_of_isS hS, gv2]
      simp
  · cases hS : isS d
    · rw [if_neg (by simp)]
      rw [hw, laneWrites, hS, if_neg (by decide), freshPred_threads, writeList_threads _ _ _ _ _ _ _ hS, ht] at eth
      have := congrArg (Option.map Thread.sregs) eth
      simp only [Option.map_some, Option.some.injEq] at this
      simp only [sGet, ← this, hs]
    · have hV := not_isV_of_isS hS
      rw [hw, laneWrites, hS, if_pos rfl, writeOp] at eth
      simp only [hV, hS, if_true, Bool.false_eq_true, if_false, sPut, List.getElem?_modify, ht] at eth
      have := congrArg (Option.map Thread.sregs) eth
      simp only [Option.map_eq_map, Option.map_some, Option.some.injEq] at this
      have hlo : 0x100 ≤ d.toNat := by simp [isS] at hS; exact hS.1
      simp only [sGet, ← this, tget_tput, hs]
      by_cases hn : d.toNat = 0x100 + n
      · rw [if_pos (show n = d.toNat - 256 by omega), if_pos (show True ∧ d.toNat = 0x100 + n from ⟨trivial, hn⟩)]
      · rw [if_neg (show ¬n = d.toNat - 256 by omega), if_neg (show ¬(True ∧ d.toNat = 0x100 + n) from fun h => hn h.2)]
  · rw [gk, hw, laneWrites]
    cases hS : isS d
    · rw [if_neg (by decide), kGet_freshPred, writeList_k _ _ _ _ _ _ _ _ _ (fun x hx => ?_), gk2]
      · simp only [mem_lanesOf]
      · rw [mem_lanesOf] at hx
        apply Nat.lt_of_not_le
        intro hc
        rw [BitVec.getLsbD_of_ge _ _ hc] at hx
        exact Bool.noConfusion hx
    · rw [if_pos rfl, writeOp_s_k _ _ _ _ _ _ _ _ (not_isK_of_isS hS), not_isK_of_isS hS, gk2]
      simp

/-- An instruction whose meaning writes the value `val` of each passing lane, with flags. -/
theorem flagged_result {s : State} {i : Instr} {c : Ctx} (h : Issues s i c) (hp : c.pass ≠ 0)
    (body : Ctx → State → Res) (d : Opnd) (wide signed : Bool) (val : Nat → Nat) (flags : FFlags)
    (hd : wide = true → isV d = true → d.toNat % 2 = 0)
    (hb : body (runCtx s c) (runState s c i) =
      .done (modWg (runState s c i) c.wid fun w => orFlags (laneWrites c d wide signed val w) flags) [] []) :
    LaneResult s c d wide signed val flags (issue i s body) := by
  obtain ⟨t, w, th, w2, t2, h1, h2, h3, h4, h5, e1, e2, e3, e4, e5, e6, e7, e8, e9⟩ :=
    registers_result h hp body _ hb fun w => (laneWrites_change c d wide signed val w).trans (orFlags_change _ _ _)
  refine ⟨t, w, th, h1, h2, h3, ?_, ?_, h4, h5⟩
  · exact laneWrites_wrote c d wide signed val hd e1 e2 e4 e5 rfl e6 e7 e9
  · rw [e8]
    show (laneWrites c d wide signed val w2).fpflags ||| flags = _
    have : (laneWrites c d wide signed val w2).fpflags = w2.fpflags := by
      unfold laneWrites
      have op : ∀ (w : Workgroup) l v, (writeOp w c.tix d wide signed l v).fpflags = w.fpflags := by
        intro w l v
        unfold writeOp
        dsimp only
        split
        · split <;> rfl
        · split
          · rfl
          · split
            · exact kPut_fpflags _ _ _ _
            · rfl
      split
      · exact op _ _ _
      · rw [freshPred_fpflags]
        unfold writeList
        generalize lanesOf c.pass = ls
        induction ls generalizing w2 with
        | nil => rfl
        | cons x r ih =>
          rw [List.foldl_cons]
          have key : ∀ (r : List Nat) (w : Workgroup),
              (r.foldl (fun w l => writeOp w c.tix d wide signed l (val l)) w).fpflags = w.fpflags := by
            intro r
            induction r with
            | nil => intro w; rfl
            | cons y r ih => intro w; rw [List.foldl_cons, ih, op]
          rw [key, op]
    rw [this, e3]

theorem orFlags_zero (w : Workgroup) : orFlags w 0 = w := by
  unfold orFlags
  have : w.fpflags ||| 0 = w.fpflags := by simp
  rw [this]

/-- An instruction whose meaning writes the value `val` of each passing lane. -/
theorem lane_result {s : State} {i : Instr} {c : Ctx} (h : Issues s i c) (hp : c.pass ≠ 0)
    (body : Ctx → State → Res) (d : Opnd) (wide signed : Bool) (val : Nat → Nat)
    (hd : wide = true → isV d = true → d.toNat % 2 = 0)
    (hb : body (runCtx s c) (runState s c i) = .done (eachLane (runCtx s c) (runState s c i) d wide signed val) [] []) :
    LaneResult s c d wide signed val 0 (issue i s body) := by
  apply flagged_result h hp body d wide signed val 0 hd
  rw [hb]
  simp only [orFlags_zero]
  rfl

end Sys2Proof.Machine
end

