-- ==== Sys2Proof/Laws/Ends.lean ====
section
/-! SUPPORT. The completion of an instruction whose meaning has any effect on the state, once for all such
instructions: `done_ends`, and `kept_of_thread` for effects that leave the issuing thread alone. -/

namespace Sys2Proof.Machine

/-- An effect that ends there: the instruction completes. -/
theorem conclude_ends {s' : State} {c : Ctx} (hk : Kept s' c) (hm : c.path.mask ≠ 0) :
    Ends s' (conclude s' c [] [] stepPath) c := by
  obtain ⟨w, t, p, hw, ht, hp, e1, e2, e3, e4, e5, hs⟩ := hk
  have hmp : (stepPath p).mask ≠ 0 := by show p.mask ≠ 0; rw [e1]; exact hm
  have hc := conclude_eq (c := c) stepPath hw ht hp hs hmp e5
  obtain ⟨k1, k2, -⟩ := settlePaths_keeps w.exited { t with paths := t.paths.set c.pix (stepPath p) }
  have hplt : c.pix < t.paths.length := (List.getElem?_eq_some_iff.1 hp).1
  have k1' := k1 (stepPath p) (List.mem_set hplt _) e5 hmp
  rw [hc]
  refine ⟨rfl, fun v hv => ?_, fun r => ?_, w, t,
    { w with threads := w.threads.set c.tix (settlePaths w.exited { t with paths := t.paths.set c.pix (stepPath p) }) },
    settlePaths w.exited { t with paths := t.paths.set c.pix (stepPath p) }, hw, ht, wgOf_putWg_self _ _ _,
    set_self_getElem? _ _ _ _ ht, rfl, fun j hj => ?_, ?_, stepPath p, k1', e1, ?_, e3, e4, e5⟩
  · rw [wgOf_putWg_ne _ _ hv, modPath, modTh, wgOf_modWg, if_neg hv, countWork, wgOf_modRegion]
  · change ∃ x, regionOf (countWork s' c) r = { regionOf s' r with workOf := x }
    rw [countWork]
    by_cases h : r = regionOfCore c.wg.core
    · subst h; rw [regionOf_modRegion_self]; exact ⟨_, rfl⟩
    · rw [regionOf_modRegion_ne _ _ h]; exact ⟨_, rfl⟩
  · show (w.threads.set c.tix _)[j]? = _
    rw [List.getElem?_set, if_neg (by omega)]
  · exact k2
  · show p.pc + 1 = _
    rw [e2]

/-- An instruction whose meaning makes `s'` of the state completes in `s'`. -/
theorem done_ends {s : State} {i : Instr} {c : Ctx} (h : Issues s i c) (hp : c.pass ≠ 0 ∨ runsEmpty i = true)
    (hm : c.path.mask ≠ 0) (body : Ctx → State → Res) (s' : State)
    (hb : body (runCtx s c) (runState s c i) = .done s' [] []) (hk : Kept s' c) :
    ∃ t, issue i s body = .next t ∧ Ends s' t c := by
  rw [issue_eq h hp, hb]
  exact ⟨_, rfl, conclude_ends (c := runCtx s c) hk hm⟩

/-- The state a meaning gets still holds the issuing path. -/
theorem kept_runState {s : State} {i : Instr} {c : Ctx} (h : Issues s i c) : Kept (runState s c i) c := by
  have F := ctxOf_facts h.ctx
  obtain ⟨w2, t2, hw2, ht2, ew, -, et, -, es, -, -⟩ := runState_facts F
  have hpaths : t2.paths = c.th.paths := by rw [et]; simp [runThread]
  refine ⟨w2, t2, c.path, hw2, ht2, by rw [hpaths]; exact F.path, rfl, rfl, rfl, rfl, F.wait_none, ?_⟩
  rw [← h.noStep]
  unfold stepping
  have h1 : w2.core = c.wg.core := by rw [ew]
  have h2 : t2.slot = c.th.slot := by rw [et]; simp [runThread]
  have h3 : coreOf (runState s c i) c.wg.core = coreOf s c.wg.core := by rw [es]; rfl
  rw [h1, h2, h3]

/-- An effect that keeps the thread's paths and slot, the workgroup's core and the core's debug register keeps the
issuing path. -/
theorem Kept.trans {s1 s2 : State} {c : Ctx} (h : Kept s1 c)
    (hw : ∀ w t, wgOf s1 c.wid = some w → w.threads[c.tix]? = some t →
      ∃ w' t', wgOf s2 c.wid = some w' ∧ w'.threads[c.tix]? = some t' ∧ t'.paths = t.paths ∧ t'.slot = t.slot ∧
        w'.core = w.core ∧ (coreOf s2 w.core).dbg = (coreOf s1 w.core).dbg) : Kept s2 c := by
  obtain ⟨w, t, p, h1, h2, h3, e1, e2, e3, e4, e5, e6⟩ := h
  obtain ⟨w', t', f1, f2, f3, f4, f5, f6⟩ := hw w t h1 h2
  refine ⟨w', t', p, f1, f2, by rw [f3]; exact h3, e1, e2, e3, e4, e5, ?_⟩
  rw [← e6]
  unfold stepping
  rw [f5, f4, f6]

end Sys2Proof.Machine
end

