-- ==== Sys2Proof/Laws/PerInstr.lean ====
section
/-! SUPPORT. Statements about every instruction, one lemma for each constructor. -/

namespace Sys2Proof.Laws

/-- The encoder gives a word for exactly the instructions that are words: those of T-form, V-form and slots (R93, R217);
an event has none. -/
def HasWord.Statement (i : Instr) : Prop := Machine.isWordInstr i = ((encodeTV i).isSome || (encodeSlot i).isSome)

end Sys2Proof.Laws

open Sys2Proof Sys2Proof.Laws

theorem Sys2Proof.Laws.HasWord.nop (f : FmtA) : HasWord.Statement (.nop f) := rfl
theorem Sys2Proof.Laws.HasWord.add (f : FmtA) : HasWord.Statement (.add f) := rfl
theorem Sys2Proof.Laws.HasWord.sub (f : FmtA) : HasWord.Statement (.sub f) := rfl
theorem Sys2Proof.Laws.HasWord.mul (f : FmtA) : HasWord.Statement (.mul f) := rfl
theorem Sys2Proof.Laws.HasWord.mulhi (f : FmtA) : HasWord.Statement (.mulhi f) := rfl
theorem Sys2Proof.Laws.HasWord.mad (f : FmtA) : HasWord.Statement (.mad f) := rfl
theorem Sys2Proof.Laws.HasWord.div (f : FmtA) : HasWord.Statement (.div f) := rfl
theorem Sys2Proof.Laws.HasWord.rem (f : FmtA) : HasWord.Statement (.rem f) := rfl
theorem Sys2Proof.Laws.HasWord.min (f : FmtA) : HasWord.Statement (.min f) := rfl
theorem Sys2Proof.Laws.HasWord.max (f : FmtA) : HasWord.Statement (.max f) := rfl
theorem Sys2Proof.Laws.HasWord.abs (f : FmtA) : HasWord.Statement (.abs f) := rfl
theorem Sys2Proof.Laws.HasWord.neg (f : FmtA) : HasWord.Statement (.neg f) := rfl
theorem Sys2Proof.Laws.HasWord.and (f : FmtA) : HasWord.Statement (.and f) := rfl
theorem Sys2Proof.Laws.HasWord.or (f : FmtA) : HasWord.Statement (.or f) := rfl
theorem Sys2Proof.Laws.HasWord.xor (f : FmtA) : HasWord.Statement (.xor f) := rfl
theorem Sys2Proof.Laws.HasWord.andn (f : FmtA) : HasWord.Statement (.andn f) := rfl
theorem Sys2Proof.Laws.HasWord.not (f : FmtA) : HasWord.Statement (.not f) := rfl
theorem Sys2Proof.Laws.HasWord.shl (f : FmtA) : HasWord.Statement (.shl f) := rfl
theorem Sys2Proof.Laws.HasWord.shr (f : FmtA) : HasWord.Statement (.shr f) := rfl
theorem Sys2Proof.Laws.HasWord.sar (f : FmtA) : HasWord.Statement (.sar f) := rfl
theorem Sys2Proof.Laws.HasWord.rol (f : FmtA) : HasWord.Statement (.rol f) := rfl
theorem Sys2Proof.Laws.HasWord.bfe (f : FmtA) : HasWord.Statement (.bfe f) := rfl
theorem Sys2Proof.Laws.HasWord.bfi (f : FmtA) : HasWord.Statement (.bfi f) := rfl
theorem Sys2Proof.Laws.HasWord.popc (f : FmtA) : HasWord.Statement (.popc f) := rfl
theorem Sys2Proof.Laws.HasWord.clz (f : FmtA) : HasWord.Statement (.clz f) := rfl
theorem Sys2Proof.Laws.HasWord.ctz (f : FmtA) : HasWord.Statement (.ctz f) := rfl
theorem Sys2Proof.Laws.HasWord.brev (f : FmtA) : HasWord.Statement (.brev f) := rfl
theorem Sys2Proof.Laws.HasWord.sel (f : FmtA) : HasWord.Statement (.sel f) := rfl
theorem Sys2Proof.Laws.HasWord.mov (f : FmtA) : HasWord.Statement (.mov f) := rfl
theorem Sys2Proof.Laws.HasWord.cmp (f : FmtA) : HasWord.Statement (.cmp f) := rfl
theorem Sys2Proof.Laws.HasWord.movi (f : FmtI) : HasWord.Statement (.movi f) := rfl
theorem Sys2Proof.Laws.HasWord.moviLabel (f : FmtI) : HasWord.Statement (.moviLabel f) := rfl
theorem Sys2Proof.Laws.HasWord.movhi (f : FmtI) : HasWord.Statement (.movhi f) := rfl
theorem Sys2Proof.Laws.HasWord.addi (f : FmtI) : HasWord.Statement (.addi f) := rfl
theorem Sys2Proof.Laws.HasWord.andi (f : FmtI) : HasWord.Statement (.andi f) := rfl
theorem Sys2Proof.Laws.HasWord.ori (f : FmtI) : HasWord.Statement (.ori f) := rfl
theorem Sys2Proof.Laws.HasWord.xori (f : FmtI) : HasWord.Statement (.xori f) := rfl
theorem Sys2Proof.Laws.HasWord.cmpiSigned (f : FmtI) : HasWord.Statement (.cmpiSigned f) := rfl
theorem Sys2Proof.Laws.HasWord.cmpiUnsigned (f : FmtI) : HasWord.Statement (.cmpiUnsigned f) := rfl
theorem Sys2Proof.Laws.HasWord.cmpiEquality (f : FmtI) : HasWord.Statement (.cmpiEquality f) := rfl
theorem Sys2Proof.Laws.HasWord.lea (f : FmtI) : HasWord.Statement (.lea f) := rfl
theorem Sys2Proof.Laws.HasWord.pand (f : FmtA) : HasWord.Statement (.pand f) := rfl
theorem Sys2Proof.Laws.HasWord.por (f : FmtA) : HasWord.Statement (.por f) := rfl
theorem Sys2Proof.Laws.HasWord.pxor (f : FmtA) : HasWord.Statement (.pxor f) := rfl
theorem Sys2Proof.Laws.HasWord.pnot (f : FmtA) : HasWord.Statement (.pnot f) := rfl
theorem Sys2Proof.Laws.HasWord.shfl (f : FmtA) : HasWord.Statement (.shfl f) := rfl
theorem Sys2Proof.Laws.HasWord.vote (f : FmtA) : HasWord.Statement (.vote f) := rfl
theorem Sys2Proof.Laws.HasWord.redux (f : FmtA) : HasWord.Statement (.redux f) := rfl
theorem Sys2Proof.Laws.HasWord.bcast (f : FmtA) : HasWord.Statement (.bcast f) := rfl
theorem Sys2Proof.Laws.HasWord.popk (f : FmtA) : HasWord.Statement (.popk f) := rfl
theorem Sys2Proof.Laws.HasWord.fadd (f : FmtA) : HasWord.Statement (.fadd f) := rfl
theorem Sys2Proof.Laws.HasWord.fsub (f : FmtA) : HasWord.Statement (.fsub f) := rfl
theorem Sys2Proof.Laws.HasWord.fmul (f : FmtA) : HasWord.Statement (.fmul f) := rfl
theorem Sys2Proof.Laws.HasWord.fma (f : FmtA) : HasWord.Statement (.fma f) := rfl
theorem Sys2Proof.Laws.HasWord.fdiv (f : FmtA) : HasWord.Statement (.fdiv f) := rfl
theorem Sys2Proof.Laws.HasWord.fmin (f : FmtA) : HasWord.Statement (.fmin f) := rfl
theorem Sys2Proof.Laws.HasWord.fmax (f : FmtA) : HasWord.Statement (.fmax f) := rfl
theorem Sys2Proof.Laws.HasWord.fabs (f : FmtA) : HasWord.Statement (.fabs f) := rfl
theorem Sys2Proof.Laws.HasWord.fneg (f : FmtA) : HasWord.Statement (.fneg f) := rfl
theorem Sys2Proof.Laws.HasWord.fcmp (f : FmtA) : HasWord.Statement (.fcmp f) := rfl
theorem Sys2Proof.Laws.HasWord.frcp (f : FmtA) : HasWord.Statement (.frcp f) := rfl
theorem Sys2Proof.Laws.HasWord.frsq (f : FmtA) : HasWord.Statement (.frsq f) := rfl
theorem Sys2Proof.Laws.HasWord.fsqrt (f : FmtA) : HasWord.Statement (.fsqrt f) := rfl
theorem Sys2Proof.Laws.HasWord.fexp2 (f : FmtA) : HasWord.Statement (.fexp2 f) := rfl
theorem Sys2Proof.Laws.HasWord.flog2 (f : FmtA) : HasWord.Statement (.flog2 f) := rfl
theorem Sys2Proof.Laws.HasWord.fsinpi (f : FmtA) : HasWord.Statement (.fsinpi f) := rfl
theorem Sys2Proof.Laws.HasWord.fcospi (f : FmtA) : HasWord.Statement (.fcospi f) := rfl
theorem Sys2Proof.Laws.HasWord.ftanh (f : FmtA) : HasWord.Statement (.ftanh f) := rfl
theorem Sys2Proof.Laws.HasWord.cvt (f : FmtA) : HasWord.Statement (.cvt f) := rfl
theorem Sys2Proof.Laws.HasWord.pack (f : FmtA) : HasWord.Statement (.pack f) := rfl
theorem Sys2Proof.Laws.HasWord.unpack (f : FmtA) : HasWord.Statement (.unpack f) := rfl
theorem Sys2Proof.Laws.HasWord.dot2 (f : FmtA) : HasWord.Statement (.dot2 f) := rfl
theorem Sys2Proof.Laws.HasWord.dot4 (f : FmtA) : HasWord.Statement (.dot4 f) := rfl
theorem Sys2Proof.Laws.HasWord.ld (f : FmtM) : HasWord.Statement (.ld f) := rfl
theorem Sys2Proof.Laws.HasWord.loadValueReturn (wid tix fid : Nat) : HasWord.Statement (.loadValueReturn wid tix fid) := rfl
theorem Sys2Proof.Laws.HasWord.st (f : FmtM) : HasWord.Statement (.st f) := rfl
theorem Sys2Proof.Laws.HasWord.atom (f : FmtMA) : HasWord.Statement (.atom f) := rfl
theorem Sys2Proof.Laws.HasWord.red (f : FmtMA) : HasWord.Statement (.red f) := rfl
theorem Sys2Proof.Laws.HasWord.prefetch (f : FmtM) : HasWord.Statement (.prefetch f) := rfl
theorem Sys2Proof.Laws.HasWord.cctlFlush (f : FmtA) : HasWord.Statement (.cctlFlush f) := rfl
theorem Sys2Proof.Laws.HasWord.cctlInv (f : FmtA) : HasWord.Statement (.cctlInv f) := rfl
theorem Sys2Proof.Laws.HasWord.fence (f : FmtM) : HasWord.Statement (.fence f) := rfl
theorem Sys2Proof.Laws.HasWord.barInit (f : FmtA) : HasWord.Statement (.barInit f) := rfl
theorem Sys2Proof.Laws.HasWord.barArrive (f : FmtA) : HasWord.Statement (.barArrive f) := rfl
theorem Sys2Proof.Laws.HasWord.barWait (f : FmtA) : HasWord.Statement (.barWait f) := rfl
theorem Sys2Proof.Laws.HasWord.barSync (f : FmtA) : HasWord.Statement (.barSync f) := rfl
theorem Sys2Proof.Laws.HasWord.gbar (f : FmtM) : HasWord.Statement (.gbar f) := rfl
theorem Sys2Proof.Laws.HasWord.gbarPhaseComplete (wid tix lane : Nat) : HasWord.Statement (.gbarPhaseComplete wid tix lane) := rfl
theorem Sys2Proof.Laws.HasWord.txbegin (f : FmtB) : HasWord.Statement (.txbegin f) := rfl
theorem Sys2Proof.Laws.HasWord.txend (f : FmtA) : HasWord.Statement (.txend f) := rfl
theorem Sys2Proof.Laws.HasWord.txCommit (wid lane : Nat) : HasWord.Statement (.txCommit wid lane) := rfl
theorem Sys2Proof.Laws.HasWord.commitLockTimeout (wid lane : Nat) : HasWord.Statement (.commitLockTimeout wid lane) := rfl
theorem Sys2Proof.Laws.HasWord.txabort (f : FmtA) : HasWord.Statement (.txabort f) := rfl
theorem Sys2Proof.Laws.HasWord.txtest (f : FmtA) : HasWord.Statement (.txtest f) := rfl
theorem Sys2Proof.Laws.HasWord.txWatchdog (wid lane : Nat) : HasWord.Statement (.txWatchdog wid lane) := rfl
theorem Sys2Proof.Laws.HasWord.bra (f : FmtB) : HasWord.Statement (.bra f) := rfl
theorem Sys2Proof.Laws.HasWord.split (f : FmtB) : HasWord.Statement (.split f) := rfl
theorem Sys2Proof.Laws.HasWord.join (f : FmtB) : HasWord.Statement (.join f) := rfl
theorem Sys2Proof.Laws.HasWord.call (f : FmtB) : HasWord.Statement (.call f) := rfl
theorem Sys2Proof.Laws.HasWord.ret (f : FmtB) : HasWord.Statement (.ret f) := rfl
theorem Sys2Proof.Laws.HasWord.yield (f : FmtB) : HasWord.Statement (.yield f) := rfl
theorem Sys2Proof.Laws.HasWord.sleep (f : FmtB) : HasWord.Statement (.sleep f) := rfl
theorem Sys2Proof.Laws.HasWord.sleepExpire (wid tix lane : Nat) : HasWord.Statement (.sleepExpire wid tix lane) := rfl
theorem Sys2Proof.Laws.HasWord.exit (f : FmtB) : HasWord.Statement (.exit f) := rfl
theorem Sys2Proof.Laws.HasWord.workgroupRetire (wid : Nat) : HasWord.Statement (.workgroupRetire wid) := rfl
theorem Sys2Proof.Laws.HasWord.mma (f : FmtX) : HasWord.Statement (.mma f) := rfl
theorem Sys2Proof.Laws.HasWord.zld (f : FmtX) : HasWord.Statement (.zld f) := rfl
theorem Sys2Proof.Laws.HasWord.zst (f : FmtX) : HasWord.Statement (.zst f) := rfl
theorem Sys2Proof.Laws.HasWord.zrd (f : FmtX) : HasWord.Statement (.zrd f) := rfl
theorem Sys2Proof.Laws.HasWord.zwr (f : FmtX) : HasWord.Statement (.zwr f) := rfl
theorem Sys2Proof.Laws.HasWord.zclr (f : FmtX) : HasWord.Statement (.zclr f) := rfl
theorem Sys2Proof.Laws.HasWord.cbld (f : FmtX) : HasWord.Statement (.cbld f) := rfl
theorem Sys2Proof.Laws.HasWord.matrixTokenComplete (wid : Nat) : HasWord.Statement (.matrixTokenComplete wid) := rfl
theorem Sys2Proof.Laws.HasWord.xfer (f : FmtC) : HasWord.Statement (.xfer f) := rfl
theorem Sys2Proof.Laws.HasWord.transferWordLand (xid pick : Nat) : HasWord.Statement (.transferWordLand xid pick) := rfl
theorem Sys2Proof.Laws.HasWord.transferAck (xid : Nat) : HasWord.Statement (.transferAck xid) := rfl
theorem Sys2Proof.Laws.HasWord.peerWordReceive (word : PeerWord) : HasWord.Statement (.peerWordReceive word) := rfl
theorem Sys2Proof.Laws.HasWord.transferStop (xid : Nat) : HasWord.Statement (.transferStop xid) := rfl
theorem Sys2Proof.Laws.HasWord.expect (f : FmtC) : HasWord.Statement (.expect f) := rfl
theorem Sys2Proof.Laws.HasWord.waitc (f : FmtC) : HasWord.Statement (.waitc f) := rfl
theorem Sys2Proof.Laws.HasWord.xstat (f : FmtC) : HasWord.Statement (.xstat f) := rfl
theorem Sys2Proof.Laws.HasWord.phase (f : FmtI) : HasWord.Statement (.phase f) := rfl
theorem Sys2Proof.Laws.HasWord.phaseClr (f : FmtI) : HasWord.Statement (.phaseClr f) := rfl
theorem Sys2Proof.Laws.HasWord.phaseOnset (owner : PhaseOwner) : HasWord.Statement (.phaseOnset owner) := rfl
theorem Sys2Proof.Laws.HasWord.phaseBurstEnd (owner : PhaseOwner) : HasWord.Statement (.phaseBurstEnd owner) := rfl
theorem Sys2Proof.Laws.HasWord.regulatorVoltageReady (region : Nat) : HasWord.Statement (.regulatorVoltageReady region) := rfl
theorem Sys2Proof.Laws.HasWord.getsr (f : FmtS) : HasWord.Statement (.getsr f) := rfl
theorem Sys2Proof.Laws.HasWord.setsr (f : FmtS) : HasWord.Statement (.setsr f) := rfl
theorem Sys2Proof.Laws.HasWord.trap (f : FmtS) : HasWord.Statement (.trap f) := rfl
theorem Sys2Proof.Laws.HasWord.brk (f : FmtS) : HasWord.Statement (.brk f) := rfl
theorem Sys2Proof.Laws.HasWord.rett (f : FmtS) : HasWord.Statement (.rett f) := rfl
theorem Sys2Proof.Laws.HasWord.rettNext (f : FmtS) : HasWord.Statement (.rettNext f) := rfl
theorem Sys2Proof.Laws.HasWord.eqp (f : FmtS) : HasWord.Statement (.eqp f) := rfl
theorem Sys2Proof.Laws.HasWord.eqpWaitLimit (wid : Nat) : HasWord.Statement (.eqpWaitLimit wid) := rfl
theorem Sys2Proof.Laws.HasWord.hop (f : FmtS) : HasWord.Statement (.hop f) := rfl
theorem Sys2Proof.Laws.HasWord.launch (f : FmtS) : HasWord.Statement (.launch f) := rfl
theorem Sys2Proof.Laws.HasWord.sNop (f : FmtSlot) : HasWord.Statement (.sNop f) := rfl
theorem Sys2Proof.Laws.HasWord.sMov (f : FmtSlot) : HasWord.Statement (.sMov f) := rfl
theorem Sys2Proof.Laws.HasWord.sAdd (f : FmtSlot) : HasWord.Statement (.sAdd f) := rfl
theorem Sys2Proof.Laws.HasWord.sSub (f : FmtSlot) : HasWord.Statement (.sSub f) := rfl
theorem Sys2Proof.Laws.HasWord.sMul (f : FmtSlot) : HasWord.Statement (.sMul f) := rfl
theorem Sys2Proof.Laws.HasWord.sMulhi (f : FmtSlot) : HasWord.Statement (.sMulhi f) := rfl
theorem Sys2Proof.Laws.HasWord.sMin (f : FmtSlot) : HasWord.Statement (.sMin f) := rfl
theorem Sys2Proof.Laws.HasWord.sMax (f : FmtSlot) : HasWord.Statement (.sMax f) := rfl
theorem Sys2Proof.Laws.HasWord.sAbs (f : FmtSlot) : HasWord.Statement (.sAbs f) := rfl
theorem Sys2Proof.Laws.HasWord.sNeg (f : FmtSlot) : HasWord.Statement (.sNeg f) := rfl
theorem Sys2Proof.Laws.HasWord.sAnd (f : FmtSlot) : HasWord.Statement (.sAnd f) := rfl
theorem Sys2Proof.Laws.HasWord.sOr (f : FmtSlot) : HasWord.Statement (.sOr f) := rfl
theorem Sys2Proof.Laws.HasWord.sXor (f : FmtSlot) : HasWord.Statement (.sXor f) := rfl
theorem Sys2Proof.Laws.HasWord.sAndn (f : FmtSlot) : HasWord.Statement (.sAndn f) := rfl
theorem Sys2Proof.Laws.HasWord.sNot (f : FmtSlot) : HasWord.Statement (.sNot f) := rfl
theorem Sys2Proof.Laws.HasWord.sShl (f : FmtSlot) : HasWord.Statement (.sShl f) := rfl
theorem Sys2Proof.Laws.HasWord.sShr (f : FmtSlot) : HasWord.Statement (.sShr f) := rfl
theorem Sys2Proof.Laws.HasWord.sSar (f : FmtSlot) : HasWord.Statement (.sSar f) := rfl
theorem Sys2Proof.Laws.HasWord.sPopc (f : FmtSlot) : HasWord.Statement (.sPopc f) := rfl
theorem Sys2Proof.Laws.HasWord.sClz (f : FmtSlot) : HasWord.Statement (.sClz f) := rfl
theorem Sys2Proof.Laws.HasWord.sCmpeq (f : FmtSlot) : HasWord.Statement (.sCmpeq f) := rfl
theorem Sys2Proof.Laws.HasWord.sCmpne (f : FmtSlot) : HasWord.Statement (.sCmpne f) := rfl
theorem Sys2Proof.Laws.HasWord.sCmplt (f : FmtSlot) : HasWord.Statement (.sCmplt f) := rfl
theorem Sys2Proof.Laws.HasWord.sCmple (f : FmtSlot) : HasWord.Statement (.sCmple f) := rfl
theorem Sys2Proof.Laws.HasWord.sCmpltu (f : FmtSlot) : HasWord.Statement (.sCmpltu f) := rfl
theorem Sys2Proof.Laws.HasWord.sCmpleu (f : FmtSlot) : HasWord.Statement (.sCmpleu f) := rfl
theorem Sys2Proof.Laws.HasWord.sDiv (f : FmtSlot) : HasWord.Statement (.sDiv f) := rfl
theorem Sys2Proof.Laws.HasWord.sRem (f : FmtSlot) : HasWord.Statement (.sRem f) := rfl
theorem Sys2Proof.Laws.HasWord.sFadd (f : FmtSlot) : HasWord.Statement (.sFadd f) := rfl
theorem Sys2Proof.Laws.HasWord.sFsub (f : FmtSlot) : HasWord.Statement (.sFsub f) := rfl
theorem Sys2Proof.Laws.HasWord.sFmul (f : FmtSlot) : HasWord.Statement (.sFmul f) := rfl
theorem Sys2Proof.Laws.HasWord.sFmin (f : FmtSlot) : HasWord.Statement (.sFmin f) := rfl
theorem Sys2Proof.Laws.HasWord.sFmax (f : FmtSlot) : HasWord.Statement (.sFmax f) := rfl
theorem Sys2Proof.Laws.HasWord.sFabs (f : FmtSlot) : HasWord.Statement (.sFabs f) := rfl
theorem Sys2Proof.Laws.HasWord.sFneg (f : FmtSlot) : HasWord.Statement (.sFneg f) := rfl
theorem Sys2Proof.Laws.HasWord.sFcmpeq (f : FmtSlot) : HasWord.Statement (.sFcmpeq f) := rfl
theorem Sys2Proof.Laws.HasWord.sFcmplt (f : FmtSlot) : HasWord.Statement (.sFcmplt f) := rfl
theorem Sys2Proof.Laws.HasWord.sFcmple (f : FmtSlot) : HasWord.Statement (.sFcmple f) := rfl
theorem Sys2Proof.Laws.HasWord.sFrcp (f : FmtSlot) : HasWord.Statement (.sFrcp f) := rfl
theorem Sys2Proof.Laws.HasWord.sFrsq (f : FmtSlot) : HasWord.Statement (.sFrsq f) := rfl
theorem Sys2Proof.Laws.HasWord.sFsqrt (f : FmtSlot) : HasWord.Statement (.sFsqrt f) := rfl
theorem Sys2Proof.Laws.HasWord.sFexp2 (f : FmtSlot) : HasWord.Statement (.sFexp2 f) := rfl
theorem Sys2Proof.Laws.HasWord.sFlog2 (f : FmtSlot) : HasWord.Statement (.sFlog2 f) := rfl
theorem Sys2Proof.Laws.HasWord.sFtanh (f : FmtSlot) : HasWord.Statement (.sFtanh f) := rfl
theorem Sys2Proof.Laws.HasWord.sCvtfi (f : FmtSlot) : HasWord.Statement (.sCvtfi f) := rfl
theorem Sys2Proof.Laws.HasWord.sCvtif (f : FmtSlot) : HasWord.Statement (.sCvtif f) := rfl
theorem Sys2Proof.Laws.HasWord.sFdiv (f : FmtSlot) : HasWord.Statement (.sFdiv f) := rfl
theorem Sys2Proof.Laws.HasWord.sMark (f : FmtSlot) : HasWord.Statement (.sMark f) := rfl
theorem Sys2Proof.Laws.HasWord.stagingSend (lid tile unit out : Nat) : HasWord.Statement (.stagingSend lid tile unit out) := rfl
theorem Sys2Proof.Laws.HasWord.routerPacket (lid tile dir : Nat) : HasWord.Statement (.routerPacket lid tile dir) := rfl
theorem Sys2Proof.Laws.HasWord.routerCreditReturn (lid tile : Nat) : HasWord.Statement (.routerCreditReturn lid tile) := rfl
theorem Sys2Proof.Laws.HasWord.unitMarkerPass (lid tile unit : Nat) : HasWord.Statement (.unitMarkerPass lid tile unit) := rfl
theorem Sys2Proof.Laws.HasWord.steerFire (lid tile unit : Nat) : HasWord.Statement (.steerFire lid tile unit) := rfl
theorem Sys2Proof.Laws.HasWord.mergeWindowTake (lid tile unit : Nat) : HasWord.Statement (.mergeWindowTake lid tile unit) := rfl
theorem Sys2Proof.Laws.HasWord.mergeEmit (lid tile unit : Nat) : HasWord.Statement (.mergeEmit lid tile unit) := rfl
theorem Sys2Proof.Laws.HasWord.repeatStore (lid tile : Nat) : HasWord.Statement (.repeatStore lid tile) := rfl
theorem Sys2Proof.Laws.HasWord.repeatEmit (lid tile : Nat) : HasWord.Statement (.repeatEmit lid tile) := rfl
theorem Sys2Proof.Laws.HasWord.addressGeneratorOffset (lid tile unit : Nat) : HasWord.Statement (.addressGeneratorOffset lid tile unit) := rfl
theorem Sys2Proof.Laws.HasWord.memoryNodeAccess (lid tile unit : Nat) : HasWord.Statement (.memoryNodeAccess lid tile unit) := rfl
theorem Sys2Proof.Laws.HasWord.memoryNodeCompletion (lid tile unit : Nat) : HasWord.Statement (.memoryNodeCompletion lid tile unit) := rfl
theorem Sys2Proof.Laws.HasWord.matrixNodeControl (lid tile : Nat) : HasWord.Statement (.matrixNodeControl lid tile) := rfl
theorem Sys2Proof.Laws.HasWord.ownerUpdate (lid tile : Nat) : HasWord.Statement (.ownerUpdate lid tile) := rfl
theorem Sys2Proof.Laws.HasWord.transferPortDescriptor (lid tile : Nat) : HasWord.Statement (.transferPortDescriptor lid tile) := rfl
theorem Sys2Proof.Laws.HasWord.transferPortExpect (lid tile : Nat) : HasWord.Statement (.transferPortExpect lid tile) := rfl
theorem Sys2Proof.Laws.HasWord.fabricLoadComplete (lid : Nat) : HasWord.Statement (.fabricLoadComplete lid) := rfl
theorem Sys2Proof.Laws.HasWord.freezeRundownEnd (lid : Nat) : HasWord.Statement (.freezeRundownEnd lid) := rfl
theorem Sys2Proof.Laws.HasWord.fabricStalled (lid : Nat) : HasWord.Statement (.fabricStalled lid) := rfl
theorem Sys2Proof.Laws.HasWord.faultExtraction (lid : Nat) : HasWord.Statement (.faultExtraction lid) := rfl
theorem Sys2Proof.Laws.HasWord.fairnessTimerExpire (wid tix : Nat) : HasWord.Statement (.fairnessTimerExpire wid tix) := rfl
theorem Sys2Proof.Laws.HasWord.fairnessOverride (wid tix : Nat) : HasWord.Statement (.fairnessOverride wid tix) := rfl
theorem Sys2Proof.Laws.HasWord.issueCycle : HasWord.Statement (.issueCycle) := rfl
theorem Sys2Proof.Laws.HasWord.coalescingEntryAgeDrain (core line : Nat) : HasWord.Statement (.coalescingEntryAgeDrain core line) := rfl
theorem Sys2Proof.Laws.HasWord.percolatorIntervalEnd (lid region measured : Nat) : HasWord.Statement (.percolatorIntervalEnd lid region measured) := rfl
theorem Sys2Proof.Laws.HasWord.hopTToVComplete (wid : Nat) : HasWord.Statement (.hopTToVComplete wid) := rfl
theorem Sys2Proof.Laws.HasWord.hopVToTComplete (wid : Nat) : HasWord.Statement (.hopVToTComplete wid) := rfl
theorem Sys2Proof.Laws.HasWord.hopIntoSArrive (wid : Nat) : HasWord.Statement (.hopIntoSArrive wid) := rfl
theorem Sys2Proof.Laws.HasWord.hopIntoSAbandon (lid : Nat) : HasWord.Statement (.hopIntoSAbandon lid) := rfl
theorem Sys2Proof.Laws.HasWord.hopRectangleTimeout (lid : Nat) : HasWord.Statement (.hopRectangleTimeout lid) := rfl
theorem Sys2Proof.Laws.HasWord.fabricLoadStream (lid : Nat) : HasWord.Statement (.fabricLoadStream lid) := rfl
theorem Sys2Proof.Laws.HasWord.gatesOpen (lid : Nat) : HasWord.Statement (.gatesOpen lid) := rfl
theorem Sys2Proof.Laws.HasWord.tileAckTimeout (lid : Nat) : HasWord.Statement (.tileAckTimeout lid) := rfl
theorem Sys2Proof.Laws.HasWord.hopOutOfS (lid : Nat) : HasWord.Statement (.hopOutOfS lid) := rfl
theorem Sys2Proof.Laws.HasWord.hopOutDrainComplete (lid : Nat) : HasWord.Statement (.hopOutDrainComplete lid) := rfl
theorem Sys2Proof.Laws.HasWord.preemptionTrigger (part : Nat) : HasWord.Statement (.preemptionTrigger part) := rfl
theorem Sys2Proof.Laws.HasWord.distributorListBlock (part : Nat) : HasWord.Statement (.distributorListBlock part) := rfl
theorem Sys2Proof.Laws.HasWord.gangPlacement (part : Nat) : HasWord.Statement (.gangPlacement part) := rfl
theorem Sys2Proof.Laws.HasWord.gangPlacementComplete (part : Nat) : HasWord.Statement (.gangPlacementComplete part) := rfl
theorem Sys2Proof.Laws.HasWord.launchBudget (lid : Nat) : HasWord.Statement (.launchBudget lid) := rfl
theorem Sys2Proof.Laws.HasWord.stripWatchWake (part : Nat) : HasWord.Statement (.stripWatchWake part) := rfl
theorem Sys2Proof.Laws.HasWord.stripArbitration (part : Nat) : HasWord.Statement (.stripArbitration part) := rfl
theorem Sys2Proof.Laws.HasWord.launchPacket (part : Nat) : HasWord.Statement (.launchPacket part) := rfl
theorem Sys2Proof.Laws.HasWord.waitPacket (part : Nat) : HasWord.Statement (.waitPacket part) := rfl
theorem Sys2Proof.Laws.HasWord.signalPacket (part : Nat) : HasWord.Statement (.signalPacket part) := rfl
theorem Sys2Proof.Laws.HasWord.copyPacket (part : Nat) : HasWord.Statement (.copyPacket part) := rfl
theorem Sys2Proof.Laws.HasWord.waitAllPacket (part : Nat) : HasWord.Statement (.waitAllPacket part) := rfl
theorem Sys2Proof.Laws.HasWord.waitConditionMet (part queue : Nat) : HasWord.Statement (.waitConditionMet part queue) := rfl
theorem Sys2Proof.Laws.HasWord.packetComplete (part queue index : Nat) : HasWord.Statement (.packetComplete part queue index) := rfl
theorem Sys2Proof.Laws.HasWord.escalationRecordWrite (part : Nat) : HasWord.Statement (.escalationRecordWrite part) := rfl
theorem Sys2Proof.Laws.HasWord.partitionApplyResources (part : Nat) : HasWord.Statement (.partitionApplyResources part) := rfl
theorem Sys2Proof.Laws.HasWord.partitionReset (part : Nat) : HasWord.Statement (.partitionReset part) := rfl
theorem Sys2Proof.Laws.HasWord.translationInvalidation (part : Nat) : HasWord.Statement (.translationInvalidation part) := rfl
theorem Sys2Proof.Laws.HasWord.badd (region : Nat) (amount : Word) : HasWord.Statement (.badd region amount) := rfl
theorem Sys2Proof.Laws.HasWord.regionStepSelect (region : Nat) : HasWord.Statement (.regionStepSelect region) := rfl
theorem Sys2Proof.Laws.HasWord.throttleStart (owner : PhaseOwner) : HasWord.Statement (.throttleStart owner) := rfl
theorem Sys2Proof.Laws.HasWord.throttleEnd (owner : PhaseOwner) : HasWord.Statement (.throttleEnd owner) := rfl
theorem Sys2Proof.Laws.HasWord.energyIntervalEnd (region energy : Nat) : HasWord.Statement (.energyIntervalEnd region energy) := rfl
theorem Sys2Proof.Laws.HasWord.escResume (part record : Nat) : HasWord.Statement (.escResume part record) := rfl
theorem Sys2Proof.Laws.HasWord.escResumeNext (part record : Nat) : HasWord.Statement (.escResumeNext part record) := rfl
theorem Sys2Proof.Laws.HasWord.escEndLaunch (part record : Nat) : HasWord.Statement (.escEndLaunch part record) := rfl
theorem Sys2Proof.Laws.HasWord.registerWrite (target : RegTarget) (value : Dbl) : HasWord.Statement (.registerWrite target value) := rfl
theorem Sys2Proof.Laws.HasWord.sharedCounterWindow (part counter used capacity : Nat) : HasWord.Statement (.sharedCounterWindow part counter used capacity) := rfl
theorem Sys2Proof.Laws.HasWord.powerOverloadResponse (above : Bool) : HasWord.Statement (.powerOverloadResponse above) := rfl
theorem Sys2Proof.Laws.HasWord.overcurrentResponse : HasWord.Statement (.overcurrentResponse) := rfl
theorem Sys2Proof.Laws.HasWord.regionStop (region : Nat) (kind : BitVec 2) : HasWord.Statement (.regionStop region kind) := rfl
theorem Sys2Proof.Laws.HasWord.regionRestart (region : Nat) (holds : Bool) : HasWord.Statement (.regionRestart region holds) := rfl
theorem Sys2Proof.Laws.HasWord.inputUndervoltage : HasWord.Statement (.inputUndervoltage) := rfl
theorem Sys2Proof.Laws.HasWord.thermalRescale (die : Nat) (capped : Bool) : HasWord.Statement (.thermalRescale die capped) := rfl
theorem Sys2Proof.Laws.HasWord.stackedDramBypass (die : Nat) (hot : Bool) : HasWord.Statement (.stackedDramBypass die hot) := rfl
theorem Sys2Proof.Laws.HasWord.hostRead (place : HostPlace) (bytes : Nat) : HasWord.Statement (.hostRead place bytes) := rfl
theorem Sys2Proof.Laws.HasWord.hostWrite (place : HostPlace) (data : List Byte) (poisoned : Bool) : HasWord.Statement (.hostWrite place data poisoned) := rfl
theorem Sys2Proof.Laws.HasWord.hostReadTimeout (wid tix lane : Nat) : HasWord.Statement (.hostReadTimeout wid tix lane) := rfl
theorem Sys2Proof.Laws.HasWord.linkDown : HasWord.Statement (.linkDown) := rfl
theorem Sys2Proof.Laws.HasWord.linkUp : HasWord.Statement (.linkUp) := rfl
theorem Sys2Proof.Laws.HasWord.flrVf (part : Nat) : HasWord.Statement (.flrVf part) := rfl
theorem Sys2Proof.Laws.HasWord.flrPf0 : HasWord.Statement (.flrPf0) := rfl
theorem Sys2Proof.Laws.HasWord.peerPortDown (port : Nat) : HasWord.Statement (.peerPortDown port) := rfl
theorem Sys2Proof.Laws.HasWord.debugResume (core slot : Nat) : HasWord.Statement (.debugResume core slot) := rfl
theorem Sys2Proof.Laws.HasWord.debugResumeNext (core slot : Nat) : HasWord.Statement (.debugResumeNext core slot) := rfl
theorem Sys2Proof.Laws.HasWord.freeze : HasWord.Statement (.freeze) := rfl
theorem Sys2Proof.Laws.HasWord.attestationRequest (part : Nat) (nonce : BitVec 384) : HasWord.Statement (.attestationRequest part nonce) := rfl
theorem Sys2Proof.Laws.HasWord.moduleReset : HasWord.Statement (.moduleReset) := rfl
theorem Sys2Proof.Laws.HasWord.powerOnBoot (images : List BootImage) (trained strips : Bool) : HasWord.Statement (.powerOnBoot images trained strips) := rfl
theorem Sys2Proof.Laws.HasWord.recoveryBoot (image : StagedImage) : HasWord.Statement (.recoveryBoot image) := rfl
theorem Sys2Proof.Laws.HasWord.softError (target : ErrorTarget) (uncorrectable : Bool) : HasWord.Statement (.softError target uncorrectable) := rfl
theorem Sys2Proof.Laws.HasWord.temperatureBandChange (region : Nat) (band : BitVec 3) : HasWord.Statement (.temperatureBandChange region band) := rfl
theorem Sys2Proof.Laws.HasWord.overcurrentRelease : HasWord.Statement (.overcurrentRelease) := rfl
theorem Sys2Proof.Laws.HasWord.peerPortUp (port : Nat) : HasWord.Statement (.peerPortUp port) := rfl
theorem Sys2Proof.Laws.HasWord.flitCrcFailure (port : Nat) (retrainingFails : Bool) : HasWord.Statement (.flitCrcFailure port retrainingFails) := rfl
theorem Sys2Proof.Laws.HasWord.peerMemoryAccess (addr : Nat) (access : PeerAccess) : HasWord.Statement (.peerMemoryAccess addr access) := rfl
end

