-- ==== Sys2Proof/Tests/Slice0.lean ====
section
/-! SUPPORT. Tests: the words of every instruction of T-form, V-form and S-form written out from the field tables of
spec/03_encoding.md and the opcode map of spec/04_opcode_map.md; ill-formed terms; concrete states that meet the
hypotheses of the statements; and results of single steps taken from the spec. -/

set_option Elab.async false

namespace Sys2Proof.Tests

open Sys2Proof.Machine

/-! ### What the witnesses are about -/

/-- The state after fetch of a word of T-form, changed by `edit`. -/
def at_ (w : Nat) (edit : State → State := id) : State :=
  match nextAct (State.reset.withFetchWord 64 w) with
  | .run _ s => edit s
  | .ended s => s

/-- Some issue of the instruction in `s` meets the hypotheses `hyp`. -/
def Meets (s : State) (i : Instr) (hyp : Ctx → Prop) : Prop := ∃ c, Issues s i c ∧ hyp c

/-- The same, as a computation. -/
def meetsB (s : State) (i : Instr) (good : Ctx → Bool) : Bool :=
  match ctxOf s i with
  | none => false
  | some c => (judge (envOf c) i).isNone && (debugStop s c i).isNone && !stepping s c.wg c.th &&
      !inFlight c (awaited s c i) && (txStage c i).1.isEmpty && (txStage c i).2.isEmpty &&
      (badLaneRegs c (demandsOf (envOf c) i)).isEmpty && (badUniformReg c (demandsOf (envOf c) i) i).isNone && good c

theorem meets_of_bool {s : State} {i : Instr} {good : Ctx → Bool} (h : meetsB s i good = true) :
    ∃ c, Issues s i c ∧ good c = true := by
  unfold meetsB at h
  split at h
  · cases h
  · rename_i c hc
    simp only [Bool.and_eq_true, Option.isNone_iff_eq_none, List.isEmpty_iff, Bool.not_eq_true'] at h
    obtain ⟨⟨⟨⟨⟨⟨⟨⟨h1, h2⟩, h3⟩, h4⟩, h5⟩, h6⟩, h7⟩, h8⟩, h9⟩ := h
    exact ⟨c, ⟨hc, h1, h2, h3, h4, Prod.ext h5 h6, h7, h8⟩, h9⟩

theorem meets_of {s : State} {i : Instr} {hyp : Ctx → Prop} [∀ c, Decidable (hyp c)]
    (h : (meetsB s i fun c => decide (hyp c)) = true) : Meets s i hyp := by
  obtain ⟨c, hc, hg⟩ := meets_of_bool h
  exact ⟨c, hc, by simpa using hg⟩

/-- Some path of `s` is about to issue the instruction and meets `hyp`; no more is known of it. -/
def Reaches (s : State) (i : Instr) (hyp : Ctx → Prop) : Prop := ∃ c, ctxOf s i = some c ∧ hyp c

theorem reaches_of {s : State} {i : Instr} {hyp : Ctx → Prop} [∀ c, Decidable (hyp c)]
    (h : ((ctxOf s i).any fun c => decide (hyp c)) = true) : Reaches s i hyp := by
  cases hc : ctxOf s i with
  | none => simp [hc] at h
  | some c => exact ⟨c, hc, by simpa [hc] using h⟩

/-- Each word of the list decodes to its instruction, which is well-formed and encodes to the word. -/
def wordsB (l : List (Nat × Instr)) : Bool :=
  l.all fun x => decide (decodeTableWord 64 x.1 = some x.2) && x.2.WellFormed && decide (encodeTV x.2 = some (BitVec.ofNat 64 x.1))

/-- Each instruction of the list issues, with passing lanes, right after reset. -/
def issueB (l : List (Nat × Instr)) : Bool :=
  l.all fun x => meetsB (at_ x.1) x.2 fun c => c.pass != 0 && c.path.mask != 0

theorem issue_all {l : List (Nat × Instr)} (h : issueB l = true) :
    ∀ x ∈ l, Meets (at_ x.1) x.2 fun c => c.pass ≠ 0 ∧ c.path.mask ≠ 0 := by
  intro x hx
  obtain ⟨c, hc, hg⟩ := meets_of_bool (List.all_eq_true.mp h x hx)
  exact ⟨c, hc, by simpa using hg⟩

/-! ### Changes to a state -/

def onWg (f : Workgroup → Workgroup) (s : State) : State := modWg s 1 f
def onTh (f : Thread → Thread) (s : State) : State := modTh s 1 0 f
def onPath (f : Path → Path) : State → State := onTh fun t => { t with paths := t.paths.map f }
def onLaunch (f : Launch → Launch) (s : State) : State := modLaunch s 0 f
/-- s registers of the issuing thread. -/
def withS (l : List (Nat × Nat)) : State → State :=
  onTh fun t => { t with sregs := l.foldl (fun m x => tset m x.1 (BitVec.ofNat 64 x.2)) t.sregs }
/-- The thread is in trap mode, for lane 0. -/
def inTrap : State → State :=
  onTh fun t => { t with susp := some { paths := t.paths, run := 0, gave := false, trapped := 0, done := 0, lanes := 1, skip := 1 } }
/-- The workgroup runs in V-form. -/
def inVForm (s : State) : State :=
  onPath (fun p => { p with vtext := true }) (onWg (fun w => { w with strand := true }) (onTh (fun t => { t with strand := true }) s))
def theWg (s : State) : Workgroup := (wgOf s 1).getD noWorkgroup
def theTh (s : State) : Thread := (theWg s).threads.getD 0 { tgix := 0 }

/-! ### Words written out from the spec -/

def integerWords : List (Nat × Instr) :=
  [(0x0000AF57ABD5E001, .nop ⟨0, 350, 350, 350, 350, 0, 0, 0⟩),
   (0x0001AF00C0401002, .add ⟨0, 1, 2, 3, 350, 1, 0, 0⟩),
   (0x0001AF40C0401903, .sub ⟨9, 1, 2, 259, 350, 1, 0, 0⟩),
   (0x0001AF00C0401004, .mul ⟨0, 1, 2, 3, 350, 1, 0, 0⟩),
   (0x0001AF00C0401005, .mulhi ⟨0, 1, 2, 3, 350, 1, 0, 0⟩),
   (0x00010200C0401006, .mad ⟨0, 1, 2, 3, 4, 1, 0, 0⟩),
   (0x0001AF00C0401007, .div ⟨0, 1, 2, 3, 350, 1, 0, 0⟩),
   (0x0002AF00C0401008, .rem ⟨0, 1, 2, 3, 350, 2, 0, 0⟩),
   (0x0001AF00C0401009, .min ⟨0, 1, 2, 3, 350, 1, 0, 0⟩),
   (0x0002AF00C040100A, .max ⟨0, 1, 2, 3, 350, 2, 0, 0⟩),
   (0x0001AF578040100B, .abs ⟨0, 1, 2, 350, 350, 1, 0, 0⟩),
   (0x0001AF578040100C, .neg ⟨0, 1, 2, 350, 350, 1, 0, 0⟩)]

theorem test_integer_words : wordsB integerWords = true := by decide +kernel

theorem test_integer_issue : ∀ x ∈ integerWords, Meets (at_ x.1) x.2 fun c => c.pass ≠ 0 ∧ c.path.mask ≠ 0 :=
  issue_all (by decide +kernel)

def logicWords : List (Nat × Instr) :=
  [(0x0002AF00C040100D, .and ⟨0, 1, 2, 3, 350, 2, 0, 0⟩),
   (0x0002AF00C040100E, .or ⟨0, 1, 2, 3, 350, 2, 0, 0⟩),
   (0x0002AF00C040100F, .xor ⟨0, 1, 2, 3, 350, 2, 0, 0⟩),
   (0x0002AF00C0401010, .andn ⟨0, 1, 2, 3, 350, 2, 0, 0⟩),
   (0x0002AF5780401011, .not ⟨0, 1, 2, 350, 350, 2, 0, 0⟩),
   (0x0002AF00C0401012, .shl ⟨0, 1, 2, 3, 350, 2, 0, 0⟩),
   (0x0002AF00C0401013, .shr ⟨0, 1, 2, 3, 350, 2, 0, 0⟩),
   (0x0001AF00C0401014, .sar ⟨0, 1, 2, 3, 350, 1, 0, 0⟩),
   (0x0002AF00C0401015, .rol ⟨0, 1, 2, 3, 350, 2, 0, 0⟩),
   (0x0001AF00C0401016, .bfe ⟨0, 1, 2, 3, 350, 1, 0, 0⟩),
   (0x00020200C0401017, .bfi ⟨0, 1, 2, 3, 4, 2, 0, 0⟩),
   (0x0002AF5780401018, .popc ⟨0, 1, 2, 350, 350, 2, 0, 0⟩),
   (0x0002AF5780401019, .clz ⟨0, 1, 2, 350, 350, 2, 0, 0⟩),
   (0x0002AF578040101A, .ctz ⟨0, 1, 2, 350, 350, 2, 0, 0⟩),
   (0x0002AF578040101B, .brev ⟨0, 1, 2, 350, 350, 2, 0, 0⟩),
   (0x0002A100C040101C, .sel ⟨0, 1, 2, 3, 322, 2, 0, 0⟩),
   (0x0002AF578040101D, .mov ⟨0, 1, 2, 350, 350, 2, 0, 0⟩),
   (0x0021AF00C054101E, .cmp ⟨0, 321, 2, 3, 350, 1, 2, 0⟩)]

theorem test_logic_words : wordsB logicWords = true := by decide +kernel

theorem test_logic_issue : ∀ x ∈ logicWords, Meets (at_ x.1) x.2 fun c => c.pass ≠ 0 ∧ c.path.mask ≠ 0 :=
  issue_all (by decide +kernel)

def immediateWords : List (Nat × Instr) :=
  [(0xFFFFFFFF2BC01020, .movi ⟨0, 1, 350, 0, 4294967295⟩),
   (0x000000406BC01020, .moviLabel ⟨0, 1, 350, 1, 64⟩),
   (0x123456782BD09021, .movhi ⟨0, 265, 350, 0, 305419896⟩),
   (0xFFFFFFF000401022, .addi ⟨0, 1, 2, 0, 4294967280⟩),
   (0x000000FF00401023, .andi ⟨0, 1, 2, 0, 255⟩),
   (0x000000FF00401024, .ori ⟨0, 1, 2, 0, 255⟩),
   (0x000000FF00401025, .xori ⟨0, 1, 2, 0, 255⟩),
   (0x8000000080541026, .cmpiSigned ⟨0, 321, 2, 2, 2147483648⟩),
   (0x00000005C0541027, .cmpiUnsigned ⟨0, 321, 2, 3, 5⟩),
   (0x0000000540541028, .cmpiEquality ⟨0, 321, 2, 1, 5⟩),
   (0x000000102BD09029, .lea ⟨0, 265, 350, 0, 16⟩)]

theorem test_immediate_words : wordsB immediateWords = true := by decide +kernel

theorem test_immediate_issue : ∀ x ∈ immediateWords, Meets (at_ x.1) x.2 fun c => c.pass ≠ 0 ∧ c.path.mask ≠ 0 :=
  issue_all (by decide +kernel)

def predicateWords : List (Nat × Instr) :=
  [(0x0000AF50E8541040, .pand ⟨0, 321, 322, 323, 350, 0, 0, 0⟩),
   (0x0000AF50E8541041, .por ⟨0, 321, 322, 323, 350, 0, 0, 0⟩),
   (0x0000AF50E8541042, .pxor ⟨0, 321, 322, 323, 350, 0, 0, 0⟩),
   (0x0000AF57A8541043, .pnot ⟨0, 321, 322, 350, 350, 0, 0, 0⟩)]

theorem test_predicate_words : wordsB predicateWords = true := by decide +kernel

theorem test_predicate_issue : ∀ x ∈ predicateWords, Meets (at_ x.1) x.2 fun c => c.pass ≠ 0 ∧ c.path.mask ≠ 0 :=
  issue_all (by decide +kernel)

def laneWords : List (Nat × Instr) :=
  [(0x0102AF00C0401044, .shfl ⟨0, 1, 2, 3, 350, 2, 0, 1⟩),
   (0x0200AF57A8509045, .vote ⟨0, 265, 322, 350, 350, 0, 0, 2⟩),
   (0x0001AF5780401046, .redux ⟨0, 1, 2, 350, 350, 1, 0, 0⟩),
   (0x0002AF40C0401047, .bcast ⟨0, 1, 2, 259, 350, 2, 0, 0⟩),
   (0x0000AF57A8509048, .popk ⟨0, 265, 322, 350, 350, 0, 0, 0⟩)]

theorem test_lane_words : wordsB laneWords = true := by decide +kernel

theorem test_lane_issue : ∀ x ∈ laneWords, Meets (at_ x.1) x.2 fun c => c.pass ≠ 0 ∧ c.path.mask ≠ 0 :=
  issue_all (by decide +kernel)

def floatingWords : List (Nat × Instr) :=
  [(0x0003AF00C0401060, .fadd ⟨0, 1, 2, 3, 350, 3, 0, 0⟩),
   (0x0003AF00C0401061, .fsub ⟨0, 1, 2, 3, 350, 3, 0, 0⟩),
   (0x0003AF00C0401062, .fmul ⟨0, 1, 2, 3, 350, 3, 0, 0⟩),
   (0x00030200C0401063, .fma ⟨0, 1, 2, 3, 4, 3, 0, 0⟩),
   (0x0003AF00C0401064, .fdiv ⟨0, 1, 2, 3, 350, 3, 0, 0⟩),
   (0x0003AF00C0401065, .fmin ⟨0, 1, 2, 3, 350, 3, 0, 0⟩),
   (0x0003AF00C0401066, .fmax ⟨0, 1, 2, 3, 350, 3, 0, 0⟩),
   (0x0003AF5780401067, .fabs ⟨0, 1, 2, 350, 350, 3, 0, 0⟩),
   (0x0003AF5780401068, .fneg ⟨0, 1, 2, 350, 350, 3, 0, 0⟩),
   (0x0073AF00C0541069, .fcmp ⟨0, 321, 2, 3, 350, 3, 7, 0⟩),
   (0x0003AF578040106A, .frcp ⟨0, 1, 2, 350, 350, 3, 0, 0⟩),
   (0x0003AF578040106B, .frsq ⟨0, 1, 2, 350, 350, 3, 0, 0⟩),
   (0x0003AF578040106C, .fsqrt ⟨0, 1, 2, 350, 350, 3, 0, 0⟩),
   (0x0003AF578040106D, .fexp2 ⟨0, 1, 2, 350, 350, 3, 0, 0⟩),
   (0x0003AF578040106E, .flog2 ⟨0, 1, 2, 350, 350, 3, 0, 0⟩),
   (0x0003AF578040106F, .fsinpi ⟨0, 1, 2, 350, 350, 3, 0, 0⟩),
   (0x0003AF5780401070, .fcospi ⟨0, 1, 2, 350, 350, 3, 0, 0⟩),
   (0x0003AF5780401071, .ftanh ⟨0, 1, 2, 350, 350, 3, 0, 0⟩)]

theorem test_floating_words : wordsB floatingWords = true := by decide +kernel

theorem test_floating_issue : ∀ x ∈ floatingWords, Meets (at_ x.1) x.2 fun c => c.pass ≠ 0 ∧ c.path.mask ≠ 0 :=
  issue_all (by decide +kernel)

def conversionWords : List (Nat × Instr) :=
  [(0x0305AF5780401072, .cvt ⟨0, 1, 2, 350, 350, 5, 0, 3⟩),
   (0x0005AF00C0401073, .pack ⟨0, 1, 2, 3, 350, 5, 0, 0⟩),
   (0x0105AF5780401074, .unpack ⟨0, 1, 2, 350, 350, 5, 0, 1⟩),
   (0x00050200C0401075, .dot2 ⟨0, 1, 2, 3, 4, 5, 0, 0⟩),
   (0x000B0200C0401076, .dot4 ⟨0, 1, 2, 3, 4, 11, 0, 0⟩)]

theorem test_conversion_words : wordsB conversionWords = true := by decide +kernel

theorem test_conversion_issue : ∀ x ∈ conversionWords, Meets (at_ x.1) x.2 fun c => c.pass ≠ 0 ∧ c.path.mask ≠ 0 :=
  issue_all (by decide +kernel)

def memoryWords : List (Nat × Instr) :=
  [(0xFF80415461001090, .ld ⟨0, 1, 264, 337, 2, 0, 0, 1, 0, 4088⟩),
   (0x7FF0415461001091, .st ⟨0, 1, 264, 337, 2, 0, 0, 1, 0, 2047⟩),
   (0x1301AF00A1003092, .atom ⟨0, 3, 264, 2, 350, 1, 0, 3, 2, 0, 0⟩),
   (0x9301AF00A115E092, .red ⟨0, 350, 264, 2, 350, 1, 0, 3, 2, 0, 1⟩),
   (0x04000057A115E093, .prefetch ⟨0, 350, 264, 350, 0, 0, 0, 0, 0, 64⟩),
   (0x0000AF426115E094, .cctlFlush ⟨0, 350, 264, 265, 350, 0, 0, 0⟩),
   (0x0100AF426115E094, .cctlInv ⟨0, 350, 264, 265, 350, 0, 0, 1⟩),
   (0x00003657ABD5E095, .fence ⟨0, 350, 350, 350, 0, 3, 3, 0, 0, 0⟩)]

theorem test_memory_words : wordsB memoryWords = true := by decide +kernel

theorem test_memory_issue : ∀ x ∈ memoryWords, Meets (at_ x.1) x.2 fun c => c.pass ≠ 0 ∧ c.path.mask ≠ 0 :=
  issue_all (by decide +kernel)

def barrierWords : List (Nat × Instr) :=
  [(0x0000AF426115E096, .barInit ⟨0, 350, 264, 265, 350, 0, 0, 0⟩),
   (0x0100AF57A110C096, .barArrive ⟨0, 268, 264, 350, 350, 0, 0, 1⟩),
   (0x0200AF42A115E096, .barWait ⟨0, 350, 264, 266, 350, 0, 0, 2⟩),
   (0x0300AF57A115E096, .barSync ⟨0, 350, 264, 350, 350, 0, 0, 3⟩),
   (0x00000057A115E097, .gbar ⟨0, 350, 264, 350, 0, 0, 0, 0, 0, 0⟩)]

theorem test_barrier_words : wordsB barrierWords = true := by decide +kernel

theorem test_barrier_issue : ∀ x ∈ barrierWords, Meets (at_ x.1) x.2 fun c => c.pass ≠ 0 ∧ c.path.mask ≠ 0 :=
  issue_all (by decide +kernel)

def transactionWords : List (Nat × Instr) :=
  [(0x0000000300401098, .txbegin ⟨0, 1, 2, 0, 0, 3⟩),
   (0x0000AF57ABD5E099, .txend ⟨0, 350, 350, 350, 350, 0, 0, 0⟩),
   (0x0000AF57A115E09A, .txabort ⟨0, 350, 264, 350, 350, 0, 0, 0⟩),
   (0x0000AF57ABC0109B, .txtest ⟨0, 1, 350, 350, 350, 0, 0, 0⟩)]

theorem test_transaction_words : wordsB transactionWords = true := by decide +kernel

theorem test_transaction_issue : ∀ x ∈ transactionWords, Meets (at_ x.1) x.2 fun c => c.pass ≠ 0 ∧ c.path.mask ≠ 0 :=
  issue_all (by decide +kernel)

def controlWords : List (Nat × Instr) :=
  [(0xFFFFFFFD1015E1B0, .bra ⟨1, 350, 0, 0, 1, 4294967293⟩),
   (0x000000040435E0B1, .split ⟨0, 350, 1, 2, 0, 4⟩),
   (0x000000000035E0B2, .join ⟨0, 350, 1, 0, 0, 0⟩),
   (0x000000050015E0B3, .call ⟨0, 350, 0, 0, 0, 5⟩),
   (0x000000000015E0B4, .ret ⟨0, 350, 0, 0, 0, 0⟩),
   (0x000000000015E0B5, .yield ⟨0, 350, 0, 0, 0, 0⟩),
   (0x00000000001080B6, .sleep ⟨0, 264, 0, 0, 0, 0⟩),
   (0x000000000015E0B7, .exit ⟨0, 350, 0, 0, 0, 0⟩)]

theorem test_control_words : wordsB controlWords = true := by decide +kernel

theorem test_control_issue : ∀ x ∈ controlWords, Meets (at_ x.1) x.2 fun c => c.pass ≠ 0 ∧ c.path.mask ≠ 0 :=
  issue_all (by decide +kernel)

def engineWords : List (Nat × Instr) :=
  [(0x000C40D7A13080C0, .mma ⟨0, 264, 265, 350, 1, 0, 8, 8, 1, 0, 0, 0, 0⟩),
   (0x00001BD7A13080C1, .zld ⟨0, 264, 265, 350, 7, 0, 3, 0, 0, 0, 0, 0, 0⟩),
   (0x00001BD7A13080C2, .zst ⟨0, 264, 265, 350, 7, 0, 3, 0, 0, 0, 0, 0, 0⟩),
   (0x000001426BC010C3, .zrd ⟨0, 1, 350, 265, 2, 0, 0, 0, 0, 0, 0, 0, 0⟩),
   (0x000001426BC010C4, .zwr ⟨0, 1, 350, 265, 2, 0, 0, 0, 0, 0, 0, 0, 0⟩),
   (0x000001D7ABD5E0C5, .zclr ⟨0, 350, 350, 350, 3, 0, 0, 0, 0, 0, 0, 0, 0⟩),
   (0x02800057ABD080C6, .cbld ⟨0, 264, 350, 350, 0, 0, 0, 0, 0, 5, 0, 0, 0⟩),
   (0x000007D7ABD080C7, .xfer ⟨0, 264, 350, 350, 15, 0⟩),
   (0x00000757ABD090C8, .expect ⟨0, 265, 350, 350, 14, 0⟩),
   (0x000001D7ABD5E0C9, .waitc ⟨0, 350, 350, 350, 3, 0⟩),
   (0x000001D7ABC010CA, .xstat ⟨0, 1, 350, 350, 3, 0⟩)]

theorem test_engine_words : wordsB engineWords = true := by decide +kernel

theorem test_engine_issue : ∀ x ∈ engineWords, Meets (at_ x.1) x.2 fun c => c.pass ≠ 0 ∧ c.path.mask ≠ 0 :=
  issue_all (by decide +kernel)

def systemWords : List (Nat × Instr) :=
  [(0x000000082155E0CB, .phase ⟨0, 350, 266, 0, 8⟩),
   (0x000000006BD5E0CB, .phaseClr ⟨0, 350, 350, 1, 0⟩),
   (0x0000040D2BC020D0, .getsr ⟨0, 2, 350, 52, 1⟩),
   (0x000000042135E0D1, .setsr ⟨0, 350, 265, 16, 0⟩),
   (0x0048D0002BD5E0D2, .trap ⟨0, 350, 350, 0, 4660⟩),
   (0x00001C002BD5E0D3, .brk ⟨0, 350, 350, 0, 7⟩),
   (0x000004002BD5E0D9, .hop ⟨0, 350, 350, 0, 1⟩),
   (0x0003FC00210010DA, .launch ⟨0, 1, 264, 0, 255⟩)]

theorem test_system_words : wordsB systemWords = true := by decide +kernel

theorem test_system_issue : ∀ x ∈ systemWords, Meets (at_ x.1) x.2 fun c => c.pass ≠ 0 ∧ c.path.mask ≠ 0 :=
  issue_all (by decide +kernel)

def returnWords : List (Nat × Instr) :=
  [(0x000000002BD5E0D4, .rett ⟨0, 350, 350, 0, 0⟩),
   (0x000004002BD5E0D4, .rettNext ⟨0, 350, 350, 0, 1⟩),
   (0x000004002BD5E0D8, .eqp ⟨0, 350, 350, 0, 1⟩)]

theorem test_return_words : wordsB returnWords = true := by decide +kernel

def slotIntegerWords : List (Nat × Instr) :=
  [(0xBB7CE400, .sNop ⟨2, 1, 6, 13, 15, 3, 9, 0⟩),
   (0xBB7CE841, .sMov ⟨2, 1, 6, 13, 15, 3, 10, 1⟩),
   (0xBB7CEC82, .sAdd ⟨2, 1, 6, 13, 15, 3, 11, 2⟩),
   (0xBB7CE0C3, .sSub ⟨2, 1, 6, 13, 15, 3, 8, 3⟩),
   (0xBB7CE404, .sMul ⟨2, 1, 6, 13, 15, 3, 9, 0⟩),
   (0xBB7CE845, .sMulhi ⟨2, 1, 6, 13, 15, 3, 10, 1⟩),
   (0xBB7CEC86, .sMin ⟨2, 1, 6, 13, 15, 3, 11, 2⟩),
   (0xBB7CE0C7, .sMax ⟨2, 1, 6, 13, 15, 3, 8, 3⟩),
   (0xBB7CE408, .sAbs ⟨2, 1, 6, 13, 15, 3, 9, 0⟩),
   (0xBB7CE849, .sNeg ⟨2, 1, 6, 13, 15, 3, 10, 1⟩),
   (0xBB7CEC8A, .sAnd ⟨2, 1, 6, 13, 15, 3, 11, 2⟩),
   (0xBB7CE0CB, .sOr ⟨2, 1, 6, 13, 15, 3, 8, 3⟩),
   (0xBB7CE40C, .sXor ⟨2, 1, 6, 13, 15, 3, 9, 0⟩),
   (0xBB7CE84D, .sAndn ⟨2, 1, 6, 13, 15, 3, 10, 1⟩),
   (0xBB7CEC8E, .sNot ⟨2, 1, 6, 13, 15, 3, 11, 2⟩),
   (0xBB7CE0CF, .sShl ⟨2, 1, 6, 13, 15, 3, 8, 3⟩),
   (0xBB7CE410, .sShr ⟨2, 1, 6, 13, 15, 3, 9, 0⟩),
   (0xBB7CE851, .sSar ⟨2, 1, 6, 13, 15, 3, 10, 1⟩),
   (0xBB7CEC92, .sPopc ⟨2, 1, 6, 13, 15, 3, 11, 2⟩),
   (0xBB7CE0D3, .sClz ⟨2, 1, 6, 13, 15, 3, 8, 3⟩),
   (0xBB7CE414, .sCmpeq ⟨2, 1, 6, 13, 15, 3, 9, 0⟩),
   (0xBB7CE855, .sCmpne ⟨2, 1, 6, 13, 15, 3, 10, 1⟩),
   (0xBB7CEC96, .sCmplt ⟨2, 1, 6, 13, 15, 3, 11, 2⟩),
   (0xBB7CE0D7, .sCmple ⟨2, 1, 6, 13, 15, 3, 8, 3⟩),
   (0xBB7CE418, .sCmpltu ⟨2, 1, 6, 13, 15, 3, 9, 0⟩),
   (0xBB7CE859, .sCmpleu ⟨2, 1, 6, 13, 15, 3, 10, 1⟩),
   (0xBB7CEC9A, .sDiv ⟨2, 1, 6, 13, 15, 3, 11, 2⟩),
   (0xBB7CE0DB, .sRem ⟨2, 1, 6, 13, 15, 3, 8, 3⟩)]

theorem test_slotInteger_words : (slotIntegerWords.all fun x => decide (decodeTableWord 32 x.1 = some x.2) && x.2.WellFormed &&
    decide (encodeSlot x.2 = some (BitVec.ofNat 32 x.1))) = true := by decide +kernel

def slotFloatingWords : List (Nat × Instr) :=
  [(0xBB7CE420, .sFadd ⟨2, 1, 6, 13, 15, 3, 9, 0⟩),
   (0xBB7CE861, .sFsub ⟨2, 1, 6, 13, 15, 3, 10, 1⟩),
   (0xBB7CECA2, .sFmul ⟨2, 1, 6, 13, 15, 3, 11, 2⟩),
   (0xBB7CE0E3, .sFmin ⟨2, 1, 6, 13, 15, 3, 8, 3⟩),
   (0xBB7CE424, .sFmax ⟨2, 1, 6, 13, 15, 3, 9, 0⟩),
   (0xBB7CE865, .sFabs ⟨2, 1, 6, 13, 15, 3, 10, 1⟩),
   (0xBB7CECA6, .sFneg ⟨2, 1, 6, 13, 15, 3, 11, 2⟩),
   (0xBB7CE0E7, .sFcmpeq ⟨2, 1, 6, 13, 15, 3, 8, 3⟩),
   (0xBB7CE428, .sFcmplt ⟨2, 1, 6, 13, 15, 3, 9, 0⟩),
   (0xBB7CE869, .sFcmple ⟨2, 1, 6, 13, 15, 3, 10, 1⟩),
   (0xBB7CECAA, .sFrcp ⟨2, 1, 6, 13, 15, 3, 11, 2⟩),
   (0xBB7CE0EB, .sFrsq ⟨2, 1, 6, 13, 15, 3, 8, 3⟩),
   (0xBB7CE42C, .sFsqrt ⟨2, 1, 6, 13, 15, 3, 9, 0⟩),
   (0xBB7CE86D, .sFexp2 ⟨2, 1, 6, 13, 15, 3, 10, 1⟩),
   (0xBB7CECAE, .sFlog2 ⟨2, 1, 6, 13, 15, 3, 11, 2⟩),
   (0xBB7CE0EF, .sFtanh ⟨2, 1, 6, 13, 15, 3, 8, 3⟩),
   (0xBB7CE430, .sCvtfi ⟨2, 1, 6, 13, 15, 3, 9, 0⟩),
   (0xBB7CE871, .sCvtif ⟨2, 1, 6, 13, 15, 3, 10, 1⟩),
   (0xBB7CECB2, .sFdiv ⟨2, 1, 6, 13, 15, 3, 11, 2⟩),
   (0xBB7CE0F3, .sMark ⟨2, 1, 6, 13, 15, 3, 8, 3⟩)]

theorem test_slotFloating_words : (slotFloatingWords.all fun x => decide (decodeTableWord 32 x.1 = some x.2) && x.2.WellFormed &&
    decide (encodeSlot x.2 = some (BitVec.ofNat 32 x.1))) = true := by decide +kernel

/-! ### Words that are no instruction, and ill-formed terms -/

def refusalOf : Except DecodeError Instr → Option DecodeError
  | .ok _ => none
  | .error e => some e

/-- An `Except` that answers, with what satisfies `p`. -/
def okB {ε α : Type} (x : Except ε α) (p : α → Bool) : Bool :=
  match x with
  | .ok y => p y
  | .error _ => false

/-- The word that fetch finds for thread 0 of workgroup 1, and the state that it leaves. -/
def fetched (s : State) : Option (Dbl × State) :=
  match fetch s 1 0 with
  | .word w s => some (w, s)
  | .ended _ => none

/-- The outcome is a next state that satisfies `p`. -/
def nextB (o : Out) (p : State → Bool) : Bool :=
  match o with
  | .next t => p t
  | _ => false

/-- R379, R98, R101, R217: reserved opcodes, reserved sub-operations of `vote` and `cctl`, a reserved field of `nop`,
and reserved slot codes. -/
theorem test_refused_words :
    refusalOf (decodeTV 0) = some .opcode ∧ refusalOf (decodeTV 0x1F) = some .opcode ∧ refusalOf (decodeTV 0xFF) = some .opcode ∧
    refusalOf (decodeTV 0x0700AF57A8401045) = some .subOperation ∧
    refusalOf (decodeTV 0x0200AF426115E094) = some .subOperation ∧
    refusalOf (decodeTV (0x000001D7ABD5E0C5 + 2 ^ 63)) = some .reserved ∧
    decodeTableWord 32 0x0000000001400002 = none ∧ decodeTableWord 32 0x0000000002028002 = none ∧
    decodeTableWord 32 0x3F = none := by decide +kernel

/-- R98: a sub-operation that is not the constructor's. -/
theorem test_illformed_sub : Instr.WellFormed (.cctlInv ⟨0, 350, 264, 265, 350, 0, 0, 0⟩) = false := by decide
/-- R101: a reserved field that is not 0. -/
theorem test_illformed_reserved :
    Instr.WellFormed (.mma ⟨0, 0x108, 0x109, 0x15E, 1, 0, 8, 8, 1, 0, 0, 0, 1⟩) = false := by decide
/-- An event is no word. -/
theorem test_illformed_event : Instr.WellFormed .freeze = false := by decide

/-! ### What the step does next (O4 to O9) -/

/-- An event that is due; a word and no word at the thread's PC; nothing to fetch; a slot; nothing due. -/
theorem test_meets_StepRunsDecodedInstruction :
    ({ State.reset with agenda := [.freeze] }).agenda = .freeze :: [] ∧
    ((fetched { State.reset.withFetchWord 64 0x0000AF57ABD5E001 with issue := [] }).any fun x => okB (decodeTV x.1) fun _ => true) = true ∧
    (State.reset.withFetchWord 64 0x0000AF57ABD5E001).issue = .thread 1 0 :: [] ∧ (State.reset.withFetchWord 64 0x0000AF57ABD5E001).agenda = [] ∧
    ((fetched { State.reset.withFetchWord 64 0 with issue := [] }).any fun x => (refusalOf (decodeTV x.1)).isSome) = true ∧
    fetched State.reset = none ∧
    (State.reset.withFetchWord 32 0x00000000023C4002).issue = .slot 0 0 0 0 :: [] ∧
    unitActs { State.reset.withFetchWord 32 0x00000000023C4002 with issue := [] } 0 0 0 = true ∧
    okB (decodeSlot (slotWord (State.reset.withFetchWord 32 0x00000000023C4002) 0 0 0 0)) (fun _ => true) = true ∧
    ({ State.reset with issue := [.detector 0] }).issue = .detector 0 :: [] ∧
    State.reset.powered = true ∧ State.reset.frozen = false ∧ State.reset.agenda = [] ∧ State.reset.issue = [] := by
  decide +kernel

/-- A step of a word of T-form and of a slot word has a next state, and a step at an illegal word has. -/
theorem test_step_goes_on :
    nextB (step (State.reset.withFetchWord 64 0x0000AF57ABD5E001)) (fun _ => true) = true ∧
    nextB (step (State.reset.withFetchWord 64 0)) (fun _ => true) = true ∧
    nextB (step (State.reset.withFetchWord 32 0x00000000023C4002)) (fun _ => true) = true ∧
    nextB (step State.reset) (fun t => t.cycle = 1) = true := by decide +kernel

/-- O5: the word of `nop` at physical address 0x10000, where neither a translation nor a word is cached. -/
theorem test_meets_FetchReadsMemory :
    (let s := State.reset.withFetchWord 64 0x0000AF57ABD5E001
     (wgOf s 1).any fun w => (w.threads[0]?).any fun t => pickPath t = some 0 && (t.paths[0]?).any fun p =>
       w.tx.isEmpty && p.stepDue.isEmpty && pcInText s (launchOf s w.lid) w.core p &&
       canonical (textAddr (launchOf s w.lid) p.vtext p.pc) &&
       match translate s (spaceOf (launchOf s w.lid) w.core) .fetch (textAddr (launchOf s w.lid) p.vtext p.pc) with
       | .ok pa _ s1 => pa = 0x10000 && !badData s1 pa 8 &&
           (tfind (coreOf s1 w.core).icache pa).all (· = BitVec.ofNat 64 (readLE s1.mem pa 8))
       | _ => false) = true := by decide +kernel

/-- O6 to O9: reset has an empty agenda and the canonical form, a reset that asks for a module reset while frozen. -/
theorem test_meets_invariants :
    (∀ i ∈ State.reset.agenda.head?, isWordInstr i = false) ∧ MemoryOk State.reset ∧
    nextB (step State.reset) (fun _ => true) = true ∧
    (∀ x ∈ ({ State.reset with frozen := true }).inputs, x.2 ≠ .moduleReset) ∧
    ({ State.reset with frozen := true, inputs := [(0, .moduleReset)] }).inputs = (0, .moduleReset) :: [] ∧
    (freshWorkgroup probeLaunch 0 0 0 0 0 0 [0]).threads ≠ [] := by
  refine ⟨by simp [State.reset], rfl, by decide +kernel, by simp [State.reset], rfl, by decide +kernel⟩

/-! ### Traps (O10 to O14) -/

/-- A thread that stands at `nop` with the handler at canonical PC 5. -/
def handled : State := at_ 0x0000AF57ABD5E001 (onWg fun w => { w with tvec := 5 })

/-- What every clause of O10 asks of the trap. -/
def trapReady (s : State) (a : TrapArgs) : Bool :=
  (wgOf s 1).any fun w => (w.threads[0]?).any fun t => (t.paths[0]?).any fun p =>
    p.cut.isEmpty && !claimed (coreOf s w.core) a.cause a.debugN && a.pc.isNone && a.lanes != 0 &&
    decide (a.lanes &&& blockMask (lowestLane a.lanes / 32) = a.lanes)

/-- Entry to a handler, for the highest lane of the block; escalation without a handler, for a cause marked E, and in
trap mode. -/
theorem test_meets_TrapsAreTaken :
    trapReady handled { cause := .softwareTrap, lanes := 0x80000000, addr := 7 } = true ∧
    Cause.softwareTrap.escalates = false ∧ (theTh handled).susp = none ∧ (theWg handled).tvec ≠ 0x1FFFFFFF ∧
    trapReady (at_ 0x0000AF57ABD5E001) { cause := .softwareTrap, lanes := 1, addr := 7 } = true ∧
    (theWg (at_ 0x0000AF57ABD5E001)).tvec = 0x1FFFFFFF ∧ (theTh (at_ 0x0000AF57ABD5E001)).susp = none ∧
    trapReady handled { cause := .saveFault, lanes := 1, addr := 7 } = true ∧ Cause.saveFault.escalates = true ∧
    trapReady (inTrap handled) { cause := .softwareTrap, lanes := 1, addr := 7 } = true ∧
    (theTh (inTrap handled)).susp.isSome = true := by decide +kernel

/-- O11: a reserved opcode, and a reserved sub-operation; a word that is an instruction, and one that fails stage 4. -/
theorem test_meets_IllegalOpcodeTraps :
    reservedOpcode 0 ∧ reservedOpcode 0xFF ∧
    ((fetched { State.reset.withFetchWord 64 0 with issue := [] }).any fun x =>
      decide (refusalOf (decodeTV x.1) = some .opcode) && (wgOf x.2 1).any fun w => (w.threads[0]?).any fun t =>
        decide (pickPath t = some 0) && (t.paths[0]?).isSome) = true ∧
    ((fetched { State.reset.withFetchWord 64 0x0700AF57A8401045 with issue := [] }).any fun x =>
      decide (refusalOf (decodeTV x.1) = some .subOperation)) = true ∧
    ¬reservedOpcode 1 ∧ refusalOf (decodeTV 0x0000AF57ABD5E001) ≠ some .subOperation ∧
    ¬reservedOpcode 0xC5 ∧ refusalOf (decodeTV (0x000001D7ABD5E0C5 + 2 ^ 63)) ≠ some .subOperation := by
  refine ⟨.inl rfl, by simp [reservedOpcode], by decide +kernel, by decide +kernel, by simp [reservedOpcode], by decide +kernel,
    by simp [reservedOpcode], by decide +kernel⟩

/-- O12. -/
theorem test_meets_SplitAndJoinInVectorForm :
    (Reaches (at_ 0x000000040435E0B1 inVForm) (.split ⟨0, 350, 1, 2, 0, 4⟩) fun c =>
      c.path.vtext = true ∧ joinOk c.th.susp.isSome 1 = true) ∧
    (Reaches (at_ 0x000000000175E0B2 inVForm) (.join ⟨0, 350, 11, 0, 0, 0⟩) fun c =>
      c.path.vtext = true ∧ joinOk c.th.susp.isSome 11 = true) := ⟨reaches_of (by decide +kernel), reaches_of (by decide +kernel)⟩

/-- O13: an operand that names nothing, and the premises of each privileged form. -/
theorem test_meets_RefusedInstructionsTrap :
    (Reaches (at_ 0x0001AF00E9001002) (.add ⟨0, 1, 328, 3, 350, 1, 0, 0⟩) fun c =>
      judge (envOf c) (.add ⟨0, 1, 328, 3, 350, 1, 0, 0⟩) = some .badOperand ∧
      (encodeTV (.add ⟨0, 1, 328, 3, 350, 1, 0, 0⟩)).isSome = true) ∧
    (Reaches (at_ 0x000000002BD5E0D4) (.rett ⟨0, 350, 350, 0, 0⟩) fun c => c.th.susp = none) ∧
    (Reaches (at_ 0x000004002BD5E0D4) (.rettNext ⟨0, 350, 350, 0, 1⟩) fun c => c.th.susp = none) ∧
    (Reaches (at_ 0x000000102135E0D1) (.setsr ⟨0, 350, 265, 64, 0⟩) fun _ =>
      isUniform (0x109 : Opnd) = true ∧ 0x040 ∈ sysRegs ∧ 0x040 ∉ sysRegsRw) ∧
    (Reaches (at_ 0x000008002BD5E0D9 inTrap) (.hop ⟨0, 350, 350, 0, 2⟩) fun c => c.th.susp.isSome = true) ∧
    (Reaches (at_ 0x00000003018FE098 inTrap) (.txbegin ⟨0, 254, 12, 0, 0, 3⟩) fun c =>
      c.th.susp.isSome = true ∧ 254 < c.wg.nvregs) ∧
    (Reaches (at_ 0x0003FC00210FE0DA inTrap) (.launch ⟨0, 254, 264, 0, 255⟩) fun c =>
      c.th.susp.isSome = true ∧ isS (0x108 : Opnd) = true ∧ isV (254 : Opnd) = true ∧ 254 < c.wg.nvregs) :=
  ⟨reaches_of (by decide +kernel), reaches_of (by decide +kernel), reaches_of (by decide +kernel), reaches_of (by decide +kernel),
   reaches_of (by decide +kernel), reaches_of (by decide +kernel), reaches_of (by decide +kernel)⟩

/-- O14: `trap` and `brk` are in `systemWords`; the returns in trap mode. -/
theorem test_meets_SoftwareTrapsAndReturns :
    (Meets (at_ 0x000000002BD5E0D4 inTrap) (.rett ⟨0, 350, 350, 0, 0⟩) fun c =>
      c.pass ≠ 0 ∧ c.th.susp.isSome = true ∧ returnBlock c = none ∧
      (c.th.susp.any fun u => !u.after && (u.paths[u.trapped]?).isSome) = true) ∧
    (Meets (at_ 0x000004002BD5E0D4 inTrap) (.rettNext ⟨0, 350, 350, 0, 1⟩) fun c =>
      c.pass ≠ 0 ∧ c.th.susp.isSome = true ∧ returnBlock c = none) := ⟨meets_of (by decide +kernel), meets_of (by decide +kernel)⟩

/-- O14, what resumes: an instruction that all have performed, one where lanes have begun a wait, one of which lanes are
left, and a path beside the trapping one. -/
theorem test_meets_resumes :
    (let p : Path := { mask := 0xFF, pc := 4 }
     let u : Suspended := { paths := [p, { p with mask := 0xFF00 }], run := 0, gave := false, trapped := 0, done := 0xFF, lanes := 1, skip := 1 }
     u.after = false ∧ u.paths[u.trapped]? = some p ∧ p.wait = .none ∧
     (p.limit.getD (p.mask &&& ~~~(0 : Mask))) &&& ~~~u.done = 0 ∧ (1 : Nat) ≠ u.trapped ∧ (u.paths[1]?).isSome = true) ∧
    (let p : Path := { mask := 0xFF, pc := 4, wait := .txend }
     let u : Suspended := { paths := [p], run := 0, gave := false, trapped := 0, done := 0xFE, lanes := 1, skip := 1 }
     (p.limit.getD p.mask) &&& ~~~u.done &&& ~~~u.skip = 0 ∧ (p.limit.getD p.mask) &&& ~~~u.done ≠ 0 ∧ p.wait ≠ .none ∧ u.done ≠ 0) := by
  decide +kernel

/-! ### Integer, predicate, floating-point and lane instructions (O15 to O21) -/

/-- O15: the last element of a packed type, with a divisor of 0 and one that is not. -/
theorem test_meets_IntegerResults :
    (8 : BitVec 4) ≠ 0xF ∧ 3 < (elemShape 8).2 ∧ (9 : BitVec 4) ≠ 0xF ∧ 3 < (elemShape 9).2 ∧ isSigned 9 = false ∧
    elem 0x00FFFFFF (elemShape 9).1 3 = 0 ∧ elem 0x01FFFFFF (elemShape 9).1 3 ≠ 0 := by decide

/-- O16: `movhi` of an s register and of a lane register pair. The other instructions are in `integerWords`,
`logicWords` and `immediateWords`. -/
theorem test_meets_IntegerInstructionsComplete :
    (Meets (at_ 0x123456782BD3F021) (.movhi ⟨0, 319, 350, 0, 305419896⟩) fun c =>
      c.pass ≠ 0 ∧ isS (0x13F : Opnd) = true) ∧
    (Meets (at_ 0x123456782BCFC021) (.movhi ⟨0, 252, 350, 0, 305419896⟩) fun c =>
      c.pass ≠ 0 ∧ isS (252 : Opnd) = false) := ⟨meets_of (by decide +kernel), meets_of (by decide +kernel)⟩

/-- O17: a guard that fails in every lane (k1 is 0). -/
theorem test_meets_PredicatesAndGuards :
    Meets (at_ 0x0001AF00C0401102) (.add ⟨1, 1, 2, 3, 350, 1, 0, 0⟩) fun c =>
      c.pass = 0 ∧ c.path.mask ≠ 0 ∧ (encodeTV (.add ⟨1, 1, 2, 3, 350, 1, 0, 0⟩)).isSome = true ∧
      runsEmpty (.add ⟨1, 1, 2, 3, 350, 1, 0, 0⟩) = false := meets_of (by decide +kernel)

/-- O18, O19: the instructions are in `floatingWords`; f32 is a type of `fmtOf`, and NaNs are codes. -/
theorem test_meets_floating :
    (fmtOf 3).isSome = true ∧ decodeFloat fmtF32 0x7FC00000 = .nan ∧ 0xFFFFFFFF < 2 ^ 32 ∧
    decodeFloat fmtF32 0x7F800000 ≠ .nan ∧ decodeFloat fmtF32 0x00000000 ≠ .nan := by decide +kernel

/-- O20: conversions are in `conversionWords`. O21: a destination register and an s register of width `.g`. -/
theorem test_meets_LaneInstructions :
    (Meets (at_ 0x0002AF00C0401044) (.shfl ⟨0, 1, 2, 3, 350, 2, 0, 0⟩) fun c =>
      c.pass ≠ 0 ∧ isWideLane ⟨0, 1, 2, 3, 350, 2, 0, 0⟩ = false) ∧
    (Meets (at_ 0x0200AF57A8509045) (.vote ⟨0, 265, 322, 350, 350, 0, 0, 2⟩) fun c =>
      c.pass ≠ 0 ∧ isWideLane ⟨0, 265, 322, 350, 350, 0, 0, 2⟩ = false ∧
      ∀ l ∈ lanesOf c.pass, l / 32 = lowestLane c.pass / 32) :=
  ⟨meets_of (by decide +kernel), meets_of (by decide +kernel)⟩

/-- The condition on waits of `Returned`. -/
theorem test_meets_returned :
    (theWg (inTrap handled)).threads.all (fun x => (x.paths ++ (x.susp.map (·.paths)).getD []).all fun p => p.wait == .none) = true := by
  decide +kernel

/-- A second thread, of TG 1, that has reached no round. -/
def twoThreads : State → State :=
  onWg fun w => { w with ntg := 2, threads := w.threads ++ [{ tgix := 1, paths := [{ mask := blockMask 1, pc := 0 }] }] }

/-- O21, width `.w`. -/
theorem test_meets_WideLaneInstructionWaits :
    Meets (at_ 0x0902AF00C0401044 twoThreads) (.shfl ⟨0, 1, 2, 3, 350, 2, 0, 9⟩) fun c =>
      isWideLane ⟨0, 1, 2, 3, 350, 2, 0, 9⟩ = true ∧ c.pass ≠ 0 ∧ c.path.vtext = false ∧ c.th.strand = false ∧
      c.path.mask ≠ 0 ∧ 1 ≠ c.tix ∧
      ((c.wg.threads[1]?).any fun t => !retired c.wg t && (roundPath t c.path.pc).isNone) = true := meets_of (by decide +kernel)

/-! ### Memory instructions (O22 to O26) -/

/-- The issuing word, the addresses in s8 and s9, and a scratchpad of 64 KiB. -/
def ldGlobal : FmtM := ⟨0, 1, 264, 350, 0, 0, 0, 1, 0, 0⟩
def ldPad : FmtM := ⟨0, 1, 264, 350, 0, 0, 0, 1, 1, 0⟩
def stGlobal (scope ord : Nat) : FmtM := ⟨0, 1, 0x108, 0x15E, 0, BitVec.ofNat 3 scope, BitVec.ofNat 2 ord, 1, 0, 0⟩
/-- An access in lane 31 at the address `s8`, with nothing done before it. -/
def accessAt (s8 : Nat) (good : Ctx → Access → Bool) : Bool :=
  (ctxOf (at_ 0x00004057A1001090 (withS [(8, s8)])) (.ld ldGlobal)).any fun c =>
    good c { st := at_ 0x00004057A1001090 (withS [(8, s8)]) }

/-- O22: the lowest address that is not canonical, an address that is not aligned, the first byte past the allocation. -/
theorem test_meets_AddressChecks :
    accessAt (2 ^ 59) (fun c a => !canonical (addrM a.st.cycle c ldGlobal 31)) = true ∧
    accessAt 0x20002 (fun c a => canonical (addrM a.st.cycle c ldGlobal 31) && addrM a.st.cycle c ldGlobal 31 % accessBytes 1 != 0) = true ∧
    accessAt 2 (fun c a => addrM a.st.cycle c ldPad 31 % accessBytes 1 != 0) = true ∧
    accessAt 0x10000 (fun c a => addrM a.st.cycle c ldPad 31 % accessBytes 1 == 0 &&
      !padHas c.wg.pad (addrM a.st.cycle c ldPad 31) (accessBytes 1)) = true := by decide +kernel

/-- A translation that goes to `pa`. -/
def goesTo (x : Trans) (good : Nat → State → Bool) : Bool :=
  match x with
  | .ok pa _ s => good pa s
  | _ => false

/-- O23, what a lane reads: the last word of the allocation; memory, with no copy and nothing in the coalescing buffer;
the coalescing buffer. -/
theorem test_meets_LoadReadsMemory :
    accessAt 0xFFFC (fun c a => (wgOf a.st c.wid).any fun w => addrM a.st.cycle c ldPad 31 % 4 == 0 &&
      padHas c.wg.pad 0xFFFC 4 && !padBad w.pad 0xFFFC 4 && !zstPending c.wg c.tix 0xFFFC 4) = true ∧
    accessAt 0x20000 (fun c a => canonical 0x20000 && goesTo (translate a.st (spaceOf c.la c.wg.core) .read 0x20000) fun pa s1 =>
      pa % 4 == 0 && !inTx c 31 && !inHost pa && Machine.reaches s1 true pa &&
      (List.range 4).all (fun i => (cbByte (coreOf s1 c.wg.core) (pa + i)).isNone) &&
      (tfind (coreOf s1 c.wg.core).l1 (pa / 32)).isNone && !lockedFor s1 none pa 4 && !badData s1 pa 4) = true ∧
    accessAt 0x20000 (fun c a => goesTo (translate (modCore a.st 0 fun k => { k with
        cb := [{ line := 0x400, bytes := [(0x20000, 1), (0x20001, 2), (0x20002, 3), (0x20003, 4)], born := 0 }] })
        (spaceOf c.la c.wg.core) .read 0x20000) fun pa s1 => !inTx c 31 && !inHost pa && Machine.reaches s1 true pa &&
      !cbBad (coreOf s1 c.wg.core) pa 4 && (List.range 4).all fun i => (cbByte (coreOf s1 c.wg.core) (pa + i)).isSome) = true := by decide +kernel

/-- The access of an instruction of 32 lanes goes through. -/
def passes (x : Option Access) : Bool := x.any fun a => a.fails.isEmpty && a.gone.isEmpty && a.asks == 0

/-- O23, completion. -/
theorem test_meets_LoadCompletes :
    Meets (at_ 0x00004057A1001090 (withS [(8, 0x20000)])) (.ld ldGlobal) fun c =>
      c.pass ≠ 0 ∧ c.path.mask ≠ 0 ∧
      passes (eachAccess (accessLanes c (isS ldGlobal.d)) (loadLane ldGlobal
        (runCtx (at_ 0x00004057A1001090 (withS [(8, 0x20000)])) c) (isS ldGlobal.d))
        (runState (at_ 0x00004057A1001090 (withS [(8, 0x20000)])) c (.ld ldGlobal))) = true :=
  meets_of (by decide +kernel)

/-- A value that is due in lane register 7 of lane 3 and in s5. -/
def valueDue : Flight := { fid := 9, due := some 0, lanes := [(3, 255, 42)], sreg := some (5, 43) }

/-- O23, return. -/
theorem test_meets_LoadValueReturns :
    (wgOf (at_ 0x0000AF57ABD5E001 (onTh fun t => { t with flights := [valueDue] })) 1).any (fun w => (w.threads[0]?).any fun t =>
      decide (t.flights.find? (fun f => f.fid = 9 && (f.due.any fun d => d ≤ 0)) = some valueDue)) = true ∧
    (∀ e ∈ valueDue.lanes, e.2.1 < 256) ∧ valueDue.lanes.Pairwise (fun x y => (x.1, x.2.1) ≠ (y.1, y.2.1)) := by decide +kernel

/-- O24: a store to the last bytes of the scratchpad, to the last bytes of a line, and to a slice; each instruction form:
plain, once, and a release. -/
theorem test_meets_StoreWritesMemory :
    (wgOf (at_ 0x0000AF57ABD5E001) 1).isSome = true ∧ (cbStore (at_ 0x0000AF57ABD5E001) 0 0x2007C [1, 2, 3, 4]).isSome = true ∧
    0x2007C % 128 + [1, 2, 3, 4].length ≤ 128 ∧ (coreOf (at_ 0x0000AF57ABD5E001) 0).cb.length < 32 ∧
    (slicedStore (at_ 0x0000AF57ABD5E001) 0 none 0x2007C [1, 2, 3, 4]).isSome = true ∧
    (inHost 0x2007C && !(at_ 0x0000AF57ABD5E001).linkUp) = false ∧ (coreOf (at_ 0x0000AF57ABD5E001) 0).dropped = false := by decide +kernel

/-- What O24 asks of a store. -/
def storeMeets (s : State) (f : FmtM) : Bool :=
  meetsB s (.st f) fun c =>
    let once := isUniform f.d && isUniform f.a && isUniform f.x
    let lanes := accessLanes c once
    let releases := f.sp == 0 && f.ord == 2 && 3 ≤ f.scope.toNat && lanes.any fun l => !inTx (runCtx s c) l
    c.pass != 0 && c.path.mask != 0 &&
    (if releases then releaseGang (runState s c (.st f)) c.wg.core else some (runState s c (.st f))).any fun s1 =>
      passes (eachAccess lanes (storeLane f (runCtx s c) once) s1)

theorem test_meets_StoreCompletes :
    storeMeets (at_ 0x00004057A1001091 (withS [(8, 0x20000)])) (stGlobal 0 0) = true ∧
    storeMeets (at_ 0x00006657A1001091 (withS [(8, 0x20000)])) (stGlobal 3 2) = true ∧
    storeMeets (at_ 0x00044057A1109091 (withS [(8, 0xFFFC)])) ⟨0, 265, 264, 350, 0, 0, 0, 1, 1, 0⟩ = true := by
  decide +kernel

/-- O24, to its end: every lane's store in the scratchpad; one lane's store that the coalescing buffer takes; one lane's
release, with nothing in the buffer. -/
theorem test_meets_StoreRuns :
    meetsB (at_ 0x00044057A1001091 (withS [(8, 0xFFFC)])) (.st ⟨0, 1, 264, 350, 0, 0, 0, 1, 1, 0⟩) (fun c =>
      c.pass != 0 && c.path.mask != 0 && (accessLanes c false).length == 32 && (accessLanes c false).all fun l =>
        let ea := addrM 0 (runCtx (at_ 0x00044057A1001091 (withS [(8, 0xFFFC)])) c) ⟨0, 1, 264, 350, 0, 0, 0, 1, 1, 0⟩ l
        ea == 0xFFFC && ea % 4 == 0 && padHas c.wg.pad ea 4 && !zstPending c.wg c.tix ea 4) = true ∧
    (let s := at_ 0x00004457A1109091 (withS [(8, 0x2007C)])
     meetsB s (.st ⟨0, 265, 264, 350, 0, 2, 0, 1, 0, 0⟩) fun c =>
      accessLanes c true == [0] && !inTx (runCtx s c) 0 && goesTo (translate (runState s c (.st ⟨0, 265, 264, 350, 0, 2, 0, 1, 0, 0⟩))
        (spaceOf c.la c.wg.core) .write 0x2007C) fun pa s1 => Machine.reaches s1 false pa && pa % 4 == 0 && (coreOf s1 c.wg.core).cb.length < 32) = true ∧
    (let s := at_ 0x00006A57A1109091 (withS [(8, 0x2007C)])
     meetsB s (.st ⟨0, 265, 264, 350, 0, 5, 2, 1, 0, 0⟩) fun c =>
      accessLanes c true == [0] && !inTx (runCtx s c) 0 && (coreOf s c.wg.core).cb.isEmpty &&
      goesTo (translate (runState s c (.st ⟨0, 265, 264, 350, 0, 5, 2, 1, 0, 0⟩)) (spaceOf c.la c.wg.core) .write 0x2007C)
        fun pa s1 => Machine.reaches s1 false pa && !lockedFor s1 none pa 4 && !(inHost pa && !s1.linkUp) && !(coreOf s1 c.wg.core).dropped) = true := by
  decide +kernel

def atomPad : FmtMA := ⟨0, 3, 264, 2, 1, 2, 7, 0, 0, 1, 0⟩
def redGlobal : FmtMA := ⟨0, 350, 264, 2, 350, 1, 0, 3, 3, 0, 1⟩
def atomMeets (s : State) (i : Instr) (f : FmtMA) (returns : Bool) : Bool :=
  meetsB s i fun c =>
    let once := returns && isS f.d
    let wide := f.sp == 0 && 3 ≤ f.scope.toNat
    c.pass != 0 && c.path.mask != 0 &&
    (if wide && f.ord.getLsbD 1 then releaseGang (runState s c i) c.wg.core else some (runState s c i)).any fun s1 =>
      passes (eachAccess (accessLanes c once) (atomLane f (runCtx s c) once) s1)

/-- O25: a type that an AOP does not permit, one lane's atomic at the end of the allocation, and whole instructions. -/
theorem test_meets_Atomics :
    (13 : Nat) ∉ [2] ∧ isWide 13 = true ∧ (2 : BitVec 4).toNat ≤ 2 ∧
    accessAt 0xFFFC (fun c a => (wgOf a.st c.wid).any fun w => addrMA a.st.cycle c atomPad 31 == 0xFFFC && 0xFFFC % 4 == 0 &&
      padHas c.wg.pad 0xFFFC 4 && !padBad w.pad 0xFFFC 4 && !zstPending c.wg c.tix 0xFFFC 4) = true ∧
    atomMeets (at_ 0x20720080A1003092 (withS [(8, 0xFFFC)])) (.atom atomPad) atomPad true = true ∧
    accessAt 0x20000 (fun c a => match locateAccess { a.st with tlb := [], mem := writeLE a.st.mem 0x8000 8 (2 ^ 54 + 2 ^ 52 + 15) } c true .both
        (addrMA a.st.cycle c redGlobal 31) 4 with
      | .at_ (.mem _ attr) _ => attr != 0 && !(List.contains [(0 : BitVec 4), 6, 7] 12)
      | _ => false) = true ∧
    atomMeets (at_ 0x9B01AF00A115E092 (withS [(8, 0x20000)])) (.red redGlobal) redGlobal false = true := by
  decide +kernel

/-- A cache control of the 128 bytes at 0x20000. -/
def lineFlush : State := at_ 0x0000AF426115E094 (withS [(8, 0x20000), (9, 128)])
def lineInv : State := at_ 0x0100AF426115E094 (withS [(8, 0x20000), (9, 128)])

/-- O26: a fence of core scope and one of gang scope; a prefetch and the cache controls of a line. -/
theorem test_meets_FencesAndCacheControlComplete :
    (Meets (at_ 0x00003457ABD5E095) (.fence ⟨0, 350, 350, 350, 0, 2, 3, 0, 0, 0⟩) fun c => c.pass ≠ 0 ∧ c.path.mask ≠ 0) ∧
    (Meets (at_ 0x00003657ABD5E095) (.fence ⟨0, 350, 350, 350, 0, 3, 3, 0, 0, 0⟩) fun c =>
      c.pass ≠ 0 ∧ c.path.mask ≠ 0 ∧ (coreOf (at_ 0x00003657ABD5E095) c.wg.core).dropped = false ∧
      (releaseGang (runState (at_ 0x00003657ABD5E095) c (.fence ⟨0, 350, 350, 350, 0, 3, 3, 0, 0, 0⟩)) c.wg.core).isSome = true) ∧
    (Meets (at_ 0x00000057A115E093 (withS [(8, 0x20000)])) (.prefetch ⟨0, 350, 264, 350, 0, 0, 0, 0, 0, 0⟩) fun c =>
      c.pass ≠ 0 ∧ (lanesOf c.pass).all (fun l => !mapWaits (at_ 0x00000057A115E093 (withS [(8, 0x20000)])) (spaceOf c.la c.wg.core)
        (addrM 0 c ⟨0, 350, 264, 350, 0, 0, 0, 0, 0, 0⟩ l)) = true) ∧
    (Meets lineFlush (.cctlFlush ⟨0, 350, 264, 265, 350, 0, 0, 0⟩) fun c => c.pass ≠ 0 ∧
      (cctlPieces (runState lineFlush c (.cctlFlush ⟨0, 350, 264, 265, 350, 0, 0, 0⟩)) (runCtx lineFlush c) ⟨0, 350, 264, 265, 350, 0, 0, 0⟩).any (fun ps =>
        ps == [(0x20000, 128)] && (drainWhere (runState lineFlush c (.cctlFlush ⟨0, 350, 264, 265, 350, 0, 0, 0⟩)) c.wg.core
          (fun e => e.bytes.any fun x => ps.any fun (pa, n) => pa ≤ x.1 && x.1 < pa + n)).isSome) = true) ∧
    (Meets lineInv (.cctlInv ⟨0, 350, 264, 265, 350, 0, 0, 1⟩) fun c => c.pass ≠ 0 ∧
      (cctlPieces (runState lineInv c (.cctlInv ⟨0, 350, 264, 265, 350, 0, 0, 1⟩)) (runCtx lineInv c) ⟨0, 350, 264, 265, 350, 0, 0, 1⟩).isSome = true) :=
  ⟨meets_of (by decide +kernel), meets_of (by decide +kernel), meets_of (by decide +kernel), meets_of (by decide +kernel),
   meets_of (by decide +kernel)⟩

/-! ### Barriers and transactions (O27 to O31) -/

/-- An object with 64 of 64 lanes awaited, and 32 of 64 lanes awaited. -/
def someObject : BarObj := { phase := 0xFFFF, rz := 0, armed := true, count := 64, pending := 32 }

/-- O27: one lane fewer than PENDING, as many, a default count for an unarmed object, and the top of a double. -/
theorem test_meets_ArrivalMovesPhases :
    someObject.armed = true ∧ 1 ≤ someObject.count ∧ 31 < someObject.pending ∧ someObject.pending ≤ 32 ∧
    ({ someObject with armed := false }).armed = false ∧ 0xFFFFFFFFFFFFFFFF < 2 ^ 64 ∧
    waitEnded 0 0xFFFF = true ∧ waitEnded 0x7FFE 0xFFFF = true ∧ waitEnded 0x7FFF 0xFFFF = false ∧ waitEnded 0 0 = false := by decide

/-- The object in the scratchpad at 0xFFF8, the last one of the allocation. -/
def withObject (b : BarObj) : State → State :=
  onWg fun w => { w with pad := { w.pad with scratch := writeLE w.pad.scratch 0xFFF8 8 b.toNat } }

/-- What the clauses of O28 share. -/
def objectB (s : State) (c : Ctx) (f : FmtA) : Bool :=
  let off := readOp s.cycle c f.a false (lowestLane c.pass)
  c.pass != 0 && c.path.mask != 0 && off % 8 == 0 && padHas c.wg.pad off 8 && !padBad c.wg.pad off 8

def objectOf (s : State) (c : Ctx) (f : FmtA) : BarObj :=
  BarObj.ofNat (readLE c.wg.pad.scratch (readOp s.cycle c f.a false (lowestLane c.pass)) 8)

/-- A barrier instruction at the object `b` with s9 = `n` meets its clause. -/
def barMeets (w n : Nat) (b : BarObj) (i : Instr) (f : FmtA) (good : Ctx → BarObj → Nat → Bool) : Bool :=
  let s := at_ w fun s => withObject b (withS [(8, 0xFFF8), (9, n)] s)
  meetsB s i fun c => objectB s c f && good c (objectOf s c f) (readOp s.cycle c f.b false (lowestLane c.pass))

theorem test_meets_BarriersComplete :
    barMeets 0x0000AF426115E096 1 someObject (.barInit ⟨0, 350, 264, 265, 350, 0, 0, 0⟩) ⟨0, 350, 264, 265, 350, 0, 0, 0⟩
      (fun c _ n => !barWaited c.wg 0xFFF8 && 1 ≤ n && n ≤ 65535) = true ∧
    barMeets 0x0000AF426115E096 65535 someObject (.barInit ⟨0, 350, 264, 265, 350, 0, 0, 0⟩) ⟨0, 350, 264, 265, 350, 0, 0, 0⟩
      (fun c _ n => !barWaited c.wg 0xFFF8 && 1 ≤ n && n ≤ 65535) = true ∧
    barMeets 0x0100AF57A110C096 0 someObject (.barArrive ⟨0, 268, 264, 350, 350, 0, 0, 1⟩)
      ⟨0, 268, 264, 350, 350, 0, 0, 1⟩ (fun c b _ => !b.refuses && !tokensQueued c.wg c.tix) = true ∧
    barMeets 0x0200AF426115E096 0xFFFE someObject (.barWait ⟨0, 350, 264, 265, 350, 0, 0, 2⟩)
      ⟨0, 350, 264, 265, 350, 0, 0, 2⟩ (fun _ b n => waitEnded b.phase (BitVec.ofNat 16 n)) = true ∧
    barMeets 0x0200AF426115E096 0xFFFF someObject (.barWait ⟨0, 350, 264, 265, 350, 0, 0, 2⟩)
      ⟨0, 350, 264, 265, 350, 0, 0, 2⟩ (fun _ b n => !waitEnded b.phase (BitVec.ofNat 16 n)) = true ∧
    barMeets 0x0300AF57A115E096 0 someObject (.barSync ⟨0, 350, 264, 350, 350, 0, 0, 3⟩) ⟨0, 350, 264, 350, 350, 0, 0, 3⟩
      (fun c b _ => !b.refuses && !tokensQueued c.wg c.tix && b.armed && b.count ≤ 65535 && b.pending ≤ (lanesOf c.pass).length &&
        (lanesOf c.pass).length - b.pending < 32767 * b.count) = true ∧
    barMeets 0x0300AF57A115E096 0 { someObject with pending := 33 } (.barSync ⟨0, 350, 264, 350, 350, 0, 0, 3⟩)
      ⟨0, 350, 264, 350, 350, 0, 0, 3⟩ (fun c b _ => !b.refuses && !tokensQueued c.wg c.tix && b.armed &&
        (lanesOf c.pass).length < b.pending && b.pending ≤ 65535) = true := by decide +kernel

/-- `gbar` at 0x20000. -/
def gbarFields : FmtM := ⟨0, 350, 264, 350, 0, 0, 0, 0, 0, 0⟩
def gbarState : State := at_ 0x00000057A115E097 (withS [(8, 0x20000)])
/-- The same with an armed object of COUNT 0. -/
def gbarRefused : State := { gbarState with mem := writeLE gbarState.mem 0x20000 8 (2 ^ 32) }
/-- What the first clause of O28 asks, for an object that refuses arrivals, or not. -/
def gbarMeets (s : State) (refuses : Bool) : Bool :=
  meetsB s (.gbar ⟨0, 350, 264, 350, 0, 0, 0, 0, 0, 0⟩) fun c =>
    let ea := addrM s.cycle c gbarFields (lowestLane c.pass)
    c.pass != 0 && c.path.mask != 0 && canonical ea && ea % 8 == 0 && !tokensQueued c.wg c.tix &&
    goesTo (translate (runState s c (.gbar ⟨0, 350, 264, 350, 0, 0, 0, 0, 0, 0⟩)) (spaceOf c.la c.wg.core) .read ea) fun pa s1 =>
      Machine.reaches s1 true pa && (drainAll s1 c.wg.core).any fun s2 =>
        !lockedFor s2 none pa 8 && !badData s2 pa 8 && (BarObj.ofNat (readLE s2.mem pa 8)).refuses == refuses
/-- A path that has waited at a global object, whose answer is due. -/
def gbarDue : State := at_ 0x0000AF57ABD5E001 (onPath fun p => { p with wait := .gbar 0x20000 0x20000 0 (some 0) false })

theorem test_meets_GangBarrierCompletes :
    gbarMeets gbarState false = true ∧ gbarMeets gbarRefused true = true ∧
    (wgOf gbarDue 1).any (fun w => (w.threads[0]?).any fun t => t.paths.any fun p =>
      p.wait == .gbar 0x20000 0x20000 0 (some 0) false && p.mask.getLsbD 31) = true ∧ 0 ≤ gbarDue.cycle := by decide +kernel

/-- Each lane of block 0 with the transaction `t`. -/
def withTx (t : LaneTx) : State → State := onWg fun w => { w with tx := (List.range 32).map fun l => (l, t) }
/-- What holds of every passing lane. -/
def everyTx (c : Ctx) (good : LaneTx → Bool) : Bool := (lanesOf c.pass).all fun l => good (txOf c.wg l)

def txMeets (edit : State → State) (good : State → Ctx → Bool) : Bool :=
  let s := at_ 0x00000003004FE098 edit
  meetsB s (.txbegin ⟨0, 254, 2, 0, 0, 3⟩) fun c =>
    c.pass != 0 && c.path.mask != 0 && !c.path.vtext && !c.path.queued && good s c

/-- O29: one abort below the limit, the deepest level from which a nested begin is possible, and the limit. -/
theorem test_meets_TransactionBegins :
    txMeets (withTx { consec := 7 }) (fun s c => everyTx c (fun t => t.st == .out && t.consec.toNat < c.wg.txctl.toNat) &&
      jGet c.th 2 == 0 && (drainAll (runState s c (.txbegin ⟨0, 254, 2, 0, 0, 3⟩)) c.wg.core).isSome) = true ∧
    txMeets (withTx { st := .active, depth := 6, vs := 254 }) (fun _ c => everyTx c fun t => t.st == .active && t.depth < 7) = true ∧
    txMeets (withTx { consec := 8 }) (fun _ c => everyTx c (fun t => t.st == .out && c.wg.txctl.toNat ≤ t.consec.toNat) &&
      c.path.mask == c.pass && jGet c.th 2 == 0) = true := by decide +kernel

def txendMeets (edit : State → State) (good : Ctx → Bool) : Bool :=
  meetsB (at_ 0x0000AF57ABD5E099 edit) (.txend ⟨0, 350, 350, 350, 350, 0, 0, 0⟩) fun c => c.path.mask != 0 && c.act == c.pass &&
    c.path.aborted.isEmpty && (lanesOf c.path.mask).all (fun l => !committing c.wg l) && good c

/-- O30. -/
theorem test_meets_TransactionsEnd :
    txendMeets inTrap (fun c => c.th.susp.isSome) = true ∧
    txendMeets (withTx { st := .active, depth := 2 }) (fun c => c.th.susp.isNone && !c.path.vtext &&
      everyTx c fun t => t.st == .active && 1 < t.depth) = true ∧
    txendMeets (withTx { st := .active, depth := 1 }) (fun c => c.th.susp.isNone && !c.path.vtext &&
      everyTx c fun t => t.st == .active && t.depth == 1 && t.reads.isEmpty && t.writes.isEmpty) = true ∧
    txendMeets (withTx { st := .active, depth := 1, writes := [(0x1000, (0, 1))] }) (fun c => c.th.susp.isNone && c.act != 0 &&
      everyTx c fun t => t.st == .active && t.depth == 1 && !t.writes.isEmpty) = true ∧
    meetsB (at_ 0x0000AF57A115E09A (withTx { st := .active, depth := 1, vs := 255, consec := 255 })) (.txabort ⟨0, 350, 264, 350, 350, 0, 0, 0⟩)
      (fun c => c.pass != 0 && c.th.susp.isNone && !c.path.vtext && everyTx c fun t => t.st == .active && t.vs < 256) = true := by
  decide +kernel

/-- A lane that commits a log of sector 0x1000, of which it read nothing, or the value of the state, or another. -/
def committingState (reads : Tbl (BitVec 256)) (locks : List (Nat × Nat × Nat)) (lockedAt : Option Nat) : State :=
  let tx : LaneTx := { st := .committing, depth := 1, vs := 255, firstLock := lockedAt, reads := reads, writes := [(0x1000, (0x55, 1))] }
  at_ 0x0000AF57ABD5E001 fun s => { onWg (fun w => { w with tx := [(31, tx)] }) s with locks := locks, cycle := 65536, linkUp := true }

/-- O31: a commit that holds, one that does not, a lock that 256 cycles have not brought, 65,536 cycles inside. -/
theorem test_meets_CommitEvents :
    (let s := committingState [(0x1000, 0)] [(0x1000, 1, 31)] none
     (wgOf s 1).any fun w => let t := txOf w 31
       (t.st == .committing) && t.bad.isEmpty && (logSectors t).all (fun sec => lockHolder s sec == some (1, 31)) &&
       t.reads.all (fun x => !badData s (32 * x.1) 32) && t.reads.all (fun x => sliceSector s x.1 == x.2) &&
       (coreOf s w.core).cb.isEmpty && s.linkUp && decide (t.writes.Pairwise (fun x y => x.1 ≠ y.1))) = true ∧
    (let s := committingState [(0x1000, 1)] [(0x1000, 1, 31)] none
     (wgOf s 1).any fun w => let t := txOf w 31
       (t.st == .committing) && t.bad.isEmpty && (logSectors t).all (fun sec => lockHolder s sec == some (1, 31)) &&
       t.reads.all (fun x => !badData s (32 * x.1) 32) && t.reads.any (fun x => sliceSector s x.1 != x.2) && t.vs < 256) = true ∧
    (let s := committingState [] [(0x1000, 2, 0)] (some 65280)
     (wgOf s 1).any fun w => let t := txOf w 31
       (t.st == .committing) && (logSectors t).contains 0x1000 && lockHolder s 0x1000 != some (1, 31) &&
       t.firstLock == some 65280 && 65280 + 256 ≤ s.cycle) = true ∧
    (let s := onWg (fun w => { w with tx := [(31, { st := .active, depth := 1, begun := 0 })] }) (committingState [] [] none)
     (wgOf s 1).any fun w => (txOf w 31).st == .active && (txOf w 31).begun + 65536 ≤ s.cycle) = true := by decide +kernel

/-! ### Control (O32 to O34) -/

def withK (n : Nat) (m : Mask) : State → State := onWg fun w => { w with k := tset w.k n m }
def onStack (l : List Word) : State → State := onPath fun p => { p with stack := l }
def withJ (n : Nat) (m : Mask) : State → State := onTh fun t => { t with jregs := tset t.jregs n m }

def braMeets (w : Nat) (f : FmtB) (edit : State → State) (good : Mask → Mask → Bool) : Bool :=
  meetsB (at_ w edit) (.bra f) fun c => c.act != 0 &&
    good (c.act &&& (if f.g.toNat ≥ 8 then ~~~(kGet c.wg (f.g.toNat % 8)) else kGet c.wg (f.g.toNat % 8))) c.act

/-- O32: each SUB with a guard that holds everywhere, nowhere, and in the highest lane alone. -/
theorem test_meets_Branches :
    braMeets 0xFFFFFFFD0015E9B0 ⟨9, 350, 0, 0, 0, 4294967293⟩ id (fun held act => held == act) = true ∧
    braMeets 0xFFFFFFFD0015E1B0 ⟨1, 350, 0, 0, 0, 4294967293⟩ id (fun held _ => held == 0) = true ∧
    braMeets 0xFFFFFFFD0015E1B0 ⟨1, 350, 0, 0, 0, 4294967293⟩ (withK 1 0x80000000)
      (fun held act => held != 0 && held != act) = true ∧
    braMeets 0xFFFFFFFD1015E1B0 ⟨1, 350, 0, 0, 1, 4294967293⟩ (withK 1 0x80000000) (fun held _ => held != 0) = true ∧
    braMeets 0xFFFFFFFD1015E1B0 ⟨1, 350, 0, 0, 1, 4294967293⟩ id (fun held _ => held == 0) = true ∧
    braMeets 0xFFFFFFFD2015E9B0 ⟨9, 350, 0, 0, 2, 4294967293⟩ id (fun held act => held == act) = true ∧
    braMeets 0xFFFFFFFD2015E9B0 ⟨9, 350, 0, 0, 2, 4294967293⟩ (withK 1 0x80000000) (fun held act => held != act) = true := by
  decide +kernel

/-- The other path of the thread, lanes 16 to 31, waits at a join that names j1. -/
def oneJoined (s : State) : State :=
  withJ 1 0xFFFFFFFF (onTh (fun t => { t with paths := t.paths.flatMap fun p =>
    [{ p with mask := 0xFFFF }, { p with mask := 0xFFFF0000, wait := .join 1 }] }) s)

/-- O33: the fullest stack that takes a call and the full one, the smallest one that gives a return and the empty one;
`split` that divides, that does not, of a join register in use; `join` of an empty one, that waits, that is the last. -/
theorem test_meets_CallsSplitsAndJoins :
    meetsB (at_ 0x000000050015E0B3 (onStack (List.replicate 15 7))) (.call ⟨0, 350, 0, 0, 0, 5⟩)
      (fun c => c.pass != 0 && c.path.stack.length < 16) = true ∧
    meetsB (at_ 0x000000050015E0B3 (onStack (List.replicate 16 7))) (.call ⟨0, 350, 0, 0, 0, 5⟩)
      (fun c => c.pass != 0 && 16 ≤ c.path.stack.length) = true ∧
    meetsB (at_ 0x000000000015E0B4 (onStack [7])) (.ret ⟨0, 350, 0, 0, 0, 0⟩) (fun c => c.pass != 0 && c.path.stack == [7]) = true ∧
    meetsB (at_ 0x000000000015E0B4) (.ret ⟨0, 350, 0, 0, 0, 0⟩) (fun c => c.pass != 0 && c.path.stack.isEmpty) = true ∧
    meetsB (at_ 0x000000040435E0B1 (withK 2 1)) (.split ⟨0, 350, 1, 2, 0, 4⟩) (fun c => c.pass != 0 && jGet c.th 1 == 0 &&
      c.th.paths.all (fun p => p.wait != .join 1) && c.act &&& kGet c.wg 2 != 0 && c.path.mask &&& ~~~(c.act &&& kGet c.wg 2) != 0) = true ∧
    meetsB (at_ 0x000000040435E0B1) (.split ⟨0, 350, 1, 2, 0, 4⟩) (fun c => c.pass != 0 && jGet c.th 1 == 0 &&
      c.th.paths.all (fun p => p.wait != .join 1) && c.act &&& kGet c.wg 2 == 0) = true ∧
    meetsB (at_ 0x000000040035E0B1) (.split ⟨0, 350, 1, 0, 0, 4⟩) (fun c => c.pass != 0 && jGet c.th 1 == 0 &&
      c.th.paths.all (fun p => p.wait != .join 1) && c.path.mask &&& ~~~(c.act &&& kGet c.wg 0) == 0) = true ∧
    meetsB (at_ 0x000000040435E0B1 (withJ 1 1)) (.split ⟨0, 350, 1, 2, 0, 4⟩) (fun c => c.pass != 0 && jGet c.th 1 != 0) = true ∧
    meetsB (at_ 0x000000000175E0B2) (.join ⟨0, 350, 11, 0, 0, 0⟩) (fun c => c.pass != 0 && jGet c.th 11 == 0) = true ∧
    meetsB (at_ 0x000000000035E0B2 (withJ 1 0x1FFFFFFFF)) (.join ⟨0, 350, 1, 0, 0, 0⟩) (fun c => c.pass != 0 && jGet c.th 1 != 0 &&
      c.act &&& ~~~jGet c.th 1 == 0 && jGet c.th 1 &&& ~~~c.wg.exited &&& ~~~(arrivedAt c.th 1 ||| c.path.mask) != 0) = true ∧
    meetsB (at_ 0x000000000035E0B2 oneJoined) (.join ⟨0, 350, 1, 0, 0, 0⟩) (fun c => c.pass != 0 && jGet c.th 1 != 0 &&
      c.act &&& ~~~jGet c.th 1 == 0 && jGet c.th 1 &&& ~~~c.wg.exited &&& ~~~(arrivedAt c.th 1 ||| c.path.mask) == 0) = true := by
  decide +kernel

/-- A matrix token that has failed stands first in the queue. -/
def failedToken : State → State :=
  onWg fun w => { w with pad := { w.pad with queue := [{ op := .zclr 0, left := 0, tix := some 0, failed := some 0x40 }] } }
/-- A path that sleeps until cycle 0. -/
def sleeper : State := at_ 0x0000AF57ABD5E001 (onPath fun p => { p with wait := .sleep 0 })

/-- O34: counts of 0 and 1 and the largest; a path whose sleep is over; lanes that leave others, and the last ones with
a token that has failed. -/
theorem test_meets_YieldsAndExits :
    meetsB (at_ 0x000000000015E0B5) (.yield ⟨0, 350, 0, 0, 0, 0⟩) (fun c => c.pass != 0) = true ∧
    meetsB (at_ 0x00000000001080B6) (.sleep ⟨0, 264, 0, 0, 0, 0⟩) (fun c => c.pass != 0 && readOp 0 c 0x108 false 0 == 0) = true ∧
    meetsB (at_ 0x00000000001080B6 (withS [(8, 1)])) (.sleep ⟨0, 264, 0, 0, 0, 0⟩) (fun c => c.pass != 0 && readOp 0 c 0x108 false 0 == 1) = true ∧
    meetsB (at_ 0x00000000001080B6 (withS [(8, 0xFFFFFFFF)])) (.sleep ⟨0, 264, 0, 0, 0, 0⟩)
      (fun c => c.pass != 0 && readOp 0 c 0x108 false 0 == 0xFFFFFFFF) = true ∧
    (wgOf sleeper 1).any (fun w => (w.threads[0]?).any fun t => t.paths.any fun p => p.wait == .sleep 0 && p.mask.getLsbD 31) = true ∧
    meetsB (at_ 0x000000000015E0B7 (onWg fun w => { w with ntg := 2 })) (.exit ⟨0, 350, 0, 0, 0, 0⟩)
      (fun c => c.pass != 0 && !lastLanes c.wg c.pass) = true ∧
    meetsB (at_ 0x000000000015E0B7) (.exit ⟨0, 350, 0, 0, 0, 0⟩)
      (fun c => c.pass != 0 && lastLanes c.wg c.pass && (failedHead c.wg).isNone) = true ∧
    meetsB (at_ 0x000000000015E0B7 failedToken) (.exit ⟨0, 350, 0, 0, 0, 0⟩)
      (fun c => c.pass != 0 && lastLanes c.wg c.pass && (failedHead c.wg).isSome) = true := by decide +kernel

/-! ### Matrix unit and transfers (O35, O36) -/

def tilesMeet (w : Nat) (i : Instr) (f : FmtX) (a b : Nat) : Bool :=
  meetsB (at_ w (withS [(8, a), (9, b)])) i fun c =>
    let op := fun x => readOp 0 c x false (lowestLane c.pass)
    let e := tileBytes f.ta
    let stride := if op f.b = 0 then 32 * e else op f.b
    c.pass != 0 && c.path.mask != 0 && (failedHead c.wg).isNone && op f.a % e == 0 &&
      (op f.b == 0 || (op f.b % e == 0 && 32 * e ≤ op f.b)) && padHas c.wg.pad (op f.a) (31 * stride + 32 * e)

/-- O35: operands at the end of the allocation, a scaled product with loaded codebooks, the widest stride that fits. -/
theorem test_meets_MatrixInstructionsComplete :
    meetsB (at_ 0x000C40D7A13080C0 (withS [(8, 0x10000 - 2048), (9, 0)]))
      (.mma ⟨0, 264, 265, 350, 1, 0, 8, 8, 1, 0, 0, 0, 0⟩) (fun c =>
        let op := fun x => readOp 0 c x false (lowestLane c.pass)
        c.pass != 0 && c.path.mask != 0 && (failedHead c.wg).isNone && op 0x108 % 64 == 0 && op 0x109 % 64 == 0 &&
        mayTake 0 c.wg.pad && padHas c.wg.pad (op 0x108) (operandBytes 8 64) && padHas c.wg.pad (op 0x109) (operandBytes 8 64)) = true ∧
    meetsB (at_ 0x000C40D7A13080C0 (onWg fun w => { w with pad := { w.pad with throttle := some { ends := 9, next := 0, take := 1 } } }))
      (.mma ⟨0, 264, 265, 350, 1, 0, 8, 8, 1, 0, 0, 0, 0⟩) (fun c => c.pass != 0 && !mayTake 0 c.wg.pad) = true ∧
    meetsB (at_ 0x3C0660C2A13080C0 (fun s =>
        onWg (fun w => { w with pad := { w.pad with cb := [(0, 0), (7, 0)] } }) (withS [(9, 0x1000), (10, 0x2000)] s)))
      (.mma ⟨0, 264, 265, 266, 1, 0, 12, 12, 0, 0, 7, 1, 0⟩) (fun c =>
        let op := fun x => readOp 0 c x false (lowestLane c.pass)
        c.pass != 0 && (failedHead c.wg).isNone && op 0x108 % 64 == 0 && op 0x109 % 64 == 0 && op 0x10A % 64 == 0 &&
        padHas c.wg.pad (op 0x108) (operandBytes 12 32) && padHas c.wg.pad (op 0x109) (operandBytes 12 32) &&
        padHas c.wg.pad (op 0x10A) 64 && slotLoaded c.wg.pad 0 && slotLoaded c.wg.pad 7) = true ∧
    tilesMeet 0x00001BD7A13080C1 (.zld ⟨0, 264, 265, 350, 7, 0, 3, 0, 0, 0, 0, 0, 0⟩) ⟨0, 264, 265, 350, 7, 0, 3, 0, 0, 0, 0, 0, 0⟩ (0x10000 - 4096) 0 = true ∧
    tilesMeet 0x00001BD7A13080C2 (.zst ⟨0, 264, 265, 350, 7, 0, 3, 0, 0, 0, 0, 0, 0⟩) ⟨0, 264, 265, 350, 7, 0, 3, 0, 0, 0, 0, 0, 0⟩ 0 2108 = true ∧
    meetsB (at_ 0x00000157A12010C4 (withS [(9, 31)])) (.zwr ⟨0, 1, 265, 350, 2, 0, 0, 0, 0, 0, 0, 0, 0⟩) (fun c => c.pass != 0 &&
      (failedHead c.wg).isNone && (lanesOf c.pass).all fun l => readOp 0 c 0x109 false l ≤ 31) = true ∧
    meetsB (at_ 0x00000157A12010C3 (withS [(9, 31)])) (.zrd ⟨0, 1, 265, 350, 2, 0, 0, 0, 0, 0, 0, 0, 0⟩) (fun c => c.pass != 0 &&
      (failedHead c.wg).isNone && (lanesOf c.pass).all fun l => readOp 0 c 0x109 false l ≤ 31) = true ∧
    meetsB (at_ 0x000001D7ABD5E0C5) (.zclr ⟨0, 350, 350, 350, 3, 0, 0, 0, 0, 0, 0, 0, 0⟩) (fun c => c.pass != 0 && (failedHead c.wg).isNone) = true ∧
    meetsB (at_ 0x02800057ABD080C6 (withS [(8, 0xFFE0)])) (.cbld ⟨0, 264, 350, 350, 0, 0, 0, 0, 0, 5, 0, 0, 0⟩) (fun c => c.pass != 0 &&
      (failedHead c.wg).isNone && readOp 0 c 0x108 false 0 % 32 == 0 && padHas c.wg.pad (readOp 0 c 0x108 false 0) 32) = true := by
  decide +kernel

/-- A token whose last result is due. -/
def dueToken : MTok := { op := .zclr 7, left := 0, finish := some 0, tix := some 0 }

theorem test_meets_MatrixTokensAct :
    (wgOf (at_ 0x0000AF57ABD5E001 (onWg fun w => { w with pad := { w.pad with queue := [dueToken] } })) 1).any (fun w =>
      w.pad.queue == dueToken :: [] && (tokenBad w.pad dueToken).isNone) = true ∧
    dueToken.failed = none ∧ dueToken.finish = some 0 ∧ dueToken.old = [] ∧ (31 : Nat) < 32 ∧
    (3 : BitVec 4) ≠ 4 ∧ (3 : BitVec 4) ≠ 5 ∧ 1023 / 1024 ≠ 1 := by decide +kernel

/-- A descriptor of 4 words from the start of the scratchpad to global memory at 0x20000. -/
def withDescriptor : State → State := withS [(8, 0), (9, 0x20000), (10, 0x20), (11, 0), (12, 4 + 1 * 2 ^ 18 + 1 * 2 ^ 41)]
def withTag (n : Nat) (t : Tag) : State → State := onWg fun w => { w with pad := { w.pad with tags := [(n, t)] } }

def tagMeets (w : Nat) (i : Instr) (edit : State → State) (good : Ctx → Bool) : Bool :=
  meetsB (at_ w edit) i fun c => c.pass != 0 && c.path.mask != 0 && good c

/-- O36, instructions: the last words that a count takes, an empty tag, one that is not, one with a fault. -/
theorem test_meets_TransferInstructionsComplete :
    tagMeets 0x000007D7ABD080C7 (.xfer ⟨0, 264, 350, 350, 15, 0⟩) withDescriptor (fun c =>
      (match readDesc c.wg.pad (gangSize c.la) ((List.range 8).map fun i => sGet c.th (8 + i)) with
       | .ok src dst ssp dsp esz _ _ _ ls => (ssp != 1 || sideInside c.wg.pad src esz ls true) &&
          (dsp != 1 || sideInside c.wg.pad dst esz ls false) && (tagOf c.wg.pad 15).count + elemCount ls * 2 ^ esz / 4 < 2 ^ 20 &&
          elemCount ls == 4 && dst == 0x20000
       | _ => false) && !tokensQueued c.wg c.tix &&
      (releaseGang (runState (at_ 0x000007D7ABD080C7 withDescriptor) c (.xfer ⟨0, 264, 350, 350, 15, 0⟩)) c.wg.core).isSome) = true ∧
    tagMeets 0x00000757ABD090C8 (.expect ⟨0, 265, 350, 350, 14, 0⟩) (fun s => withTag 14 { count := 1 } (withS [(9, 2 ^ 20 - 2)] s))
      (fun c => (tagOf c.wg.pad 14).count + readOp 0 c 0x109 false 0 == 2 ^ 20 - 1 && (tagOf c.wg.pad 14).held.isEmpty) = true ∧
    tagMeets 0x00000757ABD090C8 (.expect ⟨0, 265, 350, 350, 14, 0⟩) (withTag 14 { count := 2 ^ 20 - 1 })
      (fun c => (tagOf c.wg.pad 14).count < 2 ^ 20 && readOp 0 c 0x109 false 0 == 0) = true ∧
    tagMeets 0x000001D7ABD5E0C9 (.waitc ⟨0, 350, 350, 350, 3, 0⟩) id (fun c => (tagOf c.wg.pad 3).fault.isNone && (tagOf c.wg.pad 3).count == 0) = true ∧
    tagMeets 0x000001D7ABD5E0C9 (.waitc ⟨0, 350, 350, 350, 3, 0⟩) (withTag 3 { count := 1 })
      (fun c => (tagOf c.wg.pad 3).fault.isNone && (tagOf c.wg.pad 3).count != 0) = true ∧
    tagMeets 0x000001D7ABD5E0C9 (.waitc ⟨0, 350, 350, 350, 3, 0⟩) (withTag 3 { fault := some 0x40 }) (fun c => (tagOf c.wg.pad 3).fault.isSome) = true := by
  decide +kernel

/-- A transfer of one word between the scratchpad of workgroup 1 at `a` and global memory at `b`. -/
def oneWord (a b ssp dsp : Nat) : Transfer :=
  { xid := 9, owner := .workgroup 1, lid := 0, ch := 2, src := if ssp = 1 then a else b, dst := if dsp = 1 then a else b,
    ssp := ssp, dsp := dsp, esz := 2, peer := 0, rtag := 0, member := 0,
    levels := [{ count := 1, start := 0, sstr := 1, dstr := 1, scirc := false, dcirc := false }], todo := [0] }
def transferring (t : Transfer) (s : State) : State := { s with transfers := [(9, t)] }
def landMeets (t : Transfer) (good : State → Bool) : Bool :=
  let s := at_ 0x0000AF57ABD5E001 (transferring t)
  t.todo == [0] && t.ready.isEmpty && t.start ≤ s.cycle &&
    match checkGroup t (groupMembers t.esz (elemCount t.levels) 0) s with
    | .ok [_] s1 => good s1
    | _ => false

/-- A peer's word for the last word of the scratchpad. -/
def lastWord : PeerWord := { member := 0, tag := 15, bytes := [(0xFFFC, 1), (0xFFFD, 2), (0xFFFE, 3), (0xFFFF, 4)], bind := 5 }
def receiving : State :=
  at_ 0x0000AF57ABD5E001 fun s => onLaunch (fun la => { la with bind := 5, bound := true }) (withTag 15 { count := 1 } s)

/-- O36, events. -/
theorem test_meets_TransferEvents :
    landMeets (oneWord 0xFFFC 0x20000 0 1) (fun s1 => (wgOf s1 1).isSome) = true ∧
    landMeets (oneWord 0xFFFC 0x20000 1 0) (fun s1 => !(inHost 0x20000 && !s1.linkUp)) = true ∧
    (let t := oneWord 0xFFFC (2 ^ 38) 0 1
     match checkGroup t (groupMembers t.esz (elemCount t.levels) 0) (at_ 0x0000AF57ABD5E001 (transferring t)) with | .fails _ => true | _ => false) = true ∧
    tfind (at_ 0x0000AF57ABD5E001 (transferring { oneWord 0 0 1 0 with acks := 1 })).transfers 9 = some { oneWord 0 0 1 0 with acks := 1 } ∧
    (wgOf (at_ 0x0000AF57ABD5E001 (transferring { oneWord 0 0 1 0 with todo := [], ready := [], sent := [], acks := 0, stop := some (7, 1) })) 1).any (fun w =>
      w.threads.all fun th => th.paths.all fun p => !waitsOn 2 p && (markedCause (at_ 0x0000AF57ABD5E001).cycle p.wait).isNone) = true ∧
    boundLaunch State.reset 5 = none ∧ boundLaunch receiving 5 = some 0 ∧ 0 < workgroupCount (launchOf receiving 0) ∧
    (match receiverOf receiving 0 0 with | .at_ w => w == 1 | _ => false) = true ∧
    (∃ h ∈ ({ receiving with heldWords := [lastWord] }).heldWords, h.bind = lastWord.bind ∧ h.member = lastWord.member) ∧
    receiving.heldWords = [] ∧ (match receiverOf (onLaunch (fun la => { la with nextGang := 0 }) { receiving with wgs := [] }) 0 0 with | .waits => true | _ => false) = true ∧
    (wgOf receiving 1).any (fun w => 0xFFFC + 4 ≤ w.pad.size && (tagOf w.pad 15).count != 0) = true := by decide +kernel

/-! ### System registers, phases, points and hops (O37 to O40) -/

/-- O37: `getsr` of a lane register, of an s register with the high half, and `setsr` are in `systemWords`; FPFLAGS behind
no matrix token. -/
theorem test_meets_SystemRegistersComplete :
    meetsB (at_ 0x000004042BCFE0D0) (.getsr ⟨0, 254, 350, 16, 1⟩) (fun c =>
      c.pass != 0 && c.path.mask != 0 && !tokensQueued c.wg c.tix && !isS 254 && wgOf (at_ 0x000004042BCFE0D0) c.wid == some c.wg) = true ∧
    meetsB (at_ 0x00000019EBD3F0D0) (.getsr ⟨0, 319, 350, 103, 0⟩) (fun c => c.pass != 0 && isS 0x13F) = true ∧
    meetsB (at_ 0x00000019E135E0D1) (.setsr ⟨0, 350, 265, 103, 0⟩) (fun c =>
      c.pass != 0 && (coreOf (at_ 0x00000019E135E0D1) c.wg.core).mbox.length == 8) = true ∧
    (7 : Nat) < 8 ∧ 0x068 ∉ [0x001, 0x003, 0x010, 0x011, 0x020, 0x046] := by decide +kernel

def burst : Phase := { onset := 0, stop := 0, int := 16 }
/-- O38: the words are in `systemWords`; a burst whose onset and stop have come, of a workgroup and of a launch, and a
region whose voltage is ready. -/
theorem test_meets_PhasesComplete :
    phaseAt (at_ 0x0000AF57ABD5E001 (onWg fun w => { w with phase := some burst })) (.workgroup 1) = some burst ∧
    phaseAt (at_ 0x0000AF57ABD5E001 (onLaunch fun la => { la with phase := some burst })) (.launch 0) = some burst ∧
    burst.onset ≤ State.reset.cycle ∧ burst.stop ≤ State.reset.cycle ∧
    (regionOf (modRegion State.reset 63 fun g => { g with settling := some 0 }) 63).settling = some 0 := by decide +kernel

/-- An equivalence table of one launch point, id 1, at canonical PC 0 and vector PC 3, marked at node 0, and an image
with three versions whose policy lets every hop be proposed. -/
def withPoint : State → State :=
  onLaunch fun la => { la with eqs := [1 + 1 * 2 ^ 16, 3 + 1 * 2 ^ 48, 0], policy := 2, hdr := la.hdr.set 0 (BitVec.ofNat 64 (2 ^ 51 + 7 * 2 ^ 48)) }
def withHop (h : HopReq) : State → State := onWg fun w => { w with hop := some h }
def eqpMeets (edit : State → State) (good : State → Ctx → Bool) : Bool :=
  let s := at_ 0x000004002BD5E0D8 fun s => edit (withPoint s)
  meetsB s (.eqp ⟨0, 350, 350, 0, 1⟩) fun c => c.act != 0 && c.path.mask != 0 && good s c
/-- Every path of the thread waits at the point. -/
def atThePoint : State → State := onPath fun p => { p with wait := .eqp 0 }

/-- `eqp` without a hop and with one, `hop` of the running form and of another, a proposal, the end of a wait, and hops
whose 16 cycles are over. -/
theorem test_meets_PointsAndHops :
    eqpMeets id (fun s c => (pendingHop s c.wg).isNone) = true ∧
    eqpMeets (withHop { form := .v }) (fun s c => pendingHop s c.wg == some { form := .v } && (pointNamed c.la 1).any fun e =>
      threadHolds c.wg c.th { form := .v } e && pointHolds c.wg { form := .v } e && c.path.stack.isEmpty && e.kind == 1 &&
      c.wg.threads == [c.th] && c.th.paths == [c.path] && c.th.halt.isNone) = true ∧
    eqpMeets (fun s => onPath (fun p => { p with stack := [7] }) (withHop { form := .v } s))
      (fun s c => pendingHop s c.wg == some { form := .v } && (pointNamed c.la 1).isSome && !c.path.stack.isEmpty) = true ∧
    eqpMeets (fun s => inTrap (withHop { form := .v } s)) (fun s c => pendingHop s c.wg == some { form := .v } &&
      (pointNamed c.la 1).any fun e => !threadHolds c.wg c.th { form := .v } e) = true ∧
    meetsB (at_ 0x000000002BD5E0D9) (.hop ⟨0, 350, 350, 0, 0⟩) (fun c => c.act != 0 && c.path.mask != 0 && !c.wg.strand) = true ∧
    meetsB (at_ 0x000004002BD5E0D9) (.hop ⟨0, 350, 350, 0, 1⟩) (fun c => c.act != 0 && c.path.mask != 0 && !c.wg.strand) = true ∧
    (let s := at_ 0x000004002BD5E0D8 withPoint
     !hopRuns s 0 && hasVersion (launchOf s 0) .v && policyAllows (launchOf s 0).policy.toNat (launchOf s 0).form .v &&
     (theWg s).lid == 0 && regionOfCore (theWg s).core == 0 && (launchOf s 0).form != .s && !(theWg s).strand) = true ∧
    (let s := at_ 0x000004002BD5E0D8 fun s => { atThePoint (withHop { form := .v } (withPoint s)) with cycle := 4096 }
     (pointWait (theWg s)).any fun x => x.2 == 0 && (pendingHop s (theWg s)).any (fun h => h.due.isNone) && x.2 + 4096 ≤ s.cycle) = true ∧
    (let s := at_ 0x000004002BD5E0D8 fun s => atThePoint (withHop { form := .v, point := some 1, due := some 0 } (withPoint s))
     (pointNamed (launchOf s 0) 1).any (fun e => e.vpc == some 3) && (coreOf s 0).cb.isEmpty && !(theWg s).strand &&
     (firstLive (theWg s)).isSome && (theWg s).hop == some { form := .v, point := some 1, due := some 0 }) = true ∧
    (let s := at_ 0x000004002BD5E0D8 fun s => inVForm (atThePoint (withHop { form := .t, point := some 1, due := some 0 } (withPoint s)))
     (theWg s).strand && (theWg s).threads[0]?.isSome && (theWg s).hop == some { form := .t, point := some 1, due := some 0 }) = true := by
  decide +kernel

/-- Queue 255 of partition 0, with a ring of 16 slots at `ring`. -/
def withQueue (ring en : Nat) (s : State) : State :=
  let pa := 0x30000 + 64 * 255
  modPart { s with mem := writeLE (writeLE (writeLE s.mem pa 8 ring) (pa + 8) 8 (4 * 2 ^ 32 + en)) (pa + 16) 8 0x4000 } 0 fun p =>
    { p with pd := p.pd.set 0 0x30000 }
def launchMeets (ring en : Nat) (good : QueueDesc → State → Bool) : Bool :=
  let s := at_ 0x0003FC00210010DA fun s => withQueue ring en (withS [(8, 0x20000)] s)
  meetsB s (.launch ⟨0, 1, 264, 0, 255⟩) fun c => c.pass != 0 && c.path.mask != 0 &&
    (drainAll (runState s c (.launch ⟨0, 1, 264, 0, 255⟩)) c.wg.core).any fun s1 =>
      (lanesOf c.pass).all (fun l => match readChild s1 c (readOp s.cycle c 0x108 true l) with | .ok _ => true | _ => false) &&
      good (queueDesc s1 c.la.part 255) s1

/-- O39: a queue that is not enabled, a ring that is not mapped, a ring that is. -/
theorem test_meets_LaunchCompletes :
    launchMeets 0x40000 0 (fun q _ => !q.en) = true ∧
    launchMeets (2 ^ 40) 1 (fun q s => q.en && match ringWritable s 0 q with | .fails _ => true | _ => false) = true ∧
    launchMeets 0x40000 1 (fun q s => q.en && !slotsLocked s 0 q 16 && match ringWritable s 0 q with | .ok _ => true | _ => false) = true := by decide +kernel

def pointLaunch (la : Launch) : State → State := fun s => withPoint { s with launches := tset s.launches 0 la }
def hopS : HopReq := { form := .s }

/-- The hops into and out of S-form. -/
theorem test_meets_SpatialHops :
    (let s := at_ 0x000004002BD5E0D8 fun s => modPart (atThePoint (onLaunch (fun la => { la with hop := some hopS }) (withPoint s))) 0
       fun p => { p with res := { p.res with saven := 64 } }
     (pointWait (theWg s)).any fun x => pendingHop s (theWg s) == some hopS && gathered (theWg s) x.1 && canSave s (1, theWg s) &&
      (match pointAt s (theWg s) x.1 (theWg s).strand with | .ok e => e | _ => none).any (fun e => pointHolds (theWg s) hopS e &&
        (contextFails s (launchOf s 0) (canonicalWg (locations (mapOf (launchOf s 0) e)) (parkedWg (theWg s) e.cpc))).isNone) &&
      !blockLocked s (theWg s).frame (frameBytes (launchOf s 0)) && (drainAll s (theWg s).core).isSome &&
      (launchOf s 0).form != .s) = true ∧
    (let s := { pointLaunch { probeLaunch with parkedAt := some 0, parked := [noWorkgroup], nextGang := 0 } State.reset with cycle := 65536 }
     (launchOf s 0).parkedAt == some 0 && (launchOf s 0).fabric.isNone && !allArrived s 0 (launchOf s 0) && 65536 ≤ s.cycle) = true ∧
    (let s := { pointLaunch { probeLaunch with wantsFabric := some 0, fabric := some {} } State.reset with cycle := 4096 }
     (launchOf s 0).wantsFabric == some 0 && (launchOf s 0).fabric.all (fun f => f.tiles.isEmpty) && 4096 ≤ s.cycle) = true ∧
    (let s := pointLaunch { probeLaunch with form := .s, fabric := some { state := .running, ncount := 1 }, hop := some { form := .t } } State.reset
     (launchOf s 0).fabric.any fun f => f.drain.isNone && (outPoint (launchOf s 0) f).isSome) = true ∧
    (let s := pointLaunch { probeLaunch with form := .s, fabric := some { state := .draining, drain := some (some .t) },
                                             hop := some { form := .t, point := some 1 } } State.reset
     drained s 0 && (drainTiles s (fabricOf s 0)).isSome && !exitLocked s (launchOf s 0) (fabricOf s 0) &&
      (exitFails s (launchOf s 0) (fabricOf s 0)).isNone && (pointNamed (launchOf s 0) (hopPoint (launchOf s 0))).isSome) = true ∧
    (let s := pointLaunch { probeLaunch with form := .s, fabric := some { state := .draining, drain := some none } } State.reset
     drained s 0 && (drainTiles s (fabricOf s 0)).isSome && !framesLocked s (fabricOf s 0).frames &&
      (tilesFail s (launchOf s 0) (fabricOf s 0)).isNone) = true := by
  decide +kernel

/-! ### Loads and slots (O41, O42) -/

/-- Partition 0 with four cores and a launch in S-form. -/
def sState (edit : Launch → Launch) (f : Fabric) : State :=
  { State.reset with
    mem := probeMemory [] 0
    parts := [(0, { res := { cores := [0, 1, 2, 3], pairs := 1, save := 0x100000, saven := 64 } })]
    launches := [(0, edit { probeLaunch with form := .s, fabric := some f })] }
def sinkTile : FTile := { core := 0, units := List.replicate 32 { q0 := 0xFFFFFFFFFFFFFFFF, finished := true } }
def oneTile (state : LoadState) : Fabric := { state := state, width := 1, height := 1, tiles := [{ core := 0 }] }
/-- The image's graph section is one load header of zeros, at 0x20000. -/
def withGraph (la : Launch) : Launch := { la with hdr := la.hdr.set 4 (BitVec.ofNat 64 (8 * 2 ^ 32 + 0x20000)) }
/-- The graph's one load: one tile, whose matrix node is a SINK. -/
def withLoad (s : State) : State :=
  { s with mem := writeLE (writeLE s.mem 0x20000 8 (16 * 2 ^ 32 + 2 ^ 16)) (0x20010 + 8 * 0x25A) 8 1 }
def aLoad (la : Launch) : Launch :=
  { la with hdr := la.hdr.set 4 (BitVec.ofNat 64 (6288 * 2 ^ 32 + 0x20000)), wantsFabric := some 0 }
def aPlan : LoadPlan := { width := 1, height := 1, nfirst := 0, ncount := 0, records := [(List.replicate 784 0).set 0x25A 1] }
def aFault : NodeFault :=
  { cause := .fabricNodeFault, detail := 0, record := 0, iter := 0, addr := 0, tile := 0, unit := 0, cpc := 0, cycle := 0 }

theorem test_meets_LoadsComplete :
    (let s := sState (fun la => { la with wantsFabric := some 0, savedFabric := some (oneTile .running) }) (oneTile .loading)
     (partOf s 0).placing.isNone && (nextPick s 0 == some (.rect 0 0)) && (launchOf s 0).savedFabric.any fun f => (streamLoad s 0 (restoreFabric s (launchOf s 0) f 0)).isSome && !framesLocked s f.frames && (framesFail s 0 f.frames).isNone) = true ∧
    (let s := sState (fun la => withGraph { la with wantsFabric := some 0 }) { width := 1, height := 1 }
     (partOf s 0).placing.isNone && (nextPick s 0 == some (.rect 0 0)) && (launchOf s 0).savedFabric.isNone &&
       (launchOf s 0).plans.isEmpty && match entryPlans s (launchOf s 0) with | .ok (.error _) => true | _ => false) = true ∧
    (let s := withLoad (sState aLoad { width := 1, height := 1 })
     (partOf s 0).placing.isNone && (nextPick s 0 == some (.rect 0 0)) && (launchOf s 0).savedFabric.isNone &&
       ((launchOf s 0).fabric.map (·.load)).getD 0 == 0 && (launchOf s 0).plans.isEmpty && wantedSize (launchOf s 0) == (1, 1) &&
       match entryPlans s (launchOf s 0) with | .ok (.ok [p]) => p == aPlan | _ => false) = true ∧
    (let s := sState (fun la => { aLoad la with plans := [aPlan] }) { width := 1, height := 1 }
     (partOf s 0).placing.isNone && (nextPick s 0 == some (.rect 0 0)) && (launchOf s 0).savedFabric.isNone &&
       (launchOf s 0).plans[((launchOf s 0).fabric.map (·.load)).getD 0]? == some aPlan) = true ∧
    ((oneTile .loading).ackDue ≤ 4095 ∧ 4095 < (oneTile .loading).streamed + 4096 ∧ (oneTile .loading).tiles ≠ []) ∧
    ((0 : Nat) + 4096 ≤ 4096 ∧ (0 : Nat) + 4096 ≤ 4096 ∧ ({ oneTile .loading with ackDue := 4096, resumed := true }).resumed = true) ∧
    ({ oneTile .freezing with quiet := 64, fault := some aFault }).fault = some aFault ∧
    (let s := sState id { oneTile .running with quiet := 4095 }
     (fabricOf s 0).state == .running && 4095 ≤ (fabricOf s 0).quiet && !(fabricOf s 0).moved && !workFlies s 0 && !loadDone s 0) = true ∧
    (let s := sState withGraph { oneTile .running with tiles := [sinkTile] }
     loadDone s 0 && ((fabricOf s 0).tiles.foldlM (fun s t => drainAll s t.core) s).isSome && (launchOf s 0).plans[(fabricOf s 0).load + 1]?.isNone) = true ∧
    (let s := sState id { oneTile .draining with stopAt := some 0, quiet := 64 }
     let f := fabricOf s 0
     f.drain.isNone && !inFlightWork s 0 && (drainTiles s f).isSome && !exitLocked s (launchOf s 0) f &&
      (exitFails s (launchOf s 0) f).isNone && (liveRecords (launchOf s 0) (startWgs (launchOf s 0) 0 s.cycle f)).all fun q =>
       (standing (launchOf s 0) f (isLastLoad (launchOf s 0) f) (workTokens f) 0 q).isSome) = true := by decide +kernel

/-- O42: the element that `withFetchWord` builds, and each way that DA and DB are apart. -/
def slotState (w : Nat) : State := match nextAct (State.reset.withFetchWord 32 w) with | .run _ s => s | .ended s => s
theorem test_meets_SlotsFire :
    Fires (slotState 0x00000000FFCE4402) 0 0 0 0 ⟨3, 1, 7, 15, 3, 9, 1, 0⟩
      (unitOf (slotState 0x00000000FFCE4402) 0 0 0) ∧
    fmtOf ((unitOf (slotState 0) 0 0 0).q0.extractLsb' 4 4) = some fmtF32 := by
  refine ⟨⟨by decide +kernel, ⟨_, _, _, rfl, rfl, rfl, by decide +kernel⟩, by decide +kernel, by decide +kernel, by decide +kernel,
    by decide⟩, by decide +kernel⟩


/-! ### Units of a load (O43 to O45) -/

/-- Some unit of launch 0's tile 0 acts and meets `hyp`. -/
def ActsMeet (s : State) (unit : Nat) (hyp : Fabric → FTile → FUnit → Prop) : Prop :=
  ∃ fab ft u, Acts s 0 0 unit fab ft u ∧ hyp fab ft u

def actsB (s : State) (unit : Nat) (good : Fabric → FTile → FUnit → Bool) : Bool :=
  ((tfind s.launches 0).bind (·.fabric)).any fun fab => (fab.tiles[0]?).any fun ft => (ft.units[unit]?).any fun u =>
    fires fab && !u.faulted && !u.stopped && !stepArmed s 0 && !siteArmed s 0 0 unit 31 && fab.stopAt.isNone &&
    decide (u.ins.length = 4) && decide (u.outs.length = 4) && good fab ft u

theorem acts_of {s : State} {unit : Nat} {good : Fabric → FTile → FUnit → Bool} (h : actsB s unit good = true) :
    ActsMeet s unit fun fab ft u => good fab ft u = true := by
  simp only [actsB, Option.any_eq_true, Bool.and_eq_true, Bool.not_eq_true', decide_eq_true_eq, Option.isNone_iff_eq_none] at h
  obtain ⟨fab, hf, ft, ht, u, hu, ⟨⟨⟨⟨⟨⟨⟨⟨h1, h2⟩, h3⟩, h4⟩, h5⟩, h6⟩, h7⟩, h8⟩, h9⟩⟩ := h
  obtain ⟨la, hla, hfab⟩ := Option.bind_eq_some_iff.mp hf
  exact ⟨fab, ft, u, ⟨⟨la, hla, hfab⟩, ht, hu, ⟨h1, h2, h3⟩, ⟨h4, h5, h6⟩, ⟨h7, h8⟩⟩, h9⟩

def blank : FUnit := { ins := List.replicate 4 {}, outs := List.replicate 4 {}, regs := List.replicate 6 0 }
/-- Tokens at an input. -/
def feed (n : Nat) (l : List Token) (u : FUnit) : FUnit := { u with ins := u.ins.modify n fun c => { c with toks := c.toks ++ l } }
/-- A packet staged at an output. -/
def staged (n : Nat) (l : List Token) (d : List Dest) (u : FUnit) : FUnit :=
  { u with outs := u.outs.modify n fun c => { c with toks := l, dests := d, filled := 0 } }
/-- A tile whose unit `unit` is `u`, in a load that runs, at cycle 1. -/
def unitState (unit : Nat) (u : FUnit) (tile : FTile → FTile := id) (fab : Fabric → Fabric := id) : State :=
  let t : FTile := { core := 0, units := (List.replicate 32 blank).set unit u, ports := List.replicate 5 [], pad := { size := 0x10000 } }
  { sState id (fab { state := .running, width := 1, height := 1, tiles := [tile t] }) with cycle := 1 }
def tok (d : Word) (tag mark : BitVec 4 := 0) : Token := .data d tag mark 0

/-- O43: a packet for a channel with its last place free and for a full one; a packet at the router of the last port; a
marker at the only input. -/
theorem test_meets_PacketsMove :
    (ActsMeet (unitState 0 (staged 3 [tok 1] [.chan 1 3] blank) (fun t => { t with units := t.units.modify 1 (feed 3 [tok 0, tok 0, tok 0]) })) 0
      fun _ ft u => ((outOf u 3).dests == [.chan 1 3] && !(outOf u 3).toks.isEmpty && (outOf u 3).filled < 1 &&
        (ft.units[1]?).any fun x => x.ins.length == 4 && channelTakes 1 (inOf x 3) (outOf u 3).toks) = true) ∧
    (ActsMeet (unitState 0 (staged 3 [tok 1] [.chan 1 3] blank) (fun t => { t with units := t.units.modify 1 (feed 3 (List.replicate 4 (tok 0))) })) 0
      fun _ ft u => ((outOf u 3).dests == [.chan 1 3] && (ft.units[1]?).any fun x => !channelTakes 1 (inOf x 3) (outOf u 3).toks) = true) ∧
    (ActsMeet (unitState 31 blank (fun t => { t with
        ports := t.ports.set 4 [{ toks := [tok 7], cls := 2, left := [0], came := 0 }], routes := [0, 0, 31 * 128 + 3 * 32 + 1] })) 31
      fun _ ft u => (ft.ports.length == 5 && ft.ports.getD 4 [] == [{ toks := [tok 7], cls := 2, left := [0], came := 0 }] &&
        fld (ft.routes.getD 2 0) 11 7 == 31 && fld (ft.routes.getD 2 0) 6 5 == 3 && channelTakes 1 (inOf u 3) [tok 7]) = true) ∧
    markerReady (unitState 25 (feed 0 [.marker] { blank with ins := blank.ins.modify 0 fun c => { c with cfg := 0x80 } }) id
      (fun f => { f with state := .draining, drain := some none })) 0 0 25 = true :=
  ⟨acts_of (by decide +kernel), acts_of (by decide +kernel), acts_of (by decide +kernel), by decide +kernel⟩

/-- O44: a steer with one place left in its FIFO; a window with one place left; a merge whose steer stands two units
below; the last place of a block and one token too many; the last token of a block, a count of 0 and of 1; a generator
that is gated and one that is not. -/
theorem test_meets_StreamNodesAct :
    (ActsMeet (unitState 16 (feed 1 [tok 3] (feed 0 [tok 8 2 5] { blank with fifo := List.replicate 63 (0, true, 0) }))) 16 fun _ _ u =>
      ((headOf u 0).isSome && (headOf u 1).isSome && u.fifo.length < 64 && outEmpty u 1) = true) ∧
    (ActsMeet (unitState 18 (feed 1 [tok 3] { blank with window := List.replicate 15 (true, tok 0) })) 18 fun _ _ u =>
      (windowArms (unitState 18 (feed 1 [tok 3] { blank with window := List.replicate 15 (true, tok 0) })) 0 0 18 == [true] &&
        (headOf u 1).isSome && u.window.length < windowOf u) = true) ∧
    (let s := unitState 18 (feed 1 [tok 3] blank) fun t => { t with units := t.units.modify 16 fun x => { x with fifo := [(0, true, 15)] } }
     ActsMeet s 18 fun _ ft u => (mergeReady s 0 0 18 && mergeHead s 0 0 18 == some (true, 15) && (armToken u true).isSome &&
       (ft.units[16]?).isSome) = true) ∧
    (ActsMeet (unitState 20 (feed 0 [tok 3] { blank with block := List.replicate 1023 (tok 0) })) 20 fun _ _ u =>
      ((headOf u 0).isSome && !u.whole && u.block.length < 1024) = true) ∧
    (ActsMeet (unitState 20 (feed 0 [tok 3] { blank with block := List.replicate 1024 (tok 0) })) 20 fun _ _ u =>
      ((headOf u 0).isSome && !u.whole && 1024 ≤ u.block.length) = true) ∧
    (ActsMeet (unitState 20 { blank with whole := true, block := [tok 3], emit := [tok 3] }) 20 fun _ _ u =>
      (u.whole && u.emit == [tok 3] && u.counter == 0 && outEmpty u 0) = true) ∧
    (ActsMeet (unitState 20 (feed 1 [tok 0] { blank with whole := true, block := [tok 3] })) 20 fun _ _ u =>
      (u.whole && u.emit.isEmpty && (headOf u 1).any fun x => x.1 == 0) = true) ∧
    (ActsMeet (unitState 20 (feed 1 [tok 1] { blank with whole := true, block := [tok 3] })) 20 fun _ _ u =>
      (u.whole && u.emit.isEmpty && (headOf u 1).any fun x => x.1 == 1) = true) ∧
    (let s := unitState 21 { blank with q0 := 0x10002 }
     ActsMeet s 21 fun fab _ u => (unitInUse fab 0 21 && outEmpty u 0 && (agPass s 0 0 21).any fun p => p.2.2.2) = true) ∧
    (let s := unitState 21 (feed 0 [tok 9] { blank with q0 := 0x400000000010002 })
     ActsMeet s 21 fun fab _ u => (unitInUse fab 0 21 && outEmpty u 0 && (agPass s 0 0 21).any fun p => p.2.2.2) = true) :=
  ⟨acts_of (by decide +kernel), acts_of (by decide +kernel), acts_of (by decide +kernel), acts_of (by decide +kernel),
   acts_of (by decide +kernel), acts_of (by decide +kernel), acts_of (by decide +kernel), acts_of (by decide +kernel),
   acts_of (by decide +kernel), acts_of (by decide +kernel)⟩

/-- Q0 of a memory node of the scratchpad, u32, a load or a store. -/
def nodeQ0 (store : Bool) : Dbl := BitVec.ofNat 64 (15 * 2 ^ 32 + (if store then 2 ^ 36 else 0) + 2 * 2 ^ 37 + 2 ^ 41)
/-- Q0 of an owner of 64 KiB of u32 words that returns the old values. -/
def ownerQ0 : Dbl := BitVec.ofNat 64 (0x10000 * 2 ^ 20 + 2 * 2 ^ 40 + 2 ^ 44)

/-- O45: a load and a store of the last word of the tile's scratchpad; a completion that is due, and one
whose value waits; a control token of `zclr`, a node that may take none, a `zrd` whose completion is due; an update of the last owned word; the last free place for a descriptor's words; an `expect` to the highest count. -/
theorem test_meets_ServiceNodesAct :
    (let s := unitState 25 (feed 0 [tok 0xFFFC] { blank with q0 := nodeQ0 false })
     ActsMeet s 25 fun _ ft u => (memReady s 0 0 25 && u.q0.getLsbD 41 && !u.q0.getLsbD 36 &&
       nodeAddr (launchOf s 0) u 0xFFFC == 0xFFFC && !nodeWatched s 0 u 0xFFFC && accessBytes (nodeTy u) == 4 &&
       padHas ft.pad 0xFFFC 4 && !padBad ft.pad 0xFFFC 4) = true) ∧
    (let s := unitState 25 (feed 1 [tok 5] (feed 0 [tok 0xFFFC] { blank with q0 := nodeQ0 true }))
     ActsMeet s 25 fun _ ft u => (memReady s 0 0 25 && u.q0.getLsbD 41 && u.q0.getLsbD 36 && (headOf u 1).isSome &&
       nodeAddr (launchOf s 0) u 0xFFFC == 0xFFFC && !nodeWatched s 0 u 0xFFFC && padHas ft.pad 0xFFFC 4) = true) ∧
    (ActsMeet (unitState 28 { blank with access := some { value := some 7, tag := 1, mark := 15, record := 0, due := 1 } }) 28 fun _ _ u =>
      (u.access.any (fun a => !a.performed && a.due ≤ 1) && outEmpty u 0 && outEmpty u 1 && u.owed.isEmpty) = true) ∧
    (ActsMeet (unitState 25 (staged 0 [tok 1] [.chan 1 0] { blank with access := some { value := some 7, tag := 1, mark := 0, record := 0, due := 1 } })) 25 fun _ _ u =>
      (u.access.any (fun a => !a.performed && a.value.isSome && a.due ≤ 1) && !outEmpty u 0 && outEmpty u 1 && u.owed.isEmpty) = true) ∧
    (let s := unitState 29 (feed 0 [tok 3] blank)
     ActsMeet s 29 fun _ ft u => ((headOf u 0).any (fun x => x.1 == 3) && u.columns.isEmpty && u.owed.isEmpty && (headDue 1 ft.pad).isNone && ft.pad.queue.length < 8 &&
       u.taken.length ≤ ft.pad.queue.length && mayTake 1 ft.pad && (mxInputs (mxFmt 3) (fld (3 : Word) 3 0)).all (hasHead u) &&
       okB (mxToken (launchOf s 0) ft.pad 3 0 0 0 0) fun _ => true) = true) ∧
    (ActsMeet (unitState 29 blank (fun t => { t with pad := { t.pad with throttle := some { ends := 9, next := 0, take := 2 } } })) 29 fun _ ft u =>
      (u.columns.isEmpty && u.owed.isEmpty && u.taken.isEmpty && (headDue 1 ft.pad).isNone && !mayTake 1 ft.pad) = true) ∧
    (ActsMeet (unitState 29 { blank with taken := [.data 4 0 15 7] }) 29 fun _ ft u =>
      ((headOf u 0).isNone && u.columns.isEmpty && u.owed.isEmpty && u.taken == [.data 4 0 15 7] && ft.pad.queue.isEmpty &&
       outEmpty u 0 && outEmpty u 1) = true) ∧
    (ActsMeet (unitState 30 (feed 0 [tok 0xFFFC 9, tok 5] { blank with q0 := ownerQ0 })) 30 fun _ ft u =>
      ((inOf u 0).toks.length == 2 && u.q0.getLsbD 44 && outEmpty u 0 && 0xFFFC + 4 ≤ fld u.q0 39 20 && padHas ft.pad 0xFFFC 4 &&
       (aopTypes 9).contains (u.q0.extractLsb' 40 4).toNat) = true) ∧
    (ActsMeet (unitState 31 (feed 0 [tok 5] { blank with taken := List.replicate 14 (tok 0) })) 31 fun _ _ u =>
      ((headOf u 0).isSome && u.owed.isEmpty && u.taken.length < 15) = true) ∧
    (let s := unitState 31 (feed 1 [tok 0xFFFFF 15] blank)
     ActsMeet s 31 fun _ ft u => ((headOf u 1).isSome && (mxEnv (launchOf s 0)).excl && (tagOf ft.pad 15).count + 0xFFFFF < 2 ^ 20) = true) :=
  ⟨acts_of (by decide +kernel), acts_of (by decide +kernel), acts_of (by decide +kernel), acts_of (by decide +kernel),
   acts_of (by decide +kernel), acts_of (by decide +kernel), acts_of (by decide +kernel), acts_of (by decide +kernel),
   acts_of (by decide +kernel), acts_of (by decide +kernel)⟩

/-! ### The strip, launches and the distributor (O46 to O50) -/

/-- Partition 0 with cores 0 to 3 and 4 MiB of save pool; queue 255 with its ring at 0x40000, its write index and its
read index; the doubles of the ring's first slot. -/
def stripState (wr : Nat) (slot : List Nat) (edit : State → State := id) : State :=
  let pa := 0x30000 + 64 * 255
  let s := withQueue 0x40000 1 (sState id {})
  edit { s with launches := [], mem := slot.zipIdx.foldl (fun m x => writeLE m (0x40000 + 8 * x.2) 8 x.1) (writeLE s.mem (pa + 24) 8 wr) }
def awake : State → State := fun s => modStrip s 0 fun t => { t with awake := true }
def inStage (n : Nat) (p : StripPacket) : State → State := fun s => modStrip s 0 fun t => { t with stages := [(n, p)] }
def newPacket (type : Nat) (doubles : List Dbl := []) : StripPacket :=
  { queue := 255, index := 0, type := type, doubles := doubles, qpa := 0x30000 + 64 * 255, slot := 0x40000, asid := 0, root := 0x4000 }
def gotB {α : Type} (x : Got α) (good : α → Bool := fun _ => true) : Bool := match x with | .ok y => good y | _ => false

/-- Arbitration with a packet in queue 255, with another partition of the die that goes first, and with nothing ready. -/
theorem test_meets_QueueArbitration :
    (let s := stripState 1 [2] awake
     pickQueue s 0 == some 255 && (stripOf s 0).awake && stageFree s 0 1 && (stripOf s 0).refused.isEmpty && servedNext s 0 &&
       match nextSlot s 0 (queueDesc s 0 255) with | .packet d => d != 0 | _ => false) = true ∧
    (List.range 256).all (fun m => let q := queueDesc (stripState 1 [2] awake) 0 m
      !q.en || (queueBad q).isNone) = true ∧
    (let s := stripState 1 [2] fun s => modStrip { s with parts := s.parts.map (fun x => (x.1, { x.2 with res := { x.2.res with cores := [0] } })) ++
        (s.parts.map fun x => (1, { x.2 with res := { x.2.res with cores := [1] } })) } 0 fun t => { t with servedAt := 1, awake := true }
     pickQueue s 0 == some 255 && stageFree s 0 1 && !servedNext s 0) = true ∧
    pickQueue (stripState 0 [] awake) 0 = none := by decide +kernel

/-- A packet in each stage: a WAIT read from the slot, checked, about to stand aside, a SIGNAL on its way, a SIGNAL that
adds, a COPY of one word and of two; a parked packet whose signal holds; a WAIT-ALL of no signals; a packet with a
completion signal. -/
theorem test_meets_PacketsComplete :
    (let p := newPacket 2
     let s := stripState 1 [2, 0x50000] (inStage 1 p)
     stageFree s 0 2 && match readEach s (packetSpace s 0 p) p.slot 16 with
       | some (ds, unread) => (freeSlot s 0 { p with doubles := ds, unread := unread, type := fld (ds.getD 0 0) 7 0 }).isSome
       | none => false) = true ∧
    (let p := newPacket 2 [2, 0x50000]
     let s := stripState 1 [] (inStage 2 p)
     stageFree s 0 3 && match stage2 s 0 p with | some (.ok _) => true | _ => false) = true ∧
    (let p := newPacket 2 [2 + 2 ^ 63, 0x50000]
     let s := stripState 1 [] (inStage 2 p)
     !unstarted (stripOf s 0) 255 2 && (stripOf s 0).parked.isEmpty && match stage2 s 0 p with | some (.error _) => true | _ => false) = true ∧
    unstarted (stripOf (stripState 1 [] (inStage 4 (newPacket 3))) 0) 255 3 = true ∧
    unstarted (stripOf (stripState 1 [] (inStage 3 (newPacket 3))) 0) 255 3 = false ∧
    isWait (newPacket 2) = true ∧ isWait (newPacket 5) = true ∧ isWait (newPacket 3) = false ∧
    (let s := stripState 1 [] (inStage 5 (newPacket 3))
     stageFree s 0 6 && (beforeActions s 0 (packetSpace s 0 (newPacket 3)) []).isSome) = true ∧
    stageFree (stripState 1 [] (inStage 3 (newPacket 3))) 0 4 = true ∧ stageFree (stripState 1 [] (inStage 4 (newPacket 3))) 0 5 = true ∧
    (let p := newPacket 3 [3, 0x50000, 7, 1]
     let s := stripState 1 [] (inStage 6 p)
     (pd p 3).getLsbD 0 && gotB (probe s (packetSpace s 0 p) .write 0x50000) (fun pa => !badData s pa 8) &&
       gotB (devStore s 0 (packetSpace s 0 p) 0x50000 (fun old => toBytes 8 ((old + 7) % 2 ^ 64)) 8)) = true ∧
    (let p := newPacket 4 [4, 0x50000, 0x60000, 4]
     let s := stripState 1 [] (inStage 6 p)
     p.todo.isNone && (List.range (fld (pd p 3) 39 0 / 4)).erase 0 == [] && gotB (readDbl s (packetSpace s 0 p) 0x50000) &&
       gotB (devStore s 0 (packetSpace s 0 p) 0x60000 (fun _ => toBytes 4 0) 4)) = true ∧
    (let p := { newPacket 4 [4, 0x50000, 0x60000, 8] with todo := some [1, 0] }
     ((p.todo.getD []).erase 1).isEmpty = false ∧ ((p.todo.getD []).erase 0).isEmpty = false) ∧
    (let p := newPacket 2 [2, 0x50000, 0, 0]
     let s := stripState 1 [] fun s => modStrip s 0 fun t => { t with parked := [p] }
     (stripOf s 0).parked.find? (·.queue = 255) == some p && parkedMet s 0 p == some none &&
       (beforeActions s 0 (packetSpace s 0 p) p.bufs).isSome && gotB (readDbl s (packetSpace s 0 p) 0x50000)) = true ∧
    signalsOf (newPacket 5 [5]) = [] ∧
    (let p := { newPacket 2 [2, 0, 0, 0, 0, 0x50000, 9] with done := true }
     let s := stripState 1 [] fun s => modStrip s 0 fun t => { t with running := [p] }
     ((stripOf s 0).running.find? fun r => r.queue = 255 && r.index = 0 && r.done) == some p &&
       gotB (devStore s 0 (packetSpace s 0 p) 0x50000 (fun _ => toBytes 8 9) 8)) = true := by decide +kernel

/-- An image of one version at 0x50000, and a LAUNCH packet for one workgroup of it. -/
def withImage (s : State) : State :=
  let words := [0x31535948 + 2 ^ 32 + 2 ^ 48, 2 ^ 18 + 2 ^ 13 + 15, 16 * 2 ^ 32 + 0x1000]
  { s with mem := words.zipIdx.foldl (fun m (x : Nat × Nat) => writeLE m (0x50000 + 8 * x.2) 8 x.1) s.mem }
def launchPacket : StripPacket := newPacket 1 [1, 0x50000]
def imageRead : Image :=
  match readImage (withImage (stripState 1 [])) (packetSpace (stripState 1 []) 0 launchPacket) 0x50000 with
  | .ok im => im
  | _ => ⟨[], [], [], [], []⟩
theorem test_meets_LaunchPackets :
    (let s := stripState 1 [] fun s => inStage 4 launchPacket (withImage s)
     let la := launchOfPacket 0 launchPacket imageRead
     gotB (readImage s (packetSpace s 0 launchPacket) 0x50000) (fun im => im == imageRead) && !headerBad imageRead.hdr &&
       !packetMismatch la && stageFree s 0 5) = true ∧
    (let s := stripState 1 [] fun s => inStage 6 { launchPacket with image := some imageRead } (withImage s)
     let la := launchOfPacket 0 { launchPacket with image := some imageRead } imageRead
     startForm s la == some (.t, 1, 1) && !unplaceable s la) = true ∧
    (let la := aLoad (launchOfPacket 0 (newPacket 1 [1, 0, 0, 0x2000]) { imageRead with hdr := BitVec.ofNat 64 (2 ^ 50) :: List.replicate 9 0 })
     startForm (withLoad (stripState 1 [])) la == some (.s, 1, 1)) = true ∧
    pkt probeLaunch 4 = 0 ∧ pkt { probeLaunch with pkt := [1, 0, 0, 0, 9] } 4 ≠ 0 ∧ (8 : Nat) < 9 := by decide +kernel

/-- Launch 0 waits with its only gang; launch 1 is placed on core 0, the partition's only one. -/
def waitingState (cores : List Nat) (since : Nat) : State :=
  { sState (fun la => { la with form := .t, fabric := none, nextGang := 0, hdr := probeHeader.set 1 (probeHeader.getD 1 0 - 7 * 512), pkt := la.pkt.set 0 0x101 }) {} with
    cycle := 65536
    parts := [(0, { res := { cores := cores, pairs := 1, save := 0x100000, saven := 64 }, firstFailed := some (0, since) })] }
def crowded : State :=
  let s := waitingState [0] 0
  { s with launches := s.launches ++ [(1, { probeLaunch with placed := [(0, 5)] })], wgs := [(7, freshWorkgroup probeLaunch 1 0 0 0 0 0 [0])] }

theorem test_meets_GangsArePlaced :
    (let s := waitingState [0, 1] 65000
     (gangFits s (launchOf s 0) 0 true).isSome && (partOf s 0).placing.isNone && match nextPick (noteFirst s 0) 0 with
       | some (.gang lid gang fresh cores _) => lid == 0 && gang == 0 && fresh && decide ((placeCores s 0).Nodup) &&
           (cores.foldlM (setSpu (imgScratch (launchOf s lid))) (noteFirst s 0)).isSome
       | _ => false) = true ∧
    (let s := modPart (waitingState [0, 1] 0) 0 fun p => { p with
       placing := some { lid := 0, gang := 0, fresh := true, cores := [1], frames := [0x100000], due := 65536 } }
     (partOf s 0).placing.any (fun pl => pl.due ≤ s.cycle && pl.fresh && (tfind s.launches pl.lid).isSome)) = true ∧
    (let s := crowded
     (partOf s 0).firstFailed == some (0, 0) && 0 + 65536 ≤ s.cycle && ((distList s 0).head?.map (·.1)) == some 0) = true := by decide +kernel

theorem test_meets_PreemptionAndRetirement :
    (4095 < imgScratch { probeLaunch with hdr := [0, 0xFFFFFFFFFFFFFFFF] } ∧
      (0 : Nat) < 1 ∧ (1 : Nat) + frameBytes probeLaunch ≤ 1 + frameBytes probeLaunch) ∧
    (let s := crowded
     ((distList s 0).head?.any fun x => x.1 == 0 && (pickOf s x).isNone &&
       firstVictim ((s.launches.filter fun y => y.2.part = 0 && priOf y.2 < priOf x.2).flatMap (victimsOf s)) == some (.gang 1 0)) &&
     (partOf s 0).firstFailed == some (0, 0) && (savingGangs s 0).isEmpty && !fabricSaving s 0) = true ∧
    (let s := at_ 0x0000AF57ABD5E001 (onWg fun w => { w with exited := fullMask 1 })
     (wgOf s 1).any fun w => mayRetire s 1 w && (drainAll s w.core).isSome && (launchOf s 0).retired + 1 == workgroupCount (launchOf s 0)) = true ∧
    (let s := at_ 0x0000AF57ABD5E001 fun s => onLaunch (fun la => { la with pkt := la.pkt.set 2 1 }) (onWg (fun w => { w with exited := fullMask 1 }) s)
     (wgOf s 1).any fun w => mayRetire s 1 w && (launchOf s 0).retired + 1 != workgroupCount (launchOf s 0)) = true := by decide +kernel

def aRecord (target : Option (Nat × Nat)) : EscRecord := { doubles := List.replicate 8 0, lid := 0, target := target }
/-- A ring of 16 records of which `n` are written and none is read. -/
def withRing (n : Nat) (s : State) : State :=
  modPart s 0 fun p => { p with ed := [0x70000, 4 * 2 ^ 32, BitVec.ofNat 64 n], escPending := [aRecord none], escWritten := [(3, aRecord (some (0, 0))), (4, aRecord none)] }

theorem test_meets_EscalationRecords :
    (let s := at_ 0x0000AF57ABD5E001 (withRing 15)
     (partOf s 0).escPending.length == 1 && ringRoom (partOf s 0) && !lockedFor s none (0x70000 + 64 * 15) 64) = true ∧
    lockedFor { at_ 0x0000AF57ABD5E001 (withRing 15) with locks := [(0x70000 / 32 + 30, 0, 0)] } none (0x70000 + 64 * 15) 64 = true ∧
    (0x70000 + 64 * 15 < 2 ^ 51) ∧
    ringRoom (partOf (at_ 0x0000AF57ABD5E001 (withRing 16)) 0) = false ∧
    (let s := at_ 0x0000AF57ABD5E001 fun s => onTh (fun t => { t with halt := some (.escalated false) }) (withRing 0 s)
     tfind (partOf s 0).escWritten 4 == some (aRecord none) && tfind (partOf s 0).escWritten 3 == some (aRecord (some (0, 0))) &&
     (theWg s).lid == 0 && (theWg s).w == 0 && (theTh s).halt == some (.escalated false) && (tfind s.launches 0).isSome &&
     fld ((aRecord none).doubles.getD 0 0) 63 32 != 0xFFFFFFFF) = true := by decide +kernel

/-! ### Power, partitions and the platform (O51 to O58) -/

theorem test_meets_RegionControllers :
    (let g : Region := {}
     g.stopKind = 0 ∧ g.band.toNat < 6 ∧ g.boost = 0 ∧ g.raise = 0 ∧ ({ g with raise := 1 }).raise ≠ 0 ∧ ({ g with stopKind := 1 }).stopKind ≠ 0 ∧
     ({ g with boost := 1 }).boost ≠ 0 ∧ ({ g with band := 7 }).band = 7 ∧ ({ g with settling := some 0 }).settling = some 0 ∧
     g.stops ≠ 255 ∧ ({ g with stops := 254 }).stops ≠ 255) := by decide

/-- A workgroup whose matrix unit has been busy for 17 of the last 256 cycles. -/
def busyState (t : Option Throttle) (n : Nat) : State :=
  { at_ 0x0000AF57ABD5E001 (onWg fun w => { w with pad := { w.pad with throttle := t, busy := (List.range n).map fun i => 29999 - i } }) with cycle := 30000 }
theorem test_meets_PowerResponses :
    State.reset.capped.Nodup ∧ State.reset.capped.contains 4 ≠ true ∧ ({ State.reset with capped := [4] }).capped.contains 4 ≠ false ∧
    State.reset.bypassed.Nodup ∧ State.reset.bypassed.contains 4 ≠ true ∧ (partOf (sState id {}) 0).pd.length = 8 ∧
    0 ∈ partsOnDie (sState id {}) 0 ∧
    (wgOf (busyState none 17) 1).any (fun w => w.pad.throttle.isNone && inExcess 30000 (phaseAt (busyState none 17) (.workgroup 1)) w.pad) = true ∧
    (wgOf (busyState (some { ends := 30000, next := 0 }) 16) 1).any (fun w => w.pad.throttle.any (fun h => h.ends ≤ 30000) &&
      !inExcess 30000 (phaseAt (busyState none 16) (.workgroup 1)) w.pad) = true := by decide +kernel

theorem test_meets_EnergyAndEstimates :
    (let s := at_ 0x0000AF57ABD5E001 fun s => modRegion s 0 fun g => { g with slotCycles := [(0, 5)], ran := [0] }
     (regionOf s 0).slotCycles == [(0, 5)] && (launchOf s 0).fabric.isNone && formOn s 0 0 (regionOf s 0).intervalBefore == some .t) = true ∧
    (7 * fld (0 : Dbl) 31 0 + (8 * 2 ^ 32 - 1)) / 8 < 2 ^ 32 ∧
    (let s := at_ 0x0000AF57ABD5E001 fun s => onLaunch (fun la => { la with est := [0, 5, 9] }) (withPoint s)
     proposal (launchOf s 0) .t 2 == some .s) = true := by decide +kernel

/-- Partition 0 asks for resources, which partition 1 holds, or which are invalid, or which it can have. -/
def asking (d3 d4 : Nat) (other : Resources) : State :=
  { State.reset with
    mem := writeLE [] 0x30080 1 1
    parts := [(0, { pd := [0, 0x30100, 0x100000, BitVec.ofNat 64 d3, BitVec.ofNat 64 d4, 0, 0x100, 0x30000] }), (1, { res := other })] }
theorem test_meets_PartitionCommands :
    (partOf (asking 1 1 { pairs := 1 }) 0).next = none ∧
    conflicts (asking 1 1 { pairs := 1 }) 0 (askedFor (asking 1 1 { pairs := 1 }) 0) = true ∧
    conflicts (asking (2 ^ 54) 1 {}) 0 (askedFor (asking (2 ^ 54) 1 {}) 0) = false ∧
    invalidRes (asking (2 ^ 54) 1 {}) 0 (askedFor (asking (2 ^ 54) 1 {}) 0) = true ∧
    conflicts (asking 1 1 {}) 0 (askedFor (asking 1 1 {}) 0) = false ∧ invalidRes (asking 1 1 {}) 0 (askedFor (asking 1 1 {}) 0) = false ∧
    (partOf (asking 1 1 {}) 0).placing = none ∧ (asking 1 1 {}).launches = [] ∧ (asking 1 1 {}).wgs = [] ∧ (asking 1 1 {}).locks = [] := by
  decide +kernel

theorem test_meets_RegisterWrites :
    (windowReg windowBase).isNone = true ∧ (windowReg (windowBase + 0x1000)).isSome = true ∧ (windowReg (windowBase + 0x8FF8)).isSome = true ∧
    (windowReg (windowBase + 0x9000)).isNone = true ∧ (7 : Nat) < 8 ∧
    (partOf (asking 1 1 {}) 0).pd.length = 8 ∧ busyOf (asking 1 1 {}) 0 = true := by decide

/-- O56: the last bytes of the memory, readable, bad, locked, with the link up and down; a port's third failure within
1 ms and its second; a thread that the debug port halted. -/
theorem test_meets_OutsideAccesses :
    State.reset.arrivals = [] ∧ (2 ^ 40 - 8) + 8 ≤ 2 ^ 40 ∧ lockedFor State.reset none (2 ^ 40 - 8) 8 = false ∧
    badData State.reset (2 ^ 40 - 8) 8 = false ∧ hostLink { State.reset with linkUp := true } = true ∧ hostLink State.reset = false ∧
    badData { State.reset with badMem := [2 ^ 35 - 1] } (2 ^ 40 - 8) 8 = true ∧
    lockedFor { State.reset with locks := [(2 ^ 35 - 1, 0, 0)] } none (2 ^ 40 - 8) 8 = true ∧
    ({ State.reset with linkEnabled := true }).linkEnabled = true ∧
    2 ≤ (([0, 1] : List Nat).filter fun c => 2499999 < c + 2500000).length ∧
    (([0, 1] : List Nat).filter fun c => 2500000 < c + 2500000).length < 2 ∧
    haltedAt (at_ 0x0000AF57ABD5E001 (onTh fun t => { t with halt := some .debug })) 0 0 = some (1, 0) := by decide +kernel

/-- O56, the places of the host: the last byte of a queue table and one byte more, a module whose link is not enabled, one
whose link is up, and one in recovery with the last byte of the staging SRAM; a lane whose read is outstanding. -/
theorem test_meets_HostPlaces :
    hostLink { State.reset with linkUp := true } = true ∧ (15 : Nat) < 16 ∧ 16383 + 1 ≤ 16384 ∧ 16384 < 16384 + 1 ∧
    State.reset.linkEnabled = false ∧ ({ State.reset with linkUp := true }).linkUp = true ∧
    ({ State.reset.boot with recovery := true }).recovery = true ∧ (2 ^ 24 - 1) + 1 ≤ 2 ^ 24 ∧
    31 ∈ askedLanes (theTh (at_ 0x0000AF57ABD5E001 (onPath fun p => { p with asked := some (0, 0x80000000) }))) := by decide +kernel

/-- O57: an image that cannot be read is not accepted. That one is accepted rests on the signature check, which the model
leaves open (log 11): any data that it takes meets the premise. -/
theorem test_meets_BootResetAndErrors :
    imageCode {} { data := [], version := 0, readable := false } ≠ 0 ∧
    (∀ data, Config.verifies data = true → imageCode {} { data := data, version := 0, readable := true } = 0) ∧
    imageCode { minVersion := 1 } { data := [], version := 0, readable := true } ≠ 0 ∧ 0 ≤ 2 ^ 24 ∧
    imageCode { State.reset.boot with minVersion := 1 } (stagedImage { State.reset.boot with minVersion := 1 } ⟨0, 0⟩) ≠ 0 ∧
    (∀ b : Boot, Config.verifies (readBytes b.sram 0 8) = true → b.minVersion = 0 → imageCode b (stagedImage b ⟨8, 0⟩) = 0) ∧
    State.reset.boot.recovery = false ∧ ({ State.reset.boot with recovery := true }).recovery = true ∧
    State.reset.frozen = false ∧ State.reset.linkEnabled = false ∧ State.reset.boot.mr.length = 3 ∧
    State.reset.powered = true ∧ State.reset.boot.secretGood = true ∧ ({ State.reset.boot with secretGood := false }).secretGood = false := by
  have refused : ∀ d, imageCode { minVersion := 1 } { data := d, version := 0, readable := true } ≠ 0 := fun d => by
    cases h : Config.verifies d <;> simp [imageCode, h]
  refine ⟨by decide, fun data h => ?_, refused _, by decide, ?_, fun b h v => ?_, by decide, by decide, by decide, by decide, by decide,
    by decide, by decide, by decide⟩
  · simp [imageCode, h]
  · exact refused _
  · simp [imageCode, stagedImage, h, v]

/-- The thread with two ready paths whose turn has lasted longer than FAIRT, in a launch with the progress promise. -/
def longTurn : State → State := fun s =>
  onLaunch (fun la => { la with pkt := la.pkt.set 3 0x4000 }) (onTh (fun t => { t with turn := 257, paths := t.paths.flatMap fun p =>
    [{ p with mask := 0xFFFF }, { p with mask := 0xFFFF0000 }] }) s)
theorem test_meets_CycleBegins :
    (let s := { at_ 0x0000AF57ABD5E001 longTurn with cycle := 256 }
     promiseOn (launchOf s 0) && !(theTh s).gave && (theWg s).fairt.toNat < (theTh s).turn && 1 < (readyPaths (theTh s)).length &&
     (pickPath (theTh s)).isSome && threadReady s (theWg s) (theTh s) && (theTh s).last + (theWg s).fairt.toNat ≤ s.cycle &&
     (serveHalf s 0 ((theTh s).slot % 2)).isSome) = true ∧
    (let s := { at_ 0x0000AF57ABD5E001 (fun s => inVForm (onWg (fun w => { w with ntg := 2 }) (longTurn s))) with cycle := 256 }
     let c := claimOf s 1 0 (theWg s) (theTh s)
     c.strand && 64 ≤ c.vl && promiseOn (launchOf s 0) && threadReady s (theWg s) (theTh s) &&
     (theTh s).last + (theWg s).fairt.toNat ≤ s.cycle && (claimsOn s 0 (1 - (theTh s).slot % 2)).isEmpty) = true ∧
    promiseOn probeLaunch = false ∧ State.reset.frozen = false ∧ State.reset.powered = true ∧
    (let e : CbEntry := { line := 0x400, bytes := [(0x20000, 1), (0x2007F, 2)], born := 0 }
     let s := { modCore State.reset 1023 (fun k => { k with cb := [e] }) with cycle := 4096 }
     (coreOf s 1023).cb == [e] && e.born + 4096 ≤ s.cycle && decide ((e.bytes.map (·.1)).Nodup) &&
     e.bytes.all fun x => !inHost x.1 && !lockedFor s none x.1 1) = true := by decide +kernel

/-! ### Results of single steps: the value of v1 in lane 0 from v2 to v4, by R125 to R127 (with R126's table of defined
results), R144 to R151 -/

/-- The word's step leaves `x` in v1 of lane 0, from the values of v2, v3 and v4 there. -/
def gives (w : Nat) (regs : List Nat) (x : Nat) : Bool :=
  nextB (step (onWg (fun w => { w with v := regs.zipIdx.map fun r => (r.2 + 2, BitVec.ofNat 32 r.1) }) (State.reset.withFetchWord 64 w)))
    fun t => vGet (theWg t) 0 1 == BitVec.ofNat 32 x

theorem test_integer_results :
    [gives 0x0001AF00C0401002 [0x7ffffff0, 0x20] 0x80000010,
     gives 0x0061AF00C0401002 [0x7ffffff0, 0x20] 0x7fffffff,
     gives 0x0002AF00C0401003 [0x0, 0x1] 0xffffffff,
     gives 0x0062AF00C0401003 [0x0, 0x1] 0x0,
     gives 0x0001AF00C0401004 [0x10001, 0x10001] 0x20001,
     gives 0x0001AF00C0401005 [0xffffffff, 0x1] 0xffffffff,
     gives 0x0002AF00C0401005 [0xffffffff, 0x2] 0x1,
     gives 0x00010200C0401006 [0x3, 0xfffffffe, 0xa] 0x4,
     gives 0x00610200C0401006 [0x10000, 0x10000, 0xffffffff] 0x7fffffff,
     gives 0x0001AF00C0401007 [0xfffffff9, 0x2] 0xfffffffd,
     gives 0x0001AF00C0401007 [0x80000000, 0xffffffff] 0x80000000,
     gives 0x0001AF00C0401008 [0xfffffff9, 0x2] 0xffffffff,
     gives 0x0001AF00C0401008 [0x7, 0x0] 0x7,
     gives 0x0001AF00C0401009 [0xffffffff, 0x1] 0xffffffff,
     gives 0x0002AF00C040100A [0xffffffff, 0x1] 0xffffffff,
     gives 0x0001AF578040100B [0x80000000] 0x80000000,
     gives 0x0061AF578040100B [0x80000000] 0x7fffffff,
     gives 0x0008AF578040100C [0x1800203] 0xff80fefd,
     gives 0x0006AF00C0401002 [0x7fff0001, 0x1ffff] 0x80000000].all id = true := by decide +kernel

theorem test_logic_results :
    [gives 0x0000AF00C040100D [0xf0f0, 0xff00] 0xf000,
     gives 0x0000AF00C040100E [0xf0f0, 0xff00] 0xfff0,
     gives 0x0000AF00C040100F [0xf0f0, 0xff00] 0xff0,
     gives 0x0000AF00C0401010 [0xf0f0, 0xff00] 0xf0,
     gives 0x0000AF5780401011 [0xf0f0] 0xffff0f0f,
     gives 0x0002AF00C0401012 [0x1, 0x21] 0x2,
     gives 0x0001AF00C0401013 [0x80000000, 0x1f] 0x1,
     gives 0x0001AF00C0401014 [0xfffffff9, 0x1] 0xfffffffc,
     gives 0x0002AF00C0401014 [0x80000000, 0x1f] 0x1,
     gives 0x0002AF00C0401015 [0x80000001, 0x4] 0x18,
     gives 0x0001AF00C0401016 [0xf00, 0x408] 0xffffffff,
     gives 0x0002AF00C0401016 [0xf00, 0x408] 0xf,
     gives 0x00020200C0401017 [0xffffffff, 0x0, 0x408] 0xfffff0ff,
     gives 0x0002AF5780401018 [0xf0f0f0f1] 0x11,
     gives 0x0002AF5780401019 [0x0] 0x20,
     gives 0x0002AF578040101A [0x80000000] 0x1f,
     gives 0x0002AF578040101B [0x1] 0x80000000,
     gives 0x0000A000C040101C [0x5, 0x6] 0x5,
     gives 0x0000A100C040101C [0x5, 0x6] 0x6,
     gives 0x0000AF578040101D [0xdeadbeef] 0xdeadbeef,
     gives 0x0021AF00C040101E [0xffffffff, 0x0] 0x1,
     gives 0x0022AF00C040101E [0xffffffff, 0x0] 0x0].all id = true := by decide +kernel

theorem test_immediate_results :
    [gives 0xFFFFFFFE2BC01020 [] 0xfffffffe,
     gives 0xFFFFFFF000401022 [0x20] 0x10,
     gives 0xFFFFFF0000401023 [0x12345678] 0x12345600,
     gives 0x8000000000401026 [0x80000001] 0x0,
     gives 0x0000000500401028 [0x5] 0x1].all id = true := by decide +kernel

theorem test_floating_results :
    [gives 0x0003AF00C0401060 [0x3fc00000, 0x40100000] 0x40700000,
     gives 0x0003AF00C0401060 [0x7f800000, 0xff800000] 0x7fc00000,
     gives 0x0003AF00C0401061 [0x3f800000, 0x3f800000] 0x0,
     gives 0x0003AF00C0401062 [0x40000000, 0xc0400000] 0xc0c00000,
     gives 0x0003AF00C0401062 [0x7f000000, 0x7f000000] 0x7f800000,
     gives 0x00030200C0401063 [0x3f800001, 0x3f800001, 0xbf800002] 0x28800000,
     gives 0x0003AF00C0401064 [0x3f800000, 0x40400000] 0x3eaaaaab,
     gives 0x0003AF00C0401064 [0x3f800000, 0x80000000] 0xff800000,
     gives 0x0003AF00C0401065 [0x0, 0x80000000] 0x80000000,
     gives 0x0003AF00C0401066 [0x7fc00001, 0x3f800000] 0x7fc00000,
     gives 0x0003AF5780401067 [0x80000001] 0x1,
     gives 0x0005AF5780401068 [0x3f80] 0x8000bf80,
     gives 0x0003AF00C0401069 [0x0, 0x80000000] 0x1,
     gives 0x0003AF578040106A [0x40000000] 0x3f000000,
     gives 0x0003AF578040106B [0x40800000] 0x3f000000,
     gives 0x0003AF578040106C [0x40000000] 0x3fb504f3,
     gives 0x0003AF578040106D [0x40400000] 0x41000000,
     gives 0x0003AF578040106E [0x41000000] 0x40400000,
     gives 0x0003AF578040106F [0x3f000000] 0x3f800000,
     gives 0x0003AF5780401070 [0x3f800000] 0xbf800000,
     gives 0x0003AF5780401071 [0x80000000] 0x80000000,
     gives 0x0004AF00C0401060 [0x3c007bff, 0x3c007bff] 0x40007c00].all id = true := by decide +kernel

theorem test_conversion_results :
    [gives 0x0305AF5780401072 [0x40490fdb] 0x4049,
     gives 0x0311AF5780401072 [0xc0200000] 0xfffffffe,
     gives 0x0203AF5780401072 [0xffffffff] 0x4f800000,
     gives 0x0168AF5780401072 [0xfffffed4] 0x80,
     gives 0x0004AF00C0401073 [0x3f800000, 0xc0000000] 0xc0003c00,
     gives 0x00680200C0401073 [0x12c, 0xfffffed4, 0x1234] 0x1234807f,
     gives 0x0108AF5780401074 [0xfe00] 0xfffffffe,
     gives 0x0105AF5780401074 [0x3f800000] 0x3f800000,
     gives 0x00050200C0401075 [0x40003f80, 0x40403f80, 0x3f800000] 0x41000000,
     gives 0x00080200C0401076 [0x1ff0203, 0x101ff01, 0x5] 0x6].all id = true := by decide +kernel

end Sys2Proof.Tests
end

section
/-! PROOF. O12 (spec/04_opcode_map.md, R102): `split` and `join` in V-form. An instruction that stages 5 to 11 of R375
refuse traps at its issue (`issue_of_judge`), and `split` and `join`, whose one demand beside the form is the join
register, are refused by the form alone (`judge_of_demandsForm`). -/

namespace Sys2Proof.Machine

/-- The issuing path's context in the state where it has taken the turn is `turnCtx`: its thread read back there, and its
launch, which the turn leaves alone. -/
theorem turnCtx_of_begin {s : State} {i : Instr} {c : Ctx} (h : ctxOf s i = some c) :
    { c with th := (((wgOf (begin s c) c.wid).getD c.wg).threads[c.tix]?).getD c.th,
             la := launchOf (begin s c) c.wg.lid } = turnCtx c := by
  have F := ctxOf_facts h
  have hth : (((wgOf (begin s c) c.wid).getD c.wg).threads[c.tix]?).getD c.th = takeTurn c.th c.path := by
    rw [wgOf_begin F, Option.getD_some, set_self_getElem? _ _ _ _ F.th, Option.getD_some]
  have hla : launchOf (begin s c) c.wg.lid = c.la := F.la.symm
  rw [hth, hla, turnCtx]

/-- An instruction that stages 5 to 11 refuse traps with the cause they find, over the active lanes of its path. -/
theorem issue_of_judge {s : State} {i : Instr} {c : Ctx} {cause : Cause} (h : ctxOf s i = some c)
    (hj : judge (envOf c) i = some cause) (body : Ctx → State → Res) :
    issue i s body = .next (takeTrap (issued (begin s c) c) c.wid c.tix c.pix
      { cause := cause, lanes := c.act, addr := judgeAddr c.word cause i }) := by
  have hissued : issued (begin s c) (turnCtx c) = issued (begin s c) c := rfl
  simp only [issue, h, turnCtx_of_begin h, envOf_turnCtx, hj, hissued]

/-- A word that demands nothing but a form, and is not in it, is BAD_FORM. -/
theorem judge_of_demandsForm {e : Env} {i : Instr} (hd : demandsOf e i = { form := false }) :
    judge e i = some .badForm := by
  simp [judge, hd, uniformOk]

/-- A join register that the thread may name leaves `split` and `join` in the vector text with the form alone. -/
theorem demandsOf_split_join_vform {e : Env} {f : FmtB} (hv : e.vform = true) (hj : joinOk e.trap f.j = true) :
    demandsOf e (.split f) = { form := false } ∧ demandsOf e (.join f) = { form := false } := by
  simp [demandsOf, hv, hj]

/-- Settles O12: stages 5 to 8 of R375 pass, stage 9 finds the form. -/
theorem splitAndJoinInVectorForm : Obligations.SplitAndJoinInVectorForm := by
  intro s f c
  refine ⟨fun hc hv hj => ?split, fun hc hv hj => ?join, rfl⟩
  case split =>
    obtain ⟨hd, -⟩ := demandsOf_split_join_vform (e := envOf c) hv hj
    exact issue_of_judge hc (judge_of_demandsForm hd) (splitRun f)
  case join =>
    obtain ⟨-, hd⟩ := demandsOf_split_join_vform (e := envOf c) hv hj
    exact issue_of_judge hc (judge_of_demandsForm hd) (joinRun f)

end Sys2Proof.Machine
end

section
/-! PROOF. O32 (spec/06_integer_control_instructions.md, R131): `bra`. What an instruction leaves whose meaning only moves
its path (`moves_leavesPath`, and for the two answers of a meaning `done_leavesPath` and `jump_leavesPath`), when a branch
is taken (the `branchTaken` lemmas), and the three outcomes of a `bra`. -/

namespace Sys2Proof.Machine

/-! ### Instructions that only move their path -/

theorem LeavesPath.mono {s : State} {c : Ctx} {o : Out} {good good' : Thread → Path → Prop}
    (h : LeavesPath s c o good) (himp : ∀ th p, good th p → good' th p) : LeavesPath s c o good' := by
  obtain ⟨t, w, th, p, ho, hw, hth, hp, hgood, hrest⟩ := h
  exact ⟨t, w, th, p, ho, hw, hth, hp, himp th p hgood, hrest⟩

/-- The end of an instruction that has had no other effect: the thread holds its path where `move` puts it, and nothing
else is touched. -/
theorem moves_leavesPath {s : State} {i : Instr} {c : Ctx} (h : Issues s i c) (move : Path → Path)
    (hm : (move c.path).mask ≠ 0) (hwait : (move c.path).wait = .none) :
    LeavesPath s c (.next (conclude (runState s c i) (runCtx s c) [] [] move)) fun _ p => p = move c.path := by
  have F := ctxOf_facts h.ctx
  obtain ⟨w, t, hw, ht, ew, -, et, hoth, es, hwgs, -⟩ := runState_facts F
  have hpaths : t.paths = c.th.paths := by rw [et]; simp [runThread]
  have hsregs : t.sregs = c.th.sregs := by rw [et]; simp [runThread]
  have hp : t.paths[c.pix]? = some c.path := by rw [hpaths]; exact F.path
  have hstep : stepping (runState s c i) w t = false := by
    obtain ⟨w', t', -, hw', ht', -, -, -, -, -, -, hs⟩ := kept_runState h
    obtain rfl : w = w' := Option.some.inj (hw.symm.trans hw')
    obtain rfl : t = t' := Option.some.inj (ht.symm.trans ht')
    exact hs
  generalize runState s c i = R at *
  have hc := conclude_eq (c := runCtx s c) move hw ht hp hstep hm hwait
  simp only [runCtx_wid, runCtx_tix, runCtx_pix] at hc
  obtain ⟨kpath, krest, -⟩ := settlePaths_keeps w.exited { t with paths := t.paths.set c.pix (move c.path) }
  have hlt : c.pix < t.paths.length := (List.getElem?_eq_some_iff.1 hp).1
  rw [hc]
  refine ⟨_, _, _, move c.path, rfl, wgOf_putWg_self _ _ _, set_self_getElem? _ _ _ _ ht,
    kpath _ (List.mem_set hlt _) hwait hm, rfl, ?_⟩
  refine ⟨by rw [ew], by rw [ew], by rw [ew], by rw [ew], by rw [ew], ?sregs, ?mem, ?cores, ?parts, ?transfers,
    fun v hv => ?others, fun j hj => ?threads⟩
  case sregs => rw [krest]; exact hsregs
  case mem => show R.mem = s.mem; rw [es]
  case cores => show R.cores = s.cores; rw [es]
  case parts => show R.parts = s.parts; rw [es]
  case transfers => show R.transfers = s.transfers; rw [es]
  case others =>
    rw [wgOf_putWg_ne _ _ hv, modPath, modTh, wgOf_modWg, if_neg hv, countWork, wgOf_modRegion]
    exact hwgs v hv
  case threads =>
    show (w.threads.set c.tix _)[j]? = _
    rw [List.getElem?_set, if_neg (Ne.symm hj)]
    exact hoth j hj

section
variable {s : State} {i : Instr} {c : Ctx} {body : Ctx → State → Res}

/-- An instruction whose meaning has no effect goes on at the next PC. -/
theorem done_leavesPath (h : Issues s i c) (hp : c.pass ≠ 0 ∨ runsEmpty i = true) (hm : c.path.mask ≠ 0)
    (hb : body (runCtx s c) (runState s c i) = .done (runState s c i) [] []) :
    LeavesPath s c (issue i s body) fun _ p => p = stepPath c.path := by
  rw [issue_eq h hp, hb]
  exact moves_leavesPath h stepPath hm (ctxOf_facts h.ctx).wait_none

/-- An instruction whose meaning only jumps goes on at the PC it names. -/
theorem jump_leavesPath (h : Issues s i c) (hp : c.pass ≠ 0 ∨ runsEmpty i = true) (hm : c.path.mask ≠ 0) {pc : Word}
    (hb : body (runCtx s c) (runState s c i) = .jump (runState s c i) pc) :
    LeavesPath s c (issue i s body) fun _ p => p = { stepPath c.path with pc := pc } := by
  rw [issue_eq h hp, hb]
  exact moves_leavesPath h (fun p => { stepPath p with pc := pc }) hm (ctxOf_facts h.ctx).wait_none

/-- An instruction-wide cause of the meaning traps over the path's active lanes. -/
theorem issue_of_wide (h : Issues s i c) (hp : c.pass ≠ 0) {cause : Cause} {addr : Nat}
    (hb : body (runCtx s c) (runState s c i) = .wide cause addr) :
    issue i s body = .next (takeTrap (issued (begin s c) c) c.wid c.tix c.pix
      { cause := cause, lanes := c.act, addr := addr }) := by
  rw [issue_eq h (.inl hp), hb]
  exact congrArg Host.Outcome.next (if_neg hp)

end

/-! ### When a branch is taken (R131) -/

/-- No form goes to the target when the guard holds in none. -/
theorem branchTaken_none_held (sub : Nat) (act : Mask) : branchTaken sub act 0 = some false := by
  match sub with
  | 0 => simp only [branchTaken, if_true]
  | 1 => simp only [branchTaken, ne_eq, not_true_eq_false, decide_false]
  | _ + 2 => simp only [branchTaken, ne_eq, not_true_eq_false, decide_false, Bool.false_and]

/-- With an active lane, every form goes to the target when the guard holds in all. -/
theorem branchTaken_all_held (sub : Nat) {act : Mask} (hact : act ≠ 0) : branchTaken sub act act = some true := by
  match sub with
  | 0 => simp only [branchTaken, if_neg hact, if_true]
  | 1 => simp only [branchTaken, decide_eq_true hact]
  | _ + 2 => simp only [branchTaken, decide_eq_true hact, decide_true, Bool.and_self]

theorem branchTaken_uniform_diverges {act held : Mask} (h0 : held ≠ 0) (hne : held ≠ act) :
    branchTaken 0 act held = none := by
  simp only [branchTaken, if_neg h0, if_neg hne]

theorem branchTaken_any {act held : Mask} (h0 : held ≠ 0) : branchTaken 1 act held = some true := by
  simp only [branchTaken, decide_eq_true h0]

theorem branchTaken_all_of_ne {act held : Mask} (hne : held ≠ act) : branchTaken 2 act held = some false := by
  simp only [branchTaken, decide_eq_false hne, Bool.and_false]

/-! ### The outcomes of a `bra` -/

/-- The path with all its lanes and its return stack, free of waits, at a PC. -/
def StandsAt (c : Ctx) (pc : Word) (p : Path) : Prop :=
  p.mask = c.path.mask ∧ p.pc = pc ∧ p.stack = c.path.stack ∧ p.wait = .none

/-- An instruction with guard 0 passes every active lane (R65). -/
theorem CtxFacts.pass_eq_act {s : State} {i : Instr} {c : Ctx} (h : CtxFacts s i c) (hg : guardOf i = 0) :
    c.pass = c.act := by
  rw [h.pass, hg]
  exact BitVec.and_allOnes

/-- A path with an active lane has lanes. -/
theorem CtxFacts.mask_ne_of_act {s : State} {i : Instr} {c : Ctx} (h : CtxFacts s i c) (hact : c.act ≠ 0) :
    c.path.mask ≠ 0 := by
  intro hm
  apply hact
  rw [h.act]
  split <;> simp [hm]

section
variable {s : State} {f : FmtB} {c : Ctx}

/-- The meaning of a `bra` reads its guard as it stood when the path issued. -/
theorem guardHeld_runCtx (s : State) (c : Ctx) (g : BitVec 4) : guardHeld (runCtx s c) g = guardHeld c g := rfl

theorem bra_taken (h : Issues s (.bra f) c) (hact : c.act ≠ 0)
    (ht : branchTaken f.sub.toNat c.act (guardHeld c f.g) = some true) :
    LeavesPath s c (exec (.bra f) s) fun _ p => StandsAt c (c.path.pc + f.tgt) p := by
  have F := ctxOf_facts h.ctx
  have hb : braRun f (runCtx s c) (runState s c (.bra f)) = .jump (runState s c (.bra f)) (c.path.pc + f.tgt) := by
    simp [braRun, guardHeld_runCtx, ht]
  refine (jump_leavesPath h (.inr rfl) (F.mask_ne_of_act hact) hb).mono ?_
  rintro - p rfl
  exact ⟨rfl, rfl, rfl, F.wait_none⟩

theorem bra_not_taken (h : Issues s (.bra f) c) (hact : c.act ≠ 0)
    (ht : branchTaken f.sub.toNat c.act (guardHeld c f.g) = some false) :
    LeavesPath s c (exec (.bra f) s) fun _ p => StandsAt c (c.path.pc + 1) p := by
  have F := ctxOf_facts h.ctx
  have hb : braRun f (runCtx s c) (runState s c (.bra f)) = .done (runState s c (.bra f)) [] [] := by
    simp [braRun, guardHeld_runCtx, ht]
  refine (done_leavesPath h (.inr rfl) (F.mask_ne_of_act hact) hb).mono ?_
  rintro - p rfl
  exact ⟨rfl, rfl, rfl, F.wait_none⟩

/-- TADDR is the guard's mask in the block of the lowest active lane (R386). -/
theorem bra_diverges (h : Issues s (.bra f) c) (hact : c.act ≠ 0)
    (ht : branchTaken f.sub.toNat c.act (guardHeld c f.g) = none) :
    exec (.bra f) s = .next (takeTrap (issued (begin s c) c) c.wid c.tix c.pix
      { cause := .divergentBranch, lanes := c.act,
        addr := (blockOf (guardHeld c f.g) (lowestLane c.act / 32)).toNat }) := by
  have hp : c.pass ≠ 0 := by rw [(ctxOf_facts h.ctx).pass_eq_act rfl]; exact hact
  refine issue_of_wide h hp ?_
  simp [braRun, guardHeld_runCtx, ht]

end

/-- Settles O32: the statement's mask is `guardHeld`, and each clause is the value of `branchTaken` there. -/
theorem branches : Obligations.Branches := by
  intro s f c h hact
  have goesToTarget := bra_taken h hact
  have goesOn := bra_not_taken h hact
  have diverges := bra_diverges h hact
  rw [guardHeld] at goesToTarget goesOn diverges
  intro k held goes
  refine ⟨fun _ hall => ?_, fun _ hnone => ?_, fun hsub h0 hne => ?_, fun hsub h0 => ?_, fun _ hnone => ?_,
    fun _ hall => ?_, fun hsub hne => ?_⟩
  · exact goesToTarget ((congrArg _ hall).trans (branchTaken_all_held _ hact))
  · exact goesOn ((congrArg _ hnone).trans (branchTaken_none_held _ _))
  · exact ⟨_, _, diverges (by rw [hsub]; exact branchTaken_uniform_diverges h0 hne), rfl⟩
  · exact goesToTarget (by rw [hsub]; exact branchTaken_any h0)
  · exact goesOn ((congrArg _ hnone).trans (branchTaken_none_held _ _))
  · exact goesToTarget ((congrArg _ hall).trans (branchTaken_all_held _ hact))
  · exact goesOn (by rw [hsub]; exact branchTaken_all_of_ne hne)

end Sys2Proof.Machine
end

section
/-! PROOF. O11 (spec/23_instruction_exceptions.md, R379). What the decoder refuses at stage 2: the two nibbles of OP name
the row of the opcode map and the place in it (`opcode_eq_nibbles`), each row leaves out the places that R379 lists (the
`instrOf<row>_eq_none` lemmas), and a step that fetches a refused word traps (`issueThread_of_refused`, `refuseWord_eq`). -/

namespace Sys2Proof.Machine

/-! ### The reserved places of each row of the opcode map

No field of the word but OP decides them (R379), so each row is settled by evaluating it at its sixteen places. -/

theorem instrOf0_eq_none (w : BitVec 64) : ∀ lo : BitVec 4, instrOf0 w lo = none ↔ lo.toNat = 0 :=
  of_decide_eq_true rfl

theorem instrOf1_eq_none (w : BitVec 64) : ∀ lo : BitVec 4, instrOf1 w lo = none ↔ lo.toNat = 0xF :=
  of_decide_eq_true rfl

theorem instrOf2_eq_none (w : BitVec 64) : ∀ lo : BitVec 4, instrOf2 w lo = none ↔ 0xA ≤ lo.toNat :=
  of_decide_eq_true rfl

theorem instrOf4_eq_none (w : BitVec 64) : ∀ lo : BitVec 4, instrOf4 w lo = none ↔ 0x9 ≤ lo.toNat :=
  of_decide_eq_true rfl

theorem instrOf6_ne_none (w : BitVec 64) : ∀ lo : BitVec 4, instrOf6 w lo ≠ none :=
  of_decide_eq_true rfl

theorem instrOf7_eq_none (w : BitVec 64) : ∀ lo : BitVec 4, instrOf7 w lo = none ↔ 0x7 ≤ lo.toNat :=
  of_decide_eq_true rfl

theorem instrOf9_eq_none (w : BitVec 64) : ∀ lo : BitVec 4, instrOf9 w lo = none ↔ 0xC ≤ lo.toNat :=
  of_decide_eq_true rfl

theorem instrOfB_eq_none (w : BitVec 64) : ∀ lo : BitVec 4, instrOfB w lo = none ↔ 0x8 ≤ lo.toNat :=
  of_decide_eq_true rfl

theorem instrOfC_eq_none (w : BitVec 64) : ∀ lo : BitVec 4, instrOfC w lo = none ↔ 0xC ≤ lo.toNat :=
  of_decide_eq_true rfl

theorem instrOfD_eq_none (w : BitVec 64) :
    ∀ lo : BitVec 4, instrOfD w lo = none ↔ 0x5 ≤ lo.toNat ∧ lo.toNat ≤ 0x7 ∨ 0xB ≤ lo.toNat :=
  of_decide_eq_true rfl

/-! ### Reserved opcodes -/

/-- OP is the row of the opcode map and the place in the row. -/
theorem opcode_eq_nibbles (w : BitVec 64) :
    (w.extractLsb' 0 8).toNat = 16 * (w.extractLsb' 4 4).toNat + (w.extractLsb' 0 4).toNat := by
  simp only [BitVec.extractLsb'_toNat, Nat.shiftRight_eq_div_pow]
  omega

theorem instrOf_eq_none_iff (w : BitVec 64) : instrOf w = none ↔ reservedOpcode (w.extractLsb' 0 8).toNat := by
  have hlo := (w.extractLsb' 0 4).isLt
  have hhi := (w.extractLsb' 4 4).isLt
  rw [opcode_eq_nibbles, instrOf, reservedOpcode]
  generalize w.extractLsb' 0 4 = lo at hlo ⊢
  generalize w.extractLsb' 4 4 = row at hhi ⊢
  split <;>
    simp only [instrOf0_eq_none, instrOf1_eq_none, instrOf2_eq_none, instrOf4_eq_none, instrOf6_ne_none, instrOf7_eq_none,
      instrOf9_eq_none, instrOfB_eq_none, instrOfC_eq_none, instrOfD_eq_none, imp_false, true_iff, false_iff,
      BitVec.toNat_eq, BitVec.toNat_ofNat] at * <;>
    omega

/-- Stage 2 alone refuses a word for its opcode. -/
theorem decodeTV_eq_opcode_iff (w : BitVec 64) : decodeTV w = .error .opcode ↔ instrOf w = none := by
  rcases h : instrOf w with _ | _ | i
  · simp only [decodeTV, h]
  · simp only [decodeTV, h, Except.error.injEq, reduceCtorEq]
  · simp only [decodeTV, h, reduceCtorEq, iff_false]
    split
    · exact nofun
    · split <;> exact nofun

/-! ### The step that fetches a refused word -/

theorem refuseWord_eq {s : State} {wid tix pix : Nat} {w : Workgroup} {t : Thread} {p : Path} (word : Dbl) (e : DecodeError)
    (hw : wgOf s wid = some w) (ht : w.threads[tix]? = some t) (hpix : pickPath t = some pix) (hp : t.paths[pix]? = some p) :
    refuseWord s wid tix word e = takeTrap (issueOf s wid tix w.lid p) wid tix pix
      { cause := if e = .reserved then .reservedField else .illegalOpcode
        lanes := (p.limit.map (p.mask &&& ·)).getD p.mask, addr := word.toNat } := by
  simp only [refuseWord, hw, ht, hpix, hp, Option.bind_some, Option.map_some]

/-- With no event due, a step is the issue of the path at the head of the cycle's list. -/
theorem nextAct_of_thread {s : State} {wid tix : Nat} {rest : List IssueItem} (hpow : s.powered = true)
    (hfro : s.frozen = false) (hag : s.agenda = []) (hiss : s.issue = .thread wid tix :: rest) :
    nextAct s = issueThread { s with issue := rest } wid tix := by
  simp only [nextAct, hpow, hfro, hag, hiss, Bool.not_true, Bool.or_self, Bool.false_eq_true, if_false]

theorem issueThread_of_refused {s s' : State} {wid tix : Nat} {word : Dbl} {e : DecodeError}
    (hf : fetch s wid tix = .word word s') (hd : decodeTV word = .error e) :
    issueThread s wid tix = .ended (refuseWord s' wid tix word e) := by
  simp only [issueThread, hf, hd]

theorem step_of_ended {s s' : State} (h : nextAct s = .ended s') : step s = .next s' := by
  simp only [step, h]

/-- Settles O11: stage 2 refuses the words for which `instrOf` has nothing; the refusals of stages 2 and 3 are one trap. -/
theorem illegalOpcodeTraps : Obligations.IllegalOpcodeTraps := by
  have stage2 (w : BitVec 64) : decodeTV w = .error .opcode ↔ reservedOpcode (w.extractLsb' 0 8).toNat :=
    (decodeTV_eq_opcode_iff w).trans (instrOf_eq_none_iff w)
  refine ⟨stage2, (stage2 0).2 (.inl rfl), fun w h hres => ?stage3, fun w hres hsub => ?behind, ?trap, rfl⟩
  case stage3 => exact nomatch ((stage2 w).2 hres).symm.trans h
  case behind =>
    match h : decodeTV w with
    | .ok i => exact .inl ⟨i, rfl⟩
    | .error .reserved => exact .inr rfl
    | .error .opcode => exact absurd ((stage2 w).1 h) hres
    | .error .subOperation => exact absurd h hsub
  case trap =>
    intro s s' wid tix pix w t p word rest e he hpow hfro hag hiss hf hd hw ht hpix hp
    have hne : e ≠ .reserved := by rcases he with rfl | rfl <;> decide
    have hact := (nextAct_of_thread hpow hfro hag hiss).trans (issueThread_of_refused hf hd)
    rw [step_of_ended hact, refuseWord_eq word e hw ht hpix hp, if_neg hne]

end Sys2Proof.Machine
end
